-- ==== Sys2Proof/Word.lean ====
section
/-! DEFINITION. The word types of the T6420 (00_scope.md 1.7, 1.10). -/

namespace Sys2Proof

/-- A word: 32 bits at a word-aligned address (00_scope.md 1.10). -/
abbrev Word := BitVec 32

/-- One byte of memory. -/
abbrev Byte := BitVec 8

/-- A line bus master's number, 0 to 15 (00_scope.md 1.6). -/
abbrev Master := BitVec 4

end Sys2Proof
end

