-- ==== Sys2Proof/Config.lean ====
section
/-! DEFINITION. The recipe's fields (R128) and the free values of the model: what the spec leaves open
and nothing in Lean can evaluate. -/

namespace Sys2Proof

/-- A recipe context as fetched and validated (08_recipes_lots_and_orders.md R128). -/
structure Recipe where
  lot          : BitVec 16
  keepTrims    : Bool
  autoSuspend  : Bool
  target       : Int
  lowLimit     : Int
  highLimit    : Int
  outlierBand  : Nat
  tare         : Int
  gain         : Nat
  trimLimit    : Nat
  watchCount   : Nat
  suspendCount : Nat
  mask         : BitVec 11
  doseFloor    : Nat
  doseCeiling  : Nat
  nominals     : Option (List Word)
  deriving DecidableEq, Repr, Inhabited

/-- FREE VALUE (log 12): what is read as the fields of recipe slot `slot` when it holds no loaded
recipe. Only a record whose check failed can name such a slot (R7, R95); the spec states no value.
`draw` is the model's counter, so that no two readings need agree. -/
opaque Config.unloadedRecipe (draw slot : Nat) : Recipe

/-- FREE VALUE (log 13): R128 gives one test for the two dose limits; whether the dose floor's word is
the failing one when the floor is not below the ceiling (else the ceiling's word is). -/
opaque Config.doseFailsAtFloor (floor ceiling : Nat) : Bool

end Sys2Proof
end

