-- ==== Sys2Proof/Syntax.lean ====
section
/-! DEFINITION. The commands of the T6420: one constructor per row of spec/opcode_table.json.
A bus command carries the transaction of 00_scope.md 1.7 (master, place, words with byte enables or
length) and memory's answers to the downstream accesses made for it; the answer of a burst carries
whether memory answered it OKAY. -/

namespace Sys2Proof

/-- One written word with its four byte enables (00_scope.md 1.7). -/
structure WWord where
  data : Word
  be   : BitVec 4
  deriving DecidableEq, Repr

/-- Memory's answers to the downstream accesses of one upstream transaction, and how far it gets
before something else happens. DESIGN CHOICE (log 2), safe: every statement holds for all of them. -/
structure MemAns where
  /-- The access (counted from 0) that memory answers FAULT; `none`: every access is answered OKAY. -/
  faultAt : Option Nat
  /-- The transaction stands still, held, after this many accesses; `none`: it goes on to its answer. -/
  pauseAt : Option Nat
  deriving DecidableEq, Repr

/-- Where the held transaction's next downstream access stands when a line reset arrives (R57, R152, R164, log 36):
it has not been issued; it has been issued, and memory answers it after the reset; or memory has answered it, and the
block has acted on the answer, but the upstream response has not been given (log 50). -/
inductive UpAccess where
  | waiting
  | issued
  | answered
  deriving DecidableEq, Repr

/-- The commands: one constructor per row of the opcode table, in the table's order. -/
inductive Instr where
  | powerOnReset (cabase memsize : Nat) (portOk : Bool)
  | lineReset (up : UpAccess) (portOk : Bool)
  | lineResetRelease
  | fillEvent (m : Master) (word n : Nat) (a : MemAns)
  | inspectionRead (m : Master) (word n : Nat) (a : MemAns)
  | nominalWrite (m : Master) (word : Nat) (ws : List WWord) (a : MemAns)
  | addViewWrite (m : Master) (word : Nat) (ws : List WWord) (a : MemAns)
  | addViewRead (m : Master) (word n : Nat) (a : MemAns)
  | bcastMaskWrite (m : Master) (hi : Bool) (w : WWord) (a : MemAns)
  | bcastSet (m : Master) (w : WWord) (a : MemAns)
  | bcastAdd (m : Master) (w : WWord) (a : MemAns)
  | positionEvent (m : Master) (w : WWord) (a : MemAns)
  | sampleEvent (m : Master) (index : Nat) (ws : List WWord) (a : MemAns)
  | codeEvent (m : Master) (word : Nat) (ws : List WWord) (a : MemAns)
  | gatePoll (m : Master) (a : MemAns)
  | gateInspectionRead (m : Master) (a : MemAns)
  | armTest (m : Master) (v : Fin 64) (operand : BitVec 16) (be : BitVec 4) (a : MemAns)
  | disarmTest (m : Master) (v : Fin 64) (operand : BitVec 16) (be : BitVec 4) (a : MemAns)
  | suspend (m : Master) (v : Fin 64) (operand : BitVec 16) (be : BitVec 4) (a : MemAns)
  | resume (m : Master) (v : Fin 64) (operand : BitVec 16) (be : BitVec 4) (a : MemAns)
  | zeroTrim (m : Master) (v : Fin 64) (operand : BitVec 16) (be : BitVec 4) (a : MemAns)
  | setTrim (m : Master) (v : Fin 64) (operand : BitVec 16) (be : BitVec 4) (a : MemAns)
  | clearStats (m : Master) (v : Fin 64) (operand : BitVec 16) (be : BitVec 4) (a : MemAns)
  | valveViewRead (m : Master) (word n : Nat) (a : MemAns)
  | queryRefWrite (m : Master) (w : WWord) (a : MemAns)
  | queryCareWrite (m : Master) (w : WWord) (a : MemAns)
  | queryRead (m : Master) (hi : Bool) (n : Nat) (a : MemAns)
  | modeWrite (m : Master) (w : WWord) (a : MemAns)
  | ackWrite (m : Master) (w : WWord) (a : MemAns)
  | loadNow (m : Master) (be : BitVec 4) (a : MemAns)
  | loadAtStop (m : Master) (be : BitVec 4) (a : MemAns)
  | loadCompletion (ok : Bool)
  | orderAWrite (m : Master) (w : WWord) (a : MemAns)
  | orderAFetchDone (ok : Bool)
  | recipeLoadStart
  | recipeLoadDone (ok : Bool)
  | orderWordWriteDone (ok : Bool)
  | orderBWrite (m : Master) (w : WWord) (a : MemAns)
  | orderBFetchDone (ok : Bool)
  | setSpan
  | zeroCapture
  | clearTrack
  | valveGroup (upTo : Nat)
  | reportFlush
  | reportRestart
  | unknownOp
  | stallTimerExpiry
  | stopTimerExpiry
  | scaleSilenceExpiry
  | ageTimerExpiry
  | rereadTimerExpiry
  | resultWrite
  | resultWriteDone (ok : Bool)
  | closeWriteDone (ok : Bool)
  | descriptorOpen (ok : Bool)
  | nextFieldRead (ok : Bool)
  | statusBurstDone (ok : Bool)
  | arbiterGrant
  | plainWrite (m : Master) (addr : Word) (ws : List WWord) (a : MemAns)
  | pathRefusedRead (m : Master) (addr : Word) (n : Nat) (a : MemAns)
  deriving DecidableEq, Repr

end Sys2Proof
end

