-- ==== Sys2Proof/Machine/State.lean ====
section
/-! DEFINITION. The state of the T6420 as plain data, one structure per block (00_scope.md 1.3), and the
machine right after reset. `Dev` is the part; `State` adds the queue of commands, the controller
memory and what the two ports gave out, so that a block's operation, typed `Dev → Dev`, touches none of them. -/

namespace Sys2Proof.Machine

/-! ### Setup block -/

/-- The part state (R165); `loading` remembers whether the load began from READY (R166). -/
inductive PartState where
  | unplaced
  | unloaded
  | loading (fromReady : Bool)
  | ready
  deriving DecidableEq, Repr

/-- The fields of the setup block (R167, 12.6). -/
structure Setup where
  sequencer    : Nat
  scale        : Nat
  reader       : Nat
  motion       : Nat
  gate         : Nat
  valves       : Nat
  pitch        : Nat
  dRead        : Nat
  dGate        : Nat
  gOpen        : Nat
  gClose       : Nat
  wOpen        : Nat
  wClose       : Nat
  gapMin       : Nat
  weighMin     : Nat
  presence     : Nat
  maxGross     : Nat
  zeroBand     : Nat
  zeroShift    : Nat
  staleLimit   : Nat
  spanMul      : Nat
  spanShift    : Nat
  stallMs      : Nat
  stopMs       : Nat
  silentMs     : Nat
  readerSilent : Nat
  ageMs        : Nat
  enable       : BitVec 21
  lotCheck     : Bool
  bareMask     : BitVec 11
  firstDesc    : Nat
  deriving DecidableEq, Repr, Inhabited

/-- Load error codes (12.7). -/
inductive LoadCode where
  | none | range | order | readFault | notStopped
  deriving DecidableEq, Repr

/-- The load error: code and field number, 255 when none (12.7 word 9). -/
structure LoadError where
  code  : LoadCode
  field : Nat
  deriving DecidableEq, Repr

/-- The Setup block's state (R165 to R168). -/
structure SetupUnit where
  part      : PartState
  /-- The setup in effect; after a line reset, the retained setup (R153, log 30). -/
  setup     : Option Setup
  loadError : LoadError
  retained  : Bool
  deferred  : Bool
  /-- Words of the setup block read so far by the load in progress. -/
  loadWords : List Word
  enforce   : Bool
  trimApply : Bool
  deriving DecidableEq, Repr

/-! ### The can track -/

/-- A lot reference or entry reference: an order place and entry index, or detached (R2, R129). -/
inductive LotRef where
  | detached
  | entry (place : Fin 2) (idx : Nat)
  deriving DecidableEq, Repr

/-- A live can record (R2) with its slot number, whether its check code agrees with its fields (R4,
log 10) and its failed mark (R7). -/
structure CanRecord where
  slot    : Nat
  seq     : Word
  tag     : BitVec 12
  valve   : Fin 64
  recipe  : Fin 4
  lot     : LotRef
  dose    : Nat
  trim    : Int
  epoch   : BitVec 8
  test    : Bool
  suspect : Bool
  checkOk : Bool
  failed  : Bool
  deriving DecidableEq, Repr

/-- The track store (R1, R8, R10, R146): the numbers of the FREE slots, the FILLED records head first, and
the suspect count. The POCKETED records stand in the ring entries that hold them. -/
structure Track where
  free     : List Nat
  fill     : List CanRecord
  suspects : Nat
  deriving DecidableEq, Repr

/-! ### The pocket conveyor -/

inductive Occupancy where
  | none | can | unseen
  deriving DecidableEq, Repr

/-- A pocket's identity (R50, R79 to R85). -/
inductive Identity where
  | unchecked | confirmed | noRead | missed | conflict | lotMismatch | untracked
  deriving DecidableEq, Repr

/-- A weighing (R71); flags in the bit order of 12.8. -/
structure Weighing where
  gross : Int
  net   : Int
  flags : BitVec 6
  deriving DecidableEq, Repr

/-- A verdict with its reason set (R97), reasons in the bit order of 12.3. -/
structure Verdict where
  reject  : Bool
  reasons : BitVec 11
  deriving DecidableEq, Repr

/-- An entry of the pocket ring (R50). -/
structure Entry where
  pocket    : Word
  occ       : Occupancy
  weighing  : Option Weighing
  record    : Option CanRecord
  ident     : Identity
  codeLot   : Option (BitVec 16)
  codes     : Nat
  checkFail : Bool
  verdict   : Option Verdict
  /-- The gate answer handed over, `true` for REJECT. -/
  gate      : Option Bool
  repeats   : Nat
  deriving DecidableEq, Repr

/-- A started or cleared entry of pocket `p` (R51). -/
def Entry.fresh (p : Word) : Entry :=
  { pocket := p, occ := .none, weighing := none, record := none, ident := .unchecked,
    codeLot := none, codes := 0, checkFail := false, verdict := none, gate := none, repeats := 0 }

/-- A position held (R42): last position word, extended position, high-water mark. -/
structure Position where
  last : Word
  ext  : BitVec 48
  high : BitVec 48
  deriving DecidableEq, Repr

/-- A millisecond timer that may expire (R42, R62). -/
inductive Timer where
  | idle
  | running (ms : Nat)
  | expired
  deriving DecidableEq, Repr

/-- The Pocket counter (R42). -/
structure PocketUnit where
  pos      : Option Position
  running  : Bool
  reversal : Bool
  /-- Stall timer: idle, or elapsed ms. -/
  stall    : Option Nat
  stop     : Timer
  ring     : Vector Entry 64
  deriving DecidableEq, Repr

/-! ### Weighing -/

inductive WindowState where
  | notOpened | opened | closed
  deriving DecidableEq, Repr

/-- A window accumulator (R62, R64). -/
structure Accumulator where
  sum      : Int
  count    : Nat
  gap      : Bool
  overload : Bool
  deriving DecidableEq, Repr

def Accumulator.empty : Accumulator := { sum := 0, count := 0, gap := false, overload := false }

/-- A closed weighing (R67): presence unknown, or mean, gross, flags and presence. -/
inductive ClosedWeighing where
  | unknown
  | weighed (mean gross : Int) (flags : BitVec 6) (present : Bool)
  deriving DecidableEq, Repr

/-- The Weigh unit (R62). -/
structure WeighUnit where
  /-- Expected ring index; `none` is free. -/
  expected : Option Nat
  gapWin   : WindowState
  weighWin : WindowState
  gapAcc   : Accumulator
  weighAcc : Accumulator
  closed   : Option ClosedWeighing
  zero     : Int
  zeroAge  : Nat
  stale    : Bool
  capture  : Bool
  spanMul  : Nat
  spanShift : Nat
  silence  : Timer
  deriving DecidableEq, Repr

/-! ### Codes -/

/-- The Code unit (R77). -/
structure CodeUnit where
  expected  : Nat
  last      : Option Word
  missRun   : Nat
  phantom   : BitVec 16
  duplicate : BitVec 16
  forward   : BitVec 16
  backward  : BitVec 16
  deriving DecidableEq, Repr

/-! ### Valves -/

inductive ValveState where
  | inService | watch | suspended
  deriving DecidableEq, Repr

inductive SuspendCause where
  | software | auto
  deriving DecidableEq, Repr

/-- A valve record (R109). -/
structure ValveRec where
  st          : ValveState
  cause       : Option SuspendCause
  trim        : Int
  epoch       : BitVec 8
  arm         : Bool
  outlier     : Nat
  good        : Nat
  atLimit     : Nat
  fills       : Word
  confirmed   : Word
  rejects     : Word
  lastNet     : Option Int
  /-- Last verdict, `true` for REJECT. -/
  lastVerdict : Option Bool
  lastSeq     : Option Word
  /-- Deviations, oldest first. -/
  recent      : List Int
  deriving DecidableEq, Repr

/-- A valve record at power-on reset (R109). -/
def ValveRec.reset : ValveRec :=
  { st := .inService, cause := none, trim := 0, epoch := 0, arm := false, outlier := 0, good := 0,
    atLimit := 0, fills := 0, confirmed := 0, rejects := 0, lastNet := none, lastVerdict := none,
    lastSeq := none, recent := [] }

/-- The valve table (R109, R125). -/
structure ValveUnit where
  recs      : Vector ValveRec 64
  queryRef  : BitVec 16
  queryCare : BitVec 16
  deriving DecidableEq, Repr

/-! ### Recipes and orders -/

inductive SlotState where
  | free | loading | pending | current | draining
  deriving DecidableEq, Repr

/-- A recipe slot (R129). -/
structure RecipeSlot where
  st      : SlotState
  recipe  : Option Recipe
  ref     : LotRef
  members : List Nat
  deriving DecidableEq, Repr

def RecipeSlot.empty : RecipeSlot := { st := .free, recipe := none, ref := .detached, members := [] }

/-- Changeover entry statuses (12.5). -/
inductive EntryStatus where
  | waiting | loading | started | filled | closed | cancelled | error
  deriving DecidableEq, Repr

/-- A changeover order's entry (8.4). -/
structure LotEntry where
  context  : Word
  canCount : Nat
  status   : EntryStatus
  made     : Nat
  deriving DecidableEq, Repr

/-- Order error codes (12.5). -/
inductive OrderCode where
  | busy | badHeader | badAddress | fetchFault | badLength | recipeField | badOperand | notStopped
  | unknownOp
  deriving DecidableEq, Repr

/-- A changeover order held in a place (8.4, R133). -/
structure LotOrder where
  addr    : Nat
  notify  : Bool
  entries : List LotEntry
  closed  : Nat
  error   : Option OrderCode
  deriving DecidableEq, Repr

/-- The current entry (R134); can count 0 is open-ended. -/
structure CurrentEntry where
  ref      : LotRef
  canCount : Nat
  made     : Nat
  stalled  : Bool
  deriving DecidableEq, Repr

/-- An order fetch in progress: header address and the words read so far (R132, R139). -/
structure Fetch where
  addr : Nat
  got  : List Word
  deriving DecidableEq, Repr

/-- A recipe load in progress (R131). -/
structure Loader where
  slot  : Fin 4
  place : Fin 2
  idx   : Nat
  addr  : Nat
  got   : List Word
  deriving DecidableEq, Repr

/-- A service order's entry: operation word and operands (8.7). -/
structure ServiceEntry where
  op   : Word
  op1  : Word
  op2  : Word
  deriving DecidableEq, Repr

/-- The running service order (R139): the entry reached, the entries closed, and the next valve of a
VALVE_GROUP that was interrupted (R140, log 26). -/
structure ServiceOrder where
  addr      : Nat
  notify    : Bool
  entries   : List ServiceEntry
  idx       : Nat
  closed    : Nat
  nextValve : Nat
  deriving DecidableEq, Repr

/-- The recipe table and the order unit (R129, R134, R143). -/
structure OrderUnit where
  slots    : Vector RecipeSlot 4
  places   : Vector (Option LotOrder) 2
  running  : Option (Fin 2)
  draining : Option (Fin 2)
  cur      : Option CurrentEntry
  fetchA   : Option Fetch
  fetchB   : Option Fetch
  loader   : Option Loader
  /-- Order words to be written, oldest first: address and value; the head's burst is placed. -/
  writes   : List (Nat × Word)
  service  : Option ServiceOrder
  deriving DecidableEq, Repr

/-! ### Reports -/

/-- A result's identity (12.8). -/
inductive ResultIdent where
  | pocket (i : Identity)
  | lost
  | discarded
  deriving DecidableEq, Repr

/-- The fields a result takes from a record, absent together (12.8). -/
structure ResultRecord where
  tag    : BitVec 12
  valve  : Fin 64
  recipe : Fin 4
  dose   : Nat
  trim   : Int
  deriving DecidableEq, Repr

/-- A result's gate state (R107): UNGATED, or GATED with the answer and the repeat poll count. -/
inductive GateState where
  | ungated
  | gated (reject : Bool) (repeats : Nat)
  deriving DecidableEq, Repr

/-- A composed result (R19, R107). -/
structure Result where
  seq      : Word
  record   : Option ResultRecord
  ident    : ResultIdent
  pocket   : Option Word
  lot      : Option (BitVec 16)
  reasons  : BitVec 11
  verdict  : Option Bool
  gate     : Option GateState
  weighing : Option Weighing
  deriving DecidableEq, Repr

/-- What reporting waits on (R172). -/
inductive WaitOn where
  | nothing
  | descriptor (d : Nat)
  | nextField (d : Nat)
  deriving DecidableEq, Repr

/-- The buffer owned while RUNNING (R172): its descriptor, the fields read from it, the count of
results written, and the age timer. -/
structure Buffer where
  desc  : Nat
  addr  : Nat
  len   : Nat
  next  : Nat
  count : Nat
  age   : Option Nat
  deriving DecidableEq, Repr

/-- The reporting state (R172). -/
inductive Reporting where
  | waiting (w : WaitOn)
  | running (b : Buffer)
  | faulted
  deriving DecidableEq, Repr

/-- What follows a close: the next field (R173), or a restart's descriptor (R174). -/
inductive AfterClose where
  | follow
  | restart (d : Nat)
  deriving DecidableEq, Repr

/-- The Report unit's burst under way on the result chain. -/
inductive ReportAct where
  | opening (d : Nat)
  | reading (d : Nat)
  | writing
  /-- A result write on the port that the age timer's expiry came before: the buffer closes without it
  (R173, log 25). -/
  | lapsing
  | closing (d : Nat) (after : AfterClose)
  deriving DecidableEq, Repr

/-- The status block write in progress (R170). -/
inductive StatusWrite where
  | idle
  | first (rest : List Word)
  | second
  deriving DecidableEq, Repr

/-- The Report unit (R169 to R174). -/
structure ReportUnit where
  pending   : BitVec 21
  /-- A status write has been requested and is not yet formed (log 14, log 15). -/
  request   : Bool
  again     : Bool
  status    : StatusWrite
  queue     : List Result
  dropped   : Word
  errAddr   : Word
  reporting : Reporting
  act       : Option ReportAct
  /-- Re-read timer: idle, or elapsed ms. -/
  reread    : Option Nat
  deriving DecidableEq, Repr

/-! ### Fills -/

/-- The Fill unit (R3, R30). -/
structure FillUnit where
  seq       : Word
  untracked : Word
  switchDue : Bool
  mask      : BitVec 64
  deriving DecidableEq, Repr

/-! ### The memory path -/

/-- A line bus transaction (00_scope.md 1.7). -/
inductive Txn where
  | read (m : Master) (addr n : Nat)
  | write (m : Master) (addr : Nat) (ws : List WWord)
  deriving DecidableEq, Repr

/-- One piece of the work a held transaction still has to do: at most one downstream access and what
follows from its answer. -/
inductive Micro where
  /-- The forwarded read of a plain or add view read (R159, R37). -/
  | read (addr n : Nat)
  /-- The forwarded write of a plain or stored write (R159). -/
  | store (addr : Nat) (ws : List WWord)
  /-- Nominal words written from valve `v` on (R36, R39). -/
  | nomPut (v : Nat) (vals : List Word)
  /-- The read of a partially written nominal word (R36). -/
  | nomMerge (v : Nat) (w : WWord)
  /-- The read of an add (R37). -/
  | nomAdd (v : Nat) (delta : Word)
  /-- A word of a fill read (R23): its nominal's fetch (R24), or the switch if it is the switching fill (R32). -/
  | fill (v : Nat)
  /-- The k-th burst of the switch's nominal list (R33 step 1). -/
  | switchPut (k : Nat)
  /-- Steps 2 to 5 of the switch (R33). -/
  | switchCommit
  /-- The switching fill's nominal fetch, after its switch (R24, R32). -/
  | fillFetch (v : Nat)
  /-- The fills of the read take effect (R23). -/
  | fillEnd
  /-- A word of an inspection read (R31). -/
  | inspect (v : Nat)
  /-- Code ring slot `j` is reached; `known` are the words the write carried whole (R75, R76). -/
  | codeSlot (j : Nat) (known : List (Nat × Word))
  /-- The read of word `k` of code ring slot `j` (R75). -/
  | codeWord (j k : Nat)
  /-- Code ring slot `j` is taken with its words known (R75). -/
  | codeTake (j : Nat) (known : List (Nat × Word))
  | gatePoll
  | gateInspect
  /-- The fetch of valve `v`'s nominal for the valve view (R123). -/
  | viewFetch (v : Nat)
  | viewEnd (word n : Nat)
  /-- The fetch of `n` nominals for the query (R126). -/
  | queryFetch (v n : Nat)
  | queryEnd (hi : Bool) (n : Nat)
  deriving DecidableEq, Repr

/-- A fill formed and not yet in effect (R23, R28, R29): `tracked = none` is an untracked fill of R29. -/
structure FormedFill where
  valve   : Fin 64
  dose    : Nat
  trim    : Int
  epoch   : BitVec 8
  test    : Bool
  recipe  : Fin 4
  lot     : LotRef
  tracked : Bool
  deriving DecidableEq, Repr

/-- What a held transaction has gathered: answer words, fetched nominals, fetched code words, and the
fills of the read with the counts and indications they will bring (R23). -/
structure Ctx where
  ans     : List Word
  noms    : List (Nat × Word)
  code    : List (Nat × Word)
  formed  : List FormedFill
  /-- The number the next tracked fill of the read will receive. -/
  seq     : Word
  /-- Tracked fills formed since the read began. -/
  tracked : Nat
  /-- Tracked fills formed since the read's last switch. -/
  made    : Nat
  /-- A stalled indication found since the read's last switch (R135). -/
  stalled : Bool
  /-- CHANGEOVER_STALLED is to be raised when the fills take effect (R23, R135). -/
  raise   : Bool
  deriving DecidableEq, Repr

def Ctx.init (seq : Word) : Ctx :=
  { ans := [], noms := [], code := [], formed := [], seq := seq, tracked := 0, made := 0,
    stalled := false, raise := false }

/-- A transaction presented on the line bus (R156): `work = none` until it is served. -/
structure Held where
  txn     : Txn
  faultAt : Option Nat
  work    : Option (List Micro)
  ctx     : Ctx
  deriving DecidableEq, Repr

/-- The response of the upstream port (R156). -/
inductive Answer where
  | okay (words : List Word)
  | fault
  deriving DecidableEq, Repr

/-- A downstream access (R160). -/
inductive Access where
  | read (addr n : Nat)
  | write (addr : Nat) (ws : List WWord)
  deriving DecidableEq, Repr

/-- Whose number an access carries on the downstream port: the upstream master's, or the part's own mark
(R159, 10.8). -/
inductive Owner where
  | upstream (m : Master)
  | part
  deriving DecidableEq, Repr

/-- An access issued on the downstream port (R159, R160). -/
structure OwnedAccess where
  owner  : Owner
  access : Access
  deriving DecidableEq, Repr

/-- The operations of the internal master (R162). -/
inductive InternalOp where
  | setup | fetchA | fetchB | recipe | orderWord | status | report
  deriving DecidableEq, Repr

/-- An internal burst (R161): `n` words read, or the words written. -/
inductive BurstKind where
  | read (n : Nat)
  | write (ws : List Word)
  deriving DecidableEq, Repr

structure Burst where
  op   : InternalOp
  addr : Nat
  kind : BurstKind
  deriving DecidableEq, Repr

/-- The internal burst on the downstream port; `stopped` when its data will be dropped (R131, log 35). -/
structure Issued where
  burst   : Burst
  stopped : Bool
  deriving DecidableEq, Repr

/-- The valve view latch's copy (R124). -/
structure Latch where
  master : Master
  valve  : Fin 64
  words  : List Word
  deriving DecidableEq, Repr

/-- The Path unit (R164). -/
structure PathUnit where
  cabase    : Nat
  memsize   : Nat
  /-- Transactions presented: the first is the one the port holds (R156). -/
  upstream  : List Held
  waitCount : Nat
  bursts    : List Burst
  port      : Option Issued
  faults    : Word
  latch     : Option Latch
  lrst      : Bool
  deriving DecidableEq, Repr

/-! ### The whole -/

/-- The part: every block's state. `draws` is the model's own counter of free values (log 12). -/
structure Dev where
  path   : PathUnit
  setup  : SetupUnit
  report : ReportUnit
  fill   : FillUnit
  track  : Track
  pocket : PocketUnit
  weigh  : WeighUnit
  code   : CodeUnit
  valve  : ValveUnit
  order  : OrderUnit
  draws  : Nat
  deriving DecidableEq, Repr

/-- The machine: the commands waiting, the controller memory, what the two ports last gave out (log 34), and
the part. -/
structure State where
  pending    : List Instr
  mem        : List Host.Cell
  /-- The responses the upstream port gave in the last command that served it, oldest first (R156). -/
  answers    : List Answer
  /-- The accesses issued on the downstream port in the last command that served the upstream port, issued
  an internal burst or was a reset, oldest first (R159, R160). -/
  downstream : List OwnedAccess
  dev        : Dev
  deriving DecidableEq, Repr

/-- What stops the machine. No command of the T6420 does: what the spec calls FAULT is an answer on
the upstream port (R156, R157) or of a burst (R163), and the machine goes on. -/
inductive Fault where
  /-- Raised by no command; kept so that the type is inhabited. Safe. -/
  | unused
  deriving DecidableEq, Repr

/-- What the model gives no meaning. -/
inductive Refusal where
  /-- Raised by exec for a command not yet given a meaning; none is left. Safe: nothing is claimed. -/
  | notModelled (mnemonic : String)
  /-- Raised by every bus command and by POWER_ON_RESET whose operands no transaction and no strap
  lines can have (00_scope.md 1.7, 1.8; log 29). Safe: the machine stops where the spec gives no such
  command. -/
  | malformed
  deriving DecidableEq, Repr

/-! ### Reset -/

/-- The memory size in bytes for MEMSIZE strap value `m` (R158): 2^m MB. -/
def memoryBytes (m : Nat) : Nat := 2 ^ 20 * 2 ^ m

/-- The control area's base for CABASE strap value `n` (R158): n MB. -/
def areaBase (n : Nat) : Nat := 2 ^ 20 * n

/-- Whether the straps place the control area (R158): its base lies below the memory size. -/
def placed (cabase memsize : Nat) : Bool := decide (areaBase cabase < memoryBytes memsize)

/-- The first half of the status block formed at power-on reset (R170, 12.7): every field is 0 but the
next fill sequence number 1 (word 3) and the free record count 512 (word 5). -/
def resetStatusFirst : List Word := [0, 0, 0, 1, 0, 0x02000000, 0, 0]

/-- The second half: load error none with field number 255 (word 9). -/
def resetStatusSecond : List Word := [0, 0xFF00, 0, 0, 0, 0, 0, 0]

/-- The part at power-on reset with the given straps (R158 and each block's power-on column). The
status write that R170 requests has its first burst in the internal master's list; in UNPLACED, and
while LRST is asserted, no burst is placed (R162). -/
def Dev.powerOn (cabase memsize : Nat) (lrst : Bool) (upstream : List Held) : Dev :=
  let ok := placed cabase memsize
  let go := ok && !lrst
  { path :=
      { cabase := cabase, memsize := memsize, upstream := upstream, waitCount := 0,
        bursts :=
          if go then
            [{ op := .status, addr := areaBase cabase + 0x200, kind := .write resetStatusFirst }]
          else [],
        port := none, faults := 0, latch := none, lrst := lrst }
    setup :=
      { part := if ok then .unloaded else .unplaced, setup := none,
        loadError := { code := .none, field := 255 }, retained := false, deferred := false,
        loadWords := [], enforce := false, trimApply := false }
    report :=
      { pending := 0, request := ok && lrst, again := false,
        status := if go then .first resetStatusSecond else .idle,
        queue := [], dropped := 0, errAddr := 0, reporting := .waiting .nothing, act := none,
        reread := none }
    fill := { seq := 1, untracked := 0, switchDue := false, mask := 0 }
    track := { free := List.range 512, fill := [], suspects := 0 }
    pocket :=
      { pos := none, running := false, reversal := false, stall := none, stop := .idle,
        ring := Vector.replicate 64 (Entry.fresh 0) }
    weigh :=
      { expected := none, gapWin := .notOpened, weighWin := .notOpened, gapAcc := .empty,
        weighAcc := .empty, closed := none, zero := 0, zeroAge := 0, stale := false, capture := true,
        spanMul := 1, spanShift := 0, silence := .idle }
    code :=
      { expected := 0, last := none, missRun := 0, phantom := 0, duplicate := 0, forward := 0,
        backward := 0 }
    valve := { recs := Vector.replicate 64 ValveRec.reset, queryRef := 0, queryCare := 0 }
    order :=
      { slots := Vector.replicate 4 RecipeSlot.empty, places := Vector.replicate 2 none,
        running := none, draining := none, cur := none, fetchA := none, fetchB := none,
        loader := none, writes := [], service := none }
    draws := 0 }

/-- The machine right after power-on reset, LRST not asserted, straps CABASE 0 and MEMSIZE 0 (DESIGN
CHOICE, log 9), memory with nothing listed, no command waiting (log 34). -/
def State.reset : State :=
  { pending := [], mem := [], answers := [], downstream := [], dev := Dev.powerOn 0 0 false [] }

end Sys2Proof.Machine
end

