-- ==== Sys2Proof/Machine/Operands.lean ====
section
/-! DEFINITION. Bit fields, exact arithmetic and the layouts of the words the part reads and writes
(12_record_formats.md, 00_scope.md 1.10). -/

namespace Sys2Proof.Machine

/-- Bits `lo` to `lo + len - 1` of a word as an unsigned number (12: "a field given as a range of bits"). -/
def bits (w : Word) (lo len : Nat) : Nat := w.toNat / 2 ^ lo % 2 ^ len

/-- One bit of a word. -/
def bit (w : Word) (i : Nat) : Bool := bits w i 1 == 1

/-- The contribution of a field's value to the word that holds it. -/
def put (v lo len : Nat) : Nat := 2 ^ lo * (v % 2 ^ len)

/-- The contribution of a one-bit indication. -/
def putBit (b : Bool) (lo : Nat) : Nat := if b then 2 ^ lo else 0

/-- A signed number as the two's complement word that carries it. -/
def ofInt (x : Int) : Word := BitVec.ofInt 32 x

/-- Replace by the nearer end when outside `[a, b]` (00_scope.md 1.10, clamp). -/
def clampInt (a b x : Int) : Int := if x < a then a else if b < x then b else x

/-- Clamp of an unsigned number. -/
def clampNat (a b x : Nat) : Nat := if x < a then a else if b < x then b else x

/-- Clamp to the signed 32-bit range (R67, R70, R112). -/
def clamp32 (x : Int) : Int := clampInt (-2147483648) 2147483647 x

/-- Division truncating toward zero (00_scope.md 1.10). -/
def divTrunc (a b : Int) : Int := Int.tdiv a b

/-- Arithmetic shift right: division by 2^s rounding toward minus infinity (00_scope.md 1.10). -/
def shiftRightInt (x : Int) (s : Nat) : Int := Int.fdiv x (2 ^ s)

/-- Saturating increment. -/
def satSucc (limit n : Nat) : Nat := if n < limit then n + 1 else limit

/-! ### Byte enables -/

/-- All four byte enables (R41 and others). -/
def isFull (w : WWord) : Bool := w.be == 15#4

/-- Byte `i` of a word, least significant first (DESIGN CHOICE, log 7). -/
def byteOf (w : Word) (i : Nat) : Byte := BitVec.ofNat 8 (w.toNat / 2 ^ (8 * i))

/-- The word of four bytes, least significant first. -/
def wordOfBytes (b0 b1 b2 b3 : Byte) : Word :=
  BitVec.ofNat 32 (b0.toNat + 2 ^ 8 * b1.toNat + 2 ^ 16 * b2.toNat + 2 ^ 24 * b3.toNat)

/-- The enabled bytes of `new` in place of those of `old` (R36). -/
def mergeBytes (old new : Word) (be : BitVec 4) : Word :=
  let pick (i : Nat) : Byte := if be.getLsbD i then byteOf new i else byteOf old i
  wordOfBytes (pick 0) (pick 1) (pick 2) (pick 3)

/-- The word as it arrived, each byte not enabled taken as 0 (R60). -/
def maskedWord (w : WWord) : Word := mergeBytes 0 w.data w.be

/-- A word of a burst or of the part's own write, with all its bytes. -/
def fullWord (w : Word) : WWord := { data := w, be := 15#4 }

/-! ### Words of the line bus partners (12.2) -/

/-- Issued dose word: dose in bits 0-19, tag in bits 20-31. -/
def doseWord (dose : Nat) (tag : BitVec 12) : Word :=
  BitVec.ofNat 32 (put dose 0 20 + put tag.toNat 20 12)

/-- Gate answer word: answer bit 0, no-can bit 1, low 8 bits of the pocket number, tag. -/
def gateWord (reject noCan : Bool) (pocket : Word) (tag : BitVec 12) : Word :=
  BitVec.ofNat 32 (putBit reject 0 + putBit noCan 1 + put pocket.toNat 8 8 + put tag.toNat 16 12)

/-- A sample's raw count: bits 0-23, signed (R60). -/
def rawCount (w : Word) : Int := (BitVec.ofNat 24 (bits w 0 24)).toInt

/-- A sample's overload flag: bit 24. -/
def overloadFlag (w : Word) : Bool := bit w 24

/-- A tag from its number (R3). -/
def tagOf (seq : Word) : BitVec 12 := BitVec.ofNat 12 ((seq.toNat - 1) % 4095 + 1)

/-- The number after `seq`: from 2^32-1 to 1 (R3). -/
def nextSeq (seq : Word) : Word := if seq = 0xFFFFFFFF#32 then 1#32 else seq + 1#32

/-! ### Recipe contexts (12.5) -/

/-- Word `i` of the words read, 0 beyond them. -/
def wordAt (ws : List Word) (i : Nat) : Word := ws.getD i 0#32

/-- The recipe that a validated context's words carry (12.5). -/
def recipeOfWords (ws : List Word) : Recipe :=
  { lot := BitVec.ofNat 16 (bits (wordAt ws 1) 0 16)
    keepTrims := bit (wordAt ws 0) 9
    autoSuspend := bit (wordAt ws 0) 10
    target := (wordAt ws 2).toInt
    lowLimit := (wordAt ws 3).toInt
    highLimit := (wordAt ws 4).toInt
    outlierBand := (wordAt ws 5).toNat
    tare := (wordAt ws 6).toInt
    gain := (wordAt ws 7).toNat
    trimLimit := (wordAt ws 8).toNat
    watchCount := bits (wordAt ws 9) 0 8
    suspendCount := bits (wordAt ws 9) 8 8
    mask := BitVec.ofNat 11 (wordAt ws 10).toNat
    doseFloor := (wordAt ws 11).toNat
    doseCeiling := (wordAt ws 12).toNat
    nominals := if bit (wordAt ws 0) 8 then some ((ws.drop 13).take 64) else none }

/-- The first failing field of a context as the error and the number of its word (R128); `none` when
every test passes. The word of a failed dose test is a free value (log 13). -/
def recipeCheck (ws : List Word) : Option (OrderCode × Nat) :=
  let len := bits (wordAt ws 0) 0 8
  let list := bit (wordAt ws 0) 8
  let r := recipeOfWords ws
  if ¬((len = 13 ∧ list = false) ∨ (len = 77 ∧ list = true)) then some (.badLength, 0)
  else if ¬(r.lowLimit < r.target ∧ r.target < r.highLimit) then some (.recipeField, 2)
  else if 2147483647 < r.outlierBand then some (.recipeField, 5)
  else if 16 < r.gain then some (.recipeField, 7)
  else if 65535 < r.trimLimit then some (.recipeField, 8)
  else if ¬(1 ≤ r.watchCount ∧ r.watchCount ≤ 15) then some (.recipeField, 9)
  else if ¬(1 ≤ r.suspendCount ∧ r.suspendCount ≤ 15) then some (.recipeField, 9)
  else if ¬(r.doseFloor < r.doseCeiling) then
    some (.recipeField, if Config.doseFailsAtFloor r.doseFloor r.doseCeiling then 11 else 12)
  else if 1048575 < r.doseCeiling then some (.recipeField, 12)
  else none

/-! ### The setup block (12.6) -/

/-- The setup that the words of the setup block carry (12.6, R167). -/
def setupOfWords (ws : List Word) : Setup :=
  let n (i : Nat) : Nat := (wordAt ws i).toNat
  { sequencer := n 0, scale := n 1, reader := n 2, motion := n 3, gate := n 4, valves := n 5,
    pitch := n 6, dRead := n 7, dGate := n 8, gOpen := n 9, gClose := n 10, wOpen := n 11,
    wClose := n 12, gapMin := n 13, weighMin := n 14, presence := n 15, maxGross := n 16,
    zeroBand := n 17, zeroShift := n 18, staleLimit := n 19, spanMul := n 20, spanShift := n 21,
    stallMs := n 22, stopMs := n 23, silentMs := n 24, readerSilent := n 25, ageMs := n 26,
    enable := BitVec.ofNat 21 (n 27), lotCheck := bit (wordAt ws 28) 0,
    bareMask := BitVec.ofNat 11 (n 29), firstDesc := n 30 }

/-- One field's test: its own range, then its relation to earlier fields (R167). -/
structure FieldTest where
  field : Nat
  range : Bool
  order : Bool

/-- `a ≤ x ≤ b` as a Bool. -/
def inRange (a b x : Nat) : Bool := decide (a ≤ x) && decide (x ≤ b)

/-- The tests of R167 in the order of the setup block. `size` is the memory size in bytes. -/
def setupTests (size : Nat) (u : Setup) : List FieldTest :=
  [ ⟨0, inRange 0 15 u.sequencer, true⟩, ⟨1, inRange 0 15 u.scale, true⟩,
    ⟨2, inRange 0 15 u.reader, true⟩, ⟨3, inRange 0 15 u.motion, true⟩,
    ⟨4, inRange 0 15 u.gate, true⟩, ⟨5, inRange 1 64 u.valves, true⟩,
    ⟨6, inRange 16 4096 u.pitch, true⟩, ⟨7, inRange 1 31 u.dRead, true⟩,
    ⟨8, inRange 2 63 u.dGate, decide (u.dRead < u.dGate)⟩,
    ⟨9, inRange 0 4096 u.gOpen, true⟩, ⟨10, inRange 0 4096 u.gClose, true⟩,
    ⟨11, inRange 0 4096 u.wOpen, true⟩,
    ⟨12, inRange 0 4096 u.wClose,
      decide (u.gOpen < u.gClose ∧ u.gClose ≤ u.wOpen ∧ u.wOpen < u.wClose ∧ u.wClose ≤ u.pitch)⟩ ] ++
  [ ⟨13, inRange 1 255 u.gapMin, true⟩, ⟨14, inRange 1 255 u.weighMin, true⟩,
    ⟨15, inRange 1 1000000 u.presence, true⟩,
    ⟨16, inRange 2 2147483647 u.maxGross, decide (u.presence < u.maxGross)⟩,
    ⟨17, inRange 0 8388607 u.zeroBand, true⟩, ⟨18, inRange 0 8 u.zeroShift, true⟩,
    ⟨19, inRange 1 1000 u.staleLimit, true⟩, ⟨20, inRange 1 65535 u.spanMul, true⟩,
    ⟨21, inRange 0 31 u.spanShift, true⟩, ⟨22, inRange 10 10000 u.stallMs, true⟩,
    ⟨23, inRange 1000 600000 u.stopMs, true⟩, ⟨24, inRange 1 1000 u.silentMs, true⟩,
    ⟨25, inRange 1 63 u.readerSilent, true⟩, ⟨26, inRange 1 10000 u.ageMs, true⟩,
    ⟨30, decide (u.firstDesc % 4 = 0) && decide (u.firstDesc < size), true⟩ ]

/-- The first failing test as a load error (R167). -/
def firstFailure : List FieldTest → Option LoadError
  | [] => none
  | t :: ts =>
    if t.range = false then some { code := .range, field := t.field }
    else if t.order = false then some { code := .order, field := t.field }
    else firstFailure ts

/-- Validation of a setup (R167). -/
def setupCheck (size : Nat) (u : Setup) : Option LoadError := firstFailure (setupTests size u)

/-- Whether two setups have the same geometry: pitch length, D_read, D_gate and the window phases
(R56, R153). -/
def sameGeometry (a b : Setup) : Bool :=
  a.pitch == b.pitch && a.dRead == b.dRead && a.dGate == b.dGate && a.gOpen == b.gOpen &&
    a.gClose == b.gClose && a.wOpen == b.wOpen && a.wClose == b.wClose

/-! ### Orders (12.5) -/

def EntryStatus.code : EntryStatus → Nat
  | .waiting => 1 | .loading => 2 | .started => 3 | .filled => 4 | .closed => 5 | .cancelled => 6
  | .error => 7

def OrderCode.code : OrderCode → Nat
  | .busy => 1 | .badHeader => 2 | .badAddress => 3 | .fetchFault => 4 | .badLength => 5
  | .recipeField => 6 | .badOperand => 7 | .notStopped => 8 | .unknownOp => 9

/-- An order's status word: DONE, ERROR with its code, entries closed (12.5). -/
def orderStatusWord (done : Bool) (error : Option OrderCode) (closed : Nat) : Word :=
  BitVec.ofNat 32 (putBit done 0 + putBit error.isSome 1 +
    (match error with | none => 0 | some c => put c.code 8 8) + put closed 16 4)

/-- An order's header word: entry count, notify flag, replace flag (12.5). -/
def headerCount (w : Word) : Nat := bits w 0 4
def headerNotify (w : Word) : Bool := bit w 8
def headerReplace (w : Word) : Bool := bit w 9

/-! ### Results and descriptors (12.8) -/

def Identity.code : Identity → Nat
  | .unchecked => 0 | .confirmed => 1 | .noRead => 2 | .missed => 3 | .conflict => 4
  | .lotMismatch => 5 | .untracked => 6

def ResultIdent.code : ResultIdent → Nat
  | .pocket i => i.code | .lost => 7 | .discarded => 8

/-- The code of a PASS or REJECT verdict, 0 when absent. -/
def verdictCode : Option Bool → Nat
  | none => 0 | some false => 1 | some true => 2

/-- The eight words of a result (12.8); absent fields are 0 (R175). -/
def Result.words (r : Result) : List Word :=
  let gate : Nat := match r.gate with
    | none => 0
    | some .ungated => put 1 25 2
    | some (.gated reject n) => put 2 25 2 + putBit reject 27 + put n 28 4
  let rec1 : Nat := match r.record with
    | none => 0
    | some f => put f.tag.toNat 0 12 + put f.valve.val 12 6 + put f.recipe.val 18 2 + putBit true 24
  [ r.seq,
    BitVec.ofNat 32 (rec1 + put r.ident.code 20 4 + gate),
    r.pocket.getD 0,
    BitVec.ofNat 32 ((r.lot.getD 0).toNat + put r.reasons.toNat 16 11 + put (verdictCode r.verdict) 27 2 +
      putBit r.lot.isSome 29 + putBit r.pocket.isSome 30 + putBit r.weighing.isSome 31),
    match r.weighing with | none => 0 | some w => ofInt w.gross,
    match r.weighing with | none => 0 | some w => ofInt w.net,
    BitVec.ofNat 32 ((match r.record with | none => 0 | some f => put f.dose 0 20) +
      (match r.weighing with | none => 0 | some w => put w.flags.toNat 20 6)),
    match r.record with | none => 0 | some f => ofInt f.trim ]

/-- Close reasons (12.8). -/
inductive CloseReason where
  | full | flush | age
  deriving DecidableEq, Repr

def CloseReason.code : CloseReason → Nat
  | .full => 1 | .flush => 2 | .age => 3

/-- The control word of a closed descriptor: owner HOST, reason, count (12.8). -/
def closeWord (reason : CloseReason) (count : Nat) : Word :=
  BitVec.ofNat 32 (put reason.code 4 2 + put count 16 12)

end Sys2Proof.Machine
end

