-- ==== Sys2Proof/Machine/Flags.lean ====
section
/-! DEFINITION. Sets of named bits: attention causes (R169), reasons (R96), weigh flags (R71), the enable
set and ATTN (R169), and a valve's condition word (R122). -/

namespace Sys2Proof.Machine

/-- The 21 attention causes in the order of R169, LOAD_DONE at bit 0. -/
inductive Cause where
  | loadDone | loadError
  | orderADone | orderBDone | orderError | changeoverStalled | lotSwitch
  | trackFull | resultsDropped | reportFault | rejectMissed
  | valveWatch | valveSuspended
  | lineStopped | trackSuspect | positionFault | scaleFault | readerFault | slip | trackCheck | pathFault
  deriving DecidableEq, Repr

def Cause.bit : Cause → Nat
  | .loadDone => 0 | .loadError => 1
  | .orderADone => 2 | .orderBDone => 3 | .orderError => 4 | .changeoverStalled => 5 | .lotSwitch => 6
  | .trackFull => 7 | .resultsDropped => 8 | .reportFault => 9 | .rejectMissed => 10
  | .valveWatch => 11 | .valveSuspended => 12
  | .lineStopped => 13 | .trackSuspect => 14 | .positionFault => 15 | .scaleFault => 16
  | .readerFault => 17 | .slip => 18 | .trackCheck => 19 | .pathFault => 20

/-- The set holding one cause. -/
def Cause.mask (c : Cause) : BitVec 21 := BitVec.ofNat 21 (2 ^ c.bit)

/-- The reasons of a verdict (R96) and their bits (12.3). -/
inductive Reason where
  | under | over | weighFault | noRead | missedRead | idConflict | lotMismatch | untracked | suspect
  | test | trackCheck
  deriving DecidableEq, Repr

def Reason.bit : Reason → Nat
  | .under => 0 | .over => 1 | .weighFault => 2 | .noRead => 3 | .missedRead => 4 | .idConflict => 5
  | .lotMismatch => 6 | .untracked => 7 | .suspect => 8 | .test => 9 | .trackCheck => 10

def Reason.mask (r : Reason) : BitVec 11 := BitVec.ofNat 11 (2 ^ r.bit)

/-- Membership of a reason in a reason set or a reject mask. -/
def hasReason (s : BitVec 11) (r : Reason) : Bool := s.getLsbD r.bit

/-- The set holding `r` when `b`, else the empty set. -/
def reasonIf (b : Bool) (r : Reason) : BitVec 11 := if b then r.mask else 0

/-- The weigh flags in bit order (12.8). -/
def flagShort : BitVec 6 := 1
def flagOverload : BitVec 6 := 2
def flagGap : BitVec 6 := 4
def flagZeroStale : BitVec 6 := 8
def flagImplausible : BitVec 6 := 16
def flagUnseen : BitVec 6 := 32

def flagIf (b : Bool) (f : BitVec 6) : BitVec 6 := if b then f else 0

/-- The enable set (R169): the setup's while READY or LOADING from READY; LOAD_ERROR and PATH_FAULT in
UNLOADED and LOADING from UNLOADED; empty in UNPLACED. -/
def SetupUnit.enableSet (u : SetupUnit) : BitVec 21 :=
  match u.part with
  | .unplaced => 0
  | .unloaded => Cause.loadError.mask ||| Cause.pathFault.mask
  | .loading false => Cause.loadError.mask ||| Cause.pathFault.mask
  | .loading true => match u.setup with | none => 0 | some s => s.enable
  | .ready => match u.setup with | none => 0 | some s => s.enable

/-- The ATTN output (R169): some pending cause is enabled. -/
def Dev.attn (d : Dev) : Bool := decide (d.report.pending &&& d.setup.enableSet ≠ 0)

/-- The verdict that a reason set forms under a reject mask (R97). -/
def formReject (reasons mask : BitVec 11) : Bool :=
  hasReason reasons .test || decide (reasons &&& mask ≠ 0)

/-- A valve's state code (12.4). -/
def ValveState.code : ValveState → Nat
  | .inService => 0 | .watch => 1 | .suspended => 2

def causeCode : Option SuspendCause → Nat
  | none => 0 | some .software => 1 | some .auto => 2

/-- The condition word (R122, 12.4). `limit` is the current recipe's trim limit, if a recipe is CURRENT;
`idle` says the valve number is V or above or its fetched nominal is 0. -/
def conditionWord (r : ValveRec) (limit : Option Nat) (idle : Bool) : BitVec 16 :=
  let atHigh := match limit with | none => false | some l => decide (0 < l ∧ r.trim = (l : Int))
  let atLow := match limit with | none => false | some l => decide (0 < l ∧ r.trim = -(l : Int))
  BitVec.ofNat 16 (r.st.code + putBit r.arm 2 + putBit atHigh 3 + putBit atLow 4 +
    putBit (decide (1 ≤ r.outlier)) 5 + putBit (r.lastVerdict == some true) 6 +
    putBit (r.recent.length == 16) 7 +
    putBit (r.st == .suspended && r.cause == some .auto) 8 + putBit idle 9)

/-- The sum, the mean and the spread of a recent list (R112). -/
def recentSum : List Int → Int
  | [] => 0
  | x :: xs => x + recentSum xs

def recentMean (xs : List Int) : Int :=
  if xs = [] then 0 else divTrunc (recentSum xs) xs.length

def recentMax : List Int → Int
  | [] => 0
  | [x] => x
  | x :: y :: ys => max x (recentMax (y :: ys))

def recentMin : List Int → Int
  | [] => 0
  | [x] => x
  | x :: y :: ys => min x (recentMin (y :: ys))

def recentSpread (xs : List Int) : Int :=
  if xs = [] then 0 else recentMax xs - recentMin xs

end Sys2Proof.Machine
end

