-- ==== Sys2Proof/Machine/Ops.lean ====
section
/-! DEFINITION. The named operations shared by every block: controller memory, accessors of the part's
state, raising an attention cause (R169), and the internal master's list (R162). Taking an exception
has no counterpart in a block that is no processor: raising a cause is its nearest. -/

namespace Sys2Proof.Machine

/-! ### Controller memory

A list of (address, byte) pairs, addresses strictly rising, none equal to what an unlisted address
reads as. -/

namespace Memory

/-- What an address nothing has written reads as (DESIGN CHOICE, log 6). -/
def blank : Byte := 0

def read : List Host.Cell → Nat → Byte
  | [], _ => blank
  | (x, b) :: m, a => if x = a then b else read m a

/-- Store byte `v` at `a`, keeping the canonical form. -/
def write : List Host.Cell → Nat → Byte → List Host.Cell
  | [], a, v => if v = blank then [] else [(a, v)]
  | (x, b) :: m, a, v =>
    if a < x then (if v = blank then (x, b) :: m else (a, v) :: (x, b) :: m)
    else if a = x then (if v = blank then m else (a, v) :: m)
    else (x, b) :: write m a v

/-- Every address is above `lo`, addresses rise strictly, and no byte is blank. -/
def wfAbove : Option Nat → List Host.Cell → Bool
  | _, [] => true
  | lo, (x, b) :: m =>
    (match lo with | none => true | some l => decide (l < x)) && decide (b ≠ blank) &&
      wfAbove (some x) m

/-- The canonical form. -/
def wf (m : List Host.Cell) : Bool := wfAbove none m

/-- The word at byte address `a`. -/
def readWord (m : List Host.Cell) (a : Nat) : Word :=
  wordOfBytes (read m a) (read m (a + 1)) (read m (a + 2)) (read m (a + 3))

/-- `n` words at incrementing addresses. -/
def readWords (m : List Host.Cell) (a : Nat) : Nat → List Word
  | 0 => []
  | n + 1 => readWord m a :: readWords m (a + 4) n

/-- Store byte `i` of `w` if its enable is set. -/
def writeLane (m : List Host.Cell) (a : Nat) (w : WWord) (i : Nat) : List Host.Cell :=
  if w.be.getLsbD i then write m (a + i) (byteOf w.data i) else m

/-- Store the enabled bytes of a word. -/
def writeWord (m : List Host.Cell) (a : Nat) (w : WWord) : List Host.Cell :=
  writeLane (writeLane (writeLane (writeLane m a w 0) a w 1) a w 2) a w 3

/-- Store words at incrementing addresses. -/
def writeWords (m : List Host.Cell) (a : Nat) : List WWord → List Host.Cell
  | [] => m
  | w :: ws => writeWords (writeWord m a w) (a + 4) ws

end Memory

/-! ### Accessors -/

/-- The setup in effect (R166). Blocks that read it do so in READY, where it is present; before any
load it is a setup of zeros that no rule reads (log 37). -/
def Dev.su (d : Dev) : Setup := d.setup.setup.getD default

/-- The memory size in bytes (R157). -/
def Dev.size (d : Dev) : Nat := memoryBytes d.path.memsize

/-- The control area's base (R158). -/
def Dev.base (d : Dev) : Nat := areaBase d.path.cabase

/-- Word-aligned and inside memory (R131, R132, R167). -/
def Dev.addrOk (d : Dev) (a : Nat) : Bool := decide (a % 4 = 0) && decide (a < d.size)

/-- P from a high-water mark (R42). -/
def pocketOf (high : BitVec 48) (pitch : Nat) : Word := BitVec.ofNat 32 (high.toNat / pitch)

/-- The phase of a high-water mark (R42). -/
def phaseOf (high : BitVec 48) (pitch : Nat) : Nat := high.toNat % pitch

/-- P, absent while no position is held (R42). -/
def Dev.pocketNow (d : Dev) : Option Word := d.pocket.pos.map fun q => pocketOf q.high d.su.pitch

/-- The ring index of pocket `p` (R50). -/
def ringIx (p : Word) : Fin 64 := ⟨p.toNat % 64, Nat.mod_lt _ (by decide)⟩

/-- The ring entry that stands at pocket `p`'s index. -/
def Dev.entry (d : Dev) (p : Word) : Entry := d.pocket.ring.get (ringIx p)

def Dev.setEntry (d : Dev) (p : Word) (e : Entry) : Dev :=
  { d with pocket := { d.pocket with ring := d.pocket.ring.set (ringIx p).val e (ringIx p).isLt } }

def Dev.valveRec (d : Dev) (v : Fin 64) : ValveRec := d.valve.recs.get v

def Dev.setValve (d : Dev) (v : Fin 64) (r : ValveRec) : Dev :=
  { d with valve := { d.valve with recs := d.valve.recs.set v.val r v.isLt } }

def Dev.slot (d : Dev) (k : Fin 4) : RecipeSlot := d.order.slots.get k

def Dev.setSlot (d : Dev) (k : Fin 4) (r : RecipeSlot) : Dev :=
  { d with order := { d.order with slots := d.order.slots.set k.val r k.isLt } }

def Dev.place (d : Dev) (p : Fin 2) : Option LotOrder := d.order.places.get p

def Dev.setPlace (d : Dev) (p : Fin 2) (o : Option LotOrder) : Dev :=
  { d with order := { d.order with places := d.order.places.set p.val o p.isLt } }

/-- The lowest-numbered recipe slot in a state (R131). -/
def Dev.slotIn (d : Dev) (st : SlotState) : Option (Fin 4) :=
  if (d.slot 0).st = st then some 0
  else if (d.slot 1).st = st then some 1
  else if (d.slot 2).st = st then some 2
  else if (d.slot 3).st = st then some 3
  else none

/-- The slot that is CURRENT (R129). -/
def Dev.currentSlot (d : Dev) : Option (Fin 4) := d.slotIn .current

/-- A tracked fill of the held read, formed and not yet in effect, names recipe slot `k` (R23, log 21). -/
def Dev.tentative (d : Dev) (k : Fin 4) : Bool :=
  match d.path.upstream with
  | [] => false
  | h :: _ => h.ctx.formed.any fun f => f.tracked && f.recipe == k

/-- The recipe held in slot `k`; a free value where the slot holds none (log 12). -/
def Dev.recipeOf (d : Dev) (k : Fin 4) : Recipe :=
  (d.slot k).recipe.getD (Config.unloadedRecipe d.draws k.val)

/-- The current recipe (R129). -/
def Dev.currentRecipe (d : Dev) : Option Recipe := d.currentSlot.map d.recipeOf

/-- The free value's counter advances (log 12). -/
def Dev.drawn (d : Dev) : Dev := { d with draws := d.draws + 1 }

/-- A piece of work of the switching fill: its switch and the fetch that follows (R32, R33). -/
def Micro.switching : Micro → Bool
  | .switchPut _ => true
  | .switchCommit => true
  | .fillFetch _ => true
  | _ => false

/-- The held transaction is in the middle of its switching fill, which is one whole (R35, R142, log 44). -/
def Dev.midSwitch (d : Dev) : Bool :=
  match d.path.upstream with
  | [] => false
  | h :: _ =>
    match h.work with
    | none => false
    | some [] => false
    | some (mi :: _) => mi.switching

/-- The valve numbers 0 to 63 in increasing order. -/
def valveNumbers : List (Fin 64) := (List.range 64).map (Fin.ofNat 64)

/-- Pocket numbers from oldest to newest that the ring's 64 entries stand for (R50). -/
def Dev.ringPockets (d : Dev) : List Word :=
  let p := d.pocketNow.getD 0
  (List.range 64).map fun i => p - 63#32 + BitVec.ofNat 32 i

/-! ### Attention (R169) -/

/-- Raise a cause: it joins the pending set, and a change of the set requests a status write (R170). In
UNPLACED the set stays empty. -/
def Dev.raise (c : Cause) (d : Dev) : Dev :=
  if d.setup.part = .unplaced then d
  else if d.report.pending.getLsbD c.bit then d
  else { d with report := { d.report with pending := d.report.pending ||| c.mask, request := true } }

/-- Request a status block write (R170). -/
def Dev.requestStatus (d : Dev) : Dev := { d with report := { d.report with request := true } }

/-- Remove causes from the pending set (R169). -/
def Dev.acknowledge (mask : BitVec 21) (d : Dev) : Dev :=
  let new := d.report.pending &&& ~~~mask
  if new = d.report.pending then d
  else { d with report := { d.report with pending := new, request := true } }

/-- Set the error address (R170) and raise the cause that goes with it. -/
def Dev.raiseAt (c : Cause) (a : Nat) (d : Dev) : Dev :=
  Dev.raise c { d with report := { d.report with errAddr := BitVec.ofNat 32 a } }

/-! ### The internal master's list (R162) -/

/-- An operation places a burst at the tail; in UNPLACED and while LRST is asserted none is placed. -/
def Dev.placeBurst (b : Burst) (d : Dev) : Dev :=
  if d.setup.part = .unplaced ∨ d.path.lrst = true then d
  else { d with path := { d.path with bursts := d.path.bursts ++ [b] } }

/-- The number of words of a burst. -/
def Burst.words (b : Burst) : Nat := match b.kind with | .read n => n | .write ws => ws.length

/-- Whether a burst lies wholly inside memory (R162). -/
def Dev.burstInside (d : Dev) (b : Burst) : Bool := decide (b.addr + 4 * b.words ≤ d.size)

/-- The bursts that request the port: those inside memory, oldest first (R160, R162, log 19). -/
def Dev.waitingBursts (d : Dev) : List Burst := d.path.bursts.filter d.burstInside

/-- An operation's waiting burst leaves the list. -/
def Dev.dropBursts (op : InternalOp) (d : Dev) : Dev :=
  { d with path := { d.path with bursts := d.path.bursts.filter fun b => b.op ≠ op } }

/-- The data of an operation's burst on the port will be dropped (R131). -/
def Dev.stopIssued (op : InternalOp) (d : Dev) : Dev :=
  match d.path.port with
  | none => d
  | some i =>
    if i.burst.op = op then { d with path := { d.path with port := some { i with stopped := true } } }
    else d

end Sys2Proof.Machine
end

