-- ==== Sys2Proof/Machine/Report.lean ====
section
/-! DEFINITION. The Report unit (11_setup_status_and_results.md R169 to R174): the status block writer, the
report queue and the result chain. -/

namespace Sys2Proof.Machine

/-! ### The status block (R170, 12.7) -/

def PartState.code : PartState → Nat
  | .unplaced => 0 | .unloaded => 0 | .loading _ => 1 | .ready => 2

def Reporting.code : Reporting → Nat
  | .waiting _ => 0 | .running _ => 1 | .faulted => 2

def LoadCode.code : LoadCode → Nat
  | .none => 0 | .range => 1 | .order => 2 | .readFault => 3 | .notStopped => 4

/-- Word 7: the order A and order B summaries (R144). -/
def Dev.orderSummary (d : Dev) : Word :=
  let runningPart := match d.order.running with | none => 0 | some p => putBit true 0 + put p.val 1 1
  let drainingPart := match d.order.draining with | none => 0 | some p => putBit true 2 + put p.val 3 1
  let curPart := match d.currentSlot, d.order.cur with
    | some _, some c =>
      (match c.ref with
        | .detached => putBit true 4
        | .entry p i => put p.val 5 1 + put i 6 3) +
      putBit (c.canCount == 0) 9 + putBit c.stalled 10
    | _, _ => 0
  let servicePart := match d.order.service with | none => 0 | some o => putBit true 16 + put o.idx 17 3
  BitVec.ofNat 32 (runningPart + drainingPart + curPart + servicePart)

/-- The 16 words of the status block (R170, 12.7). -/
def Dev.statusWords (d : Dev) : List Word :=
  let cur := d.currentSlot
  [ BitVec.ofNat 32 (put d.setup.part.code 0 2 + putBit d.pocket.running 4 + putBit d.setup.enforce 5 +
      putBit d.setup.trimApply 6 + putBit d.setup.retained 7 + putBit (decide (0 < d.track.suspects)) 8 +
      put d.report.reporting.code 9 2 + putBit d.pocket.pos.isSome 11 + putBit cur.isSome 12 +
      put (match cur with | none => 0 | some k => k.val) 13 2),
    BitVec.ofNat 32 d.report.pending.toNat,
    d.pocketNow.getD 0,
    d.fill.seq,
    d.fill.untracked,
    BitVec.ofNat 32 (put (512 - d.track.free.length) 0 16 + put d.track.free.length 16 16),
    match cur with | none => 0 | some k => BitVec.ofNat 32 (d.recipeOf k).lot.toNat,
    d.orderSummary,
    d.report.errAddr,
    BitVec.ofNat 32 (put d.setup.loadError.code.code 0 8 + put d.setup.loadError.field 8 8),
    d.report.dropped,
    BitVec.ofNat 32 (put d.code.forward.toNat 0 16 + put d.code.backward.toNat 16 16),
    BitVec.ofNat 32 (put d.code.phantom.toNat 0 16 + put d.code.duplicate.toNat 16 16),
    d.path.faults,
    ofInt d.weigh.zero,
    BitVec.ofNat 32 d.weigh.zeroAge ]

/-- Form the block and place its first burst (R170, R161). -/
def Dev.formStatus (d : Dev) : Dev :=
  let ws := d.statusWords
  Dev.placeBurst { op := .status, addr := d.base + 0x200, kind := .write (ws.take 8) }
    { d with report := { d.report with request := false, status := .first (ws.drop 8) } }

/-- The requests of a step are met at its end (R170, R41, log 14): a new write begins, or the again
indication is set. While LRST is asserted the request waits (R162, log 15). -/
def Dev.settle (d : Dev) : Dev :=
  if d.report.request = false ∨ d.path.lrst = true ∨ d.setup.part = .unplaced then d
  else match d.report.status with
    | .idle => d.formStatus
    | .first _ => { d with report := { d.report with request := false, again := true } }
    | .second => { d with report := { d.report with request := false, again := true } }

/-- The answer of a status burst (R170, R163): a FAULT raises the path fault count and the write goes on. -/
def Dev.statusAnswered (ok : Bool) (d : Dev) : Dev :=
  let d := if ok then d else { d with path := { d.path with faults := d.path.faults + 1#32 } }
  match d.report.status with
  | .idle => d
  | .first rest =>
    Dev.placeBurst { op := .status, addr := d.base + 0x220, kind := .write rest }
      { d with report := { d.report with status := .second } }
  | .second =>
    { d with report := { d.report with status := .idle, again := false,
                                       request := d.report.request || d.report.again } }

/-! ### The result chain (R172 to R174) -/

/-- Reporting becomes FAULTED with REPORT_FAULT and an error address (R172, R173). -/
def Dev.reportFault (a : Nat) (d : Dev) : Dev :=
  Dev.raiseAt .reportFault a
    { d with report := { d.report with reporting := .faulted, act := none, reread := none } }

/-- Open a descriptor: read its 4 words as one burst (R172). -/
def Dev.openDescriptor (a : Nat) (d : Dev) : Dev :=
  Dev.placeBurst { op := .report, addr := a, kind := .read 4 }
    { d with report := { d.report with reporting := .waiting (.descriptor a), act := some (.opening a),
                                       reread := none } }

/-- Read word 2 of a closed descriptor (R172, R173). -/
def Dev.readNext (a : Nat) (d : Dev) : Dev :=
  Dev.placeBurst { op := .report, addr := a + 8, kind := .read 1 }
    { d with report := { d.report with reporting := .waiting (.nextField a), act := some (.reading a),
                                       reread := none } }

/-- The re-read of what reporting waits on, when no burst of the chain is under way (R172). A result that joins
while such a read is already under way starts no re-read of its own: the model's choice (log 48). -/
def Dev.reRead (d : Dev) : Dev :=
  match d.report.act, d.report.reporting with
  | none, .waiting (.descriptor a) => d.openDescriptor a
  | none, .waiting (.nextField a) => d.readNext a
  | _, _ => d

/-- A composed result joins the queue, or is dropped at a full one (R18, R171); a result that joins
while reporting waits on a descriptor or next field starts a re-read (R172). -/
def Dev.compose (r : Result) (d : Dev) : Dev :=
  let d := d.drawn
  if d.report.queue.length < 16 then
    Dev.reRead { d with report := { d.report with queue := d.report.queue ++ [r] } }
  else
    Dev.raise .resultsDropped { d with report := { d.report with dropped := d.report.dropped + 1#32 } }

/-- Start the re-read timer when reporting was left waiting with a result queued (R172, log 23). -/
def Dev.armReread (d : Dev) : Dev :=
  if d.report.queue = [] then d else { d with report := { d.report with reread := some 0 } }

/-- The close of the owned buffer: its control word is written and the age timer goes idle (R173). -/
def Dev.closeBuffer (reason : CloseReason) (after : AfterClose) (b : Buffer) (d : Dev) : Dev :=
  Dev.placeBurst { op := .report, addr := b.desc + 12, kind := .write [closeWord reason b.count] }
    { d with report := { d.report with reporting := .running { b with age := none },
                                       act := some (.closing b.desc after) } }

/-- The test of a PART descriptor (R172). -/
def Dev.descriptorOk (d : Dev) (addr len : Nat) : Bool :=
  decide (addr % 4 = 0) && decide (len % 32 = 0) && decide (32 ≤ len) && decide (len ≤ 65536) &&
    decide (addr + len ≤ d.size)

/-- The answer of a descriptor read (R172). -/
def Dev.descriptorAnswered (a : Nat) (ok : Bool) (ws : List Word) (d : Dev) : Dev :=
  let d := { d with report := { d.report with act := none } }
  if ok = false then d.reportFault a
  else if bit (wordAt ws 3) 0 = false then
    Dev.armReread { d with report := { d.report with reporting := .waiting (.descriptor a) } }
  else if d.descriptorOk (wordAt ws 0).toNat (wordAt ws 1).toNat then
    let b : Buffer :=
      { desc := a, addr := (wordAt ws 0).toNat, len := (wordAt ws 1).toNat,
        next := (wordAt ws 2).toNat, count := 0, age := none }
    { d with report := { d.report with reporting := .running b } }
  else d.reportFault a

/-- The answer of the read of a next field (R173). -/
def Dev.nextAnswered (a : Nat) (ok : Bool) (ws : List Word) (d : Dev) : Dev :=
  let d := { d with report := { d.report with act := none } }
  let next := (wordAt ws 0).toNat
  if ok = false then d.reportFault (a + 8)
  else if next = 0 then
    Dev.armReread { d with report := { d.report with reporting := .waiting (.nextField a) } }
  else if d.addrOk next then d.openDescriptor next
  else d.reportFault next

/-- The answer of the control word write of a close (R173, R174). -/
def Dev.closeAnswered (a : Nat) (after : AfterClose) (ok : Bool) (d : Dev) : Dev :=
  let d := { d with report := { d.report with act := none } }
  match after with
  | .follow => if ok then d.readNext a else d.reportFault (a + 12)
  | .restart b =>
    if ok then d.openDescriptor b else Dev.openDescriptor b (d.reportFault (a + 12))

/-- The head result's burst is placed while RUNNING (R173). -/
def Dev.writeResult (d : Dev) : Dev :=
  match d.report.act, d.report.reporting, d.report.queue with
  | none, .running b, r :: _ =>
    Dev.placeBurst { op := .report, addr := b.addr + 32 * b.count, kind := .write r.words }
      { d with report := { d.report with act := some .writing } }
  | _, _, _ => d

/-- The answer of a result write (R173): OKAY removes the head and raises the count; the first result
starts the age timer; a full buffer is closed. -/
def Dev.resultAnswered (ok : Bool) (d : Dev) : Dev :=
  match d.report.reporting with
  | .running b =>
    let d := { d with report := { d.report with act := none } }
    if ok then
      let b' := { b with count := b.count + 1, age := if b.count = 0 then some 0 else b.age }
      let d := { d with report := { d.report with queue := d.report.queue.drop 1,
                                                  reporting := .running b' } }
      if b.len ≤ 32 * (b.count + 1) then d.closeBuffer .full .follow b' else d
    else d.reportFault (b.addr + 32 * b.count)
  | _ => { d with report := { d.report with act := none } }

/-- The answer of a result write that the age timer's expiry came before (R173, log 25): OKAY, the buffer is
closed without the result, which stays at the head for the next buffer; FAULT as at any result write. -/
def Dev.lapsedAnswered (ok : Bool) (d : Dev) : Dev :=
  let d := { d with report := { d.report with act := none } }
  match d.report.reporting with
  | .running b => if ok then d.closeBuffer .age .follow b else d.reportFault (b.addr + 32 * b.count)
  | _ => d

/-- The age timer's expiry (R173): the buffer is closed with reason AGE, without the result of a write not yet
answered. A result burst still waiting is withdrawn; while one is on the port the timer goes idle and the close
follows the answer (log 25). -/
def Dev.ageExpired (d : Dev) : Dev :=
  match d.report.reporting with
  | .running b =>
    if b.age = none then d
    else match d.report.act with
      | none => d.closeBuffer .age .follow b
      | some .writing =>
        if d.path.bursts.any fun x => x.op == .report then
          Dev.closeBuffer .age .follow b (d.dropBursts .report)
        else
          { d with report := { d.report with reporting := .running { b with age := none },
                                             act := some .lapsing } }
      | some _ => d
  | _ => d

/-- A REPORT_FLUSH taken (R174). -/
def Dev.flushTaken (d : Dev) : Dev :=
  match d.report.reporting with
  | .running b => if 1 ≤ b.count then d.closeBuffer .flush .follow b else d
  | _ => d

/-- A REPORT_RESTART taken with descriptor `a` (R174). -/
def Dev.restartTaken (a : Nat) (d : Dev) : Dev :=
  match d.report.reporting with
  | .running b => if 1 ≤ b.count then d.closeBuffer .flush (.restart a) b else d.openDescriptor a
  | _ => d.openDescriptor a

end Sys2Proof.Machine
end

