-- ==== Sys2Proof/Machine/Orders.lean ====
section
/-! DEFINITION. The recipe table and the order unit (08_recipes_lots_and_orders.md R128 to R144): order words,
closing of entries and orders, recipe loads, order fetches and acceptance. -/

namespace Sys2Proof.Machine

/-! ### Order words (R138, R162, log 16) -/

/-- The part writes one order word: it waits behind those not yet written. -/
def Dev.pushOrderWrite (a : Nat) (v : Word) (d : Dev) : Dev :=
  let d' := { d with order := { d.order with writes := d.order.writes ++ [(a, v)] } }
  if d.order.writes = [] then
    Dev.placeBurst { op := .orderWord, addr := a, kind := .write [v] } d'
  else d'

/-- The answer of an order word's write (R138): a FAULT raises ORDER_ERROR with the word's address and
the order goes on; the next word's burst is placed. -/
def Dev.orderWordAnswered (a : Nat) (ok : Bool) (d : Dev) : Dev :=
  let rest := d.order.writes.drop 1
  let d := { d with order := { d.order with writes := rest } }
  let d := if ok then d else d.raiseAt .orderError a
  match rest with
  | [] => d
  | (b, v) :: _ => Dev.placeBurst { op := .orderWord, addr := b, kind := .write [v] } d

/-- Write an order's status word. -/
def Dev.writeOrderStatus (done : Bool) (o : LotOrder) (d : Dev) : Dev :=
  d.pushOrderWrite (o.addr + 4) (orderStatusWord done o.error o.closed)

/-- Write a changeover entry's status word and, with it, its fills-made word (R134, log 38). -/
def Dev.writeEntry (o : LotOrder) (i : Nat) (e : LotEntry) (d : Dev) : Dev :=
  Dev.pushOrderWrite (o.addr + 20 + 16 * i) (BitVec.ofNat 32 e.made)
    (d.pushOrderWrite (o.addr + 16 + 16 * i) (BitVec.ofNat 32 e.status.code))

/-- Change entry `i` of the order in place `p` and write its words. -/
def Dev.updateEntry (p : Fin 2) (i : Nat) (f : LotEntry → LotEntry) (d : Dev) : Dev :=
  match d.place p with
  | none => d
  | some o =>
    match o.entries[i]? with
    | none => d
    | some e =>
      Dev.writeEntry o i (f e) (d.setPlace p (some { o with entries := o.entries.set i (f e) }))

/-- CLOSED, CANCELLED or ERROR (R137). -/
def EntryStatus.over : EntryStatus → Bool
  | .waiting => false | .loading => false | .started => false | .filled => false
  | .closed => true | .cancelled => true | .error => true

/-- WAITING or LOADING: not yet STARTED and not given up (R133). -/
def EntryStatus.unstarted : EntryStatus → Bool
  | .waiting => true | .loading => true | .started => false | .filled => false
  | .closed => false | .cancelled => false | .error => false

/-- The place becomes free; when it held the running order, a draining order becomes the running order
again (R138). -/
def Dev.releasePlace (p : Fin 2) (d : Dev) : Dev :=
  let o := d.order
  let d := d.setPlace p none
  if o.running = some p then
    { d with order := { d.order with running := o.draining, draining := none } }
  else if o.draining = some p then { d with order := { d.order with draining := none } }
  else d

/-- A complete order is released with its final status (R137). -/
def Dev.completeOrder (p : Fin 2) (d : Dev) : Dev :=
  match d.place p with
  | none => d
  | some o =>
    if o.entries.all (fun e => e.status.over) then
      if o.entries.any (fun e => e.status == .error) then
        Dev.releasePlace p (d.writeOrderStatus false o)
      else
        let d := d.writeOrderStatus true o
        Dev.releasePlace p (if o.notify then d.raise .orderADone else d)
    else d

/-- An entry is CLOSED when its slot has drained (R137). -/
def Dev.closeEntry (ref : LotRef) (d : Dev) : Dev :=
  match ref with
  | .detached => d
  | .entry p i =>
    let d := d.updateEntry p i fun e => { e with status := .closed }
    match d.place p with
    | none => d
    | some o =>
      let o := { o with closed := o.closed + 1 }
      Dev.completeOrder p (Dev.writeOrderStatus false o (d.setPlace p (some o)))

/-- The recipe slot whose member set holds track slot `n` (R129). -/
def Dev.memberSlot (d : Dev) (n : Nat) : Option (Fin 4) :=
  if n ∈ (d.slot 0).members then some 0
  else if n ∈ (d.slot 1).members then some 1
  else if n ∈ (d.slot 2).members then some 2
  else if n ∈ (d.slot 3).members then some 3
  else none

/-- A freed record's track slot leaves its member set; a DRAINING slot whose count reaches 0 goes FREE and
its entry is closed when the record names it (R17, R137). -/
def Dev.recordLeaves (n : Nat) (lot : LotRef) (d : Dev) : Dev :=
  match d.memberSlot n with
  | none => d
  | some k =>
    let s := d.slot k
    let ms := s.members.erase n
    if s.st = .draining ∧ ms = [] ∧ d.tentative k = false then
      let d := d.setSlot k .empty
      if s.ref = lot then d.closeEntry lot else d
    else d.setSlot k { s with members := ms }

/-- A DRAINING slot without members goes FREE and closes its entry (R130, R136). -/
def Dev.drainIfEmpty (k : Fin 4) (d : Dev) : Dev :=
  let s := d.slot k
  if s.st = .draining ∧ s.members = [] ∧ d.tentative k = false then Dev.closeEntry s.ref (d.setSlot k .empty) else d

/-- Every DRAINING slot that nothing names any more goes FREE (R129, log 21). -/
def Dev.drainAll (d : Dev) : Dev :=
  Dev.drainIfEmpty 3 (Dev.drainIfEmpty 2 (Dev.drainIfEmpty 1 (d.drainIfEmpty 0)))

/-! ### The lot schedule (R134) -/

/-- The entries of a place from index `i` on. -/
def Dev.entryRefs (d : Dev) (p : Fin 2) (i : Nat) : List (Fin 2 × Nat) :=
  match d.place p with
  | none => []
  | some o => ((List.range o.entries.length).filter fun j => decide (i ≤ j)).map fun j => (p, j)

/-- The entries after the current one (R134). -/
def Dev.schedule (d : Dev) : List (Fin 2 × Nat) :=
  match d.order.running with
  | none => []
  | some p =>
    match d.order.cur with
    | none => d.entryRefs p 0
    | some c =>
      match c.ref with
      | .detached => d.entryRefs p 0
      | .entry q i =>
        if q = p then d.entryRefs p (i + 1) else d.entryRefs q (i + 1) ++ d.entryRefs p 0

/-- Entry `i` of place `p`. -/
def Dev.entryAt (d : Dev) (p : Fin 2) (i : Nat) : Option LotEntry :=
  match d.place p with
  | none => none
  | some o => o.entries[i]?

def Dev.unstartedAt (d : Dev) (x : Fin 2 × Nat) : Bool :=
  match d.entryAt x.1 x.2 with
  | none => false
  | some e => e.status.unstarted

/-- The next entry: the first of the schedule still to be started (R131, R134). -/
def Dev.nextEntry (d : Dev) : Option (Fin 2 × Nat) := d.schedule.find? d.unstartedAt

/-- A switch is due by the current entry's can count (R134). -/
def CurrentEntry.due (c : CurrentEntry) : Bool := decide (c.canCount ≠ 0 ∧ c.canCount ≤ c.made)

/-! ### Recipe loads (R131, R138) -/

/-- Every entry of place `p` after index `i` that is not started is written CANCELLED. -/
def Dev.cancelFrom (p : Fin 2) (i : Nat) (d : Dev) : Dev :=
  (d.entryRefs p i).foldl
    (fun d x => if d.unstartedAt x then d.updateEntry x.1 x.2 fun e => { e with status := .cancelled }
      else d) d

/-- The current entry becomes open-ended (R138, R143). -/
def openEnded (cur : Option CurrentEntry) : Option CurrentEntry :=
  cur.map fun c => { c with canCount := 0 }

/-- A load that fails (R138). -/
def Dev.loadFails (l : Loader) (code : OrderCode) (a : Nat) (d : Dev) : Dev :=
  let d := d.setSlot l.slot .empty
  let d := { d with order := { d.order with loader := none } }
  let d := d.updateEntry l.place l.idx fun e => { e with status := .error }
  let d := match d.place l.place with
    | none => d
    | some o =>
      let o := { o with error := some code }
      Dev.writeOrderStatus false o (d.setPlace l.place (some o))
  let d := d.raiseAt .orderError a
  let d := d.cancelFrom l.place (l.idx + 1)
  let d := { d with order := { d.order with cur := openEnded d.order.cur } }
  d.completeOrder l.place

/-- The loading of the next entry's recipe begins when it is WAITING and a slot is FREE (R131). -/
def Dev.startLoad (d : Dev) : Dev :=
  match d.order.loader, d.nextEntry, d.slotIn .free with
  | none, some (p, i), some k =>
    match d.entryAt p i with
    | none => d
    | some e =>
      if e.status = .waiting then
        let d := d.setSlot k { st := .loading, recipe := none, ref := .entry p i, members := [] }
        let d := d.updateEntry p i fun e => { e with status := .loading }
        let l : Loader := { slot := k, place := p, idx := i, addr := e.context.toNat, got := [] }
        if d.addrOk l.addr then
          Dev.placeBurst { op := .recipe, addr := l.addr, kind := .read 1 }
            { d with order := { d.order with loader := some l } }
        else d.loadFails l .badAddress l.addr
      else d
  | _, _, _ => d

/-- The length that a context's word 0 gives (12.5). -/
def contextLength (got : List Word) : Nat := bits (wordAt got 0) 0 8

/-- The slot becomes PENDING; the flag of R32 is set when the entry is an order's first or the current
entry is due (R134, R135). -/
def Dev.loadSucceeds (l : Loader) (d : Dev) : Dev :=
  let d := d.setSlot l.slot { d.slot l.slot with st := .pending, recipe := some (recipeOfWords l.got) }
  let d := { d with order := { d.order with loader := none } }
  let due := match d.order.cur with | none => true | some c => c.due
  if l.idx = 0 ∨ due = true then { d with fill := { d.fill with switchDue := true } } else d

/-- The answer of a recipe context burst (R131). -/
def Dev.recipeAnswered (a : Nat) (ok : Bool) (ws : List Word) (d : Dev) : Dev :=
  match d.order.loader with
  | none => d
  | some l =>
    if ok = false then d.loadFails l .fetchFault a
    else
      let l := { l with got := l.got ++ ws }
      let len := contextLength l.got
      if ¬(len = 13 ∨ len = 77) then d.loadFails l .badLength l.addr
      else if l.got.length < len then
        Dev.placeBurst
          { op := .recipe, addr := l.addr + 4 * l.got.length, kind := .read (min 8 (len - l.got.length)) }
          { d with order := { d.order with loader := some l } }
      else match recipeCheck l.got with
        | some (code, i) => d.loadFails l code (l.addr + 4 * i)
        | none => d.loadSucceeds l

/-! ### Order fetches (R132, R139) -/

/-- A refused order: its status word is written ERROR with the code, and ORDER_ERROR is raised with the
header address (R132, R133). -/
def Dev.refuseOrder (code : OrderCode) (a : Nat) (d : Dev) : Dev :=
  Dev.raiseAt .orderError a (d.pushOrderWrite (a + 4) (orderStatusWord false (some code) 0))

/-- The words of an order with `n` entries (R132). -/
def orderLength (n : Nat) : Nat := 2 + 4 * n

/-- The next burst of an order fetch: the header word alone, then up to 8 words (R132, log 33). -/
def fetchBurst (op : InternalOp) (f : Fetch) : Burst :=
  if f.got = [] then { op := op, addr := f.addr, kind := .read 1 }
  else
    { op := op, addr := f.addr + 4 * f.got.length,
      kind := .read (min 8 (orderLength (headerCount (wordAt f.got 0)) - f.got.length)) }

/-- A write of ORDER_A with a full word (R132). -/
def Dev.orderAWritten (v : Word) (d : Dev) : Dev :=
  let a := v.toNat
  if a = 0 then d
  else if d.addrOk a = false then d.raiseAt .orderError a
  else if d.order.fetchA.isSome then d.refuseOrder .busy a
  else
    let f : Fetch := { addr := a, got := [] }
    Dev.placeBurst (fetchBurst .fetchA f) { d with order := { d.order with fetchA := some f } }

/-- A write of ORDER_B with a full word (R139). -/
def Dev.orderBWritten (v : Word) (d : Dev) : Dev :=
  let a := v.toNat
  if a = 0 then d
  else if d.addrOk a = false then d.raiseAt .orderError a
  else if d.order.service.isSome ∨ d.order.fetchB.isSome then d.refuseOrder .busy a
  else
    let f : Fetch := { addr := a, got := [] }
    Dev.placeBurst (fetchBurst .fetchB f) { d with order := { d.order with fetchB := some f } }

/-- The changeover entries that a fetched order's words give (12.5). -/
def lotEntries (got : List Word) : List LotEntry :=
  (List.range (headerCount (wordAt got 0))).map fun i =>
    { context := wordAt got (2 + 4 * i), canCount := (wordAt got (3 + 4 * i)).toNat,
      status := .waiting, made := 0 }

/-- A can count of 0 in an entry that is not the last (R132). -/
def openBeforeLast (es : List LotEntry) : Bool := es.dropLast.any fun e => e.canCount == 0

/-- The index from which the running order's entries count as later (R133). -/
def Dev.laterFrom (d : Dev) (p : Fin 2) : Nat :=
  match d.order.cur with
  | none => 0
  | some c =>
    match c.ref with
    | .detached => 0
    | .entry q i => if q = p then i + 1 else 0

/-- Whether the order in place `p` has a later entry still WAITING or LOADING (R133). -/
def Dev.laterOpen (d : Dev) (p : Fin 2) : Bool := (d.entryRefs p (d.laterFrom p)).any d.unstartedAt

/-- The recipe slot of a cancelled entry: a load in progress is stopped, a PENDING slot goes FREE and the
flag of R32 is cleared (R133, R131). -/
def Dev.cancelSlot (k : Fin 4) (p : Fin 2) (d : Dev) : Dev :=
  let s := d.slot k
  match s.ref with
  | .detached => d
  | .entry q _ =>
    if q ≠ p then d
    else if s.st = .loading then
      let d := { d with order := { d.order with loader := none } }
      Dev.setSlot (Dev.stopIssued .recipe (d.dropBursts .recipe)) k .empty
    else if s.st = .pending then
      let d := { d with fill := { d.fill with switchDue := false } }
      d.setSlot k .empty
    else d

/-- A replacing order cancels the unstarted entries of the order in place `p` (R133). -/
def Dev.cancelOrder (p : Fin 2) (d : Dev) : Dev :=
  let i := d.laterFrom p
  let d := Dev.cancelSlot 3 p (Dev.cancelSlot 2 p (Dev.cancelSlot 1 p (d.cancelSlot 0 p)))
  d.cancelFrom p i

/-- The words written at acceptance: the status word clear and each entry WAITING with 0 fills (R133). -/
def Dev.writeNewOrder (o : LotOrder) (d : Dev) : Dev :=
  (List.range o.entries.length).foldl
    (fun d i => match o.entries[i]? with | none => d | some e => d.writeEntry o i e)
    (d.writeOrderStatus false o)

/-- The free order place, the lower-numbered when both are free (R133). -/
def Dev.freePlace (d : Dev) : Option (Fin 2) :=
  if d.place 0 = none then some 0 else if d.place 1 = none then some 1 else none

/-- Acceptance of a fetched changeover order (R133); `replace` cancels what the running order has not
started (log 40). The order of the words written is the model's choice: first the CANCELLED words of the order
replaced, then the new order's words, then the final status of an order released (log 51). -/
def Dev.acceptOrder (o : LotOrder) (replace : Bool) (d : Dev) : Dev :=
  match d.freePlace with
  | none => d.refuseOrder .busy o.addr
  | some p =>
    let old := d.order.running
    let d := match old with
      | none => d
      | some q => if replace then d.cancelOrder q else d
    let d := Dev.writeNewOrder o (d.setPlace p (some o))
    match old with
    | none => { d with order := { d.order with running := some p } }
    | some q =>
      Dev.completeOrder q { d with order := { d.order with running := some p, draining := some q } }

/-- The decision on a fetched changeover order (R132, R133). -/
def Dev.decideOrder (a : Nat) (got : List Word) (d : Dev) : Dev :=
  let o : LotOrder :=
    { addr := a, notify := headerNotify (wordAt got 0), entries := lotEntries got, closed := 0,
      error := none }
  if openBeforeLast o.entries then d.refuseOrder .badHeader a
  else match d.order.running, d.order.draining with
    | none, _ => d.acceptOrder o false
    | some _, some _ => d.refuseOrder .busy a
    | some p, none =>
      if d.laterOpen p then
        if headerReplace (wordAt got 0) then d.acceptOrder o true else d.refuseOrder .busy a
      else d.acceptOrder o false

/-- All words of the fetched order are there (R132). -/
def Fetch.whole (f : Fetch) : Bool :=
  let n := headerCount (wordAt f.got 0)
  decide (1 ≤ n) && decide (n ≤ 8) && decide (orderLength n ≤ f.got.length)

/-- A changeover order that waits for its decision is decided (log 44). -/
def Dev.decideHeld (d : Dev) : Dev :=
  match d.order.fetchA with
  | none => d
  | some f =>
    if f.whole then Dev.decideOrder f.addr f.got { d with order := { d.order with fetchA := none } } else d

/-- The answer of a changeover order fetch burst (R132, R133). The decision waits while the switching fill is
under way, which is taken whole (R142, log 44). -/
def Dev.fetchAAnswered (a : Nat) (ok : Bool) (ws : List Word) (d : Dev) : Dev :=
  match d.order.fetchA with
  | none => d
  | some f =>
    let ended := { d with order := { d.order with fetchA := none } }
    if ok = false then ended.raiseAt .orderError a
    else
      let f := { f with got := f.got ++ ws }
      let n := headerCount (wordAt f.got 0)
      if ¬(1 ≤ n ∧ n ≤ 8) then ended.refuseOrder .badHeader f.addr
      else if f.got.length < orderLength n then
        Dev.placeBurst (fetchBurst .fetchA f) { d with order := { d.order with fetchA := some f } }
      else if d.midSwitch then { d with order := { d.order with fetchA := some f } }
      else ended.decideOrder f.addr f.got

/-- The service entries that a fetched order's words give (12.5). -/
def serviceEntries (got : List Word) : List ServiceEntry :=
  (List.range (headerCount (wordAt got 0))).map fun i =>
    { op := wordAt got (2 + 4 * i), op1 := wordAt got (3 + 4 * i), op2 := wordAt got (4 + 4 * i) }

/-- Write a service entry's status word (12.5: 1 WAITING, 2 DONE, 3 ERROR, 4 SKIPPED). -/
def Dev.writeServiceEntry (a i code : Nat) (d : Dev) : Dev :=
  d.pushOrderWrite (a + 20 + 16 * i) (BitVec.ofNat 32 code)

/-- Write the status words of the service entries from `i` up to `n`. -/
def Dev.writeServiceEntries (a code i n : Nat) (d : Dev) : Dev :=
  ((List.range n).filter fun j => decide (i ≤ j)).foldl (fun d j => d.writeServiceEntry a j code) d

/-- An accepted service order becomes the running one (R139). -/
def Dev.acceptService (a : Nat) (got : List Word) (d : Dev) : Dev :=
  let o : ServiceOrder :=
    { addr := a, notify := headerNotify (wordAt got 0), entries := serviceEntries got, idx := 0,
      closed := 0, nextValve := 0 }
  Dev.writeServiceEntries a 1 0 o.entries.length
    (Dev.pushOrderWrite (a + 4) (orderStatusWord false none 0)
      { d with order := { d.order with service := some o } })

/-- The answer of a service order fetch burst (R139). -/
def Dev.fetchBAnswered (a : Nat) (ok : Bool) (ws : List Word) (d : Dev) : Dev :=
  match d.order.fetchB with
  | none => d
  | some f =>
    let ended := { d with order := { d.order with fetchB := none } }
    if ok = false then ended.raiseAt .orderError a
    else
      let f := { f with got := f.got ++ ws }
      let n := headerCount (wordAt f.got 0)
      if ¬(1 ≤ n ∧ n ≤ 8) then ended.refuseOrder .badHeader f.addr
      else if f.got.length < orderLength n then
        Dev.placeBurst (fetchBurst .fetchB f) { d with order := { d.order with fetchB := some f } }
      else ended.acceptService f.addr f.got

end Sys2Proof.Machine
end

