-- ==== Sys2Proof/Machine/Track.lean ====
section
/-! DEFINITION. The track store's claims (01_the_can_track.md R1 to R22, 09 R145, R146): tests of records, freeing and
its results, head takes, suspect marking and the discard. -/

namespace Sys2Proof.Machine

/-- The record is treated as failed: its failed mark is set or its check code disagrees (R4, R7). -/
def CanRecord.bad (r : CanRecord) : Bool := r.failed || !r.checkOk

/-- The lot number of the recipe held in slot `k` (R19, R107). -/
def Dev.lotOf (d : Dev) (k : Fin 4) : BitVec 16 := (d.recipeOf k).lot

/-- The fields a result takes from a record (R19, R107). -/
def CanRecord.resultFields (r : CanRecord) : ResultRecord :=
  { tag := r.tag, valve := r.valve, recipe := r.recipe, dose := r.dose, trim := r.trim }

/-- A LOST or DISCARDED result, composed from the record alone (R18, R19). -/
def Dev.recordResult (d : Dev) (ident : ResultIdent) (r : CanRecord) (bad : Bool) : Result :=
  { seq := r.seq, record := some r.resultFields, ident := ident, pocket := none,
    lot := some (d.lotOf r.recipe), reasons := reasonIf bad .trackCheck, verdict := none, gate := none,
    weighing := none }

/-- The last steps of a freeing, after the result is composed and the record has left the list or its
pocket (R17, R146): the suspect count, the member set, the order unit, the free pool. -/
def Dev.releaseRecord (r : CanRecord) (d : Dev) : Dev :=
  let n := if r.suspect then d.track.suspects - 1 else d.track.suspects
  let d := Dev.recordLeaves r.slot r.lot { d with track := { d.track with suspects := n } }
  { d with track := { d.track with free := r.slot :: d.track.free } }

/-- A freeing whose result is composed from the record alone (R17, R19). -/
def Dev.freeAs (ident : ResultIdent) (r : CanRecord) (bad : Bool) (d : Dev) : Dev :=
  Dev.releaseRecord r (d.compose (d.recordResult ident r bad))

/-- TRACK_CHECK is raised at the first failure found for a record (R7, R14). -/
def Dev.raiseCheck (r : CanRecord) (d : Dev) : Dev := if r.failed then d else d.raise .trackCheck

/-- A FILLED record that fails its check, already taken out of the fill list (R5, R7). -/
def Dev.failFilled (r : CanRecord) (d : Dev) : Dev := Dev.freeAs .lost r true (d.raiseCheck r)

/-- Replace the fill list. -/
def Dev.setFillList (fill : List CanRecord) (d : Dev) : Dev :=
  { d with track := { d.track with fill := fill } }

/-- The head take: failing heads are freed until one passes or the list is empty (R11). -/
def Dev.takeHead : List CanRecord → Dev → Option CanRecord × Dev
  | [], d => (none, d.setFillList [])
  | r :: rest, d =>
    if r.bad then Dev.takeHead rest (Dev.failFilled r (d.setFillList rest))
    else (some r, d.setFillList rest)

/-- A judged entry's verdict formed again with TRACK_CHECK and the bare-pocket mask (R6, R97, R99, log 27). -/
def Entry.reformed (e : Entry) (bareMask : BitVec 11) : Entry :=
  match e.verdict with
  | none => { e with checkFail := true }
  | some v =>
    let reasons := v.reasons ||| Reason.trackCheck.mask
    { e with checkFail := true,
             verdict := some { reject := formReject reasons bareMask, reasons := reasons } }

/-- The record of pocket `p` is read and tested (R4, R6, R7): a failure sets the failed mark, the entry's
check failure field and, after judgement, the verdict anew. That a record already marked failed has the verdict
formed again at each later read, and that the bare-pocket mask is that of the setup in effect at the read, are the
model's choices (log 46). -/
def Dev.testPocket (p : Word) (d : Dev) : Dev :=
  let e := d.entry p
  match e.record with
  | none => d
  | some r =>
    if r.bad then
      let e' := { e.reformed d.su.bareMask with record := some { r with failed := true } }
      Dev.setEntry (d.raiseCheck r) p e'
    else d

/-! ### Suspect marking (R16, R145, R146) -/

/-- A record with its suspect flag set and its check code rewritten. -/
def CanRecord.marked (r : CanRecord) : CanRecord := { r with suspect := true, checkOk := true }

def Dev.countSuspect (d : Dev) : Dev :=
  { d with track := { d.track with suspects := d.track.suspects + 1 } }

/-- The marking of the record of pocket `p`. -/
def Dev.markPocket (d : Dev) (p : Word) : Dev :=
  let e := d.entry p
  match e.record with
  | none => d
  | some r =>
    if r.failed ∨ r.suspect then d
    else if r.checkOk then Dev.countSuspect (d.setEntry p { e with record := some r.marked })
    else d.testPocket p

/-- The marking of the fill list from head to tail; `kept` are the records already read, last first. -/
def Dev.markFill : List CanRecord → List CanRecord → Dev → Dev
  | [], kept, d => d.setFillList kept.reverse
  | r :: rest, kept, d =>
    if r.failed ∨ r.suspect then Dev.markFill rest (r :: kept) d
    else if r.checkOk then Dev.markFill rest (r.marked :: kept) d.countSuspect
    else Dev.markFill rest kept (d.failFilled r)

/-- A suspect marking: pocketed records oldest pocket first, then the fill list; then TRACK_SUSPECT (R145). -/
def Dev.markSuspects (d : Dev) : Dev :=
  let d := d.ringPockets.foldl Dev.markPocket d
  Dev.raise .trackSuspect (Dev.markFill d.track.fill [] d)

/-! ### Discard (R14) -/

/-- One record is discarded. -/
def Dev.discardRecord (r : CanRecord) (d : Dev) : Dev :=
  Dev.freeAs .discarded r r.bad (if r.checkOk then d else d.raiseCheck r)

def Dev.discardPocket (d : Dev) (p : Word) : Dev :=
  let e := d.entry p
  match e.record with
  | none => d
  | some r => Dev.discardRecord r (d.setEntry p { e with record := none })

def Dev.discardFill : List CanRecord → Dev → Dev
  | [], d => d
  | r :: rest, d => Dev.discardFill rest (Dev.discardRecord r (d.setFillList rest))

/-- Discarding the track: the POCKETED records oldest pocket first, then the fill list (R14). -/
def Dev.discardTrack (d : Dev) : Dev :=
  let d := d.ringPockets.foldl Dev.discardPocket d
  Dev.discardFill d.track.fill d

/-- Every entry of the ring is cleared, keeping its pocket number (R51, R150). -/
def Dev.clearRing (d : Dev) : Dev :=
  (List.range 64).foldl
    (fun d i =>
      let p : Word := BitVec.ofNat 32 i
      d.setEntry p (Entry.fresh (d.entry p).pocket)) d

end Sys2Proof.Machine
end

