-- ==== Sys2Proof/Machine/Weigh.lean ====
section
/-! DEFINITION. The Weigh unit (04_weighing.md R59 to R74). -/

namespace Sys2Proof.Machine

def Dev.setWeigh (w : WeighUnit) (d : Dev) : Dev := { d with weigh := w }

/-! ### Net weight (R70) -/

/-- The container tare that applies to an entry (R70). -/
def Dev.tareFor (d : Dev) (e : Entry) : Int :=
  match e.record with
  | some r => (d.recipeOf r.recipe).tare
  | none => match d.currentRecipe with | some r => r.tare | none => 0

/-- Gross less tare, clamped (R70). -/
def netOf (gross tare : Int) : Int := clamp32 (gross - tare)

/-- The net of an unjudged entry formed again from its gross; a weighing with flag UNSEEN stands (R70, R71). -/
def Dev.reformNet (d : Dev) (e : Entry) : Entry :=
  match e.verdict, e.weighing with
  | none, some w =>
    if w.flags &&& flagUnseen ≠ 0 then e
    else { e with weighing := some { w with net := netOf w.gross (d.tareFor e) } }
  | _, _ => e

/-- A switch changes the current recipe: the nets of bare pockets are formed again (R70). -/
def Dev.reformBare (d : Dev) : Dev :=
  (List.range 64).foldl
    (fun d i =>
      let p : Word := BitVec.ofNat 32 i
      let e := d.entry p
      if e.record = none then d.setEntry p (d.reformNet e) else d) d

/-! ### Samples (R60, R61, R64, R72) -/

/-- A sample enters an open window's accumulator (R61, R64). -/
def Accumulator.take (a : Accumulator) (gap : Bool) (w : Word) : Accumulator :=
  let a := { a with gap := a.gap || gap, overload := a.overload || overloadFlag w }
  if a.count < 65535 then { a with sum := a.sum + rawCount w, count := a.count + 1 } else a

/-- One sample at ring index `i` (R61, R64). -/
def Dev.takeSample (i : Nat) (w : Word) (d : Dev) : Dev :=
  let u := d.weigh
  let gap := match u.expected with | none => false | some j => decide (j ≠ i)
  let u := { u with
    gapAcc := if u.gapWin = .opened then u.gapAcc.take gap w else u.gapAcc
    weighAcc := if u.weighWin = .opened then u.weighAcc.take gap w else u.weighAcc
    expected := some (if i = 4095 then 0 else i + 1)
    silence := if d.pocket.running then .running 0 else u.silence }
  d.setWeigh u

/-- The samples of a write in address order (R59). -/
def Dev.takeSamples : Nat → List WWord → Dev → Dev
  | _, [], d => d
  | i, w :: ws, d => Dev.takeSamples (i + 1) ws (d.takeSample i (maskedWord w))

/-! ### Window closes (R65 to R68) -/

/-- The zero is stale (R66). -/
def Dev.zeroStale (d : Dev) : Bool := decide (d.su.staleLimit < d.weigh.zeroAge)

/-- The gap window's count and marks make it fit (R65). -/
def Dev.gapFit (d : Dev) : Bool :=
  decide (d.su.gapMin ≤ d.weigh.gapAcc.count) && !d.weigh.gapAcc.gap && !d.weigh.gapAcc.overload

/-- The zero, its age and the pending capture after a gap window close (R65). -/
def Dev.gapOutcome (d : Dev) : WeighUnit :=
  let u := { d.weigh with gapWin := .closed }
  let mean := divTrunc u.gapAcc.sum u.gapAcc.count
  if d.gapFit then
    if u.capture then { u with zero := mean, zeroAge := 0, capture := false, stale := false }
    else if (mean - u.zero).natAbs ≤ d.su.zeroBand then
      { u with zero := u.zero + shiftRightInt (mean - u.zero) d.su.zeroShift, zeroAge := 0, stale := false }
    else { u with zeroAge := satSucc 65535 u.zeroAge }
  else { u with zeroAge := satSucc 65535 u.zeroAge }

/-- The gap window closes (R65), and a zero found stale is reported once (R66). -/
def Dev.closeGap (d : Dev) : Dev :=
  let d := d.setWeigh d.gapOutcome
  if d.zeroStale = true ∧ d.weigh.stale = false then
    Dev.raise .scaleFault (d.setWeigh { d.weigh with stale := true })
  else d

/-- The gross of a mean (R67). -/
def Dev.grossOf (d : Dev) (mean : Int) : Int :=
  clamp32 (shiftRightInt ((mean - d.weigh.zero) * d.weigh.spanMul) d.weigh.spanShift)

/-- The closed weighing of the weigh window as it stands (R67, R68). -/
def Dev.closedWeighing (d : Dev) : ClosedWeighing :=
  let a := d.weigh.weighAcc
  if a.count = 0 then .unknown
  else
    let mean := divTrunc a.sum a.count
    let gross := d.grossOf mean
    let flags := flagIf (decide (a.count < d.su.weighMin)) flagShort ||| flagIf a.overload flagOverload |||
      flagIf a.gap flagGap ||| flagIf d.zeroStale flagZeroStale |||
      flagIf (decide ((d.su.maxGross : Int) < gross)) flagImplausible
    .weighed mean gross flags (decide ((d.su.presence : Int) ≤ gross))

/-- The weigh window closes (R67). -/
def Dev.closeWeigh (d : Dev) : Dev :=
  d.setWeigh { d.weigh with weighWin := .closed, closed := some d.closedWeighing }

/-- What a phase does to a window (R63). -/
inductive WindowMove where
  | stay | openIt | closeIt
  deriving DecidableEq, Repr

def windowMove (st : WindowState) (phase opens closes : Nat) : WindowMove :=
  match st with
  | .notOpened => if phase < opens then .stay else if phase < closes then .openIt else .closeIt
  | .opened => if phase < closes then .stay else .closeIt
  | .closed => .stay

/-- A phase moves the gap window (R63). -/
def Dev.moveGap (phase : Nat) (d : Dev) : Dev :=
  match windowMove d.weigh.gapWin phase d.su.gOpen d.su.gClose with
  | .stay => d
  | .openIt => d.setWeigh { d.weigh with gapWin := .opened }
  | .closeIt => d.closeGap

/-- A phase moves the weigh window (R63). -/
def Dev.moveWeigh (phase : Nat) (d : Dev) : Dev :=
  match windowMove d.weigh.weighWin phase d.su.wOpen d.su.wClose with
  | .stay => d
  | .openIt => d.setWeigh { d.weigh with weighWin := .opened }
  | .closeIt => d.closeWeigh

/-- A phase handed to the Weigh unit: first the gap window, then the weigh window (R63). -/
def Dev.handPhase (phase : Nat) (d : Dev) : Dev := Dev.moveWeigh phase (d.moveGap phase)

/-! ### Scale departure (R69, R48) -/

/-- Step 5 of a scale departure (R69), and the same at a line reset or a load (R62). -/
def WeighUnit.emptied (u : WeighUnit) : WeighUnit :=
  { u with gapWin := .notOpened, weighWin := .notOpened, gapAcc := .empty, weighAcc := .empty,
           closed := none }

/-- Step 3 of a scale departure: the pocket is CAN, takes its weighing, claims the head, and its net is
formed (R69, R70, R11). -/
def Dev.layCan (p : Word) (gross : Int) (flags : BitVec 6) (d : Dev) : Dev :=
  let taken := d.takeHead d.track.fill
  let d := taken.2
  let e := { d.entry p with occ := .can, record := taken.1 }
  d.setEntry p
    { e with weighing := some { gross := gross, net := netOf gross (d.tareFor e), flags := flags } }

/-- The scale pocket departs the scale (R69). -/
def Dev.scaleDeparts (p : Word) (d : Dev) : Dev :=
  let d := if d.weigh.gapWin = .closed then d else d.closeGap
  let d := if d.weigh.weighWin = .closed then d else d.closeWeigh
  let d := match d.weigh.closed with
    | some (.weighed _ gross flags true) => d.layCan p gross flags
    | _ => d
  d.setWeigh d.weigh.emptied

/-- An unseen pocket departs the scale (R48). -/
def Dev.unseenDeparts (p : Word) (d : Dev) : Dev := d.setEntry p { d.entry p with occ := .unseen }

/-! ### Scale silence (R72) -/

/-- The scale silence timer expires (R72). -/
def Dev.silenceExpired (d : Dev) : Dev :=
  match d.weigh.silence with
  | .running _ => Dev.raise .scaleFault (d.setWeigh { d.weigh with silence := .expired })
  | _ => d

end Sys2Proof.Machine
end

