-- ==== Sys2Proof/Machine/Valves.lean ====
section
/-! DEFINITION. The valve table (07_valve_records_and_trim.md R109 to R127): hand-overs, the trim update, valve
commands, and the words of the valve view and the query. -/

namespace Sys2Proof.Machine

/-! ### Hand-over from judgement (R111 to R117) -/

/-- What judgement hands the valve table (R98). -/
structure HandOver where
  ident      : Identity
  weighFault : Bool
  test       : Bool
  net        : Int
  deviation  : Int
  recipe     : Fin 4
  trim       : Int
  epoch      : BitVec 8
  reject     : Bool
  deriving DecidableEq, Repr

/-- Step 1 (R111). -/
def ValveRec.noteVerdict (r : ValveRec) (reject : Bool) : ValveRec :=
  { r with lastVerdict := some reject, rejects := if reject then r.rejects + 1#32 else r.rejects }

/-- A deviation joins the recent list, which keeps the 16 most recent (R112). -/
def joinRecent (xs : List Int) (x : Int) : List Int :=
  (if xs.length < 16 then xs else xs.drop 1) ++ [clamp32 x]

/-- Step 2: statistics and runs (R113, R114). -/
def ValveRec.noteWeight (r : ValveRec) (net deviation : Int) (band : Nat) : ValveRec :=
  let r := { r with confirmed := r.confirmed + 1#32, lastNet := some net,
                    recent := joinRecent r.recent deviation }
  if band < deviation.natAbs then { r with outlier := satSucc 65535 r.outlier, good := 0 }
  else { r with outlier := 0, good := satSucc 65535 r.good }

/-- The computed trim, before the clamp (R116). -/
def computedTrim (issued deviation : Int) (gain : Nat) : Int :=
  issued - divTrunc (deviation * gain) 16

/-- The update ends at a limit (R116). -/
def endsAtLimit (computed : Int) (limit : Nat) : Bool :=
  decide (computed ≠ 0) && (decide ((limit : Int) ≤ computed) || decide (computed ≤ -(limit : Int)))

/-- Step 3's effect: the trim and the at-limit run (R116). -/
def ValveRec.updateTrim (r : ValveRec) (computed : Int) (limit : Nat) : ValveRec :=
  { r with trim := clampInt (-(limit : Int)) limit computed,
           atLimit := if endsAtLimit computed limit then satSucc 65535 r.atLimit else 0 }

/-- The conditions of the trim update (R115). -/
def Dev.trimAllowed (d : Dev) (r : ValveRec) (h : HandOver) : Bool :=
  h.ident == .confirmed && !h.weighFault && !h.test && d.currentSlot == some h.recipe &&
    d.setup.trimApply && !(r.st == .suspended) && h.epoch == r.epoch

/-- Step 4: the state test (R117), with the cause it raises. -/
def ValveRec.testState (r : ValveRec) (c : Recipe) : ValveRec × Option Cause :=
  match r.st with
  | .suspended => (r, none)
  | st =>
    if c.autoSuspend = true ∧ c.suspendCount ≤ r.outlier then
      ({ r with st := .suspended, cause := some .auto }, some .valveSuspended)
    else if st = .inService ∧ (c.watchCount ≤ r.outlier ∨ 8 ≤ r.atLimit) then
      ({ r with st := .watch }, some .valveWatch)
    else if st = .watch ∧ c.watchCount ≤ r.good then
      ({ r with st := .inService, good := 0, atLimit := 0 }, none)
    else (r, none)

/-- Whether two records hold the same three runs. -/
def ValveRec.sameRuns (a b : ValveRec) : Bool :=
  a.outlier == b.outlier && a.good == b.good && a.atLimit == b.atLimit

/-- A hand-over is taken in its four steps (R111); the state is tested if a run changed. -/
def Dev.handOver (v : Fin 64) (h : HandOver) (d : Dev) : Dev :=
  let c := d.recipeOf h.recipe
  let r0 := (d.valveRec v).noteVerdict h.reject
  if h.ident = .confirmed ∧ h.weighFault = false then
    let r1 := r0.noteWeight h.net h.deviation c.outlierBand
    let r2 := if d.trimAllowed r1 h then
      r1.updateTrim (computedTrim h.trim h.deviation c.gain) c.trimLimit else r1
    let r3 := if r0.sameRuns r2 then (r2, none) else r2.testState c
    let d := d.setValve v r3.1
    match r3.2 with | none => d | some x => d.raise x
  else d.setValve v r0

/-! ### Valve commands (R119, R120) -/

/-- The seven valve commands (R120). -/
inductive ValveCommand where
  | armTest | disarmTest | suspend | resume | zeroTrim | setTrim | clearStats
  deriving DecidableEq, Repr

/-- The codes of 12.3. -/
def ValveCommand.code : ValveCommand → Nat
  | .armTest => 1 | .disarmTest => 2 | .suspend => 3 | .resume => 4 | .zeroTrim => 5 | .setTrim => 6
  | .clearStats => 7

/-- The command of a code, if it is one of the seven (R119, R175). -/
def valveCommandOf (code : Nat) : Option ValveCommand :=
  if code = 1 then some .armTest else if code = 2 then some .disarmTest
  else if code = 3 then some .suspend else if code = 4 then some .resume
  else if code = 5 then some .zeroTrim else if code = 6 then some .setTrim
  else if code = 7 then some .clearStats else none

/-- A valve command's effect on the record (R120). `limit` is the current recipe's trim limit, 0 when no
recipe is CURRENT, so that SET_TRIM then sets 0. -/
def ValveRec.command (r : ValveRec) (c : ValveCommand) (operand : Int) (limit : Nat) : ValveRec :=
  match c with
  | .armTest => { r with arm := true }
  | .disarmTest => { r with arm := false }
  | .suspend => { r with st := .suspended, cause := some .software }
  | .resume => { r with st := .inService, cause := none, outlier := 0, good := 0, atLimit := 0 }
  | .zeroTrim => { r with trim := 0, epoch := r.epoch + 1#8, atLimit := 0 }
  | .setTrim => { r with trim := clampInt (-(limit : Int)) limit operand, epoch := r.epoch + 1#8,
                         atLimit := 0 }
  | .clearStats => { r with recent := [], fills := 0, confirmed := 0, rejects := 0, lastNet := none,
                            lastVerdict := none, lastSeq := none }

/-- The current recipe's trim limit, if one is CURRENT (R122, R120). -/
def Dev.trimLimit (d : Dev) : Option Nat := d.currentRecipe.map fun r => r.trimLimit

/-- One command is one arrival at its valve's record (R119). -/
def Dev.commandValve (v : Fin 64) (c : ValveCommand) (operand : Int) (d : Dev) : Dev :=
  d.setValve v ((d.valveRec v).command c operand (d.trimLimit.getD 0))

/-- A command word's code and operand (12.3). -/
def commandCode (w : Word) : Nat := bits w 16 8
def commandOperand (w : Word) : Int := (BitVec.ofNat 16 (bits w 0 16)).toInt

/-- One word of a write to the valve command words (R119). -/
def Dev.takeCommandWord (v : Nat) (w : WWord) (d : Dev) : Dev :=
  if isFull w = false ∨ d.su.valves ≤ v then d
  else match valveCommandOf (commandCode w.data) with
    | none => d
    | some c => d.commandValve (Fin.ofNat 64 v) c (commandOperand w.data)

/-- The words of a write in increasing valve order (R119). -/
def Dev.takeCommandWords : Nat → List WWord → Dev → Dev
  | _, [], d => d
  | v, w :: ws, d => Dev.takeCommandWords (v + 1) ws (d.takeCommandWord v w)

/-! ### The valve view (R122 to R124, 12.4) -/

/-- Whether valve `v` is idle with the nominal fetched for it (R122, R25). -/
def Dev.idleValve (d : Dev) (v : Nat) (nominal : Word) : Bool :=
  decide (d.su.valves ≤ v) || decide (nominal = 0)

/-- The condition word of valve `v` (R122). -/
def Dev.conditionOf (d : Dev) (v : Fin 64) (nominal : Word) : BitVec 16 :=
  conditionWord (d.valveRec v) d.trimLimit (d.idleValve v.val nominal)

/-- The 16 words of valve record `v` formed live (R123, R124, 12.4). `nominal` is the nominal fetched,
0 for a valve numbered V or above. -/
def Dev.viewWords (d : Dev) (v : Fin 64) (nominal : Word) : List Word :=
  let r := d.valveRec v
  [ BitVec.ofNat 32 ((d.conditionOf v nominal).toNat + put v.val 16 6),
    BitVec.ofNat 32 (put r.st.code 0 2 + put (causeCode r.cause) 4 2 + put r.epoch.toNat 8 8),
    ofInt r.trim,
    BitVec.ofNat 32 (put r.outlier 0 16 + put r.good 16 16),
    BitVec.ofNat 32 (put r.atLimit 0 16 + put (d.trimLimit.getD 0) 16 16),
    r.fills, r.confirmed, r.rejects,
    ofInt (r.lastNet.getD 0),
    r.lastSeq.getD 0,
    BitVec.ofNat 32 (put r.recent.length 0 5 + put (verdictCode r.lastVerdict) 8 2 +
      putBit r.lastNet.isSome 12),
    ofInt (recentMean r.recent),
    ofInt (recentSpread r.recent),
    ofInt (r.recent.getLast?.getD 0),
    ofInt (r.recent.head?.getD 0),
    nominal ]

/-- The nominal fetched for valve `v`, 0 for one numbered V or above (R123). -/
def Dev.fetchedNominal (d : Dev) (noms : List (Nat × Word)) (v : Nat) : Word :=
  if d.su.valves ≤ v then 0 else (noms.lookup v).getD 0

/-- The latch answers word `k` of valve `v` for master `m` (R124). -/
def latched (l : Option Latch) (m : Master) (v k : Nat) : Option Word :=
  match l with
  | none => none
  | some l => if k ≠ 0 ∧ l.master = m ∧ l.valve.val = v then some (wordAt l.words k) else none

/-- The words of a valve view read from window word `i` on: each from the latch or live, word 0 of a
record filling the latch (R123, R124). -/
def Dev.viewRead (m : Master) (noms : List (Nat × Word)) : Nat → Nat → Dev → List Word × Dev
  | _, 0, d => ([], d)
  | i, n + 1, d =>
    let v := i / 16
    let k := i % 16
    let live := d.viewWords (Fin.ofNat 64 v) (d.fetchedNominal noms v)
    let word := (latched d.path.latch m v k).getD (wordAt live k)
    let d := if k = 0 then
      { d with path := { d.path with
          latch := some { master := m, valve := Fin.ofNat 64 v, words := live } } } else d
    let rest := Dev.viewRead m noms (i + 1) n d
    (word :: rest.1, rest.2)

/-- The valves whose nominal a valve view read needs: those below V with a live word 0 or a live nominal
word in the read (R123). `l` is the latch as the read's earlier words leave it. -/
def Dev.viewNeeds (d : Dev) (m : Master) : Option (Master × Nat) → Nat → Nat → List Nat
  | _, _, 0 => []
  | l, i, n + 1 =>
    let v := i / 16
    let k := i % 16
    let l' := if k = 0 then some (m, v) else l
    let rest := d.viewNeeds m l' (i + 1) n
    if (k = 0 ∨ (k = 15 ∧ l ≠ some (m, v))) ∧ v < d.su.valves ∧ v ∉ rest then v :: rest else rest

/-! ### The query (R125 to R127) -/

/-- Whether valve `v` matches the pattern (R126). -/
def Dev.queryMatches (d : Dev) (noms : List (Nat × Word)) (v : Nat) : Bool :=
  decide (v < d.su.valves) &&
    decide ((d.conditionOf (Fin.ofNat 64 v) (d.fetchedNominal noms v) ^^^ d.valve.queryRef) &&&
      d.valve.queryCare = 0)

/-- The match word of the half that starts at valve `v` (R126). -/
def Dev.queryWord (d : Dev) (noms : List (Nat × Word)) (v : Nat) : Word :=
  BitVec.ofNat 32 (((List.range 32).map fun i => putBit (d.queryMatches noms (v + i)) i).foldl (· + ·) 0)

/-- The words of a query read (R126). -/
def Dev.queryWords (d : Dev) (noms : List (Nat × Word)) (hi : Bool) (n : Nat) : List Word :=
  (List.range n).map fun i => d.queryWord noms (if hi then 32 else 32 * i)

/-- The bursts of up to eight words that fetch the nominals of the valves below V from `v` to `last` (R126). -/
def nominalBursts : Nat → Nat → Nat → List (Nat × Nat)
  | 0, _, _ => []
  | k + 1, v, last =>
    if v < last then (v, min 8 (last - v)) :: nominalBursts k (v + 8) last else []

end Sys2Proof.Machine
end

