-- ==== Sys2Proof/Machine/Verdicts.lean ====
section
/-! DEFINITION. Judgement at the reader, gate polls and gate departure (06_verdicts_and_the_gate.md R94 to R108). -/

namespace Sys2Proof.Machine

/-! ### Judgement (R94 to R98) -/

/-- The recipe that applies to a judged pocket (R95). -/
def Dev.recipeFor (d : Dev) (e : Entry) : Option Recipe :=
  match e.record with
  | some r => some (d.recipeOf r.recipe)
  | none => d.currentRecipe

/-- The reasons that the weighing and the limits give (R96). -/
def weightReasons (c : Option Recipe) (e : Entry) : BitVec 11 :=
  match c, e.weighing with
  | some c, some w =>
    reasonIf (decide (w.net < c.lowLimit)) .under ||| reasonIf (decide (c.highLimit < w.net)) .over
  | _, _ => 0

/-- The weighing carries a flag, or the pocket is UNSEEN (R96). -/
def Entry.weighFault (e : Entry) : Bool :=
  (match e.weighing with | some w => decide (w.flags ≠ 0) | none => false) || e.occ == .unseen

/-- The reason that the identity gives (R96). -/
def Identity.reason : Identity → BitVec 11
  | .unchecked => 0
  | .confirmed => 0
  | .noRead => Reason.noRead.mask
  | .missed => Reason.missedRead.mask
  | .conflict => Reason.idConflict.mask
  | .lotMismatch => Reason.lotMismatch.mask
  | .untracked => 0

/-- The reasons that the record gives (R96). -/
def Entry.recordReasons (e : Entry) : BitVec 11 :=
  match e.record with
  | none => Reason.untracked.mask
  | some r =>
    reasonIf (r.suspect && !(e.ident == .confirmed)) .suspect ||| reasonIf r.test .test

/-- The reason set of a judged pocket (R96). -/
def Dev.reasonsFor (d : Dev) (e : Entry) : BitVec 11 :=
  weightReasons (d.recipeFor e) e ||| reasonIf e.weighFault .weighFault ||| e.ident.reason |||
    e.recordReasons ||| reasonIf e.checkFail .trackCheck

/-- The reject mask of a judged pocket (R97). -/
def Dev.maskFor (d : Dev) (e : Entry) : BitVec 11 :=
  match e.record with
  | none => d.su.bareMask
  | some r => if e.checkFail then d.su.bareMask else (d.recipeOf r.recipe).mask

/-- What a judged entry whose record passed its check hands the valve table (R98). -/
def Dev.handOverFor (d : Dev) (e : Entry) (r : CanRecord) (v : Verdict) : HandOver :=
  let net := match e.weighing with | some w => w.net | none => 0
  { ident := e.ident, weighFault := hasReason v.reasons .weighFault, test := hasReason v.reasons .test,
    net := net, deviation := net - (d.recipeOf r.recipe).target, recipe := r.recipe, trim := r.trim,
    epoch := r.epoch, reject := v.reject }

/-- The pocket departing the reader is judged (R94). -/
def Dev.judge (p : Word) (d : Dev) : Dev :=
  if (d.entry p).occ = .none then d
  else
    let d := d.testPocket p
    let e := d.entry p
    let reasons := d.reasonsFor e
    let v : Verdict := { reject := formReject reasons (d.maskFor e), reasons := reasons }
    let d' := d.setEntry p { e with verdict := some v }
    match e.record with
    | none => d'.drawn
    | some r => if e.checkFail then d'.drawn else Dev.handOver r.valve (d.handOverFor e r v) d'

/-- The missed-read test (R90, R91). -/
def Dev.missedRead (p : Word) (d : Dev) : Dev :=
  let e := d.entry p
  if e.occ = .can ∧ e.ident = .unchecked then
    let run := satSucc 63 d.code.missRun
    let d' := Dev.setEntry { d with code := { d.code with missRun := run } } p { e with ident := .missed }
    if d.code.missRun < d.su.readerSilent ∧ run = d.su.readerSilent then d'.raise .readerFault else d'
  else d

/-- Reader departure: the missed-read test, then judgement (R94). -/
def Dev.readerDeparts (p : Word) (d : Dev) : Dev := Dev.judge p (d.missedRead p)

/-! ### Gate polls (R100 to R104) -/

/-- The tag of an entry's record, 0 for none (R101). -/
def Entry.tag (e : Entry) : BitVec 12 := match e.record with | none => 0 | some r => r.tag

/-- The answer a first poll gives: REJECT if the verdict is REJECT and gate enforcement is on (R101). -/
def Dev.firstAnswer (d : Dev) (e : Entry) : Bool :=
  match e.verdict with | none => false | some v => v.reject && d.setup.enforce

/-- The gate pocket's number, if a position is held (R100). -/
def Dev.gatePocket (d : Dev) : Option Word := d.pocketNow.map fun p => p - BitVec.ofNat 32 d.su.dGate

/-- A gate poll: the answer word and the part after it (R100 to R103). -/
def Dev.pollGate (d : Dev) : Word × Dev :=
  match d.gatePocket with
  | none => (gateWord false true 0 0, d)
  | some g =>
    if (d.entry g).pocket ≠ g then (gateWord false true g 0, d)
    else
      let d := d.testPocket g
      let e := d.entry g
      if e.occ = .none then (gateWord false true g 0, d)
      else match e.gate with
        | none =>
          let a := d.firstAnswer e
          (gateWord a false g e.tag, d.setEntry g { e with gate := some a })
        | some a =>
          (gateWord a false g e.tag, d.setEntry g { e with repeats := satSucc 15 e.repeats })

/-- An inspection read of GATE: a first poll's word, with nothing recorded (R104). -/
def Dev.inspectGate (d : Dev) : Word × Dev :=
  match d.gatePocket with
  | none => (gateWord false true 0 0, d)
  | some g =>
    if (d.entry g).pocket ≠ g then (gateWord false true g 0, d)
    else
      let d := d.testPocket g
      let e := d.entry g
      if e.occ = .none then (gateWord false true g 0, d)
      else (gateWord (d.firstAnswer e) false g e.tag, d)

/-! ### Gate departure (R106, R107) -/

/-- The gate state of a departing entry (R106). -/
def Entry.gateState (e : Entry) : GateState :=
  match e.gate with | none => .ungated | some a => .gated a e.repeats

/-- The gate departure result (R107). -/
def Dev.gateResult (d : Dev) (e : Entry) : Result :=
  { seq := match e.record with | none => 0 | some r => r.seq
    record := e.record.map CanRecord.resultFields
    ident := .pocket e.ident
    pocket := some e.pocket
    lot := match e.record with | none => e.codeLot | some r => some (d.lotOf r.recipe)
    reasons := match e.verdict with | none => 0 | some v => v.reasons
    verdict := e.verdict.map fun v => v.reject
    gate := some e.gateState
    weighing := e.weighing }

/-- The pocket at the gate departs (R106): its record is tested, REJECT_MISSED raised for an ungated
reject, its result composed, its record freed, its entry cleared (R51). -/
def Dev.gateDeparts (p : Word) (d : Dev) : Dev :=
  if (d.entry p).occ = .none then d.setEntry p (Entry.fresh (d.entry p).pocket)
  else
    let d := d.testPocket p
    let e := d.entry p
    let d := match e.gate, e.verdict with
      | none, some v => if v.reject then d.raise .rejectMissed else d
      | _, _ => d
    let d := d.compose (d.gateResult e)
    let d := d.setEntry p (Entry.fresh e.pocket)
    match e.record with
    | none => d
    | some r => d.releaseRecord r

end Sys2Proof.Machine
end

