-- ==== Sys2Proof/Machine/Codes.lean ====
section
/-! DEFINITION. The Code unit (05_codes_and_identity.md R75 to R89): code records, the identity decision and
the re-layouts. The missed-read test (R90) stands with reader departure in Verdicts. -/

namespace Sys2Proof.Machine

/-- A code record as taken (R75, 12.2). -/
structure CodeRec where
  good  : Bool
  lot   : BitVec 16
  tag   : BitVec 12
  valve : Nat
  deriving DecidableEq, Repr

/-- The record that words 0 to 2 of a slot carry; a status that is neither GOOD nor NO_READ is NO_READ (R75). -/
def codeRecOf (w0 w1 w2 : Word) : CodeRec :=
  { good := w0 == 1#32, lot := BitVec.ofNat 16 (bits w1 0 16), tag := BitVec.ofNat 12 (bits w2 0 12),
    valve := bits w2 16 6 }

def Dev.setCode (c : CodeUnit) (d : Dev) : Dev := { d with code := c }

/-- A code that finds no can (R78, R81). -/
def Dev.phantom (d : Dev) : Dev := d.setCode { d.code with phantom := d.code.phantom + 1#16 }

/-- A later code that agrees (R79). -/
def Dev.duplicate (d : Dev) : Dev := d.setCode { d.code with duplicate := d.code.duplicate + 1#16 }

/-! ### Later codes (R79) -/

/-- Whether a later code agrees with the identity the first decided (R79). -/
def Entry.agrees (e : Entry) (c : CodeRec) : Bool :=
  match e.ident with
  | .confirmed => c.good && (match e.record with | none => false | some r => r.tag == c.tag)
  | .lotMismatch => c.good && (match e.record with | none => false | some r => r.tag == c.tag)
  | .untracked => c.good && c.tag == 0
  | .noRead => !c.good
  | .conflict => true
  | .unchecked => true
  | .missed => true

/-- A later code (R79). Its comparison with the held record's tag reads that tag as the slot holds it and makes no
check-code test, so it sets no failed mark and raises no TRACK_CHECK: the model's choice (log 52), for R4 says of
every read of a live record that it tests, but leaves this one out of its list. -/
def Dev.laterCode (r : Word) (c : CodeRec) (d : Dev) : Dev :=
  let e := d.entry r
  let e' := { e with codes := satSucc 255 e.codes }
  if e.agrees c then Dev.duplicate (d.setEntry r e')
  else d.setEntry r { e' with ident := .conflict }

/-! ### The lists Q and S (R83) -/

/-- The pockets from `p` on, `n` of them, whose occupancy is CAN. -/
def Dev.canPockets (d : Dev) : Word → Nat → List Word
  | _, 0 => []
  | p, n + 1 =>
    if (d.entry p).occ = .can then p :: d.canPockets (p + 1#32) n else d.canPockets (p + 1#32) n

/-- Q: the reader pocket, then the CAN pockets up to the one before the scale pocket (R83). -/
def Dev.listQ (d : Dev) (r : Word) : List Word := r :: d.canPockets (r + 1#32) (d.su.dRead - 1)

/-- The pockets of Q that hold a record: the pocketed part of S, in order (R83). -/
def Dev.holders (d : Dev) (q : List Word) : List Word := q.filter fun p => (d.entry p).record.isSome

/-! ### The tag search (R84) -/

/-- The search of the fill list part of S from index `k`; `kept` are its records already read, last
first. -/
def Dev.searchFill (tag : BitVec 12) : List CanRecord → List CanRecord → Nat → Dev →
    Option (Nat × CanRecord) × Dev
  | [], _, _, d => (none, d)
  | r :: rest, kept, k, d =>
    if 16 < k then (none, d)
    else if r.bad then
      Dev.searchFill tag rest kept k (Dev.failFilled r (d.setFillList (kept.reverse ++ rest)))
    else if r.tag = tag then (some (k, r), d)
    else Dev.searchFill tag rest (r :: kept) (k + 1) d

/-- The search of S from the pockets that hold its first records (R84). -/
def Dev.searchTag (tag : BitVec 12) : List Word → Nat → Dev → Option (Nat × CanRecord) × Dev
  | [], k, d => Dev.searchFill tag d.track.fill [] k d
  | p :: ps, k, d =>
    if 16 < k then (none, d)
    else
      let d := d.testPocket p
      match (d.entry p).record with
      | none => Dev.searchTag tag ps (k + 1) d
      | some r =>
        if r.bad = false ∧ r.tag = tag then (some (k, r), d) else Dev.searchTag tag ps (k + 1) d

/-! ### The movements (R86, R87) -/

/-- Free the first `k` records of S as LOST: first those of the pockets, then those of the fill list. -/
def Dev.freeFront : List Word → Nat → Dev → Dev
  | _, 0, d => d
  | [], k + 1, d =>
    match d.track.fill with
    | [] => d
    | r :: rest => Dev.freeFront [] k (Dev.freeAs .lost r r.bad (d.setFillList rest))
  | p :: ps, k + 1, d =>
    match (d.entry p).record with
    | none => Dev.freeFront ps k d
    | some r => Dev.freeFront ps k (Dev.freeAs .lost r r.bad (d.setEntry p { d.entry p with record := none }))

/-- Deal the records to the pockets of Q in order: first those held by the pockets `src`, each tested as
it is moved, then heads of the fill list (R12, R86). -/
def Dev.deal : List Word → List Word → Dev → Dev
  | [], _, d => d
  | p :: ps, [], d =>
    let taken := d.takeHead d.track.fill
    Dev.deal ps [] (taken.2.setEntry p { taken.2.entry p with record := taken.1 })
  | p :: ps, s :: ss, d =>
    let d := d.testPocket s
    let r := (d.entry s).record
    let d := d.setEntry s { d.entry s with record := none }
    Dev.deal ps ss (d.setEntry p { d.entry p with record := r })

/-- The record that pocket `p` holds, by its slot. -/
def Dev.slotAt (d : Dev) (p : Word) : Option Nat := (d.entry p).record.map fun r => r.slot

/-- Pockets of Q whose record changed since `old` have their net formed again (R70, R86, R87). -/
def Dev.reformMoved (q : List Word) (old : Dev) (d : Dev) : Dev :=
  q.foldl (fun d p => if d.slotAt p = old.slotAt p then d else d.setEntry p (d.reformNet (d.entry p))) d

/-- A forward re-layout by `k` records, or a close-up with `k = 0` (R86). -/
def Dev.moveForward (q : List Word) (k : Nat) (d : Dev) : Dev :=
  let src := d.holders q
  let d' := Dev.reformMoved q d (Dev.deal q (src.drop k) (Dev.freeFront src k d))
  Dev.raise .slip (d'.setCode { d'.code with forward := d'.code.forward + BitVec.ofNat 16 k })

/-- Each pocket of Q takes the record its predecessor held; `r` is what the predecessor held. What the last
pocket held is returned (R87). -/
def Dev.pushOn : List Word → Option CanRecord → Dev → Option CanRecord × Dev
  | [], r, d => (r, d)
  | p :: ps, r, d => Dev.pushOn ps (d.entry p).record (d.setEntry p { d.entry p with record := r })

/-- A backward re-layout (R13, R87). -/
def Dev.moveBackward (q : List Word) (d : Dev) : Dev :=
  let pushed := Dev.pushOn q none d
  let d' := match pushed.1 with
    | none => pushed.2
    | some r => pushed.2.setFillList (r :: pushed.2.track.fill)
  let d' := Dev.reformMoved q d d'
  Dev.raise .slip (d'.setCode { d'.code with backward := d'.code.backward + 1#16 })

/-! ### The identity decision (R80 to R85, R88) -/

/-- An UNSEEN pocket that takes a record becomes CAN with a weighing that is no true weight (R88, R71). -/
def Entry.madeCan (e : Entry) : Entry :=
  if e.occ = .unseen then
    { e with occ := .can, weighing := some { gross := 0, net := 0, flags := flagUnseen } }
  else e

/-- The pocket's record is confirmed: the identity is written and the suspect flag cleared (R85, R16). -/
def Dev.confirm (r : Word) (c : CodeRec) (d : Dev) : Dev :=
  let e := d.entry r
  match e.record with
  | none => d
  | some x =>
    let ident := if d.su.lotCheck = true ∧ c.lot ≠ d.lotOf x.recipe then .lotMismatch else .confirmed
    let n := if x.suspect then d.track.suspects - 1 else d.track.suspects
    let d := d.setEntry r { e with ident := ident, record := some { x with suspect := false, checkOk := true } }
    Dev.drawn { d with track := { d.track with suspects := n } }

/-- The pocket takes identity CONFLICT. -/
def Dev.conflict (r : Word) (d : Dev) : Dev := d.setEntry r { d.entry r with ident := .conflict }

/-- A first GOOD code with a tag on a pocket that is CAN or UNSEEN (R83 to R86, R88). -/
def Dev.identify (r : Word) (c : CodeRec) (d : Dev) : Dev :=
  let q := d.listQ r
  let found := Dev.searchTag c.tag (d.holders q) 0 d
  let d := found.2
  match found.1 with
  | none => d.conflict r
  | some (k, x) =>
    if x.valve.val ≠ c.valve then d.conflict r
    else if k = 0 ∧ (d.entry r).record.isSome = true then d.confirm r c
    else
      let d := d.moveForward q k
      Dev.confirm r c (d.setEntry r (d.entry r).madeCan)

/-- A first GOOD code with tag 0 on a pocket that is CAN or UNSEEN (R82, R87). -/
def Dev.untag (r : Word) (d : Dev) : Dev :=
  let d := if (d.entry r).record.isSome then d.moveBackward (d.listQ r) else d
  d.setEntry r { d.entry r with ident := .untracked }

/-- A first code (R80 to R83). -/
def Dev.firstCode (r : Word) (c : CodeRec) (d : Dev) : Dev :=
  let e := d.entry r
  if c.good = false then d.setEntry r { e with codes := 1, ident := .noRead }
  else if e.occ = .none then d.phantom
  else
    let d := d.setEntry r { e with codes := 1, codeLot := some c.lot }
    if c.tag = 0 then d.untag r else d.identify r c

/-- A code record applies to the reader pocket, if there is one (R78). -/
def Dev.applyCode (c : CodeRec) (d : Dev) : Dev :=
  match d.pocketNow with
  | none => d.phantom
  | some p =>
    let r := p - BitVec.ofNat 32 d.su.dRead
    if (d.entry r).pocket ≠ r then d.phantom
    else if (d.entry r).codes = 0 then d.firstCode r c
    else d.laterCode r c

/-! ### Taking a slot (R75, R76, R91) -/

/-- The slot after `j` (R76). -/
def nextCodeIndex (j : Nat) : Nat := if j = 127 then 0 else j + 1

/-- Slot `j` with sequence number `seq` is a repost (R76). -/
def CodeUnit.isRepost (u : CodeUnit) (j : Nat) (seq : Word) : Bool :=
  decide (nextCodeIndex j = u.expected) && u.last == some seq

/-- The Code unit takes slot `j` (R76, R91): a repost is not taken; a reader gap raises READER_FAULT. -/
def Dev.takeCode (j : Nat) (c : CodeRec) (seq : Word) (d : Dev) : Dev :=
  if d.code.isRepost j seq then d
  else
    let d := if j = d.code.expected then d else d.raise .readerFault
    let d := Dev.applyCode c (d.setCode { d.code with missRun := 0 })
    d.setCode { d.code with expected := nextCodeIndex j, last := some seq }

end Sys2Proof.Machine
end

