-- ==== Sys2Proof/Machine/Loads.lean ====
section
/-! DEFINITION. The Setup block's loads (11_setup_status_and_results.md R165 to R167; R56, R62, R153, R154). -/

namespace Sys2Proof.Machine

/-! ### Beginning a load (R165, R166) -/

/-- The burst that reads the setup block from word `k` on (R166). -/
def Dev.setupBurst (d : Dev) (k : Nat) : Burst := { op := .setup, addr := d.base + 4 * k, kind := .read 8 }

/-- A load begins: LOADING, the deferred-load flag clear, the first burst placed; from UNLOADED the pending
set is emptied (R165, R166). -/
def Dev.beginLoad (d : Dev) : Dev :=
  let fromReady := decide (d.setup.part = .ready)
  let d := if fromReady then d else d.acknowledge (~~~0#21)
  Dev.placeBurst (d.setupBurst 0)
    { d with setup := { d.setup with part := .loading fromReady, deferred := false, loadWords := [] } }

/-- The values of the LOAD word (12.3). -/
inductive LoadValue where
  | now | atStop
  deriving DecidableEq, Repr

/-- The value a LOAD word carries (R165, R175). -/
def loadValueOf (w : Word) : Option LoadValue :=
  if w = 1#32 then some .now else if w = 2#32 then some .atStop else none

/-- A LOAD word taken in UNLOADED or READY (R165); while LRST is asserted it is not taken (R152). -/
def Dev.takeLoad (v : LoadValue) (d : Dev) : Dev :=
  if d.path.lrst then d
  else match d.setup.part with
    | .unplaced => d
    | .loading _ => d
    | .unloaded => d.beginLoad
    | .ready =>
      if d.pocket.running = false then d.beginLoad
      else match v with
        | .now =>
          Dev.raise .loadError
            { d with setup := { d.setup with loadError := { code := .notStopped, field := 255 } } }
        | .atStop => { d with setup := { d.setup with deferred := true } }

/-! ### The end of a load (R166) -/

/-- The field held in word `k` of the setup block, 255 for none (12.6). -/
def setupField (k : Nat) : Nat := if k ≤ 30 then k else 255

/-- A load fails (R166). -/
def Dev.loadFailed (fromReady : Bool) (e : LoadError) (d : Dev) : Dev :=
  Dev.raise .loadError
    { d with setup := { d.setup with
        part := if fromReady then .ready else .unloaded, loadError := e, loadWords := [] } }

/-- Whether a setup changes the geometry, a first load included (R56, R153). -/
def Dev.geometryChanges (d : Dev) (u : Setup) : Bool :=
  match d.setup.setup with | none => true | some old => !sameGeometry old u

/-- The discard of track, ring and position of a geometry change (R56). -/
def Dev.dropGeometry (d : Dev) : Dev :=
  let d := Dev.clearRing d.discardTrack
  { d with pocket := { d.pocket with pos := none } }

/-- What every successful load does to the Pocket counter, the Weigh unit and the Code unit (R56, R62,
R77). -/
def Dev.loadUnits (u : Setup) (d : Dev) : Dev :=
  let w := d.weigh.emptied
  { d with
    pocket := { d.pocket with running := false, reversal := false, stall := none, stop := .running 0 }
    weigh := { w with expected := none, silence := .idle, capture := true,
                      spanMul := u.spanMul, spanShift := u.spanShift }
    code := { d.code with missRun := 0 } }

/-- The setup goes into effect (R166). -/
def Dev.putSetup (u : Setup) (d : Dev) : Dev :=
  { d with setup := { d.setup with
      part := .ready, setup := some u, loadError := { code := .none, field := 255 }, retained := false,
      loadWords := [] } }

/-- Reporting starts at the setup's first descriptor when it waits on nothing (R174). -/
def Dev.startReporting (u : Setup) (d : Dev) : Dev :=
  match d.report.reporting with
  | .waiting .nothing => d.openDescriptor u.firstDesc
  | _ => d

/-- A load succeeds (R166, R56, R154, log 43). -/
def Dev.loadSucceeded (u : Setup) (d : Dev) : Dev :=
  let changed := d.geometryChanges u
  let recovery := d.setup.retained && !changed
  let d := if changed then d.dropGeometry else d
  let d := Dev.raise .loadDone (Dev.putSetup u (d.loadUnits u))
  let d := if recovery then d.markSuspects else d
  d.startReporting u

/-- The answer of a setup block burst (R166, R167). -/
def Dev.setupAnswered (ok : Bool) (ws : List Word) (d : Dev) : Dev :=
  match d.setup.part with
  | .loading fromReady =>
    let k := d.setup.loadWords.length
    if ok = false then d.loadFailed fromReady { code := .readFault, field := setupField k }
    else
      let got := d.setup.loadWords ++ ws
      if got.length < 64 then
        Dev.placeBurst (d.setupBurst got.length) { d with setup := { d.setup with loadWords := got } }
      else match setupCheck d.size (setupOfWords got) with
        | some e => d.loadFailed fromReady e
        | none => d.loadSucceeded (setupOfWords got)
  | _ => d

end Sys2Proof.Machine
end

