-- ==== Sys2Proof/Machine/Pocket.lean ====
section
/-! DEFINITION. The Pocket counter (03_the_pocket_conveyor.md R41 to R55): position events, boundaries and the line
state's timers. -/

namespace Sys2Proof.Machine

def Dev.setPocket (u : PocketUnit) (d : Dev) : Dev := { d with pocket := u }

/-- The entry of pocket `p` is started (R51). -/
def Dev.startEntry (p : Word) (d : Dev) : Dev := d.setEntry p (Entry.fresh p)

/-- A word establishes the position (R43). -/
def Dev.establish (w : Word) (d : Dev) : Dev :=
  let high : BitVec 48 := w.zeroExtend 48
  Dev.startEntry (pocketOf high d.su.pitch)
    (d.setPocket { d.pocket with pos := some { last := w, ext := high, high := high } })

/-- The extended position after a word (R44). -/
def Position.follow (q : Position) (w : Word) : Position :=
  { q with last := w, ext := q.ext + (w - q.last).signExtend 48 }

/-- How far the extended position lies ahead of the high-water mark (R44). -/
def Position.lead (q : Position) : Int := (q.ext - q.high).toInt

/-- A non-advancing event (R45). -/
def Dev.nonAdvance (q : Position) (d : Dev) : Dev :=
  let d := d.setPocket { d.pocket with pos := some q }
  if q.lead < -(d.su.pitch : Int) ∧ d.pocket.reversal = false then
    let d := Dev.markSuspects (d.raise .positionFault)
    d.setPocket { d.pocket with reversal := true }
  else d

/-- A boundary from pocket `p` to `p + 1` (R47): the three departures, then the new scale pocket's entry.
`first` says that `p` was the scale pocket at some event (R48). The order of the departures: log 17. -/
def Dev.boundary (first : Bool) (p : Word) (d : Dev) : Dev :=
  let d := if first then d.scaleDeparts p else d.unseenDeparts p
  let d := d.readerDeparts (p - BitVec.ofNat 32 d.su.dRead)
  let d := d.gateDeparts (p - BitVec.ofNat 32 d.su.dGate)
  d.startEntry (p + 1#32)

/-- The `n` boundaries of an event, in pocket order (R46). -/
def Dev.boundaries : Nat → Bool → Word → Dev → Dev
  | 0, _, _, d => d
  | n + 1, first, p, d => Dev.boundaries n false (p + 1#32) (d.boundary first p)

/-- The line goes to RUNNING, or stays so, and the stall timer restarts (R46, R53, R54, R72). -/
def PocketUnit.run (u : PocketUnit) : PocketUnit :=
  { u with running := true, stall := some 0, stop := .idle }

/-- The scale silence timer when the line enters RUNNING (R72). -/
def WeighUnit.lineRuns (w : WeighUnit) (wasRunning : Bool) : WeighUnit :=
  if wasRunning then w else { w with silence := .running 0 }

/-- Step 6 of an advancing event (R46). -/
def Dev.lineRuns (d : Dev) : Dev :=
  { d with pocket := d.pocket.run, weigh := d.weigh.lineRuns d.pocket.running }

/-- An advancing event (R46, R49). The high-water mark moves first; the boundaries are numbered from the
pocket number before it. -/
def Dev.advance (q : Position) (d : Dev) : Dev :=
  let old := pocketOf q.high d.su.pitch
  let q' := { q with high := q.ext }
  let n := (pocketOf q'.high d.su.pitch - old).toNat
  let d := d.setPocket { d.pocket with pos := some q', reversal := false }
  let d := Dev.handPhase (phaseOf q'.high d.su.pitch) (Dev.boundaries n true old d)
  let d := if 4 < n then Dev.markSuspects (d.raise .positionFault) else d
  let d := d.lineRuns
  if 1 ≤ n then d.requestStatus else d

/-- The Pocket counter takes a position word (R43, R44). -/
def Dev.takePosition (w : Word) (d : Dev) : Dev :=
  match d.pocket.pos with
  | none => d.establish w
  | some q =>
    let q' := q.follow w
    if 0 < q'.lead then d.advance q' else d.nonAdvance q'

/-! ### Timers (R53 to R55) -/

/-- The line enters STOPPED by the stall timer (R53, R72). -/
def Dev.lineStops (d : Dev) : Dev :=
  let d := Dev.raise .lineStopped
    { d with pocket := { d.pocket with running := false, stall := none, stop := .running 0 },
             weigh := { d.weigh with silence := .idle } }
  if d.setup.deferred then d.beginLoad else d

/-- The stall timer expires (R54); no event while it is idle or the part is not READY. -/
def Dev.stallExpired (d : Dev) : Dev :=
  if d.setup.part ≠ .ready ∨ d.pocket.stall = none then d
  else if d.pocket.running then d.lineStops
  else d.setPocket { d.pocket with stall := none }

/-- The stop timer expires (R55, R148); no event unless it runs, the line is STOPPED and the part READY. -/
def Dev.stopExpired (d : Dev) : Dev :=
  match d.pocket.stop with
  | .running _ =>
    if d.setup.part = .ready ∧ d.pocket.running = false then
      Dev.markSuspects (d.setPocket { d.pocket with stop := .expired })
    else d
  | _ => d

end Sys2Proof.Machine
end

