-- ==== Sys2Proof/Machine/Fill.lean ====
section
/-! DEFINITION. The Fill unit (02_fills_and_the_issued_dose.md R23 to R39): doses, fills of a read formed and
taking effect, the switch, and the shaping of nominal writes. -/

namespace Sys2Proof.Machine

/-! ### Doses (R25 to R27, R31) -/

/-- What a fill for a valve is answered (R25, R26, R27). -/
inductive Dose where
  /-- An idle or SUSPENDED valve. -/
  | zero
  /-- No recipe is CURRENT. -/
  | untaught (dose : Nat)
  /-- A recipe slot is CURRENT. -/
  | dosed (slot : Fin 4) (dose : Nat) (trim : Int)
  deriving DecidableEq, Repr

/-- The dose answered. -/
def Dose.amount : Dose → Nat
  | .zero => 0 | .untaught n => n | .dosed _ n _ => n

/-- The trim a fill issues (R27). -/
def Dev.issuedTrim (d : Dev) (v : Fin 64) : Int := if d.setup.trimApply then (d.valveRec v).trim else 0

/-- The nominal and the issued trim, clamped to the recipe's limits (R27). -/
def recipeDose (c : Recipe) (nominal : Word) (trim : Int) : Nat :=
  (clampInt c.doseFloor c.doseCeiling (nominal.toNat + trim)).toNat

/-- The dose of valve `v` with the nominal fetched for it (R25 to R27). -/
def Dev.doseFor (d : Dev) (v : Fin 64) (nominal : Word) : Dose :=
  if d.idleValve v.val nominal = true ∨ (d.valveRec v).st = .suspended then .zero
  else match d.currentSlot with
    | none => .untaught (clampNat 0 1048575 nominal.toNat)
    | some k => .dosed k (recipeDose (d.recipeOf k) nominal (d.issuedTrim v)) (d.issuedTrim v)

/-! ### Fills of a read (R23, R28, R29, R134, R135) -/

/-- The current entry as the read's fills leave it. -/
def Dev.entryWith (d : Dev) (c : Ctx) : Option CurrentEntry :=
  d.order.cur.map fun e => { e with made := e.made + c.made, stalled := e.stalled || c.stalled }

/-- A switch is due by the can count, the read's fills included (R134). -/
def Dev.dueWith (d : Dev) (c : Ctx) : Bool :=
  match d.entryWith c with | none => false | some e => e.due

/-- The stall test after a fill (R135, log 22). -/
def Dev.stallTest (d : Dev) (c : Ctx) : Ctx :=
  match d.entryWith c with
  | none => c
  | some e =>
    if e.due = true ∧ d.slotIn .pending = none ∧ e.stalled = false then
      { c with stalled := true, raise := true }
    else c

/-- A fill with a dose under a CURRENT recipe: tracked while the pool has a slot left for it (R28, R29). The valve's
epoch and arm are read here, as its state and trim are, and the valve is written in `fillEffect`: that an arrival
at the valve may fall between the two is the model's choice (log 53). -/
def Dev.formDosed (d : Dev) (v : Fin 64) (k : Fin 4) (dose : Nat) (trim : Int) (c : Ctx) : Ctx :=
  let r := d.valveRec v
  let tracked := decide (c.tracked < d.track.free.length)
  let f : FormedFill :=
    { valve := v, dose := dose, trim := trim, epoch := r.epoch, test := r.arm, recipe := k,
      lot := match d.order.cur with | none => .detached | some e => e.ref
      tracked := tracked }
  let tag : BitVec 12 := if tracked then tagOf c.seq else 0
  let c := { c with ans := c.ans ++ [doseWord dose tag], formed := c.formed ++ [f] }
  if tracked then { c with seq := nextSeq c.seq, tracked := c.tracked + 1, made := c.made + 1 } else c

/-- One word of a fill read is formed (R24 to R29). -/
def Dev.formFill (d : Dev) (v : Fin 64) (nominal : Word) (c : Ctx) : Ctx :=
  match d.doseFor v nominal with
  | .zero => { c with ans := c.ans ++ [doseWord 0 0] }
  | .untaught n => { c with ans := c.ans ++ [doseWord n 0] }
  | .dosed k n t => d.stallTest (d.formDosed v k n t c)

/-- The record that a tracked fill creates (R9, R28). -/
def FormedFill.record (f : FormedFill) (slot : Nat) (seq : Word) : CanRecord :=
  { slot := slot, seq := seq, tag := tagOf seq, valve := f.valve, recipe := f.recipe, lot := f.lot,
    dose := f.dose, trim := f.trim, epoch := f.epoch, test := f.test, suspect := false,
    checkOk := true, failed := false }

/-- The valve's record when a tracked fill takes effect (R28). -/
def ValveRec.noteFill (r : ValveRec) (f : FormedFill) (seq : Word) : ValveRec :=
  { r with fills := r.fills + 1#32, lastSeq := some seq, arm := if f.test then false else r.arm }

/-- Track slot `n` joins the member set of recipe slot `k` (R9). -/
def Dev.joinMembers (k : Fin 4) (n : Nat) (d : Dev) : Dev :=
  d.setSlot k { d.slot k with members := n :: (d.slot k).members }

/-- An untracked fill takes effect (R29). -/
def Dev.fillUntracked (d : Dev) : Dev :=
  Dev.raise .trackFull { d with fill := { d.fill with untracked := d.fill.untracked + 1#32 } }

/-- A fill takes effect (R28, R29, R9, log 11): it writes its valve as it finds it now, with what `formDosed` read.
R110 calls the two one arrival, and R23 parts them: what comes between is let in, by the model's choice (log 53). -/
def Dev.fillEffect (f : FormedFill) (d : Dev) : Dev :=
  if f.tracked then
    match d.track.free with
    | [] => d.fillUntracked
    | n :: free =>
      let seq := d.fill.seq
      let d := d.setValve f.valve ((d.valveRec f.valve).noteFill f seq)
      Dev.joinMembers f.recipe n
        { d with track := { d.track with free := free, fill := d.track.fill ++ [f.record n seq] },
                 fill := { d.fill with seq := nextSeq seq } }
  else d.fillUntracked

/-- The current entry after the fills of a read, and the flag of R32 (R134, R135). -/
def Dev.countFills (c : Ctx) (d : Dev) : Dev :=
  let due := d.dueWith c && (d.slotIn .pending).isSome
  { d with order := { d.order with cur := d.entryWith c },
           fill := { d.fill with switchDue := d.fill.switchDue || due } }

/-- The fills of a read take effect, in word order (R23). -/
def Dev.takeFills (c : Ctx) (d : Dev) : Dev :=
  let d := c.formed.foldl (fun d f => d.fillEffect f) (d.countFills c)
  Dev.drainAll (if c.raise then d.raise .changeoverStalled else d)

/-! ### The switch (R32 to R34, R136) -/

/-- A fill for valve `v` is the switching fill; it gives the PENDING slot (R32). -/
def Dev.switchAt (d : Dev) (v : Fin 64) (c : Ctx) : Option (Fin 4) :=
  if (d.fill.switchDue || d.dueWith c) = true ∧ v.val < d.su.valves ∧ (d.valveRec v).st ≠ .suspended then
    d.slotIn .pending
  else none

/-- A listed nominal clamped to the new recipe's limits; 0 stays 0 (R33 step 1). -/
def listedNominal (c : Recipe) (w : Word) : Word :=
  if w = 0 then 0 else BitVec.ofNat 32 (clampNat c.doseFloor c.doseCeiling w.toNat)

/-- The eight words of the `k`-th write of the list (R33 step 1). -/
def listWords (c : Recipe) (k : Nat) : List Word :=
  (((c.nominals.getD []).drop (8 * k)).take 8).map (listedNominal c)

/-- Steps 2 and 3 on one valve (R33). -/
def ValveRec.switched (r : ValveRec) (c : Recipe) : ValveRec :=
  let t : Int := if c.keepTrims then clampInt (-(c.trimLimit : Int)) c.trimLimit r.trim else 0
  { r with trim := t, epoch := if t = r.trim then r.epoch else r.epoch + 1#8,
           recent := [], outlier := 0, good := 0, atLimit := 0 }

/-- Steps 2 and 3 on the whole valve table (R33). -/
def Dev.switchValves (c : Recipe) (d : Dev) : Dev :=
  valveNumbers.foldl (fun d v => d.setValve v ((d.valveRec v).switched c)) d

/-- The old entry is written FILLED with its fills made (R136). -/
def Dev.fillOldEntry (c : Ctx) (d : Dev) : Dev :=
  match d.entryWith c with
  | none => d
  | some e =>
    match e.ref with
    | .detached => d
    | .entry p i => d.updateEntry p i fun x => { x with status := .filled, made := e.made }

/-- The new entry becomes the current one and is written STARTED (R136). -/
def Dev.startNewEntry (ref : LotRef) (d : Dev) : Dev :=
  match ref with
  | .detached =>
    { d with order := { d.order with
        cur := some { ref := ref, canCount := 0, made := 0, stalled := false } } }
  | .entry p i =>
    let count := match d.entryAt p i with | none => 0 | some e => e.canCount
    let d := d.updateEntry p i fun x => { x with status := .started, made := 0 }
    { d with order := { d.order with
        cur := some { ref := ref, canCount := count, made := 0, stalled := false } } }

/-- Steps 2 to 5 of the switch to slot `k` (R33, R136). -/
def Dev.switchTo (k : Fin 4) (c : Ctx) (d : Dev) : Dev :=
  let r := d.recipeOf k
  let old := d.currentSlot
  let d := Dev.fillOldEntry c (d.switchValves r)
  let d := match old with
    | none => d
    | some j => d.setSlot j { d.slot j with st := .draining }
  let d := Dev.startNewEntry (d.slot k).ref (d.setSlot k { d.slot k with st := .current })
  let d := match old with | none => d | some j => d.drainIfEmpty j
  Dev.raise .lotSwitch (Dev.reformBare { d with fill := { d.fill with switchDue := false } })

/-- What the read has gathered, after its switch (R23, R34). -/
def Ctx.switched (c : Ctx) : Ctx := { c with made := 0, stalled := false }

/-! ### Nominal writes (R36, R37, R39) -/

/-- A value for the nominal view, shaped (R36). -/
def Dev.shapeNominal (d : Dev) (w : Word) : Word :=
  match d.currentRecipe with
  | none => w
  | some c => listedNominal c w

/-- The nominal after an add (R37). -/
def Dev.addNominal (d : Dev) (nominal delta : Word) : Word :=
  let sum : Int := nominal.toNat + delta.toInt
  if nominal = 0 then 0
  else match d.currentRecipe with
    | some c => BitVec.ofNat 32 (clampInt c.doseFloor c.doseCeiling sum).toNat
    | none => BitVec.ofNat 32 (clampInt 0 4294967295 sum).toNat

/-- The accesses of a nominal view write from valve `v` on: runs of fully enabled words as one write,
partly enabled words merged one by one, words with no enable left (R36, log 20). `run` is the run being
gathered, last word first, starting at valve `start`. -/
def nominalRuns (start : Nat) (run : List Word) : Nat → List WWord → List Micro
  | _, [] => if run = [] then [] else [.nomPut start run.reverse]
  | v, w :: ws =>
    if isFull w then
      nominalRuns (if run = [] then v else start) (w.data :: run) (v + 1) ws
    else
      (if run = [] then [] else [.nomPut start run.reverse]) ++
        (if w.be = 0#4 then [] else [.nomMerge v w]) ++ nominalRuns 0 [] (v + 1) ws

/-- The reads of an add view write; words without all enables are skipped (R37). -/
def addWords : Nat → List WWord → List Micro
  | _, [] => []
  | v, w :: ws => (if isFull w then [Micro.nomAdd v w.data] else []) ++ addWords (v + 1) ws

/-- The valves below V that the broadcast mask selects, in increasing order (R39). -/
def Dev.selected (d : Dev) : List Nat :=
  (List.range 64).filter fun v => decide (v < d.su.valves) && d.fill.mask.getLsbD v

/-- The bursts of a BCAST_SET: consecutive selected valves, up to eight words (R39). `len` words from
`start` are gathered. -/
def setBursts (value : Word) (start len : Nat) : List Nat → List Micro
  | [] => if len = 0 then [] else [.nomPut start (List.replicate len value)]
  | v :: vs =>
    if len = 0 then setBursts value v 1 vs
    else if v = start + len ∧ len < 8 then setBursts value start (len + 1) vs
    else .nomPut start (List.replicate len value) :: setBursts value v 1 vs

/-- A half of the broadcast mask is replaced (R38). -/
def Dev.setMask (hi : Bool) (w : Word) (d : Dev) : Dev :=
  let m := d.fill.mask.toNat
  let m' := if hi then m % 2 ^ 32 + 2 ^ 32 * w.toNat else 2 ^ 32 * (m / 2 ^ 32) + w.toNat
  { d with fill := { d.fill with mask := BitVec.ofNat 64 m' } }

end Sys2Proof.Machine
end

