-- ==== Sys2Proof/Machine/Windows.lean ====
section
/-! DEFINITION. The window decoder and the tests of an upstream transaction (10_the_memory_path.md R157, R158;
12.1), the work list a transaction is given, and what the blocks take from a stored write. -/

namespace Sys2Proof.Machine

/-! ### The control area map (12.1) -/

/-- What a window is. -/
inductive Window where
  | plain | load | mode | orderA | orderB | ack | queryRef | queryCare | maskLo | maskHi | bcastSet
  | bcastAdd | position | gate | queryMatch | nominal | issued | add | command | code | valveView | sample
  deriving DecidableEq, Repr

/-- A row of the map: byte offset, size in words, window. -/
structure WindowRow where
  off   : Nat
  words : Nat
  kind  : Window
  deriving DecidableEq, Repr

/-- The control area map (12.1). -/
def windowMap : List WindowRow :=
  [ ⟨0x0000, 64, .plain⟩, ⟨0x0100, 1, .load⟩, ⟨0x0104, 1, .mode⟩, ⟨0x0108, 1, .orderA⟩,
    ⟨0x010C, 1, .orderB⟩, ⟨0x0110, 1, .ack⟩, ⟨0x0114, 1, .queryRef⟩, ⟨0x0118, 1, .queryCare⟩,
    ⟨0x011C, 1, .maskLo⟩, ⟨0x0120, 1, .maskHi⟩, ⟨0x0124, 1, .bcastSet⟩, ⟨0x0128, 1, .bcastAdd⟩,
    ⟨0x012C, 5, .plain⟩, ⟨0x0140, 1, .position⟩, ⟨0x0144, 1, .gate⟩, ⟨0x0148, 2, .queryMatch⟩ ] ++
  [ ⟨0x0150, 44, .plain⟩, ⟨0x0200, 16, .plain⟩, ⟨0x0240, 48, .plain⟩, ⟨0x0300, 64, .nominal⟩,
    ⟨0x0400, 64, .issued⟩, ⟨0x0500, 64, .add⟩, ⟨0x0600, 64, .command⟩, ⟨0x0700, 64, .plain⟩,
    ⟨0x0800, 512, .code⟩, ⟨0x1000, 1024, .valveView⟩, ⟨0x2000, 2048, .plain⟩,
    ⟨0x4000, 4096, .sample⟩, ⟨0x8000, 8192, .plain⟩ ]

/-- The row that offset `o` lies in. -/
def rowAt (o : Nat) : Option WindowRow :=
  windowMap.find? fun r => decide (r.off ≤ o) && decide (o < r.off + 4 * r.words)

/-- Size of the control area in bytes. -/
def areaSize : Nat := 0x10000

/-! ### Transactions -/

def Txn.master : Txn → Master
  | .read m _ _ => m
  | .write m _ _ => m

def Txn.addr : Txn → Nat
  | .read _ a _ => a
  | .write _ a _ => a

/-- Length in words. -/
def Txn.len : Txn → Nat
  | .read _ _ n => n
  | .write _ _ ws => ws.length

def Txn.isWrite : Txn → Bool
  | .read _ _ _ => false
  | .write _ _ _ => true

/-- The transaction touches the control area (R157). -/
def Dev.touches (d : Dev) (t : Txn) : Bool :=
  decide (d.base < t.addr + 4 * t.len) && decide (t.addr < d.base + areaSize)

/-- The row of the map that holds the whole transaction, if it lies wholly inside one window (R157). -/
def Dev.rowOf (d : Dev) (t : Txn) : Option WindowRow :=
  if t.addr < d.base then none
  else match rowAt (t.addr - d.base) with
    | none => none
    | some r => if t.addr - d.base + 4 * t.len ≤ r.off + 4 * r.words then some r else none

/-- The windows whose reads are answered in READY (R158). -/
def Window.answered : Window → Bool
  | .issued => true | .valveView => true | .gate => true | .queryMatch => true
  | _ => false

/-- The transaction is refused by one of the three tests of R157. -/
def Dev.refuses (d : Dev) (t : Txn) : Bool :=
  decide (d.size < t.addr + 4 * t.len) ||
    (decide (d.setup.part ≠ .unplaced) && d.touches t &&
      match d.rowOf t with
      | none => true
      | some r => decide (d.setup.part = .ready) && t.isWrite && r.kind.answered)

/-! ### The work of an accepted transaction (R158, R159) -/

/-- Address of nominal word `v`. -/
def Dev.nomAddr (d : Dev) (v : Nat) : Nat := d.base + 0x300 + 4 * v

/-- The window words from `i` on. -/
def wordsFrom (i n : Nat) : List Nat := (List.range n).map fun k => i + k

/-- One access of the same address and length (R159). -/
def Txn.forward : Txn → List Micro
  | .read _ a n => [.read a n]
  | .write _ a ws => [.store a ws]

/-- The query's fetches (R126). -/
def Dev.queryWork (d : Dev) (hi : Bool) (n : Nat) : List Micro :=
  let first := if hi then 32 else 0
  let last := min d.su.valves (first + 32 * n)
  (nominalBursts 8 first last).map (fun b => Micro.queryFetch b.1 b.2) ++ [.queryEnd hi n]

/-- The work of a read in window word `i` of READY (R158). -/
def Dev.readWork (d : Dev) (m : Master) (k : Window) (a i n : Nat) : List Micro :=
  match k with
  | .issued =>
    if m.toNat = d.su.sequencer then (wordsFrom i n).map Micro.fill ++ [.fillEnd]
    else (wordsFrom i n).map Micro.inspect
  | .add => [.read (d.nomAddr i) n]
  | .valveView =>
    (d.viewNeeds m (d.path.latch.map fun l => (l.master, l.valve.val)) i n).map Micro.viewFetch ++
      [.viewEnd i n]
  | .gate => if m.toNat = d.su.gate then [.gatePoll] else [.gateInspect]
  | .queryMatch => d.queryWork (decide (i = 1)) n
  | _ => [.read a n]

/-- The work of a write in window word `i` of READY (R158). -/
def writeWork (shape : Word → Word) (k : Window) (a i : Nat) (ws : List WWord) : List Micro :=
  match k with
  | .nominal =>
    nominalRuns 0 [] i (ws.map fun w => if isFull w then { w with data := shape w.data } else w)
  | .add => addWords i ws
  | _ => [.store a ws]

/-- The work of an accepted transaction (R158, R159). The part state and the roles that lay out this work are those
at its acceptance: the model's choice (log 45). -/
def Dev.workOf (d : Dev) (t : Txn) : List Micro :=
  if d.setup.part = .ready ∧ d.touches t = true then
    match d.rowOf t with
    | none => t.forward
    | some r =>
      let i := (t.addr - d.base - r.off) / 4
      match t with
      | .read m a n => d.readWork m r.kind a i n
      | .write _ a ws => writeWork d.shapeNominal r.kind a i ws
  else t.forward

/-! ### What a block takes from a stored write (R159) -/

/-- The part's copies of MODE (R168, 12.3). -/
def Dev.setMode (w : Word) (d : Dev) : Dev :=
  { d with setup := { d.setup with enforce := bit w 0, trimApply := bit w 1 } }

def Dev.setQueryRef (w : Word) (d : Dev) : Dev :=
  { d with valve := { d.valve with queryRef := w.truncate 16 } }

def Dev.setQueryCare (w : Word) (d : Dev) : Dev :=
  { d with valve := { d.valve with queryCare := w.truncate 16 } }

/-- The words of a write that a code ring slot received whole, by their place in the slot (R75). -/
def slotWords (j i : Nat) (ws : List WWord) : List (Nat × Word) :=
  (List.range 4).filterMap fun k =>
    if i ≤ 4 * j + k then
      match ws[4 * j + k - i]? with
      | none => none
      | some w => if isFull w then some (k, w.data) else none
    else none

/-- The slots whose word 3 a code ring write at window word `i` carried whole (R75). -/
def codeSlots (i : Nat) (ws : List WWord) : List Micro :=
  (List.range 3).filterMap fun x =>
    let j := i / 4 + x
    let known := slotWords j i ws
    if (known.lookup 3).isSome then some (.codeSlot j known) else none

/-- A control word's effect, when it was written with all four byte enables in READY; with the nominal
accesses that a broadcast still has to make (R38, R39, R125, R132, R139, R165, R168, R169). -/
def Dev.takeControl (k : Window) (w : Word) (d : Dev) : List Micro × Dev :=
  match k with
  | .load => ([], match loadValueOf w with | none => d | some v => d.takeLoad v)
  | .mode => ([], d.setMode w)
  | .orderA => ([], d.orderAWritten w)
  | .orderB => ([], d.orderBWritten w)
  | .ack => ([], d.acknowledge (w.truncate 21))
  | .queryRef => ([], d.setQueryRef w)
  | .queryCare => ([], d.setQueryCare w)
  | .maskLo => ([], d.setMask false w)
  | .maskHi => ([], d.setMask true w)
  | .bcastSet => (setBursts (d.shapeNominal w) 0 0 d.selected, d)
  | .bcastAdd => (d.selected.map fun v => Micro.nomAdd v w, d)
  | _ => ([], d)

/-- A stored write in READY is taken by the block that owns window word `i` (R159). -/
def Dev.takeReady (m : Master) (k : Window) (i : Nat) (ws : List WWord) (d : Dev) : List Micro × Dev :=
  match k, ws with
  | .command, ws => ([], Dev.takeCommandWords i ws d)
  | .sample, ws => if m.toNat = d.su.scale then ([], Dev.takeSamples i ws d) else ([], d)
  | .code, ws => if m.toNat = d.su.reader then (codeSlots i ws, d) else ([], d)
  | .position, w :: _ =>
    if m.toNat = d.su.motion ∧ isFull w = true then ([], d.takePosition w.data) else ([], d)
  | k, w :: _ => if isFull w then d.takeControl k w.data else ([], d)
  | _, [] => ([], d)

/-- A write that memory has answered OKAY (R158, R159): in READY by the window's rule, in UNLOADED by the
LOAD word's alone. The part state and the roles that decide the taking (R59, R75, R119, R125) are those at memory's
answer, not those at acceptance: the model's choice (log 45). -/
def Dev.takeStore (m : Master) (a : Nat) (ws : List WWord) (d : Dev) : List Micro × Dev :=
  match d.rowOf (.write m a ws) with
  | none => ([], d)
  | some r =>
    let i := (a - d.base - r.off) / 4
    match d.setup.part with
    | .ready => d.takeReady m r.kind i ws
    | .unloaded => if r.kind = .load then d.takeReady m r.kind i ws else ([], d)
    | .loading _ => ([], d)
    | .unplaced => ([], d)

end Sys2Proof.Machine
end

