-- ==== Sys2Proof/Machine/Path.lean ====
section
/-! DEFINITION. The Path unit (10_the_memory_path.md R156 to R164): serving the held transaction access by access,
the downstream arbiter, and the answers of internal bursts. -/

namespace Sys2Proof.Machine

/-! ### One piece of work -/

/-- The access that a piece of work needs, if it needs one (R159), for a transaction with context `c`. A fill
needs its nominal fetch (R24), but for the switching fill, whose switch comes first (R32). -/
def Micro.access (c : Ctx) (d : Dev) : Micro → Option Access
  | .read a n => some (.read a n)
  | .store a ws => some (.write a ws)
  | .nomPut v vals => some (.write (d.nomAddr v) (vals.map fullWord))
  | .nomMerge v _ => some (.read (d.nomAddr v) 1)
  | .nomAdd v _ => some (.read (d.nomAddr v) 1)
  | .fill v => if (d.switchAt (Fin.ofNat 64 v) c).isSome then none else some (.read (d.nomAddr v) 1)
  | .switchPut k =>
    match d.slotIn .pending with
    | none => none
    | some j => some (.write (d.nomAddr (8 * k)) ((listWords (d.recipeOf j) k).map fullWord))
  | .switchCommit => none
  | .fillFetch v => some (.read (d.nomAddr v) 1)
  | .fillEnd => none
  | .inspect v => some (.read (d.nomAddr v) 1)
  | .codeSlot _ _ => none
  | .codeWord j k => some (.read (d.base + 0x800 + 16 * j + 4 * k) 1)
  | .codeTake _ _ => none
  | .gatePoll => none
  | .gateInspect => none
  | .viewFetch v => some (.read (d.nomAddr v) 1)
  | .viewEnd _ _ => none
  | .queryFetch v n => some (.read (d.nomAddr v) n)
  | .queryEnd _ _ => none

/-- The head of the upstream port with new work and context. -/
def Dev.setHead (h : Held) (d : Dev) : Dev :=
  { d with path := { d.path with upstream := h :: d.path.upstream.drop 1 } }

/-- The work that the switching fill's word becomes, slot `k` being PENDING: the switch, then the fetch of its
nominal (R32, R33). -/
def Dev.fillWork (d : Dev) (k : Fin 4) (v : Nat) : List Micro :=
  (if (d.recipeOf k).nominals.isSome then (List.range 8).map Micro.switchPut else []) ++
    [.switchCommit, .fillFetch v]

/-- The work that a code ring slot becomes: nothing for a repost, else the reads of the words the write
did not carry, then the taking (R75, R76, log 41). -/
def Dev.codeWork (d : Dev) (j : Nat) (known : List (Nat × Word)) : List Micro :=
  if d.code.isRepost j ((known.lookup 3).getD 0) then []
  else
    ([0, 1, 2].filter fun k => (known.lookup k).isNone).map (Micro.codeWord j) ++ [.codeTake j known]

/-- A code ring slot is taken with the words carried and the words read (R75). -/
def Dev.codeTaken (j : Nat) (known : List (Nat × Word)) (c : Ctx) (d : Dev) : Dev :=
  let w (k : Nat) : Word := ((known ++ c.code).lookup k).getD 0
  d.takeCode j (codeRecOf (w 0) (w 1) (w 2)) (w 3)

/-- The part with other transactions presented. -/
def Dev.withUp (u : List Held) (d : Dev) : Dev := { d with path := { d.path with upstream := u } }

/-- A block acts with the port's transactions set aside: of the port it reads only the fills being formed, and
there are none when a store, an answered read or the fills of a read take effect. -/
def Dev.apart {α : Type} (f : Dev → α × Dev) (d : Dev) : α × Dev :=
  let r := f (d.withUp [])
  (r.1, r.2.withUp d.path.upstream)

/-- A piece of work whose access, if any, was answered OKAY with the words `ws`: the work it adds in front,
the context and the part after it, `h` being the held transaction. A view read and a query read are taken, and show
the valve records, after the last of their nominal fetches (`viewEnd`, `queryEnd`): the model's choice (log 47). -/
def Dev.workDone (h : Held) (ws : List Word) (d : Dev) : Micro → List Micro × Ctx × Dev
  | .read _ _ => ([], { h.ctx with ans := ws }, d)
  | .store a xs =>
    let r := d.apart fun d => d.takeStore h.txn.master a xs
    (r.1, h.ctx, r.2)
  | .nomPut _ _ => ([], h.ctx, d)
  | .nomMerge v w => ([.nomPut v [d.shapeNominal (mergeBytes (wordAt ws 0) w.data w.be)]], h.ctx, d)
  | .nomAdd v delta => ([.nomPut v [d.addNominal (wordAt ws 0) delta]], h.ctx, d)
  | .fill v =>
    match d.switchAt (Fin.ofNat 64 v) h.ctx with
    | none => ([], d.formFill (Fin.ofNat 64 v) (wordAt ws 0) h.ctx, d)
    | some k => (d.fillWork k v, h.ctx, d)
  | .switchPut _ => ([], h.ctx, d)
  | .switchCommit =>
    match d.slotIn .pending with
    | none => ([], h.ctx, d)
    | some k => ([], h.ctx.switched, d.switchTo k h.ctx)
  | .fillFetch v =>
    ([], d.formFill (Fin.ofNat 64 v) (wordAt ws 0) h.ctx, (d.apart fun d => ((), d.decideHeld)).2)
  | .fillEnd =>
    ([], { h.ctx with formed := [] }, (d.apart fun d => ((), d.takeFills h.ctx)).2)
  | .inspect v =>
    ([], { h.ctx with ans := h.ctx.ans ++ [doseWord (d.doseFor (Fin.ofNat 64 v) (wordAt ws 0)).amount 0] }, d)
  | .codeSlot j known => (d.codeWork j known, { h.ctx with code := [] }, d)
  | .codeWord _ k => ([], { h.ctx with code := h.ctx.code ++ [(k, wordAt ws 0)] }, d)
  | .codeTake j known => ([], h.ctx, (d.apart fun d => ((), d.codeTaken j known h.ctx)).2)
  | .gatePoll =>
    let r := d.apart Dev.pollGate
    ([], { h.ctx with ans := [r.1] }, r.2)
  | .gateInspect =>
    let r := d.apart Dev.inspectGate
    ([], { h.ctx with ans := [r.1] }, r.2)
  | .viewFetch v => ([], { h.ctx with noms := h.ctx.noms ++ [(v, wordAt ws 0)] }, d)
  | .viewEnd i n =>
    let r := d.apart (Dev.viewRead h.txn.master h.ctx.noms i n)
    ([], { h.ctx with ans := r.1 }, r.2)
  | .queryFetch v n =>
    ([], { h.ctx with noms := h.ctx.noms ++ (List.range n).map fun k => (v + k, wordAt ws k) }, d)
  | .queryEnd hi n => ([], { h.ctx with ans := d.queryWords h.ctx.noms hi n }, d)

/-! ### The arbiter (R160) -/

/-- The upstream-owned access is granted now (R160). -/
def Dev.grantable (d : Dev) : Bool :=
  d.path.port.isNone && (d.waitingBursts.isEmpty || decide (d.path.waitCount < 4))

/-- The wait count at a grant to an upstream-owned access (R160). -/
def Dev.countGrant (d : Dev) : Dev :=
  if d.waitingBursts.isEmpty then d
  else { d with path := { d.path with waitCount := d.path.waitCount + 1 } }

/-- An internal burst is issued: it leaves the list and occupies the port (R160, R162, log 18). -/
def Dev.issueBurst (d : Dev) : Dev :=
  match d.waitingBursts with
  | [] => d
  | b :: _ =>
    { d with path := { d.path with
        port := some { burst := b, stopped := false }, bursts := d.path.bursts.erase b, waitCount := 0 } }

/-! ### Serving the held transaction (R156, R157, R159) -/

/-- The port has answered the held transaction and is idle again (R156). -/
def Dev.freePort (d : Dev) : Dev := { d with path := { d.path with upstream := d.path.upstream.drop 1 } }

/-- A path refusal (R157). -/
def Dev.pathRefusal (d : Dev) : Dev :=
  Dev.settle (Dev.raise .pathFault
    (Dev.freePort { d with path := { d.path with faults := d.path.faults + 1#32 } }))

/-- The held transaction ends because its access for the piece of work `mi` was answered FAULT (R159): the fills
formed for it take no effect (R24), and a switch given up lets a waiting acceptance be decided (R34, log 44). The
flag of R32 stays as it stood before the read, also where an earlier word of the same read had made the switch due:
R24's reading, not R34's "stays set", is the model's choice (log 49). -/
def Dev.faultEnds (mi : Micro) (d : Dev) : Dev :=
  let d := Dev.drainAll d.freePort
  Dev.settle (if mi.switching then d.decideHeld else d)

/-- The port gives a response (R156). -/
def State.answer (a : Answer) (s : State) : State := { s with answers := s.answers ++ [a] }

/-- An access is issued on the downstream port (R160). -/
def State.issue (o : Owner) (x : Access) (s : State) : State :=
  { s with downstream := s.downstream ++ [{ owner := o, access := x }] }

/-- A command serves the upstream port: what the ports gave out in earlier commands is past (log 34). -/
def State.portsClear (s : State) : State := { s with answers := [], downstream := [] }

/-- The held transaction is tested and, if accepted, given its work (R157, R158, log 45). -/
def State.accept (h : Held) (s : State) : State :=
  if s.dev.refuses h.txn then State.answer .fault { s with dev := s.dev.pathRefusal }
  else { s with dev := s.dev.setHead { h with work := some (s.dev.workOf h.txn), ctx := Ctx.init s.dev.fill.seq } }

/-- A piece of work is done: the head of the port goes on with what is left. -/
def Dev.progress (h : Held) (mi : Micro) (rest : List Micro) (ws : List Word) (d : Dev) : Dev :=
  let r := d.workDone h ws mi
  Dev.settle (Dev.setHead { h with work := some (r.1 ++ rest), ctx := r.2.1 } r.2.2)

/-- Memory after an access answered OKAY. -/
def Access.land (m : List Host.Cell) : Access → List Host.Cell
  | .read _ _ => m
  | .write a ws => Memory.writeWords m a ws

/-- The words an access returns. -/
def Access.words (m : List Host.Cell) : Access → List Word
  | .read a n => Memory.readWords m a n
  | .write _ _ => []

/-- The access is granted, carries the upstream master's number (R159), and is answered: FAULT when `faultAt` has
come to it, and memory then stands (log 8). -/
def State.grantAccess (h : Held) (mi : Micro) (rest : List Micro) (x : Access) (s : State) : State :=
  let d := s.dev.countGrant
  let s := s.issue (.upstream h.txn.master) x
  match h.faultAt with
  | some 0 => State.answer .fault { s with dev := d.faultEnds mi }
  | some (k + 1) =>
    { s with mem := x.land s.mem
             dev := d.progress { h with faultAt := some k } mi rest (x.words s.mem) }
  | none => { s with mem := x.land s.mem, dev := d.progress h mi rest (x.words s.mem) }

/-- Serve the held transaction, and those presented behind it, until an access must wait for the port or
`budget` accesses have been made. `fuel` bounds the pieces of work. The response to a store follows memory's OKAY
and the block's taking in the same step: the line reset that falls between them, which R57 and R152 describe, is
LINE_RESET with its operand `answered` (log 50). -/
def State.serve : Nat → Nat → State → State
  | 0, _, s => s
  | fuel + 1, budget, s =>
    match s.dev.path.upstream with
    | [] => s
    | h :: _ =>
      match h.work with
      | none => State.serve fuel budget (s.accept h)
      | some [] => State.serve fuel budget (State.answer (.okay h.ctx.ans) { s with dev := s.dev.freePort })
      | some (mi :: rest) =>
        match mi.access h.ctx s.dev with
        | none => State.serve fuel budget { s with dev := s.dev.progress h mi rest [] }
        | some x =>
          match budget with
          | 0 => s
          | b + 1 =>
            if s.dev.grantable then State.serve fuel b (s.grantAccess h mi rest x) else s

/-- More pieces of work than any transaction has (log 2). -/
def serveFuel : Nat := 1024

/-- A transaction joins those presented at the upstream port. -/
def State.queueUp (h : Held) (s : State) : State :=
  { s with dev := s.dev.withUp (s.dev.path.upstream ++ [h]) }

/-- A transaction is presented on the line bus (R156): it is held and served if the port is idle, and waits
behind the held one otherwise (log 32). -/
def State.present (t : Txn) (a : MemAns) (s : State) : State :=
  let h : Held := { txn := t, faultAt := a.faultAt, work := none, ctx := Ctx.init 0 }
  if s.dev.path.upstream = [] then
    State.serve serveFuel (a.pauseAt.getD serveFuel) (s.portsClear.queueUp h)
  else s.queueUp h

/-- An internal burst as an access of the downstream port. -/
def Burst.access (b : Burst) : Access :=
  match b.kind with
  | .read n => .read b.addr n
  | .write ws => .write b.addr (ws.map fullWord)

/-- The oldest waiting burst, if any, is granted the port; it is marked as the part's own (R160, 10.8). -/
def State.grantBurst (s : State) : State :=
  match s.dev.waitingBursts with
  | [] => s
  | b :: _ => { s with downstream := [{ owner := .part, access := b.access }], dev := s.dev.issueBurst }

/-- A grant of the port (R160). -/
def State.arbiterGrant (s : State) : State :=
  if s.dev.path.port.isSome then s
  else if s.dev.path.upstream ≠ [] ∧ s.dev.grantable = true then State.serve serveFuel 1 s.portsClear
  else s.grantBurst

/-! ### Answers of internal bursts (R162, R163) -/

/-- What memory holds after an internal burst answered `ok` (log 8). -/
def Burst.land (m : List Host.Cell) (b : Burst) (ok : Bool) : List Host.Cell :=
  match b.kind with
  | .read _ => m
  | .write ws => if ok then Memory.writeWords m b.addr (ws.map fullWord) else m

/-- The words an internal burst returns. -/
def Burst.data (m : List Host.Cell) (b : Burst) : List Word :=
  match b.kind with
  | .read n => Memory.readWords m b.addr n
  | .write _ => []

/-- The answer of a burst as it reaches its operation. -/
structure BurstAnswer where
  ok   : Bool
  data : List Word
  addr : Nat
  deriving DecidableEq, Repr

/-- A burst of operation `op` that lies outside memory and goes back as faulted (R162, log 19). -/
def State.outsideAnswer (op : InternalOp) (s : State) : Option BurstAnswer × State :=
  match s.dev.path.bursts.find? fun b => decide (b.op = op) && !s.dev.burstInside b with
  | none => (none, s)
  | some b =>
    (some { ok := false, data := [], addr := b.addr },
      { s with dev := { s.dev with path := { s.dev.path with bursts := s.dev.path.bursts.erase b } } })

/-- The answer of operation `op`'s burst arrives, if it has one on the port or one outside memory; data of
a stopped operation is dropped (R131, R162). -/
def State.takeAnswer (op : InternalOp) (ok : Bool) (s : State) : Option BurstAnswer × State :=
  match s.dev.path.port with
  | none => s.outsideAnswer op
  | some i =>
    if i.burst.op = op then
      let s' := { s with mem := i.burst.land s.mem ok
                         dev := { s.dev with path := { s.dev.path with port := none } } }
      (if i.stopped then none else some { ok := ok, data := i.burst.data s.mem, addr := i.burst.addr }, s')
    else s.outsideAnswer op

/-- The answer goes to its operation, and requests made then are met (log 14). -/
def State.answered (op : InternalOp) (ok : Bool) (f : BurstAnswer → Dev → Dev) (s : State) : State :=
  let r := s.takeAnswer op ok
  match r.1 with
  | none => r.2
  | some x => { r.2 with dev := Dev.settle (f x r.2.dev) }

end Sys2Proof.Machine
end

