-- ==== Sys2Proof/Machine/Service.lean ====
section
/-! DEFINITION. Service orders (08_recipes_lots_and_orders.md R139, R140): executing the entry reached, and the
meanings of the seven service commands. -/

namespace Sys2Proof.Machine

/-! ### The entry reached (R139) -/

/-- The operation code of an entry (12.5). -/
def ServiceEntry.code (e : ServiceEntry) : Nat := bits e.op 0 8

/-- The running service order and the entry it has reached; none while the part is not READY (R139, R166). -/
def Dev.serviceNow (d : Dev) : Option (ServiceOrder × ServiceEntry) :=
  if d.setup.part = .ready then
    match d.order.service with
    | none => none
    | some o =>
      match o.entries[o.idx]? with
      | none => none
      | some e => some (o, e)
  else none

def Dev.setService (o : Option ServiceOrder) (d : Dev) : Dev :=
  { d with order := { d.order with service := o } }

/-- The entry reached succeeds: it is written DONE, and the order goes on or is released (R139). -/
def Dev.serviceDone (o : ServiceOrder) (d : Dev) : Dev :=
  let d := d.writeServiceEntry o.addr o.idx 2
  if o.idx + 1 < o.entries.length then
    d.setService (some { o with idx := o.idx + 1, closed := o.closed + 1, nextValve := 0 })
  else
    let d := Dev.setService none (d.pushOrderWrite (o.addr + 4) (orderStatusWord true none (o.closed + 1)))
    if o.notify then d.raise .orderBDone else d

/-- The entry reached fails: it is written ERROR, the order ERROR with the code, the rest SKIPPED, and the
order is released (R139, log 42). -/
def Dev.serviceFails (o : ServiceOrder) (code : OrderCode) (d : Dev) : Dev :=
  let d := Dev.pushOrderWrite (o.addr + 4) (orderStatusWord false (some code) o.closed)
    (d.writeServiceEntry o.addr o.idx 3)
  let d := d.raiseAt .orderError (o.addr + 8 + 16 * o.idx)
  Dev.setService none (d.writeServiceEntries o.addr 4 (o.idx + 1) o.entries.length)

/-- Execute the entry reached if its operation is `op`; no event otherwise (log 3). -/
def Dev.service (op : Nat) (f : ServiceOrder → ServiceEntry → Dev → Dev) (d : Dev) : Dev :=
  match d.serviceNow with
  | none => d
  | some (o, e) => if e.code = op then Dev.settle (f o e d) else d

/-! ### The operations (R140) -/

/-- SET_SPAN (R73). -/
def Dev.setSpan (o : ServiceOrder) (e : ServiceEntry) (d : Dev) : Dev :=
  if inRange 1 65535 e.op1.toNat && inRange 0 31 e.op2.toNat then
    Dev.serviceDone o
      (d.setWeigh { d.weigh with spanMul := e.op1.toNat, spanShift := e.op2.toNat })
  else d.serviceFails o .badOperand

/-- ZERO_CAPTURE (R74). -/
def Dev.zeroCapture (o : ServiceOrder) (_ : ServiceEntry) (d : Dev) : Dev :=
  Dev.serviceDone o (d.setWeigh { d.weigh with capture := true })

/-- CLEAR_TRACK (R150, R151). -/
def Dev.clearTrack (o : ServiceOrder) (_ : ServiceEntry) (d : Dev) : Dev :=
  if d.pocket.running then d.serviceFails o .notStopped
  else Dev.serviceDone o (Dev.clearRing d.discardTrack)

/-- A VALVE_GROUP entry's command (12.5). -/
def ServiceEntry.command (e : ServiceEntry) : Option ValveCommand := valveCommandOf (bits e.op 8 8)

/-- A VALVE_GROUP entry's operand, signed (12.5). -/
def ServiceEntry.operand (e : ServiceEntry) : Int := (BitVec.ofNat 16 (bits e.op 16 16)).toInt

/-- The group's bit for valve `v` (R140). -/
def ServiceEntry.selects (e : ServiceEntry) (v : Nat) : Bool :=
  if v < 32 then bit e.op1 v else bit e.op2 (v - 32)

/-- The valves of the group from `first` to the one before `upTo`, in increasing order (R140). -/
def Dev.groupValves (d : Dev) (e : ServiceEntry) (first upTo : Nat) : List (Fin 64) :=
  valveNumbers.filter fun v =>
    decide (v.val < d.su.valves) && decide (first ≤ v.val) && decide (v.val < upTo) && e.selects v.val

/-- VALVE_GROUP (R140): the valves not yet reached and numbered below `upTo` take the command; the entry is
done when no valve below V is left (log 26). No valve takes it in the middle of a switching fill, which the
command comes before or after (R35, log 44). Between the forming of any other fill and the answer of its read the
command is let in, and finds the valve without that fill (R110, log 53). -/
def Dev.valveGroup (upTo : Nat) (o : ServiceOrder) (e : ServiceEntry) (d : Dev) : Dev :=
  match e.command with
  | none => d.serviceFails o .badOperand
  | some c =>
    if d.midSwitch then d else
    let d' := (d.groupValves e o.nextValve upTo).foldl (fun d v => d.commandValve v c e.operand) d
    if d.su.valves ≤ upTo then d'.serviceDone o
    else d'.setService (some { o with nextValve := max o.nextValve upTo })

/-- REPORT_FLUSH, taken between the Report unit's own bursts (R174, log 24). -/
def Dev.reportFlush (o : ServiceOrder) (_ : ServiceEntry) (d : Dev) : Dev :=
  if d.report.act = none then Dev.serviceDone o d.flushTaken else d

/-- REPORT_RESTART, taken between the Report unit's own bursts (R174, R140). -/
def Dev.reportRestart (o : ServiceOrder) (e : ServiceEntry) (d : Dev) : Dev :=
  if d.addrOk e.op1.toNat = false then d.serviceFails o .badOperand
  else if d.report.act = none then Dev.serviceDone o (d.restartTaken e.op1.toNat)
  else d

/-- An operation code that names none (R140). -/
def ServiceEntry.unknown (e : ServiceEntry) : Bool := decide (e.code < 1) || decide (6 < e.code)

/-- A service entry with an unknown operation fails (R140). -/
def Dev.unknownOp (d : Dev) : Dev :=
  match d.serviceNow with
  | none => d
  | some (o, e) => if e.unknown then Dev.settle (d.serviceFails o .unknownOp) else d

/-! ### Meanings -/

/-- The outcome of an event on the part alone. -/
def State.onDev (f : Dev → Dev) (s : State) : Host.Outcome State Fault Refusal :=
  .next { s with dev := f s.dev }

/-- SET_SPAN (R73). -/
def execSetSpan (s : State) : Host.Outcome State Fault Refusal := s.onDev (Dev.service 1 Dev.setSpan)

/-- ZERO_CAPTURE (R74). -/
def execZeroCapture (s : State) : Host.Outcome State Fault Refusal :=
  s.onDev (Dev.service 2 Dev.zeroCapture)

/-- CLEAR_TRACK (R150). -/
def execClearTrack (s : State) : Host.Outcome State Fault Refusal :=
  s.onDev (Dev.service 3 Dev.clearTrack)

/-- VALVE_GROUP (R140). -/
def execValveGroup (upTo : Nat) (s : State) : Host.Outcome State Fault Refusal :=
  s.onDev (Dev.service 4 (Dev.valveGroup upTo))

/-- REPORT_FLUSH (R174). -/
def execReportFlush (s : State) : Host.Outcome State Fault Refusal :=
  s.onDev (Dev.service 5 Dev.reportFlush)

/-- REPORT_RESTART (R174). -/
def execReportRestart (s : State) : Host.Outcome State Fault Refusal :=
  s.onDev (Dev.service 6 Dev.reportRestart)

/-- UNKNOWN_OP (R140). -/
def execUnknownOp (s : State) : Host.Outcome State Fault Refusal := s.onDev Dev.unknownOp

end Sys2Proof.Machine
end

