-- ==== Sys2Proof/Machine/Resets.lean ====
section
/-! DEFINITION. The resets: POWER_ON_RESET (R158 and each block's power-on column), LINE_RESET (09 R152, R153 and
each block's line reset column) and LINE_RESET_RELEASE (R152). -/

namespace Sys2Proof.Machine

/-- The whole of a command's outcome when its operands can come about (log 29). -/
def whenOk (ok : Bool) (t : State) : Host.Outcome State Fault Refusal :=
  if ok then .next t else .refused .malformed

/-- Memory after the internal burst on the port, if any, was answered (R164, log 28). -/
def State.portLands (ok : Bool) (s : State) : List Host.Cell :=
  match s.dev.path.port with
  | none => s.mem
  | some i => i.burst.land s.mem ok

/-- POWER_ON_RESET with the straps' values; `portOk` is memory's answer to an internal burst on the port (R158). An
access of the held transaction that was on the port is dropped as never issued, memory keeping nothing of it: the
model's choice, for the spec gives it no outcome at a power-on reset (log 28). -/
def execPowerOnReset (cabase memsize : Nat) (portOk : Bool) (s : State) :
    Host.Outcome State Fault Refusal :=
  whenOk (decide (cabase < 16) && decide (memsize < 8))
    { s with
      mem := s.portLands portOk
      answers := []
      downstream := []
      dev := { Dev.powerOn cabase memsize s.dev.path.lrst (s.dev.path.upstream.drop 1) with
        draws := s.dev.draws } }

/-! ### Line reset (R152) -/

/-- A recipe slot at a line reset (R129, R143). -/
def RecipeSlot.lineReset (r : RecipeSlot) : RecipeSlot :=
  match r.st with
  | .free => .empty
  | .loading => .empty
  | .pending => .empty
  | .current => { r with ref := .detached }
  | .draining => { r with ref := .detached }

/-- The current entry at a line reset (R143). -/
def CurrentEntry.lineReset (c : CurrentEntry) : CurrentEntry :=
  { c with ref := .detached, canCount := 0, stalled := false }

/-- The recipe table and the order unit at a line reset (R143). -/
def OrderUnit.lineReset (o : OrderUnit) : OrderUnit :=
  { slots := #v[(o.slots.get 0).lineReset, (o.slots.get 1).lineReset, (o.slots.get 2).lineReset,
                (o.slots.get 3).lineReset]
    places := Vector.replicate 2 none, running := none, draining := none,
    cur := o.cur.map CurrentEntry.lineReset, fetchA := none, fetchB := none, loader := none,
    writes := [], service := none }

/-- The Path unit at a line reset (R164); transactions behind the held one stay presented (log 32). -/
def PathUnit.lineReset (u : PathUnit) : PathUnit :=
  { u with upstream := u.upstream.drop 1, waitCount := 0, bursts := [], port := none, latch := none,
           lrst := true }

/-- The Setup block at a line reset (R152, R153, R165, R168). -/
def SetupUnit.lineReset (u : SetupUnit) : SetupUnit :=
  { u with part := .unloaded, retained := u.setup.isSome, deferred := false, loadWords := [],
           enforce := false, trimApply := false }

/-- The Report unit at a line reset (R169 to R174); the status write it requests waits for the release of
LRST (log 15). -/
def ReportUnit.lineReset (u : ReportUnit) : ReportUnit :=
  { u with pending := 0, request := true, again := false, status := .idle,
           reporting := .waiting .nothing, act := none, reread := none }

/-- The Weigh unit at a line reset (R62). -/
def WeighUnit.lineReset (u : WeighUnit) : WeighUnit :=
  { u.emptied with expected := none, stale := false, capture := false, silence := .idle }

/-- The part at a line reset (R152 and the blocks' tables). -/
def Dev.lineReset (d : Dev) : Dev :=
  { path := d.path.lineReset
    setup := d.setup.lineReset
    report := d.report.lineReset
    fill := { d.fill with switchDue := false, mask := 0 }
    track := d.track
    pocket := { d.pocket with running := false, reversal := false, stall := none, stop := .idle }
    weigh := d.weigh.lineReset
    code := { d.code with expected := 0, last := none, missRun := 0 }
    valve := { d.valve with queryRef := 0, queryCare := 0 }
    order := d.order.lineReset
    draws := d.draws }

/-- The access of the held transaction that goes onto the downstream port next (R159). -/
def State.nextAccess (s : State) : Option OwnedAccess :=
  match s.dev.path.upstream with
  | [] => none
  | h :: _ =>
    match h.work with
    | none => none
    | some [] => none
    | some (mi :: _) => (mi.access h.ctx s.dev).map fun x => { owner := .upstream h.txn.master, access := x }

/-- The access of the held transaction that was on the downstream port when the reset arrived: its next one, if `up`
says that it had been issued. It can have been only where the arbiter grants it (R160): an internal burst on the
port, or one waiting at wait count 4, leaves no room for it (R164, log 36). -/
def State.resetIssued (up : UpAccess) (s : State) : List OwnedAccess :=
  if up ≠ .waiting ∧ s.dev.grantable = true then s.nextAccess.toList else []

/-- Memory after the access that was on the downstream port at the reset, which completes (R152, R164). -/
def State.resetLands (up : UpAccess) (portOk : Bool) (s : State) : List Host.Cell :=
  if s.dev.path.port.isSome then s.portLands portOk
  else if portOk then (s.resetIssued up).foldl (fun m x => x.access.land m) s.mem
  else s.mem

/-- A piece of work in which a read is answered: what it takes, it takes with the response (R30, R100, R152). -/
def Micro.answering : Micro → Bool
  | .fillEnd | .gatePoll | .gateInspect | .viewEnd _ _ | .queryEnd _ _ => true
  | _ => false

/-- The held transaction's work goes on, up to `fuel` pieces, as far as it needs no access and gives no answer: the
code slots whose words have all been read are taken (R75), and a switch whose words have all been written is
completed (R30). -/
def Dev.workOn : Nat → Dev → Dev
  | 0, d => d
  | fuel + 1, d =>
    match d.path.upstream with
    | [] => d
    | h :: _ =>
      match h.work with
      | none => d
      | some [] => d
      | some (mi :: rest) =>
        if mi.answering || (mi.access h.ctx d).isSome then d else Dev.workOn fuel (d.progress h mi rest [])

/-- More pieces of work than follow one access: a write carries at most two code slots, of two pieces each. -/
def resetFuel : Nat := 16

/-- The part when the reset takes effect, the held transaction's next access having been answered OKAY before it:
what the access brings about is taken, and the transaction is held without a response yet (R41, R57, R75, R159, log 50). -/
def State.resetTakes (s : State) : Dev :=
  match s.dev.path.upstream with
  | [] => s.dev
  | h :: _ =>
    match h.work with
    | none => s.dev
    | some [] => s.dev
    | some (mi :: rest) =>
      match mi.access h.ctx s.dev with
      | none => s.dev
      | some x =>
        if s.dev.grantable then (s.grantAccess { h with faultAt := none } mi rest x).dev.workOn resetFuel
        else s.dev

/-- The part when the reset takes effect. An access that memory answers after that, or FAULT, brings nothing about
(R41, R75, R159). -/
def State.resetFinds (up : UpAccess) (portOk : Bool) (s : State) : Dev :=
  if up = .answered ∧ portOk = true then s.resetTakes else s.dev

def Dev.setLrst (b : Bool) (d : Dev) : Dev := { d with path := { d.path with lrst := b } }

/-- LINE_RESET: assertion of LRST (R152), which gives the held transaction no response (R156); no event while it
is asserted, and in UNPLACED only the level is noted (log 36). What memory had answered before the reset is taken
before it (R57, R75). -/
def execLineReset (up : UpAccess) (portOk : Bool) (s : State) : Host.Outcome State Fault Refusal :=
  if s.dev.path.lrst then .next s
  else if s.dev.setup.part = .unplaced then .next { s with dev := s.dev.setLrst true }
  else
    .next { s with mem := s.resetLands up portOk
                   answers := []
                   downstream := s.resetIssued up
                   dev := Dev.drainAll (s.resetFinds up portOk).lineReset }

/-- LINE_RESET_RELEASE: release of LRST (R152); the requested status write is formed (log 15). -/
def execLineResetRelease (s : State) : Host.Outcome State Fault Refusal :=
  .next { s with dev := Dev.settle (s.dev.setLrst false) }

end Sys2Proof.Machine
end

