-- ==== Sys2Proof/Machine/Timers.lean ====
section
/-! DEFINITION. The expiries of the millisecond timers (R54, R55, R72, R172, R173), and a millisecond passing. -/

namespace Sys2Proof.Machine

/-- The re-read timer expires (R172, log 5); no event while it is idle. -/
def Dev.rereadExpired (d : Dev) : Dev :=
  if d.report.reread = none then d
  else
    let d := { d with report := { d.report with reread := none } }
    if d.report.queue = [] then d else d.reRead

/-- STALL_TIMER_EXPIRY (R54, log 5). -/
def execStallTimerExpiry (s : State) : Host.Outcome State Fault Refusal :=
  s.onDev fun d => Dev.settle d.stallExpired

/-- STOP_TIMER_EXPIRY (R55, R148). -/
def execStopTimerExpiry (s : State) : Host.Outcome State Fault Refusal :=
  s.onDev fun d => Dev.settle d.stopExpired

/-- SCALE_SILENCE_EXPIRY (R72). -/
def execScaleSilenceExpiry (s : State) : Host.Outcome State Fault Refusal :=
  s.onDev fun d => Dev.settle d.silenceExpired

/-- AGE_TIMER_EXPIRY (R173). -/
def execAgeTimerExpiry (s : State) : Host.Outcome State Fault Refusal :=
  s.onDev fun d => Dev.settle d.ageExpired

/-- REREAD_TIMER_EXPIRY (R172). -/
def execRereadTimerExpiry (s : State) : Host.Outcome State Fault Refusal :=
  s.onDev fun d => Dev.settle d.rereadExpired

/-! ### A millisecond passes (log 4) -/

/-- A running timer counts. -/
def Timer.count : Timer → Timer
  | .idle => .idle
  | .running n => .running (n + 1)
  | .expired => .expired

/-- The time has been reached. -/
def Timer.reached (limit : Nat) : Timer → Bool
  | .idle => false
  | .running n => decide (limit ≤ n)
  | .expired => false

/-- A timer held as elapsed milliseconds counts. -/
def countMs : Option Nat → Option Nat
  | none => none
  | some n => some (n + 1)

def msReached (limit : Nat) : Option Nat → Bool
  | none => false
  | some n => decide (limit ≤ n)

/-- The elapsed time of the age timer. -/
def Reporting.age : Reporting → Option Nat
  | .waiting _ => none
  | .running b => b.age
  | .faulted => none

/-- The age timer counts. -/
def Reporting.countAge : Reporting → Reporting
  | .waiting w => .waiting w
  | .running b => .running { b with age := countMs b.age }
  | .faulted => .faulted

/-- Every timer that runs counts one millisecond: the stall timer while READY, the stop timer while READY
and STOPPED, the silence timer while RUNNING (R54, R55, R72, R172, R173). -/
def Dev.countTimers (d : Dev) : Dev :=
  let ready := decide (d.setup.part = .ready)
  { d with
    pocket := { d.pocket with
      stall := if ready then countMs d.pocket.stall else d.pocket.stall
      stop := if ready && !d.pocket.running then d.pocket.stop.count else d.pocket.stop }
    weigh := { d.weigh with silence := if d.pocket.running then d.weigh.silence.count else d.weigh.silence }
    report := { d.report with reporting := d.report.reporting.countAge, reread := countMs d.report.reread } }

/-- One millisecond passes: the timers count, and those that reach their time expire in a fixed order
(DESIGN CHOICE, log 4). -/
def Dev.tick (d : Dev) : Dev :=
  let d := d.countTimers
  let d := if msReached d.su.stallMs d.pocket.stall then d.stallExpired else d
  let d := if d.pocket.stop.reached d.su.stopMs then d.stopExpired else d
  let d := if d.weigh.silence.reached d.su.silentMs then d.silenceExpired else d
  let d := if msReached d.su.ageMs d.report.reporting.age then d.ageExpired else d
  Dev.settle (if msReached 1 d.report.reread then d.rereadExpired else d)

end Sys2Proof.Machine
end

