-- ==== Sys2Proof/Machine/Bursts.lean ====
section
/-! DEFINITION. The meanings of the commands that start the part's own work or answer its bursts (R131, R133,
R138, R139, R160, R163, R166, R170, R172, R173). -/

namespace Sys2Proof.Machine

/-- ARBITER_GRANT (R160). -/
def execArbiterGrant (s : State) : Host.Outcome State Fault Refusal := .next s.arbiterGrant

/-- LOAD_COMPLETION: the answer of a setup block burst (R166). -/
def execLoadCompletion (ok : Bool) (s : State) : Host.Outcome State Fault Refusal :=
  .next (s.answered .setup ok fun x d => d.setupAnswered x.ok x.data)

/-- ORDER_A_FETCH_DONE: the answer of a changeover order fetch burst (R132, R133). -/
def execOrderAFetchDone (ok : Bool) (s : State) : Host.Outcome State Fault Refusal :=
  .next (s.answered .fetchA ok fun x d => d.fetchAAnswered x.addr x.ok x.data)

/-- RECIPE_LOAD_START (R131, log 31). -/
def execRecipeLoadStart (s : State) : Host.Outcome State Fault Refusal :=
  s.onDev fun d => Dev.settle d.startLoad

/-- RECIPE_LOAD_DONE: the answer of a recipe context burst (R131). -/
def execRecipeLoadDone (ok : Bool) (s : State) : Host.Outcome State Fault Refusal :=
  .next (s.answered .recipe ok fun x d => d.recipeAnswered x.addr x.ok x.data)

/-- ORDER_WORD_WRITE_DONE: the answer of the part's write of an order word (R138). -/
def execOrderWordWriteDone (ok : Bool) (s : State) : Host.Outcome State Fault Refusal :=
  .next (s.answered .orderWord ok fun x d => d.orderWordAnswered x.addr x.ok)

/-- ORDER_B_FETCH_DONE: the answer of a service order fetch burst (R139). -/
def execOrderBFetchDone (ok : Bool) (s : State) : Host.Outcome State Fault Refusal :=
  .next (s.answered .fetchB ok fun x d => d.fetchBAnswered x.addr x.ok x.data)

/-- STATUS_BURST_DONE: the answer of a status block burst (R170). -/
def execStatusBurstDone (ok : Bool) (s : State) : Host.Outcome State Fault Refusal :=
  .next (s.answered .status ok fun x d => d.statusAnswered x.ok)

/-! ### The result chain: an answer belongs to the burst the Report unit has under way (R172, R173) -/

/-- RESULT_WRITE: the head result's burst is placed (R173, log 31). -/
def execResultWrite (s : State) : Host.Outcome State Fault Refusal :=
  s.onDev fun d => Dev.settle d.writeResult

/-- RESULT_WRITE_DONE (R173); no event while no result write is under way. -/
def execResultWriteDone (ok : Bool) (s : State) : Host.Outcome State Fault Refusal :=
  .next (match s.dev.report.act with
    | some .writing => s.answered .report ok fun x d => d.resultAnswered x.ok
    | some .lapsing => s.answered .report ok fun x d => d.lapsedAnswered x.ok
    | _ => s)

/-- CLOSE_WRITE_DONE (R173); no event while no close is under way. -/
def execCloseWriteDone (ok : Bool) (s : State) : Host.Outcome State Fault Refusal :=
  .next (match s.dev.report.act with
    | some (.closing a after) => s.answered .report ok fun x d => d.closeAnswered a after x.ok
    | _ => s)

/-- DESCRIPTOR_OPEN (R172); no event while no descriptor is being read. -/
def execDescriptorOpen (ok : Bool) (s : State) : Host.Outcome State Fault Refusal :=
  .next (match s.dev.report.act with
    | some (.opening a) => s.answered .report ok fun x d => d.descriptorAnswered a x.ok x.data
    | _ => s)

/-- NEXT_FIELD_READ (R173); no event while no next field is being read. -/
def execNextFieldRead (ok : Bool) (s : State) : Host.Outcome State Fault Refusal :=
  .next (match s.dev.report.act with
    | some (.reading a) => s.answered .report ok fun x d => d.nextAnswered a x.ok x.data
    | _ => s)

end Sys2Proof.Machine
end

