-- ==== Sys2Proof/WellFormed.lean ====
section
/-! DEFINITION. Which commands can come about: a transaction has 1 to 8 words at a word-aligned
address (00_scope.md 1.7), a view or ring command starts at a word of its window (12.1), and the
straps have 4 and 3 lines (00_scope.md 1.8). -/

namespace Sys2Proof

/-- A transaction's length is 1 to 8 words (00_scope.md 1.7). -/
def lengthOk (n : Nat) : Bool := 1 ≤ n && n ≤ 8

/-- A window word index and a length. -/
def rangeOk (size word n : Nat) : Bool := decide (word < size) && lengthOk n

def Instr.wellFormed : Instr → Bool
  | .powerOnReset cabase memsize _ => decide (cabase < 16) && decide (memsize < 8)
  | .lineReset _ _ => true
  | .lineResetRelease => true
  | .fillEvent _ word n _ => rangeOk 64 word n
  | .inspectionRead _ word n _ => rangeOk 64 word n
  | .nominalWrite _ word ws _ => rangeOk 64 word ws.length
  | .addViewWrite _ word ws _ => rangeOk 64 word ws.length
  | .addViewRead _ word n _ => rangeOk 64 word n
  | .bcastMaskWrite _ _ _ _ => true
  | .bcastSet _ _ _ => true
  | .bcastAdd _ _ _ => true
  | .positionEvent _ _ _ => true
  | .sampleEvent _ index ws _ => rangeOk 4096 index ws.length
  | .codeEvent _ word ws _ => rangeOk 512 word ws.length
  | .gatePoll _ _ => true
  | .gateInspectionRead _ _ => true
  | .armTest _ _ _ _ _ => true
  | .disarmTest _ _ _ _ _ => true
  | .suspend _ _ _ _ _ => true
  | .resume _ _ _ _ _ => true
  | .zeroTrim _ _ _ _ _ => true
  | .setTrim _ _ _ _ _ => true
  | .clearStats _ _ _ _ _ => true
  | .valveViewRead _ word n _ => rangeOk 1024 word n
  | .queryRefWrite _ _ _ => true
  | .queryCareWrite _ _ _ => true
  | .queryRead _ _ n _ => lengthOk n
  | .modeWrite _ _ _ => true
  | .ackWrite _ _ _ => true
  | .loadNow _ _ _ => true
  | .loadAtStop _ _ _ => true
  | .loadCompletion _ => true
  | .orderAWrite _ _ _ => true
  | .orderAFetchDone _ => true
  | .recipeLoadStart => true
  | .recipeLoadDone _ => true
  | .orderWordWriteDone _ => true
  | .orderBWrite _ _ _ => true
  | .orderBFetchDone _ => true
  | .setSpan => true
  | .zeroCapture => true
  | .clearTrack => true
  | .valveGroup _ => true
  | .reportFlush => true
  | .reportRestart => true
  | .unknownOp => true
  | .stallTimerExpiry => true
  | .stopTimerExpiry => true
  | .scaleSilenceExpiry => true
  | .ageTimerExpiry => true
  | .rereadTimerExpiry => true
  | .resultWrite => true
  | .resultWriteDone _ => true
  | .closeWriteDone _ => true
  | .descriptorOpen _ => true
  | .nextFieldRead _ => true
  | .statusBurstDone _ => true
  | .arbiterGrant => true
  | .plainWrite _ addr ws _ => decide (addr.toNat % 4 = 0) && lengthOk ws.length
  | .pathRefusedRead _ addr n _ => decide (addr.toNat % 4 = 0) && lengthOk n

end Sys2Proof
end

