-- ==== Sys2Proof/Machine/Bus.lean ====
section
/-! DEFINITION. The meanings of the commands of the line bus. Each presents the transaction it names at the
upstream port (R156); the port tests it and serves it by the window it lies in, the part state and the
roles (R157, R158, log 1). -/

namespace Sys2Proof.Machine

/-- Byte address of word `i` of the window at offset `off` (12.1). -/
def Dev.windowAddr (d : Dev) (off i : Nat) : Nat := d.base + off + 4 * i

/-- Present a read of `n` words from window word `i` on. -/
def State.presentRead (m : Master) (off i n : Nat) (a : MemAns) (s : State) : State :=
  s.present (.read m (s.dev.windowAddr off i) n) a

/-- Present a write from window word `i` on. -/
def State.presentWrite (m : Master) (off i : Nat) (ws : List WWord) (a : MemAns) (s : State) : State :=
  s.present (.write m (s.dev.windowAddr off i) ws) a

/-! ### Fills and nominals (R23, R31, R36 to R39) -/

/-- FILL_EVENT: a read of the issued view (R23). -/
def execFillEvent (m : Master) (word n : Nat) (a : MemAns) (s : State) : Host.Outcome State Fault Refusal :=
  whenOk (rangeOk 64 word n) (s.presentRead m 0x400 word n a)

/-- INSPECTION_READ: a read of the issued view (R31). -/
def execInspectionRead (m : Master) (word n : Nat) (a : MemAns) (s : State) :
    Host.Outcome State Fault Refusal :=
  whenOk (rangeOk 64 word n) (s.presentRead m 0x400 word n a)

/-- NOMINAL_WRITE: a write to the nominal view (R36). -/
def execNominalWrite (m : Master) (word : Nat) (ws : List WWord) (a : MemAns) (s : State) :
    Host.Outcome State Fault Refusal :=
  whenOk (rangeOk 64 word ws.length) (s.presentWrite m 0x300 word ws a)

/-- ADD_VIEW_WRITE (R37). -/
def execAddViewWrite (m : Master) (word : Nat) (ws : List WWord) (a : MemAns) (s : State) :
    Host.Outcome State Fault Refusal :=
  whenOk (rangeOk 64 word ws.length) (s.presentWrite m 0x500 word ws a)

/-- ADD_VIEW_READ (R37). -/
def execAddViewRead (m : Master) (word n : Nat) (a : MemAns) (s : State) :
    Host.Outcome State Fault Refusal :=
  whenOk (rangeOk 64 word n) (s.presentRead m 0x500 word n a)

/-- BCAST_MASK_WRITE: a write of BCAST_MASK_LO, or of BCAST_MASK_HI (R38). -/
def execBcastMaskWrite (m : Master) (hi : Bool) (w : WWord) (a : MemAns) (s : State) :
    Host.Outcome State Fault Refusal :=
  .next (s.presentWrite m (if hi then 0x120 else 0x11C) 0 [w] a)

/-- BCAST_SET (R39). -/
def execBcastSet (m : Master) (w : WWord) (a : MemAns) (s : State) : Host.Outcome State Fault Refusal :=
  .next (s.presentWrite m 0x124 0 [w] a)

/-- BCAST_ADD (R39). -/
def execBcastAdd (m : Master) (w : WWord) (a : MemAns) (s : State) : Host.Outcome State Fault Refusal :=
  .next (s.presentWrite m 0x128 0 [w] a)

/-! ### The line partners (R41, R59, R75, R100, R104) -/

/-- POSITION_EVENT: a write of POSITION (R41). -/
def execPositionEvent (m : Master) (w : WWord) (a : MemAns) (s : State) :
    Host.Outcome State Fault Refusal :=
  .next (s.presentWrite m 0x140 0 [w] a)

/-- SAMPLE_EVENT: a write into the sample ring (R59). -/
def execSampleEvent (m : Master) (index : Nat) (ws : List WWord) (a : MemAns) (s : State) :
    Host.Outcome State Fault Refusal :=
  whenOk (rangeOk 4096 index ws.length) (s.presentWrite m 0x4000 index ws a)

/-- CODE_EVENT: a write into the code ring (R75). -/
def execCodeEvent (m : Master) (word : Nat) (ws : List WWord) (a : MemAns) (s : State) :
    Host.Outcome State Fault Refusal :=
  whenOk (rangeOk 512 word ws.length) (s.presentWrite m 0x800 word ws a)

/-- GATE_POLL: a read of GATE (R100). -/
def execGatePoll (m : Master) (a : MemAns) (s : State) : Host.Outcome State Fault Refusal :=
  .next (s.presentRead m 0x144 0 1 a)

/-- GATE_INSPECTION_READ: a read of GATE (R104). -/
def execGateInspectionRead (m : Master) (a : MemAns) (s : State) : Host.Outcome State Fault Refusal :=
  .next (s.presentRead m 0x144 0 1 a)

/-! ### Valve commands (R119, R120) -/

/-- The command word of a valve command (12.3). -/
def commandWord (c : ValveCommand) (operand : BitVec 16) : Word :=
  BitVec.ofNat 32 (put operand.toNat 0 16 + put c.code 16 8)

/-- Present a write of valve `v`'s command word. -/
def State.presentCommand (c : ValveCommand) (m : Master) (v : Fin 64) (operand : BitVec 16) (be : BitVec 4)
    (a : MemAns) (s : State) : State :=
  s.presentWrite m 0x600 v.val [{ data := commandWord c operand, be := be }] a

/-- ARM_TEST (R120). -/
def execArmTest (m : Master) (v : Fin 64) (operand : BitVec 16) (be : BitVec 4) (a : MemAns) (s : State) :
    Host.Outcome State Fault Refusal :=
  .next (s.presentCommand .armTest m v operand be a)

/-- DISARM_TEST (R120). -/
def execDisarmTest (m : Master) (v : Fin 64) (operand : BitVec 16) (be : BitVec 4) (a : MemAns)
    (s : State) : Host.Outcome State Fault Refusal :=
  .next (s.presentCommand .disarmTest m v operand be a)

/-- SUSPEND (R120). -/
def execSuspend (m : Master) (v : Fin 64) (operand : BitVec 16) (be : BitVec 4) (a : MemAns) (s : State) :
    Host.Outcome State Fault Refusal :=
  .next (s.presentCommand .suspend m v operand be a)

/-- RESUME (R120). -/
def execResume (m : Master) (v : Fin 64) (operand : BitVec 16) (be : BitVec 4) (a : MemAns) (s : State) :
    Host.Outcome State Fault Refusal :=
  .next (s.presentCommand .resume m v operand be a)

/-- ZERO_TRIM (R120). -/
def execZeroTrim (m : Master) (v : Fin 64) (operand : BitVec 16) (be : BitVec 4) (a : MemAns) (s : State) :
    Host.Outcome State Fault Refusal :=
  .next (s.presentCommand .zeroTrim m v operand be a)

/-- SET_TRIM (R120). -/
def execSetTrim (m : Master) (v : Fin 64) (operand : BitVec 16) (be : BitVec 4) (a : MemAns) (s : State) :
    Host.Outcome State Fault Refusal :=
  .next (s.presentCommand .setTrim m v operand be a)

/-- CLEAR_STATS (R120). -/
def execClearStats (m : Master) (v : Fin 64) (operand : BitVec 16) (be : BitVec 4) (a : MemAns)
    (s : State) : Host.Outcome State Fault Refusal :=
  .next (s.presentCommand .clearStats m v operand be a)

/-! ### The valve view and the query (R123 to R126) -/

/-- VALVE_VIEW_READ (R123). -/
def execValveViewRead (m : Master) (word n : Nat) (a : MemAns) (s : State) :
    Host.Outcome State Fault Refusal :=
  whenOk (rangeOk 1024 word n) (s.presentRead m 0x1000 word n a)

/-- QUERY_REF_WRITE (R125). -/
def execQueryRefWrite (m : Master) (w : WWord) (a : MemAns) (s : State) :
    Host.Outcome State Fault Refusal :=
  .next (s.presentWrite m 0x114 0 [w] a)

/-- QUERY_CARE_WRITE (R125). -/
def execQueryCareWrite (m : Master) (w : WWord) (a : MemAns) (s : State) :
    Host.Outcome State Fault Refusal :=
  .next (s.presentWrite m 0x118 0 [w] a)

/-- QUERY_READ: a read of QUERY_MATCH_LO or QUERY_MATCH_HI (R126). -/
def execQueryRead (m : Master) (hi : Bool) (n : Nat) (a : MemAns) (s : State) :
    Host.Outcome State Fault Refusal :=
  whenOk (lengthOk n) (s.presentRead m 0x148 (if hi then 1 else 0) n a)

/-! ### Control words (R132, R139, R165, R168, R169) -/

/-- MODE_WRITE (R168). -/
def execModeWrite (m : Master) (w : WWord) (a : MemAns) (s : State) : Host.Outcome State Fault Refusal :=
  .next (s.presentWrite m 0x104 0 [w] a)

/-- ACK_WRITE (R169). -/
def execAckWrite (m : Master) (w : WWord) (a : MemAns) (s : State) : Host.Outcome State Fault Refusal :=
  .next (s.presentWrite m 0x110 0 [w] a)

/-- LOAD_NOW: LOAD written with 1 (R165). -/
def execLoadNow (m : Master) (be : BitVec 4) (a : MemAns) (s : State) : Host.Outcome State Fault Refusal :=
  .next (s.presentWrite m 0x100 0 [{ data := 1, be := be }] a)

/-- LOAD_AT_STOP: LOAD written with 2 (R165). -/
def execLoadAtStop (m : Master) (be : BitVec 4) (a : MemAns) (s : State) :
    Host.Outcome State Fault Refusal :=
  .next (s.presentWrite m 0x100 0 [{ data := 2, be := be }] a)

/-- ORDER_A_WRITE (R132). -/
def execOrderAWrite (m : Master) (w : WWord) (a : MemAns) (s : State) : Host.Outcome State Fault Refusal :=
  .next (s.presentWrite m 0x108 0 [w] a)

/-- ORDER_B_WRITE (R139). -/
def execOrderBWrite (m : Master) (w : WWord) (a : MemAns) (s : State) : Host.Outcome State Fault Refusal :=
  .next (s.presentWrite m 0x10C 0 [w] a)

/-! ### Any address (R157, R159) -/

/-- PLAIN_WRITE: a write at any address (R159). -/
def execPlainWrite (m : Master) (addr : Word) (ws : List WWord) (a : MemAns) (s : State) :
    Host.Outcome State Fault Refusal :=
  whenOk (decide (addr.toNat % 4 = 0) && lengthOk ws.length) (s.present (.write m addr.toNat ws) a)

/-- PATH_REFUSED_READ: a read at any address (R157). -/
def execPathRefusedRead (m : Master) (addr : Word) (n : Nat) (a : MemAns) (s : State) :
    Host.Outcome State Fault Refusal :=
  whenOk (decide (addr.toNat % 4 = 0) && lengthOk n) (s.present (.read m addr.toNat n) a)

end Sys2Proof.Machine
end

