-- ==== Sys2Proof/Machine/Dispatch.lean ====
section
/-! DEFINITION. The dispatch: one arm per command, each one direct call of its meaning. -/

namespace Sys2Proof.Machine

def exec (i : Instr) (s : State) : Host.Outcome State Fault Refusal :=
  match i with
  | .powerOnReset cabase memsize portOk => Sys2Proof.Machine.execPowerOnReset cabase memsize portOk s
  | .lineReset up portOk => Sys2Proof.Machine.execLineReset up portOk s
  | .lineResetRelease => Sys2Proof.Machine.execLineResetRelease s
  | .fillEvent m word n a => Sys2Proof.Machine.execFillEvent m word n a s
  | .inspectionRead m word n a => Sys2Proof.Machine.execInspectionRead m word n a s
  | .nominalWrite m word ws a => Sys2Proof.Machine.execNominalWrite m word ws a s
  | .addViewWrite m word ws a => Sys2Proof.Machine.execAddViewWrite m word ws a s
  | .addViewRead m word n a => Sys2Proof.Machine.execAddViewRead m word n a s
  | .bcastMaskWrite m hi w a => Sys2Proof.Machine.execBcastMaskWrite m hi w a s
  | .bcastSet m w a => Sys2Proof.Machine.execBcastSet m w a s
  | .bcastAdd m w a => Sys2Proof.Machine.execBcastAdd m w a s
  | .positionEvent m w a => Sys2Proof.Machine.execPositionEvent m w a s
  | .sampleEvent m index ws a => Sys2Proof.Machine.execSampleEvent m index ws a s
  | .codeEvent m word ws a => Sys2Proof.Machine.execCodeEvent m word ws a s
  | .gatePoll m a => Sys2Proof.Machine.execGatePoll m a s
  | .gateInspectionRead m a => Sys2Proof.Machine.execGateInspectionRead m a s
  | .armTest m v operand be a => Sys2Proof.Machine.execArmTest m v operand be a s
  | .disarmTest m v operand be a => Sys2Proof.Machine.execDisarmTest m v operand be a s
  | .suspend m v operand be a => Sys2Proof.Machine.execSuspend m v operand be a s
  | .resume m v operand be a => Sys2Proof.Machine.execResume m v operand be a s
  | .zeroTrim m v operand be a => Sys2Proof.Machine.execZeroTrim m v operand be a s
  | .setTrim m v operand be a => Sys2Proof.Machine.execSetTrim m v operand be a s
  | .clearStats m v operand be a => Sys2Proof.Machine.execClearStats m v operand be a s
  | .valveViewRead m word n a => Sys2Proof.Machine.execValveViewRead m word n a s
  | .queryRefWrite m w a => Sys2Proof.Machine.execQueryRefWrite m w a s
  | .queryCareWrite m w a => Sys2Proof.Machine.execQueryCareWrite m w a s
  | .queryRead m hi n a => Sys2Proof.Machine.execQueryRead m hi n a s
  | .modeWrite m w a => Sys2Proof.Machine.execModeWrite m w a s
  | .ackWrite m w a => Sys2Proof.Machine.execAckWrite m w a s
  | .loadNow m be a => Sys2Proof.Machine.execLoadNow m be a s
  | .loadAtStop m be a => Sys2Proof.Machine.execLoadAtStop m be a s
  | .loadCompletion ok => Sys2Proof.Machine.execLoadCompletion ok s
  | .orderAWrite m w a => Sys2Proof.Machine.execOrderAWrite m w a s
  | .orderAFetchDone ok => Sys2Proof.Machine.execOrderAFetchDone ok s
  | .recipeLoadStart => Sys2Proof.Machine.execRecipeLoadStart s
  | .recipeLoadDone ok => Sys2Proof.Machine.execRecipeLoadDone ok s
  | .orderWordWriteDone ok => Sys2Proof.Machine.execOrderWordWriteDone ok s
  | .orderBWrite m w a => Sys2Proof.Machine.execOrderBWrite m w a s
  | .orderBFetchDone ok => Sys2Proof.Machine.execOrderBFetchDone ok s
  | .setSpan => Sys2Proof.Machine.execSetSpan s
  | .zeroCapture => Sys2Proof.Machine.execZeroCapture s
  | .clearTrack => Sys2Proof.Machine.execClearTrack s
  | .valveGroup upTo => Sys2Proof.Machine.execValveGroup upTo s
  | .reportFlush => Sys2Proof.Machine.execReportFlush s
  | .reportRestart => Sys2Proof.Machine.execReportRestart s
  | .unknownOp => Sys2Proof.Machine.execUnknownOp s
  | .stallTimerExpiry => Sys2Proof.Machine.execStallTimerExpiry s
  | .stopTimerExpiry => Sys2Proof.Machine.execStopTimerExpiry s
  | .scaleSilenceExpiry => Sys2Proof.Machine.execScaleSilenceExpiry s
  | .ageTimerExpiry => Sys2Proof.Machine.execAgeTimerExpiry s
  | .rereadTimerExpiry => Sys2Proof.Machine.execRereadTimerExpiry s
  | .resultWrite => Sys2Proof.Machine.execResultWrite s
  | .resultWriteDone ok => Sys2Proof.Machine.execResultWriteDone ok s
  | .closeWriteDone ok => Sys2Proof.Machine.execCloseWriteDone ok s
  | .descriptorOpen ok => Sys2Proof.Machine.execDescriptorOpen ok s
  | .nextFieldRead ok => Sys2Proof.Machine.execNextFieldRead ok s
  | .statusBurstDone ok => Sys2Proof.Machine.execStatusBurstDone ok s
  | .arbiterGrant => Sys2Proof.Machine.execArbiterGrant s
  | .plainWrite m addr ws a => Sys2Proof.Machine.execPlainWrite m addr ws a s
  | .pathRefusedRead m addr n a => Sys2Proof.Machine.execPathRefusedRead m addr n a s

end Sys2Proof.Machine
end

