-- ==== Sys2Proof/Safety.lean ====
section
/-! DEFINITION. The words in which claims about the machine are stated: the invariant of every step, and the
conditions on a state under which a command runs to its end in one step. -/

namespace Sys2Proof

/-- Memory answers every access OKAY and nothing comes between them. -/
def MemAns.clean (a : MemAns) : Prop := a.faultAt = none ∧ a.pauseAt = none

namespace Machine

/-! ### The invariant -/

/-- What every step keeps: controller memory keeps its canonical form; the straps hold values of their lines
(00_scope.md 1.8); the wait count does not exceed 4 (R160); the report queue holds at most 16 results (R171);
the part is UNPLACED exactly when the straps place no control area (R158), and then no cause is pending and
nothing of the part's own is on its way to memory (R162, R169). -/
structure State.Inv (s : State) : Prop where
  memory : Memory.wf s.mem = true
  straps : s.dev.path.cabase < 16 ∧ s.dev.path.memsize < 8
  wait   : s.dev.path.waitCount ≤ 4
  queue  : s.dev.report.queue.length ≤ 16
  placed : s.dev.setup.part = .unplaced ↔ placed s.dev.path.cabase s.dev.path.memsize = false
  silent : s.dev.setup.part = .unplaced →
    s.dev.report.pending = 0 ∧ s.dev.path.bursts = [] ∧ s.dev.path.port = none

/-! ### The live records -/

/-- The live records (R1): those the ring's pockets hold, from the oldest pocket to the newest, then the fill list. -/
def Dev.live (d : Dev) : List CanRecord :=
  (d.ringPockets.filterMap fun p => (d.entry p).record) ++ d.track.fill

/-- The pockets that the ring's 64 entries stand for when `p` is the scale pocket, oldest first (R50). -/
def ringFrom (p : Word) : List Word := (List.range 64).map fun i => p - 63#32 + BitVec.ofNat 32 i

/-- The live records in pocket order up to the scale pocket `p`, then the fill list. -/
def Dev.liveAt (p : Word) (d : Dev) : List CanRecord :=
  ((ringFrom p).filterMap fun q => (d.entry q).record) ++ d.track.fill

/-! ### The laws of the device -/

/-- The books kept on a list `l` of records, each counted once: every track slot is either in the pool or one
record's (R1); the member set of each recipe slot holds the slots of the records that name it (R129); the suspect
count is the number of suspect records (R146); and every record passes its check (R4, log 10). -/
structure Dev.Books (l : List CanRecord) (d : Dev) : Prop where
  pool     : (d.track.free ++ l.map fun r => r.slot).Perm (List.range 512)
  members  : ∀ k, (d.slot k).members.Perm ((l.filter fun r => r.recipe == k).map fun r => r.slot)
  suspects : d.track.suspects = l.countP fun r => r.suspect
  sound    : ∀ r ∈ l, r.bad = false

/-- The pockets `lo` to `hi` before the scale pocket `p` alone hold records, and each that does is CAN (R50, R69,
R106), but for pocket `x` (R88). -/
def Dev.Pockets (lo hi : Nat) (x : Option Word) (p : Word) (d : Dev) : Prop :=
  ∀ a < 64, (d.entry (p - BitVec.ofNat 32 a)).record ≠ none →
    lo ≤ a ∧ a ≤ hi ∧ (x = some (p - BitVec.ofNat 32 a) ∨ (d.entry (p - BitVec.ofNat 32 a)).occ = .can)

/-- The laws of the recipe table: a slot that is FREE, LOADING or PENDING has no member (R129, R130); one that is
PENDING or CURRENT holds a recipe; at most one is CURRENT (R129); a load in progress is into a LOADING slot (R131);
and every valve's trim lies within the current recipe's limit, and is 0 while none is CURRENT (R33, R116, R120). -/
structure Dev.TableLaws (d : Dev) : Prop where
  empty    : ∀ k, (d.slot k).st = .free ∨ (d.slot k).st = .loading ∨ (d.slot k).st = .pending → (d.slot k).members = []
  taught   : ∀ k, (d.slot k).st = .pending ∨ (d.slot k).st = .current → (d.slot k).recipe ≠ none
  one      : ∀ j k, (d.slot j).st = .current → (d.slot k).st = .current → j = k
  loader   : ∀ l, d.order.loader = some l → (d.slot l.slot).st = .loading
  trims    : ∀ k c v, (d.slot k).st = .current → (d.slot k).recipe = some c →
    (d.valveRec v).trim.natAbs ≤ c.trimLimit
  untaught : (∀ k, (d.slot k).st ≠ .current) → ∀ v, (d.valveRec v).trim = 0

/-- The laws of the setup: the setup in effect passed its tests (R167); there is one in READY, in a load begun from
READY (R166), and while a position is held (R43); with no position held, the ring holds no record (R56). -/
structure Dev.SetupLaws (d : Dev) : Prop where
  valid  : ∀ u, d.setup.setup = some u → setupCheck d.size u = none
  ready  : d.setup.part = .ready ∨ d.setup.part = .loading true → d.setup.setup ≠ none
  placed : d.pocket.pos ≠ none → d.setup.setup ≠ none
  empty  : d.pocket.pos = none → ∀ q, (d.entry q).record = none

/-- A piece of work of a fill read (R23, R24, R32). -/
def Micro.filling : Micro → Bool
  | .fill _ => true
  | .switchPut _ => true
  | .switchCommit => true
  | .fillFetch _ => true
  | .fillEnd => true
  | _ => false

/-- The law of the upstream port: a transaction behind the held one has no work yet (R156, log 32); only a fill read
being served has formed fills (R23), and the recipe slot of each tracked one is CURRENT or DRAINING (R28, R130, log
21). -/
structure Dev.PortLaws (d : Dev) : Prop where
  waiting : ∀ h ∈ d.path.upstream.drop 1, h.work = none ∧ h.ctx.formed = []
  idle    : ∀ h us, d.path.upstream = h :: us → h.work = none → h.ctx.formed = []
  kind    : ∀ h us w, d.path.upstream = h :: us → h.work = some w →
    (∀ mi ∈ w, mi.filling = true) ∨ (h.ctx.formed = [] ∧ ∀ mi ∈ w, mi.filling = false)
  slots   : ∀ h us, d.path.upstream = h :: us → ∀ f ∈ h.ctx.formed, f.tracked = true →
    (d.slot f.recipe).st = .current ∨ (d.slot f.recipe).st = .draining

/-- The laws of the device, `p` being the scale pocket. -/
structure Dev.LawsAt (p : Word) (d : Dev) : Prop where
  books   : d.Books (d.liveAt p)
  pockets : d.Pockets 1 d.su.dGate none p
  table   : d.TableLaws
  setup   : d.SetupLaws
  port    : d.PortLaws

/-- The laws of the device the spec names as such (R1, R129, R146, trims within the current recipe's limit), with
what they rest on; P counts as 0 while no position is held. -/
def Dev.Laws (d : Dev) : Prop := d.LawsAt (d.pocketNow.getD 0)

/-- The orders of R10, by R3's comparison: along the live records the fill sequence numbers strictly increase, and
the counter's value lies above them all. -/
structure Dev.Ordered (d : Dev) : Prop where
  numbers : d.live.Pairwise fun a b => 0 < (b.seq - a.seq).toInt
  counter : ∀ r ∈ d.live, 0 < (d.fill.seq - r.seq).toInt

/-- No live record is `n` numbers old: fewer than `n` were given out since its own. -/
def Dev.Recent (n : Nat) (d : Dev) : Prop := ∀ r ∈ d.live, (d.fill.seq - r.seq).toNat < n

/-! ### Conditions on a state -/

/-- The upstream port is idle and the downstream port is granted to it at once (R156, R160). -/
def State.PortFree (s : State) : Prop := s.dev.path.upstream = [] ∧ s.dev.grantable = true

/-- The upstream port is idle, and nothing of the part's own is on, or waiting for, the downstream port. -/
structure State.Quiet (s : State) : Prop where
  upstream : s.dev.path.upstream = []
  port     : s.dev.path.port = none
  bursts   : s.dev.path.bursts = []
  request  : s.dev.report.request = false

/-- READY, with the control area placed (R158, R165). -/
def State.Ready (s : State) : Prop := s.dev.setup.part = .ready ∧ s.dev.base < s.dev.size

/-! ### Shapes of a command's result -/

/-- The accesses `xs` as master `m`'s: each carries its number on the downstream port (R159). -/
def issuedFor (m : Master) (xs : List Access) : List OwnedAccess :=
  xs.map fun x => { owner := .upstream m, access := x }

/-- Master `m`'s transaction has been served: the downstream port carried the accesses `xs`, each with `m`'s
number, and the upstream port gave the one response `a` (R156, R159). -/
def State.served (m : Master) (xs : List Access) (a : Answer) (s : State) : State :=
  { s with answers := [a], downstream := issuedFor m xs }

/-- Further accesses of master `m`'s transaction. -/
def State.issuing (m : Master) (xs : List Access) (s : State) : State :=
  { s with downstream := s.downstream ++ issuedFor m xs }

/-- Master `m`'s write, stored whole as one access and then taken by a block as `f`: memory, the wait count (R160),
the block's taking, the status write it requests (R170), and the answer OKAY. -/
def State.stored (m : Master) (addr : Nat) (ws : List WWord) (f : Dev → Dev) (s : State) : State :=
  State.served m [.write addr ws] (.okay []) { s with
    mem := Memory.writeWords s.mem addr ws
    dev := Dev.settle (f s.dev.countGrant) }

/-- The commands of a block's answer path: an internal burst of operation `op` is on the port and was not
stopped. -/
def State.Answering (s : State) (op : InternalOp) (addr : Nat) (kind : BurstKind) : Prop :=
  s.dev.path.port = some { burst := { op := op, addr := addr, kind := kind }, stopped := false }

/-- The port is free again after a burst answered `ok`; a write that was answered OKAY is in memory. -/
def State.burstEnds (addr : Nat) (kind : BurstKind) (ok : Bool) (s : State) : State :=
  { s with
    mem := match kind with
      | .read _ => s.mem
      | .write ws => if ok then Memory.writeWords s.mem addr (ws.map fullWord) else s.mem
    dev := { s.dev with path := { s.dev.path with port := none } } }

/-- The words a burst brings back. -/
def BurstKind.data (k : BurstKind) (m : List Host.Cell) (addr : Nat) : List Word :=
  match k with
  | .read n => Memory.readWords m addr n
  | .write _ => []

end Machine

end Sys2Proof
end

