-- ==== Sys2Proof/Certificates/Slice0/Obligations.lean ====
section
/-! DEFINITION. The statements for the provers. Each says what a command, or the machine, does in every state
and for every operand that meets its premises. -/

open Sys2Proof Sys2Proof.Machine

/-! ### One step, the reset and the invariant -/

/-- A step takes the command at the front of the queue and answers what the command answers on the queue's
rest. -/
def Obligations.StepRunsTheFrontCommand : Prop :=
  ∀ (c : Instr) (rest : List Instr) (s : State),
    step { s with pending := c :: rest } = exec c { s with pending := rest }

/-- No command queued: one millisecond passes. This is the model's choice (log 4), no rule of the spec. The
stall timer counts while READY, the stop timer while READY and STOPPED, the silence timer while RUNNING; the
age and re-read timers count whenever they run; memory, the track, the ring, the valves and the orders stand
when no timer reaches its time. -/
def Obligations.EmptyQueueIsOneMillisecond : Prop :=
  (∀ s : State, s.pending = [] → step s = .next { s with dev := s.dev.tick }) ∧
  ∀ d : Dev, d.report.request = false →
    (∀ n, d.pocket.stall = some n → d.setup.part = .ready → n + 1 < d.su.stallMs) →
    (∀ n, d.pocket.stop = .running n → n + 1 < d.su.stopMs) →
    (∀ n, d.weigh.silence = .running n → n + 1 < d.su.silentMs) →
    (∀ b n, d.report.reporting = .running b → b.age = some n → n + 1 < d.su.ageMs) →
    (d.setup.part ≠ .ready → d.pocket.stall = none) → d.report.reread = none →
    d.tick = { d with
      pocket := { d.pocket with
        stall := d.pocket.stall.map (· + 1)
        stop := match d.pocket.stop with
          | .running n => if d.setup.part = .ready ∧ d.pocket.running = false then .running (n + 1) else .running n
          | x => x }
      weigh := { d.weigh with
        silence := match d.weigh.silence with
          | .running n => if d.pocket.running then .running (n + 1) else .running n
          | x => x }
      report := { d.report with
        reporting := match d.report.reporting with
          | .running b => .running { b with age := b.age.map (· + 1) }
          | x => x } }

/-- The machine after power-on reset holds what the blocks' power-on columns give (R1, R3, R21, R30, R42, R62,
R77, R109, R125, R129, R143, R146, R164, R165, R168, R169, R171, R174). The straps' values, that LRST is not
asserted, that unlisted memory reads 0, and that the ports have given nothing out, are the model's choices (log 9,
log 28, log 6, log 34). -/
def Obligations.ResetIsTheSpecsReset : Prop :=
  let d := State.reset.dev
  State.reset.pending = [] ∧ State.reset.mem = [] ∧ State.reset.answers = [] ∧ State.reset.downstream = [] ∧
  d.setup.part = .unloaded ∧ d.setup.setup = none ∧ d.setup.loadError = { code := .none, field := 255 } ∧
  d.setup.retained = false ∧ d.setup.deferred = false ∧ d.setup.loadWords = [] ∧ d.setup.enforce = false ∧
  d.setup.trimApply = false ∧
  d.report.pending = 0 ∧ d.report.queue = [] ∧ d.report.dropped = 0 ∧ d.report.errAddr = 0 ∧
  d.report.again = false ∧ d.report.reporting = .waiting .nothing ∧ d.report.act = none ∧ d.report.reread = none ∧
  d.fill.seq = 1 ∧ d.fill.untracked = 0 ∧ d.fill.switchDue = false ∧ d.fill.mask = 0 ∧
  d.track.free.length = 512 ∧ d.track.free.Nodup ∧ (∀ n ∈ d.track.free, n < 512) ∧ d.track.fill = [] ∧
  d.track.suspects = 0 ∧
  d.pocket.pos = none ∧ d.pocket.running = false ∧ d.pocket.reversal = false ∧ d.pocket.stall = none ∧
  d.pocket.stop = .idle ∧ (∀ p : Word, (d.entry p).occ = .none ∧ (d.entry p).record = none) ∧
  d.weigh.expected = none ∧ d.weigh.gapWin = .notOpened ∧ d.weigh.weighWin = .notOpened ∧
  d.weigh.closed = none ∧ d.weigh.zero = 0 ∧ d.weigh.zeroAge = 0 ∧ d.weigh.stale = false ∧
  d.weigh.capture = true ∧ d.weigh.spanMul = 1 ∧ d.weigh.spanShift = 0 ∧ d.weigh.silence = .idle ∧
  d.code.expected = 0 ∧ d.code.last = none ∧ d.code.missRun = 0 ∧ d.code.phantom = 0 ∧
  d.code.duplicate = 0 ∧ d.code.forward = 0 ∧ d.code.backward = 0 ∧
  (∀ v : Fin 64, d.valveRec v = ValveRec.reset) ∧ d.valve.queryRef = 0 ∧ d.valve.queryCare = 0 ∧
  (∀ k : Fin 4, d.slot k = RecipeSlot.empty) ∧ (∀ p : Fin 2, d.place p = none) ∧ d.order.running = none ∧
  d.order.draining = none ∧ d.order.cur = none ∧ d.order.fetchA = none ∧ d.order.fetchB = none ∧
  d.order.loader = none ∧ d.order.writes = [] ∧ d.order.service = none ∧
  d.path.upstream = [] ∧ d.path.waitCount = 0 ∧ d.path.port = none ∧ d.path.faults = 0 ∧ d.path.latch = none

/-- After power-on reset the invariant, the laws of the device and the orders of R10 hold (Safety.lean's `State.Inv`,
`Dev.Laws`, `Dev.Ordered`). -/
def Obligations.InvariantAtReset : Prop := State.reset.Inv ∧ State.reset.dev.Laws ∧ State.reset.dev.Ordered

/-- What every step that answers a next state keeps.
The invariant: memory stays in canonical form, the wait count stays at most 4, the report queue at most 16, the straps
stand unless POWER_ON_RESET takes legal ones, and an UNPLACED part holds no cause and no burst.
The laws of the device: each of the 512 track slots is in exactly one of the pool, the fill list and the ring (R1);
the member set of each recipe slot is the slots of the live records that name it, each once (R129); the suspect count
is the number of suspect records (R146); every valve's trim lies within the CURRENT recipe's limit (R33, R116, R120);
and what these rest on (every record passes its check, log 10).
The orders of R10: along the ring in pocket order and then the fill list the fill sequence numbers strictly increase,
and the counter lies above them. R3 compares two numbers by their difference modulo 2^32 read as signed, so the orders
mean something only while the numbers compared lie within half of that range: the last clause takes a state whose
live records are younger than 2^31 - 2^21 numbers, one step giving out fewer than 2^21. -/
def Obligations.EveryStepKeepsTheInvariant : Prop :=
  ∀ s t : State, step s = .next t →
    (s.Inv → t.Inv) ∧ (s.dev.Laws → t.dev.Laws) ∧
    (s.dev.Laws → s.dev.Ordered → s.dev.Recent (2 ^ 31 - 2 ^ 21) → t.dev.Ordered)

/-- Operands that no transaction and no strap lines can have are refused, never run: a length outside 1 to 8,
a window word outside its window, an address that is not word-aligned, straps beyond their lines (00_scope.md
1.7, 1.8). That the model refuses them is its choice (log 29). Every other command answers a next state in
every state. -/
def Obligations.OnlyMalformedCommandsStop : Prop :=
  ∀ (c : Instr) (s : State),
    (c.wellFormed = false → exec c s = .refused .malformed) ∧ (c.wellFormed = true → ∃ t, exec c s = .next t)

/-! ### Resets -/

/-- POWER_ON_RESET, from any state with straps of their lines, answers a next state in which every unit holds what
ResetIsTheSpecsReset gives: the fill, track, pocket, weigh, code, valve and order units whole, and the setup and
report units but for what the straps and LRST decide. Those are the part state, UNLOADED or UNPLACED by the straps
(R158), and the status write of R170, which is begun in a placed part: its first 8 words form the one internal burst,
its last 8 follow. While LRST is asserted the write stays requested (log 15), and in UNPLACED there is none. The wait
count, the port, the path fault count and the latch are as R164 gives them. The queue stands. What LRST's level, the
transactions presented behind the held one and memory do are the model's choices (log 28): the level and those
transactions stay, and memory stands but for an internal burst on the port, which completes as its answer says. The
free values' counter is the model's own (log 12). -/
def Obligations.PowerOnResetResets : Prop :=
  ∀ (s : State) (cabase memsize : Nat) (ok : Bool), cabase < 16 → memsize < 8 →
    let d := State.reset.dev
    let isPlaced : Bool := decide (cabase < 2 ^ memsize)
    let lrst : Bool := s.dev.path.lrst
    let writes : Bool := isPlaced && !lrst
    let first : List Word := [0, 0, 0, 1, 0, 512 * 65536, 0, 0]
    let rest : List Word := [0, 255 * 256, 0, 0, 0, 0, 0, 0]
    let mem : List Host.Cell := match s.dev.path.port with
      | none => s.mem
      | some i => match i.burst.kind with
        | .read _ => s.mem
        | .write ws => if ok then Memory.writeWords s.mem i.burst.addr (ws.map fullWord) else s.mem
    exec (.powerOnReset cabase memsize ok) s = .next
      { pending := s.pending, mem := mem, answers := [], downstream := []
        dev :=
          { path :=
              { cabase := cabase, memsize := memsize, upstream := s.dev.path.upstream.drop 1, waitCount := 0
                bursts := if writes then
                  [{ op := .status, addr := cabase * 1048576 + 0x200, kind := .write first }] else []
                port := none, faults := 0, latch := none, lrst := lrst }
            setup := { d.setup with part := if isPlaced then .unloaded else .unplaced }
            report := { d.report with
              request := isPlaced && lrst, status := if writes then .first rest else .idle }
            fill := d.fill, track := d.track, pocket := d.pocket, weigh := d.weigh, code := d.code
            valve := d.valve, order := d.order, draws := s.dev.draws } }

/-- LINE_RESET in a placed part (R152, R153, R22, R57, R62, R77, R129, R143, R164, R168, R169): the part goes
UNLOADED with its setup retained; the track, the position, the ring, the valve records, the zero and the span,
the counts and the report queue are kept; the pending set, the switching-fill flag, the broadcast mask, the
query's words, MODE's copies, the orders and every burst are dropped. The held transaction, which is the first of
those presented, receives no response (R156, R164); its access that had been issued, if any, is the last on the
downstream port, where an internal burst that holds the port, or waits at wait count 4, leaves no room for it (R160).
That those presented behind it stay, unserved, is the model's choice (log 32).

The part that the reset finds is the part as it stood, unless memory answered the held transaction's access OKAY
before it (operand `answered`). A position write, or a write of a whole code slot, that is so abandoned has been taken
(R57, R75, R164): memory and the part are those that the reset leaves after the write was taken and answered, and only
the response is missing. A store answered FAULT, or after the reset, is not taken (R41). -/
def Obligations.LineResetKeepsTheTrack : Prop :=
  (∀ (s : State) (up : UpAccess) (ok : Bool), s.dev.path.lrst = false → s.dev.setup.part ≠ .unplaced →
    let d := s.resetFinds up ok
    (up ≠ .answered ∨ ok = false ∨ s.dev.grantable = false ∨ s.dev.path.upstream = [] → d = s.dev) ∧
    ∃ t, exec (.lineReset up ok) s = .next t ∧ t.pending = s.pending ∧
      t.dev.setup = { d.setup with
        part := .unloaded, retained := d.setup.setup.isSome, deferred := false, loadWords := [],
        enforce := false, trimApply := false } ∧
      t.dev.track = d.track ∧
      t.dev.pocket = { d.pocket with
        running := false, reversal := false, stall := none, stop := .idle } ∧
      t.dev.valve = { d.valve with queryRef := 0, queryCare := 0 } ∧
      t.dev.code = { d.code with expected := 0, last := none, missRun := 0 } ∧
      t.dev.fill = { d.fill with switchDue := false, mask := 0 } ∧
      t.dev.weigh = { d.weigh with
        expected := none, gapWin := .notOpened, weighWin := .notOpened,
        gapAcc := { sum := 0, count := 0, gap := false, overload := false },
        weighAcc := { sum := 0, count := 0, gap := false, overload := false },
        closed := none, stale := false, capture := false, silence := .idle } ∧
      t.dev.report.pending = 0 ∧ t.dev.report.queue = d.report.queue ∧
      t.dev.report.dropped = d.report.dropped ∧ t.dev.report.errAddr = d.report.errAddr ∧
      t.dev.report.reporting = .waiting .nothing ∧
      (∀ p : Fin 2, t.dev.place p = none) ∧ t.dev.order.service = none ∧ t.dev.order.writes = [] ∧
      (∀ k : Fin 4, (d.slot k).st = .current → (t.dev.slot k).st = .current ∧
        (t.dev.slot k).recipe = (d.slot k).recipe ∧ (t.dev.slot k).members = (d.slot k).members ∧
        (t.dev.slot k).ref = .detached) ∧
      (∀ k : Fin 4, (d.slot k).st = .pending ∨ (d.slot k).st = .loading → t.dev.slot k = RecipeSlot.empty) ∧
      t.dev.path.bursts = [] ∧ t.dev.path.port = none ∧ t.dev.path.waitCount = 0 ∧
      t.dev.path.latch = none ∧ t.dev.path.faults = d.path.faults ∧ t.dev.path.lrst = true ∧
      t.dev.path.upstream = s.dev.path.upstream.drop 1 ∧ t.answers = [] ∧ t.downstream.length ≤ 1 ∧
      (up = .waiting ∨ s.dev.grantable = false → t.downstream = []) ∧
      ∀ x ∈ t.downstream, ∃ h us, s.dev.path.upstream = h :: us ∧ x.owner = .upstream h.txn.master) ∧
  ∀ (s : State) (write : MemAns → Instr), s.PortFree → s.Ready → s.dev.path.lrst = false →
    (∃ m w, write = .positionEvent m w) ∨
      (∃ m j ws, j < 128 ∧ ws.length = 4 ∧ (∀ w ∈ ws, w.be = 15#4) ∧ write = .codeEvent m (4 * j) ws) →
    ∃ held taken found left, exec (write { faultAt := none, pauseAt := some 0 }) s = .next held ∧
      held.dev.path.upstream ≠ [] ∧ held.mem = s.mem ∧
      exec (write { faultAt := none, pauseAt := none }) s = .next taken ∧ taken.answers = [.okay []] ∧
      exec (.lineReset .answered true) held = .next found ∧ exec (.lineReset .waiting false) taken = .next left ∧
      found = { left with downstream := taken.downstream } ∧
      ∀ up ok, up ≠ .waiting → up = .issued ∨ ok = false → exec (.lineReset up ok) held = .next { left with
        mem := if ok then left.mem else s.mem
        downstream := taken.downstream
        dev := Dev.drainAll s.dev.lineReset }

/-- LINE_RESET while LRST is asserted is no event, and in an UNPLACED part only the level is noted (R152, log 36).
LINE_RESET_RELEASE (R152): the level alone changes, unless a status write was requested. Then, with none in
progress, the write's 16 words are formed and its first burst is placed (R170). That a request made while LRST
is asserted waits for the release is the model's choice (log 15). The status block's words are those of 12.7, with the
order summaries of R144 in word 7 and the counts of R1 in word 5; without a CURRENT slot the current lot and the fields
of the current entry are 0, and the lot of a CURRENT slot that held no recipe would be a free value (log 12). -/
def Obligations.ResetLevelAndRelease : Prop :=
  (∀ (s : State) (up : UpAccess) (ok : Bool),
    (s.dev.path.lrst = true → exec (.lineReset up ok) s = .next s) ∧
    (s.dev.path.lrst = false → s.dev.setup.part = .unplaced →
      exec (.lineReset up ok) s = .next { s with dev := { s.dev with path := { s.dev.path with lrst := true } } })) ∧
  (∀ s : State,
    (s.dev.report.request = false → exec .lineResetRelease s =
      .next { s with dev := { s.dev with path := { s.dev.path with lrst := false } } }) ∧
    (s.dev.report.request = true → s.dev.setup.part ≠ .unplaced → s.dev.report.status = .idle →
      exec .lineResetRelease s = .next { s with dev := { s.dev with
        path := { s.dev.path with
          lrst := false
          bursts := s.dev.path.bursts ++ [{ op := .status, addr := s.dev.base + 0x200,
                                            kind := .write (s.dev.statusWords.take 8) }] }
        report := { s.dev.report with
          request := false, status := .first (s.dev.statusWords.drop 8) } } })) ∧
  ∀ d : Dev,
    let b (x : Bool) (i : Nat) : Nat := if x then 2 ^ i else 0
    let w (n : Nat) : Word := BitVec.ofNat 32 n
    let part : Nat := match d.setup.part with | .loading _ => 1 | .ready => 2 | _ => 0
    let reporting : Nat := match d.report.reporting with | .waiting _ => 0 | .running _ => 1 | .faulted => 2
    let loadCode : Nat := match d.setup.loadError.code with
      | .none => 0 | .range => 1 | .order => 2 | .readFault => 3 | .notStopped => 4
    let cur := d.slotIn .current
    let slot : Nat := match cur with | none => 0 | some k => k.val
    let running : Nat := match d.order.running with | none => 0 | some p => 1 + 2 * p.val
    let draining : Nat := match d.order.draining with | none => 0 | some p => 4 + 8 * p.val
    let entry : Nat := match cur, d.order.cur with
      | some _, some c => (match c.ref with | .detached => 16 | .entry p i => 32 * p.val + 64 * (i % 8)) +
          b (decide (c.canCount = 0)) 9 + b c.stalled 10
      | _, _ => 0
    let service : Nat := match d.order.service with | none => 0 | some o => 65536 + 131072 * (o.idx % 8)
    d.statusWords =
      [w (part + b d.pocket.running 4 + b d.setup.enforce 5 + b d.setup.trimApply 6 + b d.setup.retained 7 +
         b (decide (d.track.suspects ≠ 0)) 8 + 512 * reporting + b d.pocket.pos.isSome 11 + b cur.isSome 12 +
         8192 * slot),
       d.report.pending.setWidth 32,
       match d.pocket.pos with | none => 0 | some q => w (q.high.toNat / d.su.pitch),
       d.fill.seq, d.fill.untracked,
       w ((512 - d.track.free.length) + 65536 * (d.track.free.length % 65536)),
       match cur with | none => 0 | some k => (d.recipeOf k).lot.setWidth 32,
       w (running + draining + entry + service),
       d.report.errAddr,
       w (loadCode + 256 * (d.setup.loadError.field % 256)),
       d.report.dropped,
       w (d.code.forward.toNat + 65536 * d.code.backward.toNat),
       w (d.code.phantom.toNat + 65536 * d.code.duplicate.toNat),
       d.path.faults, BitVec.ofInt 32 d.weigh.zero, w d.weigh.zeroAge]

/-! ### The memory path -/

/-- Every command of the line bus is the transaction its row names, at its window's address (12.1). One row is
one transaction, told apart by where it falls: the model's reading of the table (log 1). -/
def Obligations.BusCommandsAreTransactions : Prop :=
  ∀ (s : State) (m : Master) (a : MemAns) (w : WWord) (ws : List WWord) (i n : Nat) (be : BitVec 4)
    (v : Fin 64) (x : BitVec 16), s.dev.path.cabase < 16 → 1 ≤ n → n ≤ 8 → 1 ≤ ws.length → ws.length ≤ 8 →
    let at' (off : Nat) : Word := BitVec.ofNat 32 (s.dev.path.cabase * 1048576 + off)
    let wr (off : Nat) (ws : List WWord) := exec (.plainWrite m (at' off) ws a) s
    let rd (off n : Nat) := exec (.pathRefusedRead m (at' off) n a) s
    let cmd (c : Nat) : WWord := { data := BitVec.ofNat 32 (x.toNat + 65536 * c), be := be }
    (i < 64 → exec (.fillEvent m i n a) s = rd (0x400 + 4 * i) n) ∧
    (i < 64 → exec (.inspectionRead m i n a) s = rd (0x400 + 4 * i) n) ∧
    (i < 64 → exec (.nominalWrite m i ws a) s = wr (0x300 + 4 * i) ws) ∧
    (i < 64 → exec (.addViewWrite m i ws a) s = wr (0x500 + 4 * i) ws) ∧
    (i < 64 → exec (.addViewRead m i n a) s = rd (0x500 + 4 * i) n) ∧
    exec (.bcastMaskWrite m false w a) s = wr 0x11C [w] ∧ exec (.bcastMaskWrite m true w a) s = wr 0x120 [w] ∧
    exec (.bcastSet m w a) s = wr 0x124 [w] ∧ exec (.bcastAdd m w a) s = wr 0x128 [w] ∧
    exec (.positionEvent m w a) s = wr 0x140 [w] ∧
    (i < 4096 → exec (.sampleEvent m i ws a) s = wr (0x4000 + 4 * i) ws) ∧
    (i < 512 → exec (.codeEvent m i ws a) s = wr (0x800 + 4 * i) ws) ∧
    exec (.gatePoll m a) s = rd 0x144 1 ∧ exec (.gateInspectionRead m a) s = rd 0x144 1 ∧
    exec (.armTest m v x be a) s = wr (0x600 + 4 * v.val) [cmd 1] ∧
    exec (.disarmTest m v x be a) s = wr (0x600 + 4 * v.val) [cmd 2] ∧
    exec (.suspend m v x be a) s = wr (0x600 + 4 * v.val) [cmd 3] ∧
    exec (.resume m v x be a) s = wr (0x600 + 4 * v.val) [cmd 4] ∧
    exec (.zeroTrim m v x be a) s = wr (0x600 + 4 * v.val) [cmd 5] ∧
    exec (.setTrim m v x be a) s = wr (0x600 + 4 * v.val) [cmd 6] ∧
    exec (.clearStats m v x be a) s = wr (0x600 + 4 * v.val) [cmd 7] ∧
    (i < 1024 → exec (.valveViewRead m i n a) s = rd (0x1000 + 4 * i) n) ∧
    exec (.queryRefWrite m w a) s = wr 0x114 [w] ∧ exec (.queryCareWrite m w a) s = wr 0x118 [w] ∧
    exec (.queryRead m false n a) s = rd 0x148 n ∧ exec (.queryRead m true n a) s = rd 0x14C n ∧
    exec (.modeWrite m w a) s = wr 0x104 [w] ∧ exec (.ackWrite m w a) s = wr 0x110 [w] ∧
    exec (.loadNow m be a) s = wr 0x100 [{ data := 1, be := be }] ∧
    exec (.loadAtStop m be a) s = wr 0x100 [{ data := 2, be := be }] ∧
    exec (.orderAWrite m w a) s = wr 0x108 [w] ∧ exec (.orderBWrite m w a) s = wr 0x10C [w]

/-- R157: a transaction with a word at or beyond the memory size, one that crosses a window's edge in a placed
part, and a write of READY to the issued view, the valve view, GATE or the QUERY_MATCH window is answered FAULT:
it is not forwarded and reaches no memory and no block, the path fault count rises by 1, and PATH_FAULT is raised but in UNPLACED. -/
def Obligations.PathRefusals : Prop :=
  ∀ (s : State) (m : Master) (addr : Word) (a : MemAns) (ws : List WWord) (n : Nat),
    s.dev.path.upstream = [] → addr.toNat % 4 = 0 → 1 ≤ n → n ≤ 8 → ws.length = n →
    let last := addr.toNat + 4 * n
    let inside (r : WindowRow) : Prop :=
      s.dev.base + r.off ≤ addr.toNat ∧ last ≤ s.dev.base + r.off + 4 * r.words
    let outside : Prop := s.dev.size < last
    let crosses : Prop := s.dev.setup.part ≠ .unplaced ∧
      (s.dev.base < last ∧ addr.toNat < s.dev.base + 65536) ∧ ∀ r ∈ windowMap, ¬inside r
    let answered : Prop := s.dev.setup.part = .ready ∧ ∃ r ∈ windowMap, inside r ∧
      (r.kind = .issued ∨ r.kind = .valveView ∨ r.kind = .gate ∨ r.kind = .queryMatch)
    let refused (t : State) : Prop :=
      t.pending = s.pending ∧ t.mem = s.mem ∧ t.answers = [.fault] ∧ t.downstream = [] ∧ t.dev.path.upstream = [] ∧
      t.dev.path.faults = s.dev.path.faults + 1 ∧
      t.dev.report.pending = (if s.dev.setup.part = .unplaced then s.dev.report.pending
        else s.dev.report.pending ||| 1048576#21) ∧
      t.dev.path.waitCount = s.dev.path.waitCount ∧ t.dev.path.port = s.dev.path.port ∧
      t.dev.path.latch = s.dev.path.latch ∧ t.dev.setup = s.dev.setup ∧ t.dev.fill = s.dev.fill ∧
      t.dev.track = s.dev.track ∧ t.dev.pocket = s.dev.pocket ∧ t.dev.weigh = s.dev.weigh ∧
      t.dev.code = s.dev.code ∧ t.dev.valve = s.dev.valve ∧ t.dev.order = s.dev.order ∧
      t.dev.report.queue = s.dev.report.queue ∧ t.dev.report.reporting = s.dev.report.reporting
    (outside ∨ crosses → ∃ t, exec (.pathRefusedRead m addr n a) s = .next t ∧ refused t) ∧
    (outside ∨ crosses ∨ answered → ∃ t, exec (.plainWrite m addr ws a) s = .next t ∧ refused t)

/-- R158, R159: an accepted transaction that touches no part of the control area, and in UNPLACED every accepted
transaction, is one access of the same direction, address, length and byte enables, which carries its master's
number, and nothing else; it is answered once. -/
def Obligations.PlainTransactionsAreForwarded : Prop :=
  ∀ (s : State) (m : Master) (addr : Word) (a : MemAns) (ws : List WWord) (n : Nat),
    s.PortFree → a.clean → addr.toNat % 4 = 0 → 1 ≤ n → n ≤ 8 → ws.length = n →
    addr.toNat + 4 * n ≤ s.dev.size →
    addr.toNat + 4 * n ≤ s.dev.base ∨ s.dev.base + 65536 ≤ addr.toNat ∨ s.dev.setup.part = .unplaced →
    exec (.plainWrite m addr ws a) s = .next (s.stored m addr.toNat ws id) ∧
    exec (.pathRefusedRead m addr n a) s = .next
      (State.served m [.read addr.toNat n] (.okay (Memory.readWords s.mem addr.toNat n))
        { s with dev := s.dev.countGrant.settle })

/-- R158: in LOADING, and in UNLOADED but for the LOAD word, a write that lies in one window of the control area
is stored as written and taken by no block; in both states a read is forwarded. -/
def Obligations.ControlAreaIsPlainOutsideReady : Prop :=
  ∀ (s : State) (m : Master) (addr : Word) (a : MemAns) (ws : List WWord) (n : Nat) (r : WindowRow),
    s.PortFree → a.clean → addr.toNat % 4 = 0 → 1 ≤ n → n ≤ 8 → ws.length = n → s.dev.base < s.dev.size →
    r ∈ windowMap → s.dev.base + r.off ≤ addr.toNat → addr.toNat + 4 * n ≤ s.dev.base + r.off + 4 * r.words →
    ((∃ b, s.dev.setup.part = .loading b) ∨ s.dev.setup.part = .unloaded ∧ r.kind ≠ .load →
      exec (.plainWrite m addr ws a) s = .next (s.stored m addr.toNat ws id)) ∧
    ((∃ b, s.dev.setup.part = .loading b) ∨ s.dev.setup.part = .unloaded →
      exec (.pathRefusedRead m addr n a) s = .next
        (State.served m [.read addr.toNat n] (.okay (Memory.readWords s.mem addr.toNat n))
          { s with dev := s.dev.countGrant.settle }))

/-- R159: a store that memory answers FAULT is answered FAULT, memory stands, and the block takes nothing from
it; no path fault is counted and no cause raised. No recipe slot is left that could drain. That the faulted
access wrote nothing is the model's reading (log 8). -/
def Obligations.FaultedStoreIsNotTaken : Prop :=
  ∀ (s : State) (m : Master) (addr : Word) (a : MemAns) (ws : List WWord) (r : WindowRow),
    s.PortFree → a.faultAt = some 0 → a.pauseAt = none → addr.toNat % 4 = 0 → 1 ≤ ws.length → ws.length ≤ 8 →
    s.dev.base < s.dev.size → r ∈ windowMap → s.dev.base + r.off ≤ addr.toNat →
    addr.toNat + 4 * ws.length ≤ s.dev.base + r.off + 4 * r.words →
    (∀ k : Fin 4, (s.dev.slot k).st ≠ .draining) →
    r.kind ≠ .nominal → r.kind ≠ .add → r.kind ≠ .issued → r.kind ≠ .valveView → r.kind ≠ .gate →
    r.kind ≠ .queryMatch →
    exec (.plainWrite m addr ws a) s = .next
      (State.served m [.write addr.toNat ws] .fault { s with dev := s.dev.countGrant.settle })

/-- A transaction presented while the upstream port holds one waits behind it, unserved (R156; log 32).
ARBITER_GRANT (R160): while the port is taken there is no grant. With no upstream access waiting, or at wait
count 4, the oldest burst inside memory is issued and the wait count goes to 0. Below 4 a waiting upstream
access is granted, and the wait count rises by 1 exactly when a burst waits. -/
def Obligations.PortServesOneAndTheArbiterGrants : Prop :=
  (∀ (s : State) (m : Master) (addr : Word) (a : MemAns) (ws : List WWord) (h : Held) (us : List Held),
    s.dev.path.upstream = h :: us → addr.toNat % 4 = 0 → 1 ≤ ws.length → ws.length ≤ 8 →
    exec (.plainWrite m addr ws a) s = .next { s with dev := { s.dev with path := { s.dev.path with
      upstream := s.dev.path.upstream ++ [{ txn := .write m addr.toNat ws, faultAt := a.faultAt, work := none,
                                            ctx := Ctx.init 0 }] } } }) ∧
  (∀ s : State,
    (s.dev.path.port ≠ none → exec .arbiterGrant s = .next s) ∧
    (s.dev.path.port = none → ∀ b bs,
      (s.dev.path.bursts.filter fun b => decide (b.addr + 4 * b.words ≤ s.dev.size)) = b :: bs →
      s.dev.path.upstream = [] ∨ s.dev.path.waitCount = 4 →
      exec .arbiterGrant s = .next { s with
        downstream := [{ owner := .part, access := b.access }]
        dev := { s.dev with path := { s.dev.path with
          port := some { burst := b, stopped := false }, bursts := s.dev.path.bursts.erase b,
          waitCount := 0 } } }) ∧
    (s.dev.path.port = none → s.dev.path.upstream = [] →
      (s.dev.path.bursts.filter fun b => decide (b.addr + 4 * b.words ≤ s.dev.size)) = [] →
      exec .arbiterGrant s = .next s) ∧
    (∀ (m : Master) (addr : Nat) (ws : List WWord) (c : Ctx),
      s.dev.path.upstream = [{ txn := .write m addr ws, faultAt := none, work := some [.store addr ws],
                               ctx := c }] →
      s.dev.path.port = none → s.dev.path.waitCount < 4 → s.dev.report.request = false →
      addr < s.dev.base ∨ s.dev.base + 65536 ≤ addr →
      exec .arbiterGrant s = .next { s with
        mem := Memory.writeWords s.mem addr ws
        answers := [.okay c.ans]
        downstream := [{ owner := .upstream m, access := .write addr ws }]
        dev := { s.dev with path := { s.dev.path with
          upstream := []
          waitCount := s.dev.path.waitCount +
            if (s.dev.path.bursts.filter fun b => decide (b.addr + 4 * b.words ≤ s.dev.size)) = [] then 0
            else 1 } } }))


/-! ### Control words -/

/-- MODE_WRITE in READY (R168, R159): the word is stored; written with all four byte enables, it replaces the
part's copies of gate enforcement (bit 0) and trim apply (bit 1). -/
def Obligations.ModeWriteSetsTheCopies : Prop :=
  ∀ (s : State) (m : Master) (w : WWord) (a : MemAns), s.PortFree → s.Ready → a.clean →
    exec (.modeWrite m w a) s = .next (s.stored m (s.dev.base + 0x104) [w] fun d =>
      if w.be = 15#4 then
        { d with setup := { d.setup with enforce := w.data.getLsbD 0, trimApply := w.data.getLsbD 1 } }
      else d)

/-- ACK_WRITE in READY (R169, R170): the word is stored; written with all four byte enables, it removes the
causes it names from the pending set, and a change of the set requests a status write.

Raising a cause (R169, R170): it joins the pending set, a status write is requested exactly when that changes the set,
and nothing else changes; in UNPLACED the set stays empty and nothing changes. An ORDER_ERROR or REPORT_FAULT raised
with its address sets the error address too. The causes' bits are those of 12.3, in the order of R169.

The enable set (R169): empty in UNPLACED, LOAD_ERROR and PATH_FAULT in UNLOADED and LOADING from UNLOADED, the setup's
attention enable set in READY and LOADING from READY. ATTN is asserted exactly while a pending cause is in it. -/
def Obligations.AckWriteRemovesTheNamedCauses : Prop :=
  (∀ (s : State) (m : Master) (w : WWord) (a : MemAns), s.PortFree → s.Ready → a.clean →
    exec (.ackWrite m w a) s = .next (s.stored m (s.dev.base + 0x110) [w] fun d =>
      if w.be = 15#4 ∧ d.report.pending &&& w.data.setWidth 21 ≠ 0 then
        { d with report := { d.report with
          pending := d.report.pending &&& ~~~(w.data.setWidth 21), request := true } }
      else d)) ∧
  (∀ (d : Dev) (c : Cause) (a : Nat),
    let t := d.raise c
    (d.setup.part = .unplaced → t = d) ∧
    (d.setup.part ≠ .unplaced → t = { d with report := { d.report with
      pending := d.report.pending ||| (1#21 <<< c.bit)
      request := if d.report.pending.getLsbD c.bit = true then d.report.request else true } }) ∧
    d.raiseAt c a = { t with report := { t.report with errAddr := BitVec.ofNat 32 a } }) ∧
  [Cause.loadDone, .loadError, .orderADone, .orderBDone, .orderError, .changeoverStalled, .lotSwitch, .trackFull,
    .resultsDropped, .reportFault, .rejectMissed, .valveWatch, .valveSuspended, .lineStopped, .trackSuspect,
    .positionFault, .scaleFault, .readerFault, .slip, .trackCheck, .pathFault].map Cause.bit = List.range 21 ∧
  ∀ d : Dev,
    (d.setup.part = .unplaced → d.setup.enableSet = 0) ∧
    (d.setup.part = .unloaded ∨ d.setup.part = .loading false → ∀ i : Nat,
      d.setup.enableSet.getLsbD i = true ↔ i = Cause.loadError.bit ∨ i = Cause.pathFault.bit) ∧
    (d.setup.part = .ready ∨ d.setup.part = .loading true → ∀ u, d.setup.setup = some u →
      d.setup.enableSet = u.enable) ∧
    (d.attn = true ↔ ∃ i : Nat, d.report.pending.getLsbD i = true ∧ d.setup.enableSet.getLsbD i = true)

/-- QUERY_REF_WRITE and QUERY_CARE_WRITE in READY (R125): the word is stored; written with all four byte enables,
its low 16 bits replace the part's copy, and with any enable missing the copy stands. BCAST_MASK_WRITE in READY
(R38): the word is stored; written with all four byte enables, it replaces its half of the mask and leaves the
other half. -/
def Obligations.SelectionWritesTakeTheirHalf : Prop :=
  (∀ (s : State) (m : Master) (w : WWord) (a : MemAns), s.PortFree → s.Ready → a.clean →
    exec (.queryRefWrite m w a) s = .next (s.stored m (s.dev.base + 0x114) [w] fun d =>
      if w.be = 15#4 then { d with valve := { d.valve with queryRef := w.data.setWidth 16 } } else d) ∧
    exec (.queryCareWrite m w a) s = .next (s.stored m (s.dev.base + 0x118) [w] fun d =>
      if w.be = 15#4 then { d with valve := { d.valve with queryCare := w.data.setWidth 16 } } else d)) ∧
  (∀ (s : State) (m : Master) (w : WWord) (a : MemAns), s.PortFree → s.Ready → a.clean →
    exec (.bcastMaskWrite m false w a) s = .next (s.stored m (s.dev.base + 0x11C) [w] fun d =>
      if w.be = 15#4 then
        { d with fill := { d.fill with mask := d.fill.mask.extractLsb' 32 32 ++ w.data } } else d) ∧
    exec (.bcastMaskWrite m true w a) s = .next (s.stored m (s.dev.base + 0x120) [w] fun d =>
      if w.be = 15#4 then
        { d with fill := { d.fill with mask := w.data ++ d.fill.mask.extractLsb' 0 32 } } else d))

/-- LOAD_NOW and LOAD_AT_STOP (R165, R166). The word is stored. Written with all four byte enables: from UNLOADED
the load begins and the pending set is emptied; from READY with the line STOPPED it begins; with the line RUNNING,
LOAD_NOW gives load error NOT_STOPPED with field 255 and LOAD_ERROR, and LOAD_AT_STOP sets the deferred-load flag.
A partial write is not taken, nor is any while LRST is asserted (R152). -/
def Obligations.LoadWordBeginsALoad : Prop :=
  ∀ (s : State) (m : Master) (be : BitVec 4) (a : MemAns), s.PortFree → s.dev.base < s.dev.size → a.clean →
    s.dev.setup.part = .ready ∨ s.dev.setup.part = .unloaded →
    let st (v : Word) (f : Dev → Dev) := s.stored m (s.dev.base + 0x100) [{ data := v, be := be }] f
    let begun (b : Bool) (d : Dev) : Dev :=
      { d with
        setup := { d.setup with part := .loading b, deferred := false, loadWords := [] }
        path := { d.path with
          bursts := d.path.bursts ++ [{ op := .setup, addr := s.dev.base, kind := .read 8 }] } }
    let emptied (d : Dev) : Dev :=
      { d with report := { d.report with
        pending := 0, request := d.report.request || decide (d.report.pending ≠ 0) } }
    (s.dev.path.lrst = false → be = 15#4 → s.dev.setup.part = .unloaded →
      exec (.loadNow m be a) s = .next (st 1 fun d => begun false (emptied d)) ∧
      exec (.loadAtStop m be a) s = .next (st 2 fun d => begun false (emptied d))) ∧
    (s.dev.path.lrst = false → be = 15#4 → s.dev.setup.part = .ready → s.dev.pocket.running = false →
      exec (.loadNow m be a) s = .next (st 1 (begun true)) ∧
      exec (.loadAtStop m be a) s = .next (st 2 (begun true))) ∧
    (s.dev.path.lrst = false → be = 15#4 → s.dev.setup.part = .ready → s.dev.pocket.running = true →
      exec (.loadNow m be a) s = .next (st 1 fun d => Dev.raise .loadError
        { d with setup := { d.setup with loadError := { code := .notStopped, field := 255 } } }) ∧
      exec (.loadAtStop m be a) s = .next (st 2 fun d =>
        { d with setup := { d.setup with deferred := true } })) ∧
    (s.dev.path.lrst = true ∨ be ≠ 15#4 →
      exec (.loadNow m be a) s = .next (st 1 id) ∧ exec (.loadAtStop m be a) s = .next (st 2 id))

/-- ORDER_A_WRITE in READY (R132, R138). The word is stored. Written with all four byte enables: 0 is not taken; a
value not word-aligned or outside memory raises ORDER_ERROR with the value as the error address; while an order
is being fetched the new one is refused BUSY (its status word is written 102H and ORDER_ERROR raised with its
address); otherwise the fetch begins with the header word, a burst of its own. ORDER_B_WRITE in READY (R139): as
ORDER_A_WRITE, refused BUSY while a service order is running or being fetched. -/
def Obligations.OrderWritesBeginTheFetch : Prop :=
  (∀ (s : State) (m : Master) (w : WWord) (a : MemAns), s.PortFree → s.Ready → a.clean → s.dev.path.lrst = false →
    exec (.orderAWrite m w a) s = .next (s.stored m (s.dev.base + 0x108) [w] fun d =>
      let v := w.data.toNat
      if w.be ≠ 15#4 ∨ v = 0 then d
      else if v % 4 ≠ 0 ∨ s.dev.size ≤ v then d.raiseAt .orderError v
      else if s.dev.order.fetchA ≠ none then Dev.raiseAt .orderError v (d.pushOrderWrite (v + 4) 0x102#32)
      else { d with
        order := { d.order with fetchA := some { addr := v, got := [] } }
        path := { d.path with bursts := d.path.bursts ++ [{ op := .fetchA, addr := v, kind := .read 1 }] } })) ∧
  (∀ (s : State) (m : Master) (w : WWord) (a : MemAns), s.PortFree → s.Ready → a.clean → s.dev.path.lrst = false →
    exec (.orderBWrite m w a) s = .next (s.stored m (s.dev.base + 0x10C) [w] fun d =>
      let v := w.data.toNat
      if w.be ≠ 15#4 ∨ v = 0 then d
      else if v % 4 ≠ 0 ∨ s.dev.size ≤ v then d.raiseAt .orderError v
      else if s.dev.order.service ≠ none ∨ s.dev.order.fetchB ≠ none then
        Dev.raiseAt .orderError v (d.pushOrderWrite (v + 4) 0x102#32)
      else { d with
        order := { d.order with fetchB := some { addr := v, got := [] } }
        path := { d.path with bursts := d.path.bursts ++ [{ op := .fetchB, addr := v, kind := .read 1 }] } }))



/-! ### Fills and nominals -/

/-- The dose of a fill (R25, R26, R27): 0 for an idle or SUSPENDED valve; with no recipe CURRENT the nominal
within 0 and 1,048,575; else the nominal and the issued trim within the recipe's floor and ceiling, the issued
trim being the valve's while trim apply is on and 0 while it is off. -/
def Obligations.DoseFollowsNominalAndTrim : Prop :=
  ∀ (d : Dev) (v : Fin 64) (nominal : Word),
    (d.su.valves ≤ v.val ∨ nominal = 0 ∨ (d.valveRec v).st = .suspended → d.doseFor v nominal = .zero) ∧
    (v.val < d.su.valves → nominal ≠ 0 → (d.valveRec v).st ≠ .suspended →
      (d.slotIn .current = none → d.doseFor v nominal = .untaught (min nominal.toNat 1048575)) ∧
      (∀ k : Fin 4, d.slotIn .current = some k → ∃ dose trim, d.doseFor v nominal = .dosed k dose trim ∧
        trim = (if d.setup.trimApply then (d.valveRec v).trim else 0) ∧
        ((d.recipeOf k).doseFloor ≤ (d.recipeOf k).doseCeiling →
          (dose : Int) = max ((d.recipeOf k).doseFloor : Int)
            (min ((d.recipeOf k).doseCeiling : Int) (nominal.toNat + trim)))))

/-- INSPECTION_READ in READY by a master that is not the sequencer (R31): each word is answered with the dose a
fill of its valve would be given at that moment and tag 0, after one read of each nominal for that master; nothing
but what the ports give out changes. -/
def Obligations.InspectionReadShowsTheDoses : Prop :=
  ∀ (s : State) (m : Master) (i n : Nat) (a : MemAns), s.Quiet → s.Ready → a.clean → 1 ≤ n → n ≤ 8 →
    i + n ≤ 64 → m.toNat ≠ s.dev.su.sequencer →
    let nominal (k : Nat) : Nat := s.dev.base + 0x300 + 4 * (i + k)
    exec (.inspectionRead m i n a) s = .next (State.served m ((List.range n).map fun k => .read (nominal k) 1)
      (.okay ((List.range n).map fun k => BitVec.ofNat 32
        ((s.dev.doseFor (Fin.ofNat 64 (i + k)) (Memory.readWord s.mem (nominal k))).amount % 1048576))) s)

/-- FILL_EVENT in READY by the sequencer (R23, R24). When no word of it is the switching fill (no recipe is PENDING; or
the switching-fill flag is clear and no fill of the read can find the current entry due; or every valve of it is V or
above or SUSPENDED): each word in turn is formed from its nominal, one read for that master, and from what the earlier
words of the read gathered; when all are formed the fills take effect in word order and the words are answered. Memory
stands.

The switching fill (R32, R33, R34): with the flag set and a slot PENDING, a read of one word whose valve is below V and
not SUSPENDED first writes the new recipe's nominal list, if it has one, as eight writes of eight words in valve order,
every nonzero value clamped to the new dose limits; then the switch is made, and the fill is formed under the new
recipe. A FAULT on one of those writes stops the switch there: the words of the writes before it are in memory, the
read is answered FAULT, and with nothing draining and no acceptance waiting the part is as it was: the slot still
PENDING, the old recipe CURRENT, the flag set. The model's choices: the faulted write stored nothing (log 8); an
acceptance that waits is decided after the fill's fetch, or at the FAULT (log 44); a slot that nothing names any more
goes FREE when the read is answered (log 21).

A FAULT on a nominal fetch (R24): the words after it are not formed, the read is answered FAULT, and no fill of it
takes effect: no record, no number, no test arm, no count, no cause; with nothing draining the part is as it was. After
a switch at the same word the switch stands (R34), and a waiting acceptance is decided (log 44). -/
def Obligations.FillReadTakesItsFills : Prop :=
  (∀ (s : State) (m : Master) (i n : Nat) (a : MemAns), s.Quiet → s.Ready → a.clean → 1 ≤ n → n ≤ 8 →
    i + n ≤ 64 → m.toNat = s.dev.su.sequencer →
    s.dev.slotIn .pending = none ∨
      (s.dev.fill.switchDue = false ∧
        ∀ e, s.dev.order.cur = some e → e.canCount = 0 ∨ e.made + n ≤ e.canCount) ∨
      (∀ k < n, s.dev.su.valves ≤ i + k ∨ (s.dev.valveRec (Fin.ofNat 64 (i + k))).st = .suspended) →
    let nominal (k : Nat) : Nat := s.dev.base + 0x300 + 4 * (i + k)
    let c := (List.range n).foldl (fun c k => s.dev.formFill (Fin.ofNat 64 (i + k))
      (Memory.readWord s.mem (nominal k)) c) (Ctx.init s.dev.fill.seq)
    exec (.fillEvent m i n a) s = .next (State.served m ((List.range n).map fun k => .read (nominal k) 1)
      (.okay c.ans) { s with dev := Dev.settle (s.dev.takeFills c) })) ∧
  (∀ (s : State) (m : Master) (i n j : Nat) (a : MemAns), s.Quiet → s.Ready → 1 ≤ n → n ≤ 8 →
    i + n ≤ 64 → m.toNat = s.dev.su.sequencer → a.faultAt = some j → a.pauseAt = none → j < n →
    s.dev.slotIn .pending = none ∨
      (s.dev.fill.switchDue = false ∧
        ∀ e, s.dev.order.cur = some e → e.canCount = 0 ∨ e.made + n ≤ e.canCount) ∨
      (∀ k < n, s.dev.su.valves ≤ i + k ∨ (s.dev.valveRec (Fin.ofNat 64 (i + k))).st = .suspended) →
    let nominal (k : Nat) : Nat := s.dev.base + 0x300 + 4 * (i + k)
    exec (.fillEvent m i n a) s = .next (State.served m ((List.range (j + 1)).map fun k => .read (nominal k) 1)
      .fault { s with dev := Dev.settle s.dev.drainAll }) ∧
    ((∀ u : Fin 4, (s.dev.slot u).st ≠ .draining) → Dev.settle s.dev.drainAll = s.dev)) ∧
  ∀ (s : State) (m : Master) (i : Nat) (a : MemAns) (k : Fin 4), s.Quiet → s.Ready → i < 64 →
    i < s.dev.su.valves → m.toNat = s.dev.su.sequencer → (s.dev.valveRec (Fin.ofNat 64 i)).st ≠ .suspended →
    s.dev.fill.switchDue = true → s.dev.slotIn .pending = some k →
    let r := s.dev.recipeOf k
    let shaped (x : Word) : Word := if x = 0 then 0
      else if x.toNat < r.doseFloor then BitVec.ofNat 32 r.doseFloor
      else if r.doseCeiling < x.toNat then BitVec.ofNat 32 r.doseCeiling else x
    let burst (j : Nat) : List WWord := (((r.nominals.getD []).drop (8 * j)).take 8).map fun x => fullWord (shaped x)
    let start (j : Nat) : Nat := s.dev.base + 0x300 + 32 * j
    let put (j : Nat) : Access := .write (start j) (burst j)
    let puts : Nat := if r.nominals.isSome then 8 else 0
    let written (j : Nat) := (List.range j).foldl (fun mem j => Memory.writeWords mem (start j) (burst j)) s.mem
    let empty := Ctx.init s.dev.fill.seq
    (a.clean → s.dev.path.waitCount < 4 →
      let nominal : Nat := s.dev.base + 0x300 + 4 * i
      let d := Dev.countGrant (Dev.settle (s.dev.switchTo k empty))
      let c := d.formFill (Fin.ofNat 64 i) (Memory.readWord (written puts) nominal) empty
      exec (.fillEvent m i 1 a) s = .next (State.served m ((List.range puts).map put ++ [.read nominal 1])
        (.okay c.ans) { s with mem := written puts, dev := Dev.settle (Dev.takeFills c (Dev.settle d.decideHeld)) })) ∧
    (a.faultAt = some puts → a.pauseAt = none → s.dev.path.waitCount < 4 →
      let nominal : Nat := s.dev.base + 0x300 + 4 * i
      let d := Dev.countGrant (Dev.settle (s.dev.switchTo k empty))
      exec (.fillEvent m i 1 a) s = .next (State.served m ((List.range puts).map put ++ [.read nominal 1])
        .fault { s with mem := written puts, dev := Dev.settle (Dev.decideHeld d.drainAll) })) ∧
    (∀ j, a.faultAt = some j → a.pauseAt = none → j < puts →
      exec (.fillEvent m i 1 a) s = .next (State.served m ((List.range (j + 1)).map put) .fault
        { s with mem := written j, dev := Dev.settle (Dev.decideHeld s.dev.drainAll) }) ∧
      ((∀ u : Fin 4, (s.dev.slot u).st ≠ .draining) → s.dev.order.fetchA = none →
        Dev.settle (Dev.decideHeld s.dev.drainAll) = s.dev))

/-- A fill of one word with a dose under the CURRENT recipe and a FREE record left (R3, R9, R28, R134, R135), which is
not the switching fill: no slot is PENDING, or the switching-fill flag is clear and the current entry's can count not
yet reached. It is answered with the dose and its tag; a record with the number, the tag, the valve, the dose, the trim,
the epoch, the test arm, the recipe slot and the lot joins the tail of the fill list; the record leaves the pool; the
next number follows; the valve's fills issued, last number and test arm change; the record joins the slot's members;
the current entry's fills made rises by 1. When the entry has then made its can count and a slot is PENDING, the
switching-fill flag is set (R32, R134); with none PENDING the entry's stalled indication is set, and the first time
CHANGEOVER_STALLED is raised (R135). No other valve and no other slot changes, nor memory, nor anything else of the order unit. That the
record taken is the one at the pool's head is the model's choice (log 11). -/
def Obligations.TrackedFillMakesARecord : Prop :=
  ∀ (s : State) (m : Master) (i : Nat) (a : MemAns) (k : Fin 4) (dose : Nat) (trim : Int) (x : Nat)
    (free : List Nat), s.Quiet → s.Ready → a.clean → i < 64 → m.toNat = s.dev.su.sequencer →
    s.dev.slotIn .pending = none ∨ (s.dev.fill.switchDue = false ∧
      ∀ e, s.dev.order.cur = some e → e.canCount = 0 ∨ e.made < e.canCount) →
    (∀ j : Fin 4, (s.dev.slot j).st = .draining → (s.dev.slot j).members ≠ []) →
    s.dev.doseFor (Fin.ofNat 64 i) (Memory.readWord s.mem (s.dev.base + 0x300 + 4 * i)) = .dosed k dose trim →
    s.dev.track.free = x :: free → dose < 1048576 →
    let v : Fin 64 := Fin.ofNat 64 i
    let seq := s.dev.fill.seq
    let tag : BitVec 12 := BitVec.ofNat 12 ((seq.toNat - 1) % 4095 + 1)
    let pending : Bool := (s.dev.slotIn .pending).isSome
    let reached (e : CurrentEntry) : Bool := decide (e.canCount ≠ 0 ∧ e.canCount ≤ e.made + 1)
    ∃ t, exec (.fillEvent m i 1 a) s = .next t ∧ t.mem = s.mem ∧ t.pending = s.pending ∧
      t.answers = [.okay [BitVec.ofNat 32 (dose + 1048576 * tag.toNat)]] ∧
      t.dev.track = { free := free, suspects := s.dev.track.suspects, fill := s.dev.track.fill ++
        [{ slot := x, seq := seq, tag := tag, valve := v, recipe := k,
           lot := match s.dev.order.cur with | none => .detached | some e => e.ref
           dose := dose, trim := trim, epoch := (s.dev.valveRec v).epoch, test := (s.dev.valveRec v).arm,
           suspect := false, checkOk := true, failed := false }] } ∧
      t.dev.fill = { s.dev.fill with
        seq := if seq = 4294967295#32 then 1 else seq + 1
        switchDue := s.dev.fill.switchDue || (match s.dev.order.cur with
          | none => false
          | some e => reached e && pending) } ∧
      t.dev.valveRec v = { s.dev.valveRec v with
        fills := (s.dev.valveRec v).fills + 1, lastSeq := some seq, arm := false } ∧
      (∀ u : Fin 64, u ≠ v → t.dev.valveRec u = s.dev.valveRec u) ∧
      t.dev.slot k = { s.dev.slot k with members := x :: (s.dev.slot k).members } ∧
      (∀ j : Fin 4, j ≠ k → t.dev.slot j = s.dev.slot j) ∧
      t.dev.order = { s.dev.order with
        slots := t.dev.order.slots
        cur := s.dev.order.cur.map fun e =>
          { e with made := e.made + 1, stalled := e.stalled || (reached e && !pending) } } ∧
      t.dev.report.pending = s.dev.report.pending ||| (match s.dev.order.cur with
        | none => 0#21
        | some e => if reached e && !pending && !e.stalled then 32#21 else 0#21) ∧
      t.dev.pocket = s.dev.pocket ∧ t.dev.weigh = s.dev.weigh ∧ t.dev.code = s.dev.code ∧
      t.dev.setup = s.dev.setup ∧ t.dev.report.queue = s.dev.report.queue

/-- A fill of one word with a dose while the pool is empty (R29), which is not the switching fill: it is answered with
the dose and tag 0, the untracked count rises by 1 and TRACK_FULL is raised; no record is made, no fill is counted for
the current entry and no valve changes. That the stall test of R135 is made after an untracked fill too is the model's
choice (log 22): with the can count already made and no slot PENDING the stalled indication is set, and the first time
CHANGEOVER_STALLED is raised. -/
def Obligations.FillWithoutARecordIsUntracked : Prop :=
  ∀ (s : State) (m : Master) (i : Nat) (a : MemAns) (k : Fin 4) (dose : Nat) (trim : Int),
    s.Quiet → s.Ready → a.clean → i < 64 → m.toNat = s.dev.su.sequencer →
    s.dev.slotIn .pending = none ∨ (s.dev.fill.switchDue = false ∧
      ∀ e, s.dev.order.cur = some e → e.canCount = 0 ∨ e.made < e.canCount) →
    (∀ j : Fin 4, (s.dev.slot j).st = .draining → (s.dev.slot j).members ≠ []) →
    s.dev.doseFor (Fin.ofNat 64 i) (Memory.readWord s.mem (s.dev.base + 0x300 + 4 * i)) = .dosed k dose trim →
    s.dev.track.free = [] → dose < 1048576 →
    let stalls (e : CurrentEntry) : Bool :=
      decide (e.canCount ≠ 0 ∧ e.canCount ≤ e.made) && (s.dev.slotIn .pending).isNone
    ∃ t, exec (.fillEvent m i 1 a) s = .next t ∧ t.mem = s.mem ∧ t.pending = s.pending ∧
      t.answers = [.okay [BitVec.ofNat 32 dose]] ∧
      t.dev.fill = { s.dev.fill with untracked := s.dev.fill.untracked + 1 } ∧
      t.dev.report.pending = s.dev.report.pending ||| 128#21 ||| (match s.dev.order.cur with
        | none => 0#21
        | some e => if stalls e && !e.stalled then 32#21 else 0#21) ∧
      t.dev.order = { s.dev.order with
        cur := s.dev.order.cur.map fun e => { e with stalled := e.stalled || stalls e } } ∧
      t.dev.track = s.dev.track ∧ t.dev.valve = s.dev.valve ∧ t.dev.pocket = s.dev.pocket ∧
      t.dev.weigh = s.dev.weigh ∧ t.dev.code = s.dev.code ∧ t.dev.setup = s.dev.setup ∧
      t.dev.report.queue = s.dev.report.queue

/-- The tag of a number (R3): from 1 to 4095, never 0, and 4095 consecutive numbers, none of them the wrap from
4,294,967,295 to 1, have different tags. -/
def Obligations.TagsRepeatAfter4095Numbers : Prop :=
  (∀ seq : Word, tagOf seq ≠ 0) ∧
  (∀ seq : Word, nextSeq seq ≠ 0) ∧
  ∀ x y : Word, 0 < x.toNat → x.toNat < y.toNat → y.toNat < x.toNat + 4095 → tagOf x ≠ tagOf y

/-- Steps 2 to 5 of a switch (R33, R130, R136, R70): every valve's trim becomes 0, or is kept within the new
recipe's limit when the recipe keeps trims; its epoch rises by 1 exactly when the trim changed; its recent list
and its runs are emptied and the rest of its record stands. The PENDING slot becomes CURRENT, its entry the
current one with no fills made, the switching-fill flag is cleared, and LOT_SWITCH is raised. With at most one slot CURRENT
before (R129), the net of each bare pocket not yet judged is formed again, from its gross and the new recipe's tare,
clamped; a weighing with flag UNSEEN, and every other pocket, stands (R70, R71).

The slot that was CURRENT becomes DRAINING while it has a member, and goes FREE when it has none; no other slot
changes. That a fill formed earlier in the same read keeps it DRAINING is the model's choice (log 21). The order words:
the old entry is written FILLED with its fills made, the new one STARTED with 0; when the old slot goes FREE at once, its
entry, here of the same order, is then written CLOSED and the order's status word its entries closed. That each
entry's two words go in this order is the model's choice (log 16); the fills-made word is the count modulo 2^32
(log 38). -/
def Obligations.SwitchTakesTheNewRecipe : Prop :=
  ∀ (d : Dev) (k : Fin 4) (c : Ctx), d.setup.part = .ready → (d.slot k).st = .pending →
    let r := d.recipeOf k
    let t := d.switchTo k c
    (∀ v : Fin 64,
      let old := d.valveRec v
      let trim : Int := if r.keepTrims then
        (if old.trim < -(r.trimLimit : Int) then -(r.trimLimit : Int)
         else if (r.trimLimit : Int) < old.trim then r.trimLimit else old.trim) else 0
      t.valveRec v = { old with
        trim := trim, epoch := if trim = old.trim then old.epoch else old.epoch + 1
        recent := [], outlier := 0, good := 0, atLimit := 0 }) ∧
    t.slot k = { d.slot k with st := .current } ∧ t.fill = { d.fill with switchDue := false } ∧
    (∃ e, t.order.cur = some e ∧ e.ref = (d.slot k).ref ∧ e.made = 0 ∧ e.stalled = false) ∧
    t.report.pending.getLsbD 6 = true ∧ t.track = d.track ∧ t.code = d.code ∧ t.setup = d.setup ∧
    (∀ u : Fin 4, u ≠ k → d.slotIn .current ≠ some u → t.slot u = d.slot u) ∧
    (∀ u : Fin 4, d.slotIn .current = some u → t.slot u =
      if (d.slot u).members = [] ∧ d.tentative u = false then RecipeSlot.empty
      else { d.slot u with st := .draining }) ∧
    ((∀ u v : Fin 4, (d.slot u).st = .current → (d.slot v).st = .current → u = v) → ∀ p : Word, t.entry p =
      let e := d.entry p
      match e.record, e.verdict, e.weighing with
      | none, none, some w =>
        if w.flags.getLsbD 5 then e
        else { e with weighing := some { w with net := max (-2147483648) (min 2147483647 (w.gross - r.tare)) } }
      | _, _, _ => e) ∧
    ∀ cur p i q j o o' x y, d.order.cur = some cur → cur.ref = .entry p i → (d.slot k).ref = .entry q j →
      d.place p = some o → o.entries[i]? = some x → d.place q = some o' → o'.entries[j]? = some y →
      (p, i) ≠ (q, j) → ∀ u, d.slotIn .current = some u →
      let made := cur.made + c.made
      let switched : List (Nat × Word) :=
        [(o.addr + 16 + 16 * i, 4), (o.addr + 20 + 16 * i, BitVec.ofNat 32 made),
         (o'.addr + 16 + 16 * j, 3), (o'.addr + 20 + 16 * j, 0)]
      t.order.cur = some { ref := .entry q j, canCount := y.canCount, made := 0, stalled := false } ∧
      ((d.slot u).members ≠ [] ∨ d.tentative u = true →
        t.order.writes = d.order.writes ++ switched ∧
        t.entryAt p i = some { x with status := .filled, made := made } ∧
        t.entryAt q j = some { y with status := .started, made := 0 }) ∧
      ((d.slot u).members = [] → d.tentative u = false → (d.slot u).ref = .entry p i → p = q →
        t.order.writes = d.order.writes ++ switched ++
          [(o.addr + 16 + 16 * i, 5), (o.addr + 20 + 16 * i, BitVec.ofNat 32 made),
           (o.addr + 4, orderStatusWord false o.error (o.closed + 1))] ∧
        t.entryAt p i = some { x with status := .closed, made := made } ∧
        t.entryAt q j = some { y with status := .started, made := 0 } ∧ t.order.running = d.order.running)

/-- A value for the nominal view (R36): stored as written while no recipe is CURRENT; 0 stays 0; any other value is
clamped to the CURRENT recipe's dose floor and ceiling. The nominal after an add (R37): 0 stays 0; else the sum,
clamped to the CURRENT recipe's dose limits, or to 0 and 4,294,967,295 while no recipe is CURRENT. -/
def Obligations.NominalsStayWithinTheDoseLimits : Prop :=
  (∀ (d : Dev) (w : Word),
    (d.slotIn .current = none → d.shapeNominal w = w) ∧
    (∀ k : Fin 4, d.slotIn .current = some k → d.shapeNominal 0 = 0 ∧
      (w ≠ 0 → (d.recipeOf k).doseFloor ≤ (d.recipeOf k).doseCeiling → (d.recipeOf k).doseCeiling < 2 ^ 32 →
        (d.shapeNominal w).toNat =
          max (d.recipeOf k).doseFloor (min (d.recipeOf k).doseCeiling w.toNat)))) ∧
  (∀ (d : Dev) (nominal delta : Word),
    d.addNominal 0 delta = 0 ∧
    (nominal ≠ 0 → d.slotIn .current = none →
      ((d.addNominal nominal delta).toNat : Int) = max 0 (min 4294967295 (nominal.toNat + delta.toInt))) ∧
    (nominal ≠ 0 → ∀ k : Fin 4, d.slotIn .current = some k →
      (d.recipeOf k).doseFloor ≤ (d.recipeOf k).doseCeiling → (d.recipeOf k).doseCeiling < 2 ^ 32 →
      ((d.addNominal nominal delta).toNat : Int) = max ((d.recipeOf k).doseFloor : Int)
        (min ((d.recipeOf k).doseCeiling : Int) (nominal.toNat + delta.toInt))))

/-- NOMINAL_WRITE in READY (R36): a fully written word is stored shaped; a partly written one is merged with the
word read at its address, shaped, and stored whole; a word with no enable leaves memory alone. In word order, and
nothing but memory and what the ports give out changes. The accesses are the writing master's; how they are
divided is left open (log 20).

A FAULT on any of these accesses: the write is answered FAULT, and the writes among the accesses before it stand in
memory; the faulted one and those after it are not made (that a faulted write stores nothing is log 8). -/
def Obligations.NominalWriteStoresShapedWords : Prop :=
  ∀ (s : State) (m : Master) (i : Nat) (ws : List WWord), s.Quiet → s.Ready →
    1 ≤ ws.length → ws.length ≤ 8 → i + ws.length ≤ 64 →
    let landed (xs : List Access) (mem : List Host.Cell) := xs.foldl (fun mem x => match x with
      | .read _ _ => mem
      | .write addr ws => Memory.writeWords mem addr ws) mem
    ∃ xs,
      (∀ a : MemAns, a.clean → exec (.nominalWrite m i ws a) s = .next (State.served m xs (.okay []) { s with
        mem := ws.zipIdx.foldl (fun mem x =>
          let addr := s.dev.base + 0x300 + 4 * (i + x.2)
          if x.1.be = 15#4 then Memory.writeWords mem addr [fullWord (s.dev.shapeNominal x.1.data)]
          else if x.1.be = 0#4 then mem
          else Memory.writeWords mem addr
            [fullWord (s.dev.shapeNominal (mergeBytes (Memory.readWord mem addr) x.1.data x.1.be))]) s.mem })) ∧
      (∀ (a : MemAns) (j : Nat), a.faultAt = some j → a.pauseAt = none → j < xs.length →
        exec (.nominalWrite m i ws a) s = .next (State.served m (xs.take (j + 1)) .fault { s with
          mem := landed (xs.take j) s.mem, dev := Dev.settle s.dev.drainAll })) ∧
      ((∀ u : Fin 4, (s.dev.slot u).st ≠ .draining) → Dev.settle s.dev.drainAll = s.dev)

/-- ADD_VIEW_WRITE in READY (R37): each word written with all four byte enables is added, as a signed number, to
the nominal at its place; other words are skipped. Nothing but memory and what the ports give out changes.

Each addition is a read and a write, so access j belongs to addition j / 2. A FAULT on access j: the write is answered
FAULT, the additions before that one stand in memory, and that one and those after it are not made (a faulted write
stores nothing: log 8). -/
def Obligations.AddViewWriteAddsToTheNominals : Prop :=
  ∀ (s : State) (m : Master) (i : Nat) (ws : List WWord) (a : MemAns), s.Quiet → s.Ready →
    1 ≤ ws.length → ws.length ≤ 8 → i + ws.length ≤ 64 →
    let adds := ws.zipIdx.filter fun x => decide (x.1.be = 15#4)
    let added (k : Nat) : List Host.Cell := (adds.take k).foldl (fun mem x =>
      let addr := s.dev.base + 0x300 + 4 * (i + x.2)
      Memory.writeWords mem addr [fullWord (s.dev.addNominal (Memory.readWord mem addr) x.1.data)]) s.mem
    (a.clean → ∃ xs, exec (.addViewWrite m i ws a) s =
      .next (State.served m xs (.okay []) { s with mem := added adds.length })) ∧
    (∀ j, a.faultAt = some j → a.pauseAt = none → j < 2 * adds.length →
      ∃ xs, xs.length = j + 1 ∧ exec (.addViewWrite m i ws a) s =
        .next (State.served m xs .fault { s with mem := added (j / 2), dev := Dev.settle s.dev.drainAll })) ∧
    ((∀ u : Fin 4, (s.dev.slot u).st ≠ .draining) → Dev.settle s.dev.drainAll = s.dev)

/-- ADD_VIEW_READ in READY (R37): answered with the nominal words of the same valves, one access of the same
length. -/
def Obligations.AddViewReadAnswersTheNominals : Prop :=
  ∀ (s : State) (m : Master) (i n : Nat) (a : MemAns), s.PortFree → s.Ready → a.clean → 1 ≤ n → n ≤ 8 →
    i + n ≤ 64 →
    exec (.addViewRead m i n a) s = .next (State.served m [.read (s.dev.base + 0x300 + 4 * i) n]
      (.okay (Memory.readWords s.mem (s.dev.base + 0x300 + 4 * i) n)) { s with dev := s.dev.countGrant.settle })

/-- BCAST_SET and BCAST_ADD in READY (R39): the word reaches memory at its own address; written with all four byte
enables it is then stored, shaped, in the nominal of every valve below V that the mask selects, or added to it; in
increasing valve order, and nothing but memory and what the ports give out changes; the accesses are the writing
master's. Written partly it is stored and does nothing more.

A FAULT part-way is answered FAULT: of BCAST_SET the writes among the accesses before it stand (their division is log
20); of BCAST_ADD, whose first access is its own word's and then two for each valve, the valves before the faulted one
keep their new nominals; the rest are not written. -/
def Obligations.BroadcastWritesReachTheSelectedValves : Prop :=
  ∀ (s : State) (m : Master) (w : WWord), s.Quiet → s.Ready →
    let valves := (List.range 64).filter fun v => decide (v < s.dev.su.valves) && s.dev.fill.mask.getLsbD v
    let stored (off : Nat) := Memory.writeWords s.mem (s.dev.base + off) [w]
    let nominal (v : Nat) := s.dev.base + 0x300 + 4 * v
    let added (k : Nat) := (valves.take k).foldl (fun mem v => Memory.writeWords mem (nominal v)
      [fullWord (s.dev.addNominal (Memory.readWord mem (nominal v)) w.data)]) (stored 0x128)
    let landed (xs : List Access) (mem : List Host.Cell) := xs.foldl (fun mem x => match x with
      | .read _ _ => mem
      | .write addr ws => Memory.writeWords mem addr ws) mem
    (w.be = 15#4 →
      (∃ xs,
        (∀ a : MemAns, a.clean → exec (.bcastSet m w a) s = .next (State.served m xs (.okay []) { s with
          mem := valves.foldl (fun mem v =>
            Memory.writeWords mem (nominal v) [fullWord (s.dev.shapeNominal w.data)]) (stored 0x124) })) ∧
        ∀ (a : MemAns) (j : Nat), a.faultAt = some j → a.pauseAt = none → j < xs.length →
          exec (.bcastSet m w a) s = .next (State.served m (xs.take (j + 1)) .fault { s with
            mem := landed (xs.take j) s.mem, dev := Dev.settle s.dev.drainAll })) ∧
      (∀ a : MemAns, a.clean → ∃ xs, exec (.bcastAdd m w a) s =
        .next (State.served m xs (.okay []) { s with mem := added valves.length })) ∧
      ∀ (a : MemAns) (j : Nat), a.faultAt = some (j + 1) → a.pauseAt = none → j < 2 * valves.length →
        ∃ xs, xs.length = j + 2 ∧ exec (.bcastAdd m w a) s =
          .next (State.served m xs .fault { s with mem := added (j / 2), dev := Dev.settle s.dev.drainAll })) ∧
    (w.be ≠ 15#4 → ∀ a : MemAns, a.clean →
      exec (.bcastSet m w a) s = .next (s.stored m (s.dev.base + 0x124) [w] id) ∧
      exec (.bcastAdd m w a) s = .next (s.stored m (s.dev.base + 0x128) [w] id)) ∧
    ((∀ u : Fin 4, (s.dev.slot u).st ≠ .draining) → Dev.settle s.dev.drainAll = s.dev)

/-! ### The line partners -/

/-- POSITION_EVENT in READY (R41): the word is stored; written by the motion master with all four byte enables it is
taken by the Pocket counter, and no other write of it is. SAMPLE_EVENT in READY (R59): the words are stored;
written by the scale master, each is taken as one sample in address order, at the ring indices from its first
on. -/
def Obligations.PositionAndSampleWordsAreTaken : Prop :=
  (∀ (s : State) (m : Master) (w : WWord) (a : MemAns), s.PortFree → s.Ready → a.clean →
    exec (.positionEvent m w a) s = .next (s.stored m (s.dev.base + 0x140) [w] fun d =>
      if m.toNat = s.dev.su.motion ∧ w.be = 15#4 then d.takePosition w.data else d)) ∧
  (∀ (s : State) (m : Master) (i : Nat) (ws : List WWord) (a : MemAns), s.PortFree → s.Ready → a.clean →
    1 ≤ ws.length → ws.length ≤ 8 → i + ws.length ≤ 4096 →
    exec (.sampleEvent m i ws a) s = .next (s.stored m (s.dev.base + 0x4000 + 4 * i) ws fun d =>
      if m.toNat = s.dev.su.scale then
        ws.zipIdx.foldl (fun d x => d.takeSample (i + x.2) (mergeBytes 0 x.1.data x.1.be)) d
      else d))

/-- R43: the first position word is stored, the extended position and the high-water mark are set to it, and the
entry of its pocket is started: occupancy NONE, no weighing, no record, UNCHECKED, no code, no verdict, no gate
answer (R51). Nothing else changes. -/
def Obligations.FirstPositionEstablishes : Prop :=
  ∀ (d : Dev) (w : Word), d.pocket.pos = none →
    let p : Word := BitVec.ofNat 32 (w.toNat / d.su.pitch)
    d.takePosition w = { d with pocket := { d.pocket with
      pos := some { last := w, ext := w.zeroExtend 48, high := w.zeroExtend 48 }
      ring := d.pocket.ring.set (p.toNat % 64)
        { pocket := p, occ := .none, weighing := none, record := none, ident := .unchecked,
          codeLot := none, codes := 0, checkFail := false, verdict := none, gate := none, repeats := 0 }
        (Nat.mod_lt _ (by decide)) } }

/-- Positions after the first (R44, R45, R46, R49). The signed difference to the last word moves the extended
position. At or behind the high-water mark only the word and the extended position are kept, and one pitch or
less behind, or with the reversal already reported, nothing more happens. Ahead of it, the high-water mark follows
and the reversal mark is cleared; the boundaries up to the new pocket are made; the new phase is handed to the
Weigh unit; a jump of more than 4 pockets raises POSITION_FAULT and marks suspects; the line runs with its stall
timer restarted; and any boundary requests a status write. A phase handed over moves first the gap window and then the
weigh window (R63): a window NOT OPENED stays so below its open phase, opens within the window, and closes at or past
its close phase; an OPEN one stays open within the window and closes at or past its close phase; a CLOSED one stays. -/
def Obligations.PositionsFollowTheHighWaterMark : Prop :=
  (∀ (d : Dev) (phase : Nat),
    let gap := match d.weigh.gapWin with
      | .notOpened =>
        if phase < d.su.gOpen then d
        else if phase < d.su.gClose then { d with weigh := { d.weigh with gapWin := .opened } }
        else d.closeGap
      | .opened => if phase < d.su.gClose then d else d.closeGap
      | .closed => d
    d.handPhase phase = match gap.weigh.weighWin with
      | .notOpened =>
        if phase < d.su.wOpen then gap
        else if phase < d.su.wClose then { gap with weigh := { gap.weigh with weighWin := .opened } }
        else gap.closeWeigh
      | .opened => if phase < d.su.wClose then gap else gap.closeWeigh
      | .closed => gap) ∧
  ∀ (d : Dev) (w : Word) (q : Position), d.pocket.pos = some q →
    let ext : BitVec 48 := q.ext + (w - q.last).signExtend 48
    let lead : Int := (ext - q.high).toInt
    (lead ≤ 0 → (-(d.su.pitch : Int) ≤ lead ∨ d.pocket.reversal = true) →
      d.takePosition w = { d with pocket := { d.pocket with
        pos := some { last := w, ext := ext, high := q.high } } }) ∧
    (lead < -(d.su.pitch : Int) → d.pocket.reversal = false →
      ∃ t, d.takePosition w = { t with pocket := { t.pocket with reversal := true } } ∧
        t = Dev.markSuspects (Dev.raise .positionFault
          { d with pocket := { d.pocket with pos := some { last := w, ext := ext, high := q.high } } })) ∧
    (0 < lead →
      let old : Word := BitVec.ofNat 32 (q.high.toNat / d.su.pitch)
      let n := ((BitVec.ofNat 32 (ext.toNat / d.su.pitch) : Word) - old).toNat
      let moved : Dev := { d with pocket := { d.pocket with
        pos := some { last := w, ext := ext, high := ext }, reversal := false } }
      let crossed := Dev.handPhase (ext.toNat % d.su.pitch) (Dev.boundaries n true old moved)
      let judged := if 4 < n then Dev.markSuspects (crossed.raise .positionFault) else crossed
      let run : Dev := { judged with
        pocket := { judged.pocket with running := true, stall := some 0, stop := .idle }
        weigh := if judged.pocket.running then judged.weigh
          else { judged.weigh with silence := .running 0 } }
      d.takePosition w = if 1 ≤ n then { run with report := { run.report with request := true } } else run)

/-- A boundary from pocket `p` (R47, R48, R51, R94, R106): the scale departure of `p`, by the Weigh unit when `p` was
the scale pocket at some event and as UNSEEN when it was only crossed; then the reader's departure with its
missed-read test and judgement; then the gate's; then the new scale pocket's entry is started. That the three
departures come in this order is the model's choice (log 17), for R47 gives them no order.

The scale departure (R69, R70, R11): an open window closes; without a can present the pocket and the track stand;
with one the pocket is CAN, takes the gross and the flags, claims the head of the fill list, and its net is the
gross less the tare of its record's recipe, or of the CURRENT one for a bare pocket, clamped; then the windows are
emptied. A head that fails its check is freed as LOST with TRACK_CHECK and the next one claimed (R5, R7); its slot joins
the pool, at its head by the model's choice (log 11).

The missed-read test (R90, R91): a CAN pocket still UNCHECKED becomes MISSED and the miss run rises, up to 63;
READER_FAULT is raised when the run reaches the reader-silent count. Any other pocket changes nothing. -/
def Obligations.BoundaryDepartsThreeStations : Prop :=
  (∀ (d : Dev) (first : Bool) (p : Word),
    let d1 := if first then d.scaleDeparts p else d.setEntry p { d.entry p with occ := .unseen }
    let r : Word := p - BitVec.ofNat 32 d1.su.dRead
    let d2 := Dev.judge r (d1.missedRead r)
    let g : Word := p - BitVec.ofNat 32 d2.su.dGate
    d.boundary first p = Dev.setEntry (d2.gateDeparts g) (p + 1)
      { pocket := p + 1, occ := .none, weighing := none, record := none, ident := .unchecked,
        codeLot := none, codes := 0, checkFail := false, verdict := none, gate := none, repeats := 0 }) ∧
  (∀ (d : Dev) (p : Word),
    let u := if d.weigh.gapWin = .closed then d else d.closeGap
    let w := if u.weigh.weighWin = .closed then u else u.closeWeigh
    let empty : Accumulator := { sum := 0, count := 0, gap := false, overload := false }
    let emptied (x : Dev) : Dev := { x with weigh := { x.weigh with
      gapWin := .notOpened, weighWin := .notOpened, gapAcc := empty, weighAcc := empty, closed := none } }
    ((∀ m g f, w.weigh.closed ≠ some (.weighed m g f true)) → d.scaleDeparts p = emptied w) ∧
    ∀ m gross flags, w.weigh.closed = some (.weighed m gross flags true) →
      let net (tare : Int) : Int := max (-2147483648) (min 2147483647 (gross - tare))
      let laid (x : Dev) (rest : List CanRecord) (r : Option CanRecord) (tare : Int) : Dev :=
        Dev.setEntry { x with track := { x.track with fill := rest } } p { x.entry p with
          occ := .can, record := r, weighing := some { gross := gross, net := net tare, flags := flags } }
      d.scaleDeparts p = emptied (w.layCan p gross flags) ∧
      (∀ x : Dev, x.track.fill = [] → x.layCan p gross flags = laid x [] none
        (match x.slotIn .current with | none => 0 | some k => (x.recipeOf k).tare)) ∧
      (∀ (x : Dev) r rest, x.track.fill = r :: rest → r.failed = false → r.checkOk = true →
        x.layCan p gross flags = laid x rest (some r) (x.recipeOf r.recipe).tare) ∧
      ∀ (x : Dev) r rest, x.track.fill = r :: rest → r.failed = true ∨ r.checkOk = false →
        ∃ y : Dev, x.layCan p gross flags = y.layCan p gross flags ∧ y.track.fill = rest ∧
          y.track.free = r.slot :: x.track.free ∧ y.pocket = x.pocket ∧ y.weigh = x.weigh ∧
          (x.setup.part = .ready → r.failed = false → y.report.pending.getLsbD 19 = true) ∧
          (x.report.queue.length < 16 → ∃ z, y.report.queue = x.report.queue ++ [z] ∧ z.seq = r.seq ∧
            z.ident = .lost ∧ z.pocket = none ∧ z.verdict = none ∧ z.weighing = none ∧ z.gate = none ∧
            z.reasons = 1024#11 ∧ z.record = some { tag := r.tag, valve := r.valve, recipe := r.recipe,
                                                    dose := r.dose, trim := r.trim })) ∧
  ∀ (d : Dev) (p : Word),
    ((d.entry p).occ ≠ .can ∨ (d.entry p).ident ≠ .unchecked → d.missedRead p = d) ∧
    ((d.entry p).occ = .can → (d.entry p).ident = .unchecked →
      let run := min 63 (d.code.missRun + 1)
      let missed : Dev := Dev.setEntry { d with code := { d.code with missRun := run } } p
        { d.entry p with ident := .missed }
      d.missedRead p = if d.code.missRun < d.su.readerSilent ∧ run = d.su.readerSilent then
        missed.raise .readerFault else missed)

/-- One sample (R60, R61, R64, R72): it enters the open windows with its raw count, its overload flag and the gap
before it; the expected index moves on, from 4095 to 0; while RUNNING the silence timer restarts. A full
accumulator keeps its sum and count. -/
def Obligations.SampleEntersTheOpenWindows : Prop :=
  ∀ (d : Dev) (i : Nat) (w : Word),
    let raw : Int := (w.setWidth 24).toInt
    let gap : Bool := match d.weigh.expected with | none => false | some j => decide (j ≠ i)
    let enter (st : WindowState) (x : Accumulator) : Accumulator :=
      if st = .opened then
        { sum := if x.count < 65535 then x.sum + raw else x.sum
          count := if x.count < 65535 then x.count + 1 else x.count
          gap := x.gap || gap, overload := x.overload || w.getLsbD 24 }
      else x
    d.takeSample i w = { d with weigh := { d.weigh with
      gapAcc := enter d.weigh.gapWin d.weigh.gapAcc
      weighAcc := enter d.weigh.weighWin d.weigh.weighAcc
      expected := some (if i = 4095 then 0 else i + 1)
      silence := if d.pocket.running then .running 0 else d.weigh.silence } }

/-- CODE_EVENT in READY (R75, R76). The write is stored. By another master, or carrying no word 3 whole, it is not
taken. Carrying word 3 of one slot whole, that slot is taken with its words 0 to 2 as the write carried them
whole, or else as memory then holds them, read for the same master; a repost is not taken. Two whole slots are taken one after the other. -/
def Obligations.CodeEventTakesItsSlots : Prop :=
  ∀ (s : State) (m : Master) (i : Nat) (ws : List WWord) (a : MemAns), s.Quiet → s.Ready → a.clean →
    1 ≤ ws.length → ws.length ≤ 8 → i + ws.length ≤ 512 →
    let carried (x : Nat) : Option Word :=
      if i ≤ x then
        match ws[x - i]? with
        | none => none
        | some w => if w.be = 15#4 then some w.data else none
      else none
    let at' : Nat := s.dev.base + 0x800 + 4 * i
    let mem' := Memory.writeWords s.mem at' ws
    let word (j k : Nat) : Word :=
      (carried (4 * j + k)).getD (Memory.readWord mem' (s.dev.base + 0x800 + 16 * j + 4 * k))
    let taken (j : Nat) (seq : Word) (d : Dev) : Dev :=
      if (j + 1) % 128 = d.code.expected ∧ d.code.last = some seq then d
      else Dev.takeCode j (codeRecOf (word j 0) (word j 1) (word j 2)) seq d
    (m.toNat ≠ s.dev.su.reader ∨ (∀ j, carried (4 * j + 3) = none) →
      exec (.codeEvent m i ws a) s = .next (s.stored m at' ws id)) ∧
    (m.toNat = s.dev.su.reader → ∀ j seq, carried (4 * j + 3) = some seq →
      (∀ j', j' ≠ j → carried (4 * j' + 3) = none) →
      ∃ xs, exec (.codeEvent m i ws a) s = .next ((s.stored m at' ws (taken j seq)).issuing m xs)) ∧
    (m.toNat = s.dev.su.reader → ∀ j x y, i = 4 * j → ws.length = 8 → (∀ w ∈ ws, w.be = 15#4) →
      carried (4 * j + 3) = some x → carried (4 * j + 7) = some y →
      exec (.codeEvent m i ws a) s =
        .next (s.stored m at' ws fun d => taken (j + 1) y (Dev.settle (taken j x d))))

/-- A code record that is no repost (R76, R78, R91): a slot out of order raises READER_FAULT; the missed run is
cleared; the record applies; then the slot after it is expected and its number is the last. -/
def Obligations.CodeRecordIsTakenInOrder : Prop :=
  ∀ (d : Dev) (j : Nat) (c : CodeRec) (seq : Word), j < 128 →
    ¬((j + 1) % 128 = d.code.expected ∧ d.code.last = some seq) →
    let d0 := if j = d.code.expected then d else d.raise .readerFault
    let d1 := Dev.applyCode c { d0 with code := { d0.code with missRun := 0 } }
    d.takeCode j c seq = { d1 with code := { d1.code with
      expected := (j + 1) % 128, last := some seq } }

/-- GATE_POLL in READY by the gate master (R100 to R103). With no position held, or no entry or no can at the gate
pocket, it is answered PASS, no can, tag 0, and records nothing. Else the first poll answers REJECT exactly when
the verdict is REJECT and gate enforcement is on, and records its answer; a repeat poll answers as recorded and
raises the repeat count, up to 15. The record is tested first (R6), as JudgementFormsTheVerdict says. GATE_INSPECTION_READ in READY by any other
master (R104): it is answered with the word a first poll would be given at that moment; but for a check failure
found by it, it records nothing. -/
def Obligations.GateReadsAnswerOncePerPocket : Prop :=
  (∀ (s : State) (m : Master) (a : MemAns), s.dev.path.upstream = [] → s.Ready → a.clean →
    m.toNat = s.dev.su.gate →
    let answered (word : Nat) (d : Dev) : State :=
      State.served m [] (.okay [BitVec.ofNat 32 word]) { s with dev := d.settle }
    (s.dev.pocket.pos = none → exec (.gatePoll m a) s = .next (answered 2 s.dev)) ∧
    (∀ q, s.dev.pocket.pos = some q →
      let g : Word := BitVec.ofNat 32 (q.high.toNat / s.dev.su.pitch) - BitVec.ofNat 32 s.dev.su.dGate
      let low := 256 * (g.toNat % 256)
      ((s.dev.entry g).pocket ≠ g ∨ (s.dev.entry g).occ = .none ∧ (s.dev.entry g).record = none →
        exec (.gatePoll m a) s = .next (answered (2 + low) s.dev)) ∧
      ((s.dev.entry g).pocket = g → (s.dev.entry g).occ ≠ .none →
        let d := s.dev.testPocket g
        let e := d.entry g
        let tag : Nat := match e.record with | none => 0 | some r => r.tag.toNat
        (e.gate = none →
          let reject : Bool := (match e.verdict with | none => false | some v => v.reject) && d.setup.enforce
          exec (.gatePoll m a) s = .next (answered ((if reject then 1 else 0) + low + 65536 * tag)
            (d.setEntry g { e with gate := some reject }))) ∧
        (∀ x, e.gate = some x →
          exec (.gatePoll m a) s = .next (answered ((if x then 1 else 0) + low + 65536 * tag)
            (d.setEntry g { e with repeats := if e.repeats < 15 then e.repeats + 1 else 15 })))))) ∧
  (∀ (s : State) (m : Master) (a : MemAns), s.dev.path.upstream = [] → s.Ready → a.clean →
    m.toNat ≠ s.dev.su.gate →
    let answered (word : Nat) (d : Dev) : State :=
      State.served m [] (.okay [BitVec.ofNat 32 word]) { s with dev := d.settle }
    (s.dev.pocket.pos = none → exec (.gateInspectionRead m a) s = .next (answered 2 s.dev)) ∧
    (∀ q, s.dev.pocket.pos = some q →
      let g : Word := BitVec.ofNat 32 (q.high.toNat / s.dev.su.pitch) - BitVec.ofNat 32 s.dev.su.dGate
      let low := 256 * (g.toNat % 256)
      ((s.dev.entry g).pocket ≠ g ∨ (s.dev.entry g).occ = .none ∧ (s.dev.entry g).record = none →
        exec (.gateInspectionRead m a) s = .next (answered (2 + low) s.dev)) ∧
      ((s.dev.entry g).pocket = g → (s.dev.entry g).occ ≠ .none →
        let d := s.dev.testPocket g
        let e := d.entry g
        let tag : Nat := match e.record with | none => 0 | some r => r.tag.toNat
        let reject : Bool := (match e.verdict with | none => false | some v => v.reject) && d.setup.enforce
        exec (.gateInspectionRead m a) s =
          .next (answered ((if reject then 1 else 0) + low + 65536 * tag) d))))



/-- The window closes (R65, R66, R67). A fit gap window takes a pending capture, or follows the zero within the zero
band; any other close leaves the zero and raises its age, up to 65,535; a zero left stale is reported once, by
SCALE_FAULT, until a close that sets the age back to 0 clears the flag that says so. A weigh window that took no
sample leaves presence unknown; else the mean, the gross under the zero and the span, the flags in the bit order of
12.8, and presence by the threshold are formed. -/
def Obligations.WindowsCloseIntoZeroAndWeighing : Prop :=
  ∀ d : Dev,
    let u := d.weigh
    let t := d.closeGap
    let mean := u.gapAcc.sum.tdiv u.gapAcc.count
    let fit : Prop := d.su.gapMin ≤ u.gapAcc.count ∧ u.gapAcc.gap = false ∧ u.gapAcc.overload = false
    let near : Prop := (mean - u.zero).natAbs ≤ d.su.zeroBand
    let stale (age : Nat) : Prop := d.su.staleLimit < age
    let w := u.weighAcc
    let m := w.sum.tdiv w.count
    let gross := max (-2147483648) (min 2147483647 (((m - u.zero) * u.spanMul).fdiv (2 ^ u.spanShift)))
    t.weigh.gapWin = .closed ∧
    (fit → u.capture = true → t.weigh.zero = mean ∧ t.weigh.zeroAge = 0 ∧ t.weigh.capture = false) ∧
    (fit → u.capture = false → near → t.weigh.zero = u.zero + (mean - u.zero).fdiv (2 ^ d.su.zeroShift) ∧
      t.weigh.zeroAge = 0 ∧ t.weigh.capture = false) ∧
    (¬fit ∨ u.capture = false ∧ ¬near → t.weigh.zero = u.zero ∧ t.weigh.capture = u.capture ∧
      t.weigh.zeroAge = (if u.zeroAge < 65535 then u.zeroAge + 1 else 65535)) ∧
    (fit → u.capture = true ∨ near → t.weigh.stale = false) ∧
    (¬fit ∨ u.capture = false ∧ ¬near → ¬stale t.weigh.zeroAge → t.weigh.stale = u.stale) ∧
    (stale t.weigh.zeroAge → t.weigh.stale = true) ∧
    (stale t.weigh.zeroAge → u.stale = false → d.setup.part ≠ .unplaced → t.report.pending.getLsbD 16 = true) ∧
    (u.stale = true ∨ ¬stale t.weigh.zeroAge → t.report = d.report) ∧
    (w.count = 0 → d.closeWeigh = { d with weigh := { u with weighWin := .closed, closed := some .unknown } }) ∧
    (w.count ≠ 0 → ∃ flags present,
      d.closeWeigh = { d with weigh := { u with
        weighWin := .closed, closed := some (.weighed m gross flags present) } } ∧
      (flags.getLsbD 0 = true ↔ w.count < d.su.weighMin) ∧ flags.getLsbD 1 = w.overload ∧
      flags.getLsbD 2 = w.gap ∧ (flags.getLsbD 3 = true ↔ stale u.zeroAge) ∧
      (flags.getLsbD 4 = true ↔ (d.su.maxGross : Int) < gross) ∧ flags.getLsbD 5 = false ∧
      (present = true ↔ (d.su.presence : Int) ≤ gross))

/-- The identity decision where no record moves (R78 to R83, R85, R16). A code with no pocket to apply to, or a first
GOOD code on an empty pocket, is a phantom. A first NO_READ code gives NO_READ. A first GOOD code with tag 0 on a bare
pocket gives UNTRACKED. A first GOOD code whose tag is the tag of the sound record its pocket holds gives CONFLICT for
another valve, else LOT_MISMATCH or CONFIRMED by the lot check, and clears the record's suspect flag, which lowers the
suspect count by 1 when it was set (R146). A later code
that agrees with the identity is a duplicate; one that does not gives CONFLICT.

Where records move (R83 to R88, R12, R13). `lane` is Q, the reader pocket and the CAN pockets before the scale;
`records` is S, the records they hold and then the fill list. A first GOOD code with a tag, every record of S passing
its check: with no match among S[0] to S[16], or at the first match another valve, the pocket takes CONFLICT and
nothing moves. With a match at k, k from 1 to 16, or 0 on a bare pocket (the close-up), and the same valve: S[0] to
S[k-1] are freed as LOST, their slots join the pool (at its head, log 11), the records from S[k] on are dealt to the
pockets of Q in order and the fill list keeps the rest; a pocket of Q beyond them is bare; the unjudged nets of the
pockets whose record changed are formed again (R70), less the tare of the new record's recipe or, on a pocket left
bare, of the current one; an UNSEEN reader pocket becomes CAN with gross 0, net 0 and flag UNSEEN; SLIP is raised and
the forward-slip count rises by k; the suspect count falls by the suspect ones among the freed records and the
confirmed one. A first GOOD code with tag 0 on a pocket that holds a record pushes every record of Q one pocket on,
the last back to the head of the fill list; no record is freed, the suspect count stands and no result is composed;
nets as above; SLIP is raised and the backward-slip count rises by 1. -/
def Obligations.CodesDecideTheIdentity : Prop :=
  (∀ (d : Dev) (c : CodeRec),
    let phantom : Dev := { d with code := { d.code with phantom := d.code.phantom + 1 } }
    let t := d.applyCode c
    (d.pocket.pos = none → t = phantom) ∧
    ∀ q, d.pocket.pos = some q →
      let r : Word := BitVec.ofNat 32 (q.high.toNat / d.su.pitch) - BitVec.ofNat 32 d.su.dRead
      let e := d.entry r
      let first : Entry := { e with codes := 1, codeLot := some c.lot }
      let agrees : Prop := match e.ident with
        | .confirmed | .lotMismatch => c.good = true ∧ ∃ x, e.record = some x ∧ x.tag = c.tag
        | .untracked => c.good = true ∧ c.tag = 0
        | .noRead => c.good = false
        | _ => True
      (e.pocket ≠ r → t = phantom) ∧
      (e.pocket = r → e.codes = 0 →
        (c.good = false → t = d.setEntry r { e with codes := 1, ident := .noRead }) ∧
        (c.good = true → e.occ = .none → t = phantom) ∧
        (c.good = true → e.occ ≠ .none → c.tag = 0 → e.record = none →
          t = d.setEntry r { first with ident := .untracked }) ∧
        (∀ x, c.good = true → e.occ ≠ .none → c.tag ≠ 0 → e.record = some x → x.failed = false →
          x.checkOk = true → x.tag = c.tag →
          (x.valve.val ≠ c.valve → t = d.setEntry r { first with ident := .conflict }) ∧
          (x.valve.val = c.valve →
            t.entry r = { first with
              ident := if d.su.lotCheck = true ∧ c.lot ≠ (d.recipeOf x.recipe).lot then .lotMismatch else .confirmed
              record := some { x with suspect := false } } ∧
            (∀ p, ringIx p ≠ ringIx r → t.entry p = d.entry p) ∧ t.track.fill = d.track.fill ∧
            t.track.suspects = d.track.suspects - (if x.suspect then 1 else 0) ∧
            t.track.free = d.track.free ∧ t.code = d.code ∧ t.report = d.report ∧ t.valve = d.valve))) ∧
      (e.pocket = r → e.codes ≠ 0 → e.ident ≠ .unchecked → e.ident ≠ .missed →
        let later : Entry := { e with codes := if e.codes < 255 then e.codes + 1 else 255 }
        (agrees → t = { d.setEntry r later with code := { d.code with duplicate := d.code.duplicate + 1 } }) ∧
        (¬agrees → t = d.setEntry r { later with ident := .conflict }))) ∧
  ∀ (d : Dev) (c : CodeRec) (q : Position), d.setup.part = .ready → d.pocket.pos = some q → c.good = true →
    d.su.dRead ≤ 31 →
    let r : Word := BitVec.ofNat 32 (q.high.toNat / d.su.pitch) - BitVec.ofNat 32 d.su.dRead
    let e := d.entry r
    let lane : List Word := r :: ((List.range (d.su.dRead - 1)).map fun i => r + 1 + BitVec.ofNat 32 i).filter
      fun p => decide ((d.entry p).occ = .can)
    let records : List CanRecord := (lane.filterMap fun p => (d.entry p).record) ++ d.track.fill
    let first : Entry := { e with codes := 1, codeLot := some c.lot }
    let t := d.applyCode c
    let reformed (p : Word) (new : Option CanRecord) : Prop := ∀ (v : Weighing) (tare : Int),
      (d.entry p).verdict = none → (d.entry p).weighing = some v → v.flags.getLsbD 5 = false →
      ((d.entry p).record.map fun z => z.slot) ≠ (new.map fun z => z.slot) →
      (match new, t.slotIn .current with
        | some y, _ => ∃ w, (t.slot y.recipe).recipe = some w ∧ tare = w.tare
        | none, some k => ∃ w, (t.slot k).recipe = some w ∧ tare = w.tare
        | none, none => tare = 0) →
      (t.entry p).weighing = some { v with net := max (-2147483648) (min 2147483647 (v.gross - tare)) }
    e.pocket = r → e.codes = 0 → e.occ ≠ .none →
    (c.tag ≠ 0 → (∀ x ∈ records, x.failed = false ∧ x.checkOk = true) →
      ((∀ x ∈ records.take 17, x.tag ≠ c.tag) → t = d.setEntry r { first with ident := .conflict }) ∧
      ∀ lost x rest, records = lost ++ x :: rest → lost.length ≤ 16 → (∀ y ∈ lost, y.tag ≠ c.tag) → x.tag = c.tag →
        (x.valve.val ≠ c.valve → t = d.setEntry r { first with ident := .conflict }) ∧
        (x.valve.val = c.valve → lost ≠ [] ∨ e.record = none →
          (t.entry r).record = some { x with suspect := false } ∧
          (∀ (n : Nat) (p : Word), lane[n + 1]? = some p → (t.entry p).record = rest[n]?) ∧
          t.track.fill = (x :: rest).drop lane.length ∧
          t.track.free = (lost.map fun y => y.slot).reverse ++ d.track.free ∧
          t.track.suspects = d.track.suspects - (lost ++ [x]).countP (fun y => y.suspect) ∧
          (d.report.queue.length + lost.length ≤ 16 → ∃ zs, t.report.queue = d.report.queue ++ zs ∧
            zs.map (fun z => (z.seq, z.ident, z.pocket, z.reasons, z.record)) = lost.map fun y =>
              (y.seq, .lost, none, 0, some { tag := y.tag, valve := y.valve, recipe := y.recipe, dose := y.dose,
                                             trim := y.trim })) ∧
          (∀ w, (t.slot x.recipe).recipe = some w → (t.entry r).ident =
            if d.su.lotCheck = true ∧ c.lot ≠ w.lot then .lotMismatch else .confirmed) ∧
          (t.entry r).codes = 1 ∧ (t.entry r).codeLot = some c.lot ∧ (∀ p ∈ lane, (t.entry p).occ = .can) ∧
          (e.occ = .unseen → (t.entry r).weighing = some { gross := 0, net := 0, flags := 32#6 }) ∧
          (∀ (n : Nat) (p : Word), lane[n]? = some p → (d.entry p).occ = .can → reformed p (x :: rest)[n]?) ∧
          (∀ p, (∀ y ∈ lane, ringIx p ≠ ringIx y) → t.entry p = d.entry p) ∧
          t.code = { d.code with forward := d.code.forward + BitVec.ofNat 16 lost.length } ∧
          t.report.pending.getLsbD 18 = true ∧ t.valve = d.valve ∧ t.pocket.pos = d.pocket.pos)) ∧
    (c.tag = 0 → e.record ≠ none →
      (t.entry r).record = none ∧ (t.entry r).ident = .untracked ∧ (t.entry r).codes = 1 ∧
      (t.entry r).codeLot = some c.lot ∧
      (∀ (n : Nat) (p p' : Word), lane[n]? = some p → lane[n + 1]? = some p' → (t.entry p').record = (d.entry p).record) ∧
      (∀ (n : Nat) (p : Word), lane[n]? = some p →
        reformed p (if n = 0 then none else (lane[n - 1]?).bind fun y => (d.entry y).record)) ∧
      (∀ p, lane.getLast? = some p → t.track.fill = (d.entry p).record.toList ++ d.track.fill) ∧
      t.track.free = d.track.free ∧ t.track.suspects = d.track.suspects ∧ t.report.queue = d.report.queue ∧
      t.order = d.order ∧ (∀ p, (∀ y ∈ lane, ringIx p ≠ ringIx y) → t.entry p = d.entry p) ∧
      t.code = { d.code with backward := d.code.backward + 1 } ∧ t.report.pending.getLsbD 18 = true)

/-! ### Valves -/

/-- The valve commands in READY, by any master (R119, R120). The command word, with its code and operand, is stored.
Written with all four byte enables for a valve below V, it changes that valve's record as the table of R120 gives:
ARM_TEST, DISARM_TEST, SUSPEND, RESUME, ZERO_TRIM, SET_TRIM and CLEAR_STATS; otherwise it has no effect. -/
def Obligations.ValveCommandsChangeTheirRecord : Prop :=
  ∀ (s : State) (m : Master) (v : Fin 64) (x : BitVec 16) (be : BitVec 4) (a : MemAns),
    s.PortFree → s.Ready → a.clean →
    let done (code : Nat) (f : ValveRec → ValveRec) : State :=
      s.stored m (s.dev.base + 0x600 + 4 * v.val) [{ data := BitVec.ofNat 32 (x.toNat + 65536 * code), be := be }]
        fun d => if be = 15#4 ∧ v.val < s.dev.su.valves then d.setValve v (f (d.valveRec v)) else d
    let limit : Int := match s.dev.slotIn .current with
      | none => 0
      | some k => (s.dev.recipeOf k).trimLimit
    exec (.armTest m v x be a) s = .next (done 1 fun r => { r with arm := true }) ∧
    exec (.disarmTest m v x be a) s = .next (done 2 fun r => { r with arm := false }) ∧
    exec (.suspend m v x be a) s = .next (done 3 fun r => { r with st := .suspended, cause := some .software }) ∧
    exec (.resume m v x be a) s = .next (done 4 fun r =>
      { r with st := .inService, cause := none, outlier := 0, good := 0, atLimit := 0 }) ∧
    exec (.zeroTrim m v x be a) s = .next (done 5 fun r =>
      { r with trim := 0, epoch := r.epoch + 1, atLimit := 0 }) ∧
    exec (.setTrim m v x be a) s = .next (done 6 fun r =>
      { r with trim := max (-limit) (min limit x.toInt), epoch := r.epoch + 1, atLimit := 0 }) ∧
    exec (.clearStats m v x be a) s = .next (done 7 fun r =>
      { r with recent := [], fills := 0, confirmed := 0, rejects := 0, lastNet := none, lastVerdict := none,
               lastSeq := none })

/-- A hand-over (R111 to R117). The verdict is noted. With identity CONFIRMED and no WEIGH_FAULT, the statistics and
the outlier and good runs follow, then, under the conditions of R115, the trim and the at-limit run of R116, then, if
a run changed, the state test of R117; nothing but the valve's record and the cause of R117 changes. -/
def Obligations.HandOverTakesFourSteps : Prop :=
  ∀ (d : Dev) (v : Fin 64) (h : HandOver),
    let c := d.recipeOf h.recipe
    let old := d.valveRec v
    let noted : ValveRec := { old with
      lastVerdict := some h.reject, rejects := if h.reject then old.rejects + 1 else old.rejects }
    (h.ident ≠ .confirmed ∨ h.weighFault = true → d.handOver v h = d.setValve v noted) ∧
    (h.ident = .confirmed → h.weighFault = false →
      let far : Prop := c.outlierBand < h.deviation.natAbs
      let weighed : ValveRec := { noted with
        confirmed := old.confirmed + 1
        lastNet := some h.net
        recent := (if old.recent.length < 16 then old.recent else old.recent.drop 1) ++
          [max (-2147483648) (min 2147483647 h.deviation)]
        outlier := if far then min 65535 (old.outlier + 1) else 0
        good := if far then 0 else min 65535 (old.good + 1) }
      let limit : Int := c.trimLimit
      let computed : Int := h.trim - (h.deviation * c.gain).tdiv 16
      let r : ValveRec :=
        if h.test = false ∧ d.slotIn .current = some h.recipe ∧ d.setup.trimApply = true ∧ old.st ≠ .suspended ∧
            h.epoch = old.epoch then
          { weighed with
            trim := max (-limit) (min limit computed)
            atLimit := if computed ≠ 0 ∧ (limit ≤ computed ∨ computed ≤ -limit) then min 65535 (old.atLimit + 1)
              else 0 }
        else weighed
      d.handOver v h =
        if r.outlier = old.outlier ∧ r.good = old.good ∧ r.atLimit = old.atLimit then d.setValve v r
        else if old.st = .suspended then d.setValve v r
        else if c.autoSuspend = true ∧ c.suspendCount ≤ r.outlier then
          Dev.raise .valveSuspended (d.setValve v { r with st := .suspended, cause := some .auto })
        else if old.st = .inService ∧ (c.watchCount ≤ r.outlier ∨ 8 ≤ r.atLimit) then
          Dev.raise .valveWatch (d.setValve v { r with st := .watch })
        else if old.st = .watch ∧ c.watchCount ≤ r.good then
          d.setValve v { r with st := .inService, good := 0, atLimit := 0 }
        else d.setValve v r)

/-- VALVE_VIEW_READ in READY (R123, R124). A word of the record the read begins in, after its word 0, is answered from
the latch when the latch holds that valve for this master; every other word is answered live. A word 0 in the read
latches its valve's 16 words for the master; without one the latch stands. Nothing else changes but what the ports
give out. The 16 words are those of 12.4, with the recent list's mean truncated toward zero and its spread the newest
list's greatest less its least (R112); a recent list that is empty gives 0 for its mean, spread and deviations, and so
does an absent number or net. The condition word is QueryReadShowsTheMatches'. -/
def Obligations.ValveViewReadShowsTheRecords : Prop :=
  (∀ (d : Dev) (v : Fin 64) (nominal : Word),
    let r := d.valveRec v
    let w (n : Nat) : Word := BitVec.ofNat 32 n
    let st : Nat := match r.st with | .inService => 0 | .watch => 1 | .suspended => 2
    let cause : Nat := match r.cause with | none => 0 | some .software => 1 | some .auto => 2
    let limit : Nat := match d.slotIn .current with | none => 0 | some k => (d.recipeOf k).trimLimit
    let verdict : Nat := match r.lastVerdict with | none => 0 | some false => 1 | some true => 2
    ∃ mean spread : Int,
      d.viewWords v nominal =
        [w ((d.conditionOf v nominal).toNat + 65536 * v.val), w (st + 16 * cause + 256 * r.epoch.toNat),
         BitVec.ofInt 32 r.trim, w (r.outlier % 65536 + 65536 * (r.good % 65536)),
         w (r.atLimit % 65536 + 65536 * (limit % 65536)), r.fills, r.confirmed, r.rejects,
         BitVec.ofInt 32 (match r.lastNet with | none => 0 | some n => n),
         (match r.lastSeq with | none => 0 | some q => q),
         w (r.recent.length % 32 + 256 * verdict + if r.lastNet.isSome then 4096 else 0),
         BitVec.ofInt 32 mean, BitVec.ofInt 32 spread,
         BitVec.ofInt 32 (match r.recent.getLast? with | none => 0 | some x => x),
         BitVec.ofInt 32 (match r.recent.head? with | none => 0 | some x => x), nominal] ∧
      (r.recent = [] → mean = 0 ∧ spread = 0) ∧
      (r.recent ≠ [] → mean = r.recent.sum.tdiv r.recent.length ∧
        ∃ hi ∈ r.recent, ∃ lo ∈ r.recent, spread = hi - lo ∧ ∀ x ∈ r.recent, lo ≤ x ∧ x ≤ hi)) ∧
  ∀ (s : State) (m : Master) (i n : Nat) (a : MemAns), s.Quiet → s.Ready → a.clean → 1 ≤ n → n ≤ 8 →
    i + n ≤ 1024 →
    let live (v : Nat) : List Word := s.dev.viewWords (Fin.ofNat 64 v)
      (if v < s.dev.su.valves then Memory.readWord s.mem (s.dev.base + 0x300 + 4 * v) else 0)
    let word (x : Nat) : Word :=
      match s.dev.path.latch with
      | none => (live (x / 16)).getD (x % 16) 0
      | some l =>
        if x / 16 = i / 16 ∧ i % 16 ≠ 0 ∧ l.master = m ∧ l.valve.val = i / 16 then l.words.getD (x % 16) 0
        else (live (x / 16)).getD (x % 16) 0
    let next := (i + 15) / 16
    ∃ xs, exec (.valveViewRead m i n a) s = .next
      (State.served m xs (.okay ((List.range n).map fun k => word (i + k))) { s with
        dev := if 16 * next < i + n then
            { s.dev with path := { s.dev.path with
              latch := some { master := m, valve := Fin.ofNat 64 next, words := live next } } }
          else s.dev })

/-- QUERY_READ in READY (R126): bit v mod 32 of valve v's half is 1 exactly when v is below V and its condition word
agrees with QUERY_REF wherever QUERY_CARE is 1; nothing but what the ports give out changes. The condition word (R122): the state,
test armed, trim at high and at low limit, outlier run, last verdict REJECT, recent list full, suspended by AUTO,
idle; the other bits 0. -/
def Obligations.QueryReadShowsTheMatches : Prop :=
  (∀ (s : State) (m : Master) (n : Nat) (a : MemAns), s.Quiet → s.Ready → a.clean → 1 ≤ n → n ≤ 2 →
    let agrees (v : Nat) : Prop := v < s.dev.su.valves ∧ ∀ b < 16, s.dev.valve.queryCare.getLsbD b = true →
      (s.dev.conditionOf (Fin.ofNat 64 v) (Memory.readWord s.mem (s.dev.base + 0x300 + 4 * v))).getLsbD b =
        s.dev.valve.queryRef.getLsbD b
    (∃ xs ws, exec (.queryRead m false n a) s = .next (State.served m xs (.okay ws) s) ∧ ws.length = n ∧
      ∀ k < n, ∀ b < 32, (ws.getD k 0).getLsbD b = true ↔ agrees (32 * k + b)) ∧
    (∃ xs w, exec (.queryRead m true 1 a) s = .next (State.served m xs (.okay [w]) s) ∧
      ∀ b < 32, w.getLsbD b = true ↔ agrees (32 + b))) ∧
  ∀ (d : Dev) (v : Fin 64) (nominal : Word),
    let r := d.valveRec v
    let w := d.conditionOf v nominal
    let limit : Option Nat := (d.slotIn .current).map fun k => (d.recipeOf k).trimLimit
    (w.getLsbD 0 = true ↔ r.st = .watch) ∧ (w.getLsbD 1 = true ↔ r.st = .suspended) ∧ w.getLsbD 2 = r.arm ∧
    (w.getLsbD 3 = true ↔ ∃ l, limit = some l ∧ 0 < l ∧ r.trim = l) ∧
    (w.getLsbD 4 = true ↔ ∃ l, limit = some l ∧ 0 < l ∧ r.trim = -l) ∧
    (w.getLsbD 5 = true ↔ 1 ≤ r.outlier) ∧ (w.getLsbD 6 = true ↔ r.lastVerdict = some true) ∧
    (w.getLsbD 7 = true ↔ r.recent.length = 16) ∧
    (w.getLsbD 8 = true ↔ r.st = .suspended ∧ r.cause = some .auto) ∧
    (w.getLsbD 9 = true ↔ d.su.valves ≤ v.val ∨ nominal = 0) ∧
    ∀ b, 10 ≤ b → w.getLsbD b = false

/-! ### Service orders -/

/-- The entry a service order has reached (R139, R140), while the part is READY. SET_SPAN replaces the span or fails
BAD_OPERAND (R73); ZERO_CAPTURE sets capture pending (R74); CLEAR_TRACK discards the track and clears the ring while
STOPPED, and fails NOT_STOPPED while RUNNING (R150, R151); a code that names no operation fails UNKNOWN_OP. An entry
that succeeds is written DONE, and the order goes on or is released DONE, with ORDER_B_DONE if the notify flag is
set; one that fails is written ERROR, the order ERROR with the code, ORDER_ERROR raised with the address of the
entry's operation word, the rest SKIPPED, and the order released. The model's choices: words go one at a time, and the
release and its cause come as the final status word is composed (log 16); the status word is written only at the order's
end, and a failed entry's words go in the order entry, order, rest (log 42). -/
def Obligations.ServiceEntriesAreExecuted : Prop :=
  ∀ (s : State) (o : ServiceOrder) (e : ServiceEntry), s.dev.setup.part = .ready →
    s.dev.order.service = some o → o.entries[o.idx]? = some e →
    let word (addr value : Nat) (d : Dev) : Dev := d.pushOrderWrite addr (BitVec.ofNat 32 value)
    let entry (i value : Nat) (d : Dev) : Dev := word (o.addr + 20 + 16 * i) value d
    let running (x : Option ServiceOrder) (d : Dev) : Dev := { d with order := { d.order with service := x } }
    let done (d : Dev) : Dev :=
      let t := entry o.idx 2 d
      if o.idx + 1 < o.entries.length then
        running (some { o with idx := o.idx + 1, closed := o.closed + 1, nextValve := 0 }) t
      else
        let u := running none (word (o.addr + 4) (1 + 65536 * ((o.closed + 1) % 16)) t)
        if o.notify then u.raise .orderBDone else u
    let failed (code : Nat) (d : Dev) : Dev :=
      let t := Dev.raiseAt .orderError (o.addr + 8 + 16 * o.idx)
        (word (o.addr + 4) (2 + 256 * code + 65536 * (o.closed % 16)) (entry o.idx 3 d))
      running none ((List.range o.entries.length).foldl (fun d i => if o.idx < i then entry i 4 d else d) t)
    let leaves (d : Dev) : State := { s with dev := Dev.settle d }
    let op := e.op.toNat % 256
    (∀ d : Dev, d.serviceDone o = done d) ∧
    (∀ (d : Dev) (code : OrderCode), d.serviceFails o code = failed code.code d) ∧
    (op = 1 → exec .setSpan s = .next (leaves (
      if 1 ≤ e.op1.toNat ∧ e.op1.toNat ≤ 65535 ∧ e.op2.toNat ≤ 31 then
        done { s.dev with weigh := { s.dev.weigh with spanMul := e.op1.toNat, spanShift := e.op2.toNat } }
      else failed 7 s.dev))) ∧
    (op = 2 → exec .zeroCapture s = .next (leaves (done
      { s.dev with weigh := { s.dev.weigh with capture := true } }))) ∧
    (op = 3 → exec .clearTrack s = .next (leaves (
      if s.dev.pocket.running then failed 8 s.dev else done (Dev.clearRing s.dev.discardTrack)))) ∧
    (op < 1 ∨ 6 < op → exec .unknownOp s = .next (leaves (failed 9 s.dev)))

/-- The discard and the clearing of CLEAR_TRACK (R14, R17, R18, R150): each live record, the pocketed ones from the
oldest pocket to the newest and then the fill list, is freed with a DISCARDED result, with TRACK_CHECK if it fails its
check, which joins the queue while it holds fewer than 16 and is dropped and counted otherwise, and its slot joins the
free pool, at its head (log 11); the fill list is empty, every entry of the ring keeps
its pocket number and is otherwise cleared; the position and the line state, the fills' counters, the Weigh
unit, the Code unit, the valve table, the setup and the current entry stand. The suspect count falls by the suspect
records among them, so that a count that was theirs becomes 0 (R146). A suspect marking that finds every
live record sound (R145, R16): each record whose failed mark and suspect flag are clear takes the flag, in its
pocket or in the fill list, and raises the suspect count by 1 (R146); the others stand; TRACK_SUSPECT is raised. The
position, the line state, the valves, the Weigh and Code units, the orders and the report queue stand. -/
def Obligations.TrackIsClearedOrFlagged : Prop :=
  (∀ d : Dev,
    let t := Dev.clearRing d.discardTrack
    t.track.fill = [] ∧
    (∀ p : Word, t.entry p =
      { pocket := (d.entry p).pocket, occ := .none, weighing := none, record := none, ident := .unchecked,
        codeLot := none, codes := 0, checkFail := false, verdict := none, gate := none, repeats := 0 }) ∧
    t.pocket.pos = d.pocket.pos ∧ t.pocket.running = d.pocket.running ∧ t.pocket.stall = d.pocket.stall ∧
    t.pocket.stop = d.pocket.stop ∧ t.pocket.reversal = d.pocket.reversal ∧
    t.fill = d.fill ∧ t.weigh = d.weigh ∧ t.code = d.code ∧ t.valve = d.valve ∧ t.setup = d.setup ∧
    t.order.cur = d.order.cur ∧ t.path.latch = d.path.latch ∧ t.path.faults = d.path.faults) ∧
  (∀ d : Dev, d.report.queue.length ≤ 16 →
    let now : Word := match d.pocket.pos with
      | none => 0
      | some q => BitVec.ofNat 32 (q.high.toNat / d.su.pitch)
    let live : List CanRecord :=
      ((List.range 64).filterMap fun i => (d.entry (now - 63 + BitVec.ofNat 32 i)).record) ++ d.track.fill
    let t := Dev.clearRing d.discardTrack
    t.track.free = (live.map fun r => r.slot).reverse ++ d.track.free ∧
    (∃ zs, t.report.queue = (d.report.queue ++ zs).take 16 ∧
      zs.map (fun z => (z.seq, z.ident, z.pocket, z.reasons, z.record)) = live.map fun r =>
        (r.seq, .discarded, none, if r.failed = true ∨ r.checkOk = false then 1024#11 else 0#11,
          some { tag := r.tag, valve := r.valve, recipe := r.recipe, dose := r.dose, trim := r.trim })) ∧
    t.report.dropped = d.report.dropped + BitVec.ofNat 32 (d.report.queue.length + live.length - 16) ∧
    live = d.live ∧ t.track.suspects = d.track.suspects - live.countP (fun r => r.suspect) ∧
    (d.track.suspects = live.countP (fun r => r.suspect) → t.track.suspects = 0)) ∧
  (∀ d : Dev, d.setup.part ≠ .unplaced → (∀ r ∈ d.track.fill, r.checkOk = true) →
    (∀ p r, (d.entry p).record = some r → r.checkOk = true) →
    let mark (r : CanRecord) : CanRecord := if r.failed = true ∨ r.suspect = true then r else { r with suspect := true }
    let t := d.markSuspects
    t.track.fill = d.track.fill.map mark ∧ t.track.free = d.track.free ∧
    t.track.suspects = d.track.suspects + d.live.countP (fun r => !r.failed && !r.suspect) ∧
    (∀ p, t.entry p = { d.entry p with record := (d.entry p).record.map mark }) ∧
    t.report.pending.getLsbD 14 = true ∧ t.report.queue = d.report.queue ∧
    t.pocket.pos = d.pocket.pos ∧ t.pocket.running = d.pocket.running ∧ t.pocket.stop = d.pocket.stop ∧
    t.valve = d.valve ∧ t.weigh = d.weigh ∧ t.code = d.code ∧ t.order = d.order ∧ t.setup = d.setup ∧ t.fill = d.fill)

/-- VALVE_GROUP (R140). A command code that is none of the seven fails BAD_OPERAND. Else every selected valve below V
takes the command with the entry's operand, no other valve changes, and the entry is done. In the middle of a
switching fill no valve takes it, for every arrival at the valve table comes before or after the whole of that fill
(R35): the entry stays reached (log 44). That the command says how far the group goes before another arrival, `upTo`,
is the model's form (log 26). -/
def Obligations.ValveGroupCommandsTheSelectedValves : Prop :=
  ∀ (s : State) (o : ServiceOrder) (e : ServiceEntry) (upTo : Nat), s.dev.setup.part = .ready →
    s.dev.order.service = some o → o.entries[o.idx]? = some e → e.op.toNat % 256 = 4 →
    let code := e.op.toNat / 256 % 256
    let operand : Int := (BitVec.ofNat 16 (e.op.toNat / 65536)).toInt
    let limit : Nat := match s.dev.slotIn .current with
      | none => 0
      | some k => (s.dev.recipeOf k).trimLimit
    let selected (v : Fin 64) : Prop := v.val < s.dev.su.valves ∧ o.nextValve ≤ v.val ∧ v.val < upTo ∧
      (if v.val < 32 then e.op1.getLsbD v.val else e.op2.getLsbD (v.val - 32)) = true
    let commanded (c : ValveCommand) : Dev := { s.dev with valve := { s.dev.valve with
      recs := Vector.ofFn fun v =>
        if selected v then (s.dev.valveRec v).command c operand limit else s.dev.valveRec v } }
    (code < 1 ∨ 7 < code → exec (.valveGroup upTo) s =
      .next { s with dev := Dev.settle (s.dev.serviceFails o .badOperand) }) ∧
    (s.dev.midSwitch = true → 1 ≤ code → code ≤ 7 →
      exec (.valveGroup upTo) s = .next { s with dev := Dev.settle s.dev }) ∧
    (∀ c : ValveCommand, s.dev.midSwitch = false → c.code = code → exec (.valveGroup upTo) s = .next { s with dev := Dev.settle (
      if s.dev.su.valves ≤ upTo then (commanded c).serviceDone o
      else
        let t := commanded c
        { t with order := { t.order with
          service := some { o with nextValve := max o.nextValve upTo } } }) })

/-- REPORT_FLUSH and REPORT_RESTART taken between the Report unit's own bursts (R174, R140). While RUNNING with a
count of 1 or more the buffer is closed with reason FLUSH, and a restart opens its descriptor after that; else a
flush has no effect and a restart opens its descriptor at once. A restart address that is not word-aligned or lies
outside memory fails BAD_OPERAND. That reporting is shown RUNNING during the close and WAITING on the descriptor during
the opening is the model's choice (log 24). -/
def Obligations.ReportOperationsAreHandedOver : Prop :=
  ∀ (s : State) (o : ServiceOrder) (e : ServiceEntry), s.dev.setup.part = .ready →
    s.dev.order.service = some o → o.entries[o.idx]? = some e → s.dev.report.act = none →
    let done (d : Dev) : State := { s with dev := Dev.settle (d.serviceDone o) }
    let opened (x : Nat) (d : Dev) : Dev := Dev.placeBurst { op := .report, addr := x, kind := .read 4 }
      { d with report := { d.report with
        reporting := .waiting (.descriptor x), act := some (.opening x), reread := none } }
    let closed (after : AfterClose) (b : Buffer) (d : Dev) : Dev := Dev.placeBurst
      { op := .report, addr := b.desc + 12,
        kind := .write [BitVec.ofNat 32 (2 * 16 + 65536 * (b.count % 4096))] }
      { d with report := { d.report with
        reporting := .running { b with age := none }, act := some (.closing b.desc after) } }
    let x := e.op1.toNat
    (e.op.toNat % 256 = 5 →
      (∀ b, s.dev.report.reporting = .running b → 1 ≤ b.count →
        exec .reportFlush s = .next (done (closed .follow b s.dev))) ∧
      ((∀ b, s.dev.report.reporting = .running b → b.count = 0) →
        exec .reportFlush s = .next (done s.dev))) ∧
    (e.op.toNat % 256 = 6 →
      (x % 4 ≠ 0 ∨ s.dev.size ≤ x →
        exec .reportRestart s = .next { s with dev := Dev.settle (s.dev.serviceFails o .badOperand) }) ∧
      (x % 4 = 0 → x < s.dev.size →
        (∀ b, s.dev.report.reporting = .running b → 1 ≤ b.count →
          exec .reportRestart s = .next (done (closed (.restart x) b s.dev))) ∧
        ((∀ b, s.dev.report.reporting = .running b → b.count = 0) →
          exec .reportRestart s = .next (done (opened x s.dev)))))

/-! ### Timers -/

/-- STALL_TIMER_EXPIRY, STOP_TIMER_EXPIRY and SCALE_SILENCE_EXPIRY (R53, R54, R55, R72, R148). The stall timer's
expiry in READY and RUNNING stops the line: LINE_STOPPED is raised, the stop timer starts, the silence timer goes
idle, and a deferred load begins; while STOPPED the timer goes idle with no other effect. The stop timer's expiry in
READY and STOPPED makes it expired and marks the track. The silence timer's expiry makes it expired and raises
SCALE_FAULT. An expiry that is not due changes nothing (log 3). -/
def Obligations.LineTimersExpire : Prop :=
  ∀ s : State,
    let leaves (d : Dev) : State := { s with dev := Dev.settle d }
    let stopped : Dev := Dev.raise .lineStopped { s.dev with
      pocket := { s.dev.pocket with running := false, stall := none, stop := .running 0 }
      weigh := { s.dev.weigh with silence := .idle } }
    (s.dev.setup.part = .ready → s.dev.pocket.stall ≠ none →
      (s.dev.pocket.running = true →
        (s.dev.setup.deferred = false → exec .stallTimerExpiry s = .next (leaves stopped)) ∧
        (s.dev.setup.deferred = true → exec .stallTimerExpiry s = .next (leaves (
          Dev.placeBurst { op := .setup, addr := s.dev.base, kind := .read 8 }
            { stopped with setup := { stopped.setup with
              part := .loading true, deferred := false, loadWords := [] } })))) ∧
      (s.dev.pocket.running = false → exec .stallTimerExpiry s = .next (leaves
        { s.dev with pocket := { s.dev.pocket with stall := none } }))) ∧
    (s.dev.setup.part ≠ .ready ∨ s.dev.pocket.stall = none →
      exec .stallTimerExpiry s = .next (leaves s.dev)) ∧
    (∀ n, s.dev.pocket.stop = .running n → s.dev.setup.part = .ready → s.dev.pocket.running = false →
      exec .stopTimerExpiry s = .next (leaves (Dev.markSuspects
        { s.dev with pocket := { s.dev.pocket with stop := .expired } }))) ∧
    (s.dev.setup.part ≠ .ready ∨ s.dev.pocket.running = true ∨ (∀ n, s.dev.pocket.stop ≠ .running n) →
      exec .stopTimerExpiry s = .next (leaves s.dev)) ∧
    (∀ n, s.dev.weigh.silence = .running n → exec .scaleSilenceExpiry s = .next (leaves (Dev.raise .scaleFault
      { s.dev with weigh := { s.dev.weigh with silence := .expired } }))) ∧
    ((∀ n, s.dev.weigh.silence ≠ .running n) → exec .scaleSilenceExpiry s = .next (leaves s.dev))

/-- AGE_TIMER_EXPIRY (R173): a running age timer closes the buffer with reason AGE, without the result of a write not
yet answered: at once when no burst of the chain is under way; a result burst still waiting is withdrawn first; with
one on the port the timer goes idle and the close follows its answer (log 25, with ResultChainIsFollowed). Reporting is
shown RUNNING meanwhile (log 24), and an expiry of a timer that does not run changes nothing (log 3): the model's choices.
REREAD_TIMER_EXPIRY (R172): with a result queued and no burst of the chain under way, what reporting waits on is
read again; with none queued the timer goes idle. -/
def Obligations.ReportTimersExpire : Prop :=
  ∀ s : State,
    let leaves (d : Dev) : State := { s with dev := Dev.settle d }
    let closed (b : Buffer) (d : Dev) : Dev := Dev.placeBurst
      { op := .report, addr := b.desc + 12,
        kind := .write [BitVec.ofNat 32 (3 * 16 + 65536 * (b.count % 4096))] }
      { d with report := { d.report with
        reporting := .running { b with age := none }, act := some (.closing b.desc .follow) } }
    let withdrawn (d : Dev) : Dev := { d with path := { d.path with
      bursts := d.path.bursts.filter fun x => decide (x.op ≠ .report) } }
    (∀ b n, s.dev.report.reporting = .running b → b.age = some n →
      (s.dev.report.act = none → exec .ageTimerExpiry s = .next (leaves (closed b s.dev))) ∧
      (s.dev.report.act = some .writing →
        ((∃ x ∈ s.dev.path.bursts, x.op = .report) →
          exec .ageTimerExpiry s = .next (leaves (closed b (withdrawn s.dev)))) ∧
        ((∀ x ∈ s.dev.path.bursts, x.op ≠ .report) → exec .ageTimerExpiry s = .next (leaves
          { s.dev with report := { s.dev.report with
            reporting := .running { b with age := none }, act := some .lapsing } })))) ∧
    ((∀ b, s.dev.report.reporting = .running b → b.age = none) →
      exec .ageTimerExpiry s = .next (leaves s.dev)) ∧
    (∀ n, s.dev.report.reread = some n →
      (s.dev.report.queue = [] → exec .rereadTimerExpiry s = .next (leaves
        { s.dev with report := { s.dev.report with reread := none } })) ∧
      (s.dev.report.queue ≠ [] → s.dev.report.act = none →
        (∀ x, s.dev.report.reporting = .waiting (.descriptor x) → exec .rereadTimerExpiry s = .next (leaves (
          Dev.placeBurst { op := .report, addr := x, kind := .read 4 } { s.dev with report := { s.dev.report with
            act := some (.opening x), reread := none } }))) ∧
        (∀ x, s.dev.report.reporting = .waiting (.nextField x) → exec .rereadTimerExpiry s = .next (leaves (
          Dev.placeBurst { op := .report, addr := x + 8, kind := .read 1 }
            { s.dev with report := { s.dev.report with act := some (.reading x), reread := none } }))))) ∧
    (s.dev.report.reread = none → exec .rereadTimerExpiry s = .next (leaves s.dev))

/-! ### The part's own bursts -/

/-- The result chain (R172, R173, R174). RESULT_WRITE places the head result's burst at the buffer address plus 32
times the count; answered OKAY, the result leaves the queue, the count rises, the first starts the age timer, and a
full buffer is closed FULL. A result write that the age timer's expiry came before closes the buffer AGE at its answer:
the result stays in the queue and the count stands, so that it goes into the next buffer (log 25). DESCRIPTOR_OPEN: owner HOST leaves reporting WAITING on the descriptor, a sound PART
descriptor makes it RUNNING, any other FAULTED. CLOSE_WRITE_DONE reads the next field, or opens a restart's
descriptor. NEXT_FIELD_READ: 0 waits, an address is opened, a bad one is FAULTED. A FAULT raises REPORT_FAULT with
the address those rules give. That the re-read timer starts from 0 after a read that leaves reporting WAITING with a
result queued is log 23, the reporting state shown while a close or an opening is under way is log 24, and that the
beginning of a result write is a command of its own is log 31: the model's choices. A result's 8 words are those of
12.8: what is absent is 0, with its presence indication clear (R175). -/
def Obligations.ResultChainIsFollowed : Prop :=
  (∀ r : Result,
    let b (x : Bool) (i : Nat) : Nat := if x then 2 ^ i else 0
    let w (n : Nat) : Word := BitVec.ofNat 32 n
    let ident : Nat := match r.ident with
      | .pocket .unchecked => 0 | .pocket .confirmed => 1 | .pocket .noRead => 2 | .pocket .missed => 3
      | .pocket .conflict => 4 | .pocket .lotMismatch => 5 | .pocket .untracked => 6 | .lost => 7 | .discarded => 8
    let record : Nat := match r.record with
      | none => 0
      | some f => f.tag.toNat + 4096 * f.valve.val + 262144 * f.recipe.val + 16777216
    let gate : Nat := match r.gate with
      | none => 0 | some .ungated => 2 ^ 25 | some (.gated reject n) => 2 ^ 26 + b reject 27 + 2 ^ 28 * (n % 16)
    let lot : Nat := match r.lot with | none => 0 | some l => l.toNat + 2 ^ 29
    let verdict : Nat := match r.verdict with | none => 0 | some false => 2 ^ 27 | some true => 2 ^ 28
    let dose : Nat := match r.record with | none => 0 | some f => f.dose % 1048576
    r.words =
      [r.seq, w (record + 1048576 * ident + gate), (match r.pocket with | none => 0 | some p => p),
       w (lot + 65536 * r.reasons.toNat + verdict + b r.pocket.isSome 30 + b r.weighing.isSome 31),
       (match r.weighing with | none => 0 | some x => BitVec.ofInt 32 x.gross),
       (match r.weighing with | none => 0 | some x => BitVec.ofInt 32 x.net),
       w (dose + match r.weighing with | none => 0 | some x => 1048576 * x.flags.toNat),
       match r.record with | none => 0 | some f => BitVec.ofInt 32 f.trim]) ∧
  ∀ (s : State) (ok : Bool),
    let leaves (s : State) (d : Dev) : State := { s with dev := Dev.settle d }
    let act (x : Option ReportAct) (d : Dev) : Dev := { d with report := { d.report with act := x } }
    let faulted (x : Nat) (d : Dev) : Dev := Dev.raiseAt .reportFault x
      { d with report := { d.report with reporting := .faulted, act := none, reread := none } }
    let opened (x : Nat) (d : Dev) : Dev := Dev.placeBurst { op := .report, addr := x, kind := .read 4 }
      { d with report := { d.report with
        reporting := .waiting (.descriptor x), act := some (.opening x), reread := none } }
    let waits (w : WaitOn) (d : Dev) : Dev := { d with report := { d.report with
      reporting := .waiting w, act := none
      reread := if d.report.queue = [] then d.report.reread else some 0 } }
    (∀ b r rest, s.dev.report.act = none → s.dev.report.reporting = .running b →
      s.dev.report.queue = r :: rest → exec .resultWrite s = .next (leaves s (
        Dev.placeBurst { op := .report, addr := b.addr + 32 * b.count, kind := .write r.words }
          (act (some .writing) s.dev)))) ∧
    (∀ b x ws, s.Answering .report x (.write ws) → s.dev.report.act = some .writing →
      s.dev.report.reporting = .running b →
      let e := s.burstEnds x (.write ws) ok
      let b' := { b with count := b.count + 1, age := if b.count = 0 then some 0 else b.age }
      let taken : Dev := { e.dev with report := { e.dev.report with
        act := none, queue := e.dev.report.queue.drop 1, reporting := .running b' } }
      (ok = true → b.len > 32 * (b.count + 1) → exec (.resultWriteDone ok) s = .next (leaves e taken)) ∧
      (ok = true → b.len ≤ 32 * (b.count + 1) → exec (.resultWriteDone ok) s = .next (leaves e (
        Dev.placeBurst { op := .report, addr := b.desc + 12,
                         kind := .write [BitVec.ofNat 32 (1 * 16 + 65536 * ((b.count + 1) % 4096))] }
          { taken with report := { taken.report with
            reporting := .running { b' with age := none }, act := some (.closing b.desc .follow) } }))) ∧
      (ok = false → exec (.resultWriteDone ok) s = .next (leaves e (faulted (b.addr + 32 * b.count) e.dev)))) ∧
    (∀ b x ws, s.Answering .report x (.write ws) → s.dev.report.act = some .lapsing →
      s.dev.report.reporting = .running b →
      let e := s.burstEnds x (.write ws) ok
      exec (.resultWriteDone ok) s = .next (leaves e (
        if ok = false then faulted (b.addr + 32 * b.count) e.dev
        else Dev.placeBurst { op := .report, addr := b.desc + 12,
                              kind := .write [BitVec.ofNat 32 (3 * 16 + 65536 * (b.count % 4096))] }
          { e.dev with report := { e.dev.report with
            reporting := .running { b with age := none }, act := some (.closing b.desc .follow) } }))) ∧
    (∀ x, s.Answering .report x (.read 4) → s.dev.report.act = some (.opening x) →
      let e := s.burstEnds x (.read 4) ok
      let w (i : Nat) : Nat := (Memory.readWord s.mem (x + 4 * i)).toNat
      let sound : Prop := w 0 % 4 = 0 ∧ w 1 % 32 = 0 ∧ 32 ≤ w 1 ∧ w 1 ≤ 65536 ∧ w 0 + w 1 ≤ s.dev.size
      (ok = false → exec (.descriptorOpen ok) s = .next (leaves e (faulted x e.dev))) ∧
      (ok = true → w 3 % 2 = 0 → exec (.descriptorOpen ok) s = .next (leaves e (waits (.descriptor x) e.dev))) ∧
      (ok = true → w 3 % 2 = 1 → sound → exec (.descriptorOpen ok) s = .next (leaves e
        { e.dev with report := { e.dev.report with
          act := none
          reporting := .running { desc := x, addr := w 0, len := w 1, next := w 2, count := 0, age := none } } })) ∧
      (ok = true → w 3 % 2 = 1 → ¬sound → exec (.descriptorOpen ok) s = .next (leaves e (faulted x e.dev)))) ∧
    (∀ x desc after ws, s.Answering .report x (.write ws) → s.dev.report.act = some (.closing desc after) →
      let e := s.burstEnds x (.write ws) ok
      let d := if ok then e.dev else faulted (desc + 12) e.dev
      (∀ y, after = .restart y → exec (.closeWriteDone ok) s = .next (leaves e (opened y d))) ∧
      (after = .follow → exec (.closeWriteDone ok) s = .next (leaves e (if ok then
        Dev.placeBurst { op := .report, addr := desc + 8, kind := .read 1 } { d with report := { d.report with
          reporting := .waiting (.nextField desc), act := some (.reading desc), reread := none } }
        else d)))) ∧
    (∀ x desc, s.Answering .report x (.read 1) → s.dev.report.act = some (.reading desc) →
      let e := s.burstEnds x (.read 1) ok
      let n := (Memory.readWord s.mem x).toNat
      exec (.nextFieldRead ok) s = .next (leaves e (
        if ok = false then faulted (desc + 8) e.dev
        else if n = 0 then waits (.nextField desc) e.dev
        else if n % 4 = 0 ∧ n < s.dev.size then opened n e.dev
        else faulted n e.dev)))

/-! ### Loads and orders -/

/-- LOAD_COMPLETION (R166). A FAULT ends the load with READ_FAULT and the field of the burst's first word; a good
answer short of 64 words places the next burst; at 64 words the setup is validated (R167), and a failure or a success
ends the load. A failed load goes back to the state it began from and raises LOAD_ERROR. A successful one puts the
setup in effect: a changed geometry discards the track, clears the ring and holds no position; the line is STOPPED
with its stop timer started, the windows emptied, capture pending, the span the setup's (R56, R62, R77); LOAD_DONE is
raised; a recovery load with the geometry kept marks suspects (R154); reporting that waits on nothing opens the first
descriptor (R174). That these come in the order discard, units, setup, LOAD_DONE, marking, first descriptor is log 43,
and that reporting is shown WAITING on the descriptor during that opening is log 24: the model's choices. The setup's
fields are the words 0 to 30 of 12.6, the attention enable set, the lot check and the bare-pocket mask by their bits
alone (R175). -/
def Obligations.LoadCompletionEndsTheLoad : Prop :=
  (∀ ws : List Word,
    let n (i : Nat) : Nat := (ws.getD i 0).toNat
    setupOfWords ws =
      { sequencer := n 0, scale := n 1, reader := n 2, motion := n 3, gate := n 4, valves := n 5, pitch := n 6,
        dRead := n 7, dGate := n 8, gOpen := n 9, gClose := n 10, wOpen := n 11, wClose := n 12, gapMin := n 13,
        weighMin := n 14, presence := n 15, maxGross := n 16, zeroBand := n 17, zeroShift := n 18, staleLimit := n 19,
        spanMul := n 20, spanShift := n 21, stallMs := n 22, stopMs := n 23, silentMs := n 24, readerSilent := n 25,
        ageMs := n 26, enable := (ws.getD 27 0).setWidth 21, lotCheck := (ws.getD 28 0).getLsbD 0,
        bareMask := (ws.getD 29 0).setWidth 11, firstDesc := n 30 }) ∧
  ∀ (s : State) (ok fromReady : Bool) (x : Nat), s.Answering .setup x (.read 8) →
    s.dev.setup.part = .loading fromReady →
    let e := s.burstEnds x (.read 8) ok
    let leaves (d : Dev) : State := { e with dev := Dev.settle d }
    let got := s.dev.setup.loadWords ++ Memory.readWords s.mem x 8
    let first := s.dev.setup.loadWords.length
    let failed (err : LoadError) : Dev := Dev.raise .loadError { e.dev with setup := { e.dev.setup with
      part := if fromReady then .ready else .unloaded, loadError := err, loadWords := [] } }
    (ok = false → exec (.loadCompletion ok) s = .next (leaves
      (failed { code := .readFault, field := if first ≤ 30 then first else 255 }))) ∧
    (ok = true → got.length < 64 → exec (.loadCompletion ok) s = .next (leaves (
      Dev.placeBurst { op := .setup, addr := s.dev.base + 4 * got.length, kind := .read 8 }
        { e.dev with setup := { e.dev.setup with loadWords := got } }))) ∧
    (ok = true → 64 ≤ got.length → ∀ err, setupCheck s.dev.size (setupOfWords got) = some err →
      exec (.loadCompletion ok) s = .next (leaves (failed err))) ∧
    (ok = true → 64 ≤ got.length → setupCheck s.dev.size (setupOfWords got) = none →
      let u := setupOfWords got
      let kept : Bool := match s.dev.setup.setup with
        | none => false
        | some v => decide (v.pitch = u.pitch ∧ v.dRead = u.dRead ∧ v.dGate = u.dGate ∧ v.gOpen = u.gOpen ∧
            v.gClose = u.gClose ∧ v.wOpen = u.wOpen ∧ v.wClose = u.wClose)
      let cleared : Dev := Dev.clearRing e.dev.discardTrack
      let d : Dev := if kept then e.dev else { cleared with pocket := { cleared.pocket with pos := none } }
      let loaded : Dev := Dev.raise .loadDone { d with
        setup := { d.setup with part := .ready, setup := some u, loadError := { code := .none, field := 255 },
                                retained := false, loadWords := [] }
        pocket := { d.pocket with running := false, reversal := false, stall := none, stop := .running 0 }
        weigh := { d.weigh with
          gapWin := .notOpened, weighWin := .notOpened, gapAcc := .empty, weighAcc := .empty, closed := none,
          expected := none, silence := .idle, capture := true, spanMul := u.spanMul, spanShift := u.spanShift }
        code := { d.code with missRun := 0 } }
      let marked := if s.dev.setup.retained = true ∧ kept = true then loaded.markSuspects else loaded
      exec (.loadCompletion ok) s = .next (leaves (
        if marked.report.reporting = .waiting .nothing then
          Dev.placeBurst { op := .report, addr := u.firstDesc, kind := .read 4 }
            { marked with report := { marked.report with
              reporting := .waiting (.descriptor u.firstDesc), act := some (.opening u.firstDesc),
              reread := none } }
        else marked)))

/-- A setup is valid exactly when every field is in its range and keeps its relations (R167). -/
def Obligations.SetupIsValidWithinItsRanges : Prop :=
  ∀ (size : Nat) (u : Setup), setupCheck size u = none ↔
    (u.sequencer ≤ 15 ∧ u.scale ≤ 15 ∧ u.reader ≤ 15 ∧ u.motion ≤ 15 ∧ u.gate ≤ 15) ∧
    (1 ≤ u.valves ∧ u.valves ≤ 64) ∧ (16 ≤ u.pitch ∧ u.pitch ≤ 4096) ∧ (1 ≤ u.dRead ∧ u.dRead ≤ 31) ∧
    (2 ≤ u.dGate ∧ u.dGate ≤ 63 ∧ u.dRead < u.dGate) ∧
    (u.gOpen ≤ 4096 ∧ u.gClose ≤ 4096 ∧ u.wOpen ≤ 4096 ∧ u.wClose ≤ 4096) ∧
    (u.gOpen < u.gClose ∧ u.gClose ≤ u.wOpen ∧ u.wOpen < u.wClose ∧ u.wClose ≤ u.pitch) ∧
    (1 ≤ u.gapMin ∧ u.gapMin ≤ 255) ∧ (1 ≤ u.weighMin ∧ u.weighMin ≤ 255) ∧
    (1 ≤ u.presence ∧ u.presence ≤ 1000000) ∧
    (2 ≤ u.maxGross ∧ u.maxGross ≤ 2147483647 ∧ u.presence < u.maxGross) ∧ u.zeroBand ≤ 8388607 ∧
    u.zeroShift ≤ 8 ∧ (1 ≤ u.staleLimit ∧ u.staleLimit ≤ 1000) ∧ (1 ≤ u.spanMul ∧ u.spanMul ≤ 65535) ∧
    u.spanShift ≤ 31 ∧ (10 ≤ u.stallMs ∧ u.stallMs ≤ 10000) ∧ (1000 ≤ u.stopMs ∧ u.stopMs ≤ 600000) ∧
    (1 ≤ u.silentMs ∧ u.silentMs ≤ 1000) ∧ (1 ≤ u.readerSilent ∧ u.readerSilent ≤ 63) ∧
    (1 ≤ u.ageMs ∧ u.ageMs ≤ 10000) ∧ (u.firstDesc % 4 = 0 ∧ u.firstDesc < size)

/-- ORDER_A_FETCH_DONE and ORDER_B_FETCH_DONE (R132, R133, R139). A FAULT ends the fetch with ORDER_ERROR and the
burst's first address; an entry count outside 1 to 8 refuses the order BAD_HEADER; a fetch short of its words goes on.
A fetched changeover order is decided at once but in the middle of a switching fill, which the decision comes before
or after (R142): there it waits until that fill is formed or given up (log 44). It is refused BAD_HEADER for a can
count of 0 before its last entry, and refused BUSY while two orders are held or while the running one has a later entry
still WAITING or LOADING and the replace flag is clear. With no order held it is accepted in place 0, with every entry
WAITING. Over a running order without such a later entry it is accepted in the free place and runs; the order that was
running becomes the draining one, or is released if it is complete. With such a later entry and the replace flag set,
that entry and every later one not yet STARTED is written CANCELLED, its recipe load is stopped or its PENDING slot goes
FREE with the flag of R32 cleared, and the order is accepted in the same way: the words of the cancelled entries go
first, then the new order's status word 0 and each entry's WAITING and 0, then the replaced order's final word if nothing
of it is left, with ORDER_A_DONE if none of its entries is ERROR and its notify flag is set; that order of the words is
the model's choice (log 51). A fetched service order runs with every
entry WAITING. How the words after the header are divided into bursts is the model's reading (log 33); that order words
go one at a time, each entry's status and then its fills made, is its choice (log 16), and so is that the accepted order
takes its place before a complete one is released (log 40). -/
def Obligations.OrderFetchesEnd : Prop :=
  ∀ (s : State) (ok : Bool) (f : Fetch) (x n : Nat),
    let e := s.burstEnds x (.read n) ok
    let got := f.got ++ Memory.readWords s.mem x n
    let count := (got.getD 0 0).toNat % 16
    let whole := 2 + 4 * count
    let f' : Fetch := { f with got := got }
    let word (addr value : Nat) (d : Dev) : Dev := d.pushOrderWrite addr (BitVec.ofNat 32 value)
    let refused (code : Nat) (d : Dev) : Dev := Dev.raiseAt .orderError f.addr (word (f.addr + 4) (2 + 256 * code) d)
    let next (op : InternalOp) (d : Dev) : Dev := Dev.placeBurst
      { op := op, addr := f.addr + 4 * got.length, kind := .read (min 8 (whole - got.length)) } d
    (s.Answering .fetchA x (.read n) → s.dev.order.fetchA = some f →
      let ended : Dev := { e.dev with order := { e.dev.order with fetchA := none } }
      let leaves (d : Dev) := exec (.orderAFetchDone ok) s = .next { e with dev := Dev.settle d }
      let entries : List LotEntry := (List.range count).map fun i =>
        { context := got.getD (2 + 4 * i) 0, canCount := (got.getD (3 + 4 * i) 0).toNat
          status := .waiting, made := 0 }
      let open' : Prop := ∃ i, i + 1 < count ∧ (got.getD (3 + 4 * i) 0).toNat = 0
      (ok = false → leaves (ended.raiseAt .orderError x)) ∧
      (ok = true → count < 1 ∨ 8 < count → leaves (refused 2 ended)) ∧
      (ok = true → 1 ≤ count → count ≤ 8 → got.length < whole →
        leaves (next .fetchA { e.dev with order := { e.dev.order with fetchA := some f' } })) ∧
      (ok = true → 1 ≤ count → count ≤ 8 → whole ≤ got.length →
        (s.dev.midSwitch = true → leaves { e.dev with order := { e.dev.order with fetchA := some f' } }) ∧
        (s.dev.midSwitch = false →
          (open' → leaves (refused 2 ended)) ∧
          (¬open' →
            let o' : LotOrder := { addr := f.addr, notify := (got.getD 0 0).getLsbD 8, entries := entries,
                                   closed := 0, error := none }
            let placed (p : Fin 2) (d : Dev) : Dev :=
              let t := (List.range count).foldl
                (fun d i => word (f.addr + 20 + 16 * i) 0 (word (f.addr + 16 + 16 * i) 1 d))
                (word (f.addr + 4) 0 (d.setPlace p (some o')))
              { t with order := { t.order with running := some p } }
            (∀ p q, s.dev.order.running = some p → s.dev.order.draining = some q → leaves (refused 1 ended)) ∧
            (s.dev.order.running = none → s.dev.place 0 = none → leaves (placed 0 ended)) ∧
            ∀ p o q, s.dev.order.running = some p → s.dev.order.draining = none → s.dev.place p = some o →
              s.dev.place q = none →
              let from' : Nat := match s.dev.order.cur with
                | none => 0
                | some c => match c.ref with
                  | .detached => 0
                  | .entry u i => if u = p then i + 1 else 0
              let unstarted (y : LotEntry) : Prop := y.status = .waiting ∨ y.status = .loading
              let later : Prop := ∃ i y, from' ≤ i ∧ o.entries[i]? = some y ∧ unstarted y
              (later → (got.getD 0 0).getLsbD 9 = false → leaves (refused 1 ended)) ∧
              (¬later →
                leaves (Dev.completeOrder p (let t := placed q ended
                  { t with order := { t.order with draining := some p } }))) ∧
              (later → (got.getD 0 0).getLsbD 9 = true →
                let es : List LotEntry := o.entries.zipIdx.map fun y =>
                  if from' ≤ y.2 ∧ (y.1.status = .waiting ∨ y.1.status = .loading) then
                    { y.1 with status := .cancelled } else y.1
                let finished (y : LotEntry) : Prop := y.status = .closed ∨ y.status = .cancelled ∨ y.status = .error
                let ours (k : Fin 4) : Prop := ∃ i, (s.dev.slot k).ref = .entry p i
                ∃ t, leaves t ∧ t.place q = some o' ∧ t.order.running = some q ∧ t.order.fetchA = none ∧
                  ((∃ y ∈ es, ¬finished y) → t.place p = some { o with entries := es } ∧ t.order.draining = some p) ∧
                  ((∀ y ∈ es, finished y) → t.place p = none ∧ t.order.draining = none) ∧
                  (∀ k : Fin 4, ours k →
                    ((s.dev.slot k).st = .loading → t.slot k = RecipeSlot.empty ∧ t.order.loader = none ∧
                      ∀ b ∈ t.path.bursts, b.op ≠ .recipe) ∧
                    ((s.dev.slot k).st = .pending → t.slot k = RecipeSlot.empty ∧ t.fill.switchDue = false)) ∧
                  (∀ k : Fin 4, ¬ours k ∨ ((s.dev.slot k).st ≠ .loading ∧ (s.dev.slot k).st ≠ .pending) →
                    t.slot k = s.dev.slot k) ∧
                  ((∀ k : Fin 4, ours k → (s.dev.slot k).st ≠ .pending) →
                    t.fill.switchDue = s.dev.fill.switchDue) ∧
                  (let cancelled : List (Nat × Word) := o.entries.zipIdx.flatMap fun y =>
                      if from' ≤ y.2 ∧ (y.1.status = .waiting ∨ y.1.status = .loading) then
                        [(o.addr + 16 + 16 * y.2, 6), (o.addr + 20 + 16 * y.2, BitVec.ofNat 32 y.1.made)] else []
                    let accepted : List (Nat × Word) := (f.addr + 4, 0) ::
                      (List.range count).flatMap fun i => [(f.addr + 16 + 16 * i, 1), (f.addr + 20 + 16 * i, 0)]
                    let bad : Nat := match o.error with | none => 0 | some c => 2 + 256 * c.code
                    let final : List (Nat × Word) :=
                      if ∃ y ∈ es, ¬finished y then []
                      else if ∃ y ∈ es, y.status = .error then
                        [(o.addr + 4, BitVec.ofNat 32 (bad + 65536 * (o.closed % 16)))]
                      else [(o.addr + 4, BitVec.ofNat 32 (1 + bad + 65536 * (o.closed % 16)))]
                    t.order.writes = s.dev.order.writes ++ cancelled ++ accepted ++ final) ∧
                  ((∀ y ∈ es, finished y) → (∀ y ∈ es, y.status ≠ .error) → o.notify = true →
                    s.dev.setup.part ≠ .unplaced → t.report.pending.getLsbD 2 = true) ∧
                  t.order.cur = s.dev.order.cur ∧ t.track = s.dev.track ∧ t.valve = s.dev.valve))))) ∧
    (∀ d : Dev, d.order.fetchA = some f → 1 ≤ (f.got.getD 0 0).toNat % 16 → (f.got.getD 0 0).toNat % 16 ≤ 8 →
      2 + 4 * ((f.got.getD 0 0).toNat % 16) ≤ f.got.length →
      d.decideHeld = Dev.decideOrder f.addr f.got { d with order := { d.order with fetchA := none } }) ∧
    (s.Answering .fetchB x (.read n) → s.dev.order.fetchB = some f →
      let ended : Dev := { e.dev with order := { e.dev.order with fetchB := none } }
      let leaves (d : Dev) := exec (.orderBFetchDone ok) s = .next { e with dev := Dev.settle d }
      (ok = false → leaves (ended.raiseAt .orderError x)) ∧
      (ok = true → count < 1 ∨ 8 < count → leaves (refused 2 ended)) ∧
      (ok = true → 1 ≤ count → count ≤ 8 → got.length < whole →
        leaves (next .fetchB { e.dev with order := { e.dev.order with fetchB := some f' } })) ∧
      (ok = true → 1 ≤ count → count ≤ 8 → whole ≤ got.length →
        let es : List ServiceEntry := (List.range count).map fun i =>
          { op := got.getD (2 + 4 * i) 0, op1 := got.getD (3 + 4 * i) 0, op2 := got.getD (4 + 4 * i) 0 }
        let svc : ServiceOrder :=
          { addr := f.addr, notify := (got.getD 0 0).getLsbD 8, entries := es, idx := 0, closed := 0, nextValve := 0 }
        let begun : Dev := { ended with order := { ended.order with service := some svc } }
        leaves ((List.range count).foldl (fun d i => word (f.addr + 20 + 16 * i) 1 d) (word (f.addr + 4) 0 begun))))

/-- A record freed (R17, R137, R129, R146): its track slot leaves its recipe slot's members; a DRAINING slot left without
a member goes FREE, and its entry is closed when the record names it. A suspect record lowers the suspect count by 1,
and the track slot joins the free pool, at its head by the model's choice (log 11). Closing an entry of an order still held: its status is
written CLOSED and the order's status word its entries closed; with every entry CLOSED, CANCELLED or ERROR the order
is complete: the status word is written with DONE, and ORDER_A_DONE raised if the notify flag is set, or with ERROR and
its code if an entry is ERROR, and the order is released, a draining one running again if the released one ran (R138).
An order no longer held and a detached reference are written nothing.
ORDER_WORD_WRITE_DONE (R138): the word is written, the next waiting one's burst is placed, and a FAULT raises
ORDER_ERROR with the word's address. That order words go one at a time, first in first out, that an entry's status word
is followed by its fills made, and that an order is released as its final word is composed, are the model's choices
(log 16); that a fill formed in a read under way keeps its slot is log 21, and that a fills-made word is the count
modulo 2^32 is log 38. STATUS_BURST_DONE (R170, R163): after the first burst the second is placed; after
the second the write is over, and requests made meanwhile begin a new one; a FAULT raises the path fault count. -/
def Obligations.PartsOwnWritesGoOn : Prop :=
  (∀ (d : Dev) (n : Nat) (lot : LotRef),
    ((∀ k : Fin 4, n ∉ (d.slot k).members) → d.recordLeaves n lot = d) ∧
    ∀ k : Fin 4, n ∈ (d.slot k).members → (∀ u : Fin 4, u < k → n ∉ (d.slot u).members) →
      let left := (d.slot k).members.erase n
      ((d.slot k).st ≠ .draining ∨ left ≠ [] ∨ d.tentative k = true →
        d.recordLeaves n lot = d.setSlot k { d.slot k with members := left }) ∧
      ((d.slot k).st = .draining → left = [] → d.tentative k = false →
        d.recordLeaves n lot = if (d.slot k).ref = lot then Dev.closeEntry lot (d.setSlot k RecipeSlot.empty)
          else d.setSlot k RecipeSlot.empty)) ∧
  (∀ (d : Dev) (r : CanRecord), d.releaseRecord r =
    let t := Dev.recordLeaves r.slot r.lot
      { d with track := { d.track with suspects := d.track.suspects - (if r.suspect then 1 else 0) } }
    { t with track := { free := r.slot :: d.track.free, fill := d.track.fill,
                        suspects := d.track.suspects - (if r.suspect then 1 else 0) } }) ∧
  (∀ d : Dev, d.closeEntry .detached = d ∧
    ∀ (p : Fin 2) (i : Nat), (d.place p = none → d.closeEntry (.entry p i) = d) ∧
      ∀ o y, d.place p = some o → o.entries[i]? = some y →
        let word (addr value : Nat) (d : Dev) : Dev := d.pushOrderWrite addr (BitVec.ofNat 32 value)
        let es := o.entries.set i { y with status := .closed }
        let o' : LotOrder := { o with entries := es, closed := o.closed + 1 }
        let bad : Nat := match o.error with | none => 0 | some c => 2 + 256 * c.code
        let count := 65536 * ((o.closed + 1) % 16)
        let closed := word (o.addr + 4) (bad + count)
          (word (o.addr + 20 + 16 * i) y.made (word (o.addr + 16 + 16 * i) 5 (d.setPlace p (some o'))))
        let released (d : Dev) : Dev :=
          let t := d.setPlace p none
          { t with order := { t.order with
            running := if d.order.running = some p then d.order.draining else d.order.running
            draining := if d.order.running = some p ∨ d.order.draining = some p then none
              else d.order.draining } }
        let finished (x : LotEntry) : Prop := x.status = .closed ∨ x.status = .cancelled ∨ x.status = .error
        ((∃ x ∈ es, ¬finished x) → d.closeEntry (.entry p i) = closed) ∧
        ((∀ x ∈ es, finished x) → (∃ x ∈ es, x.status = .error) →
          d.closeEntry (.entry p i) = released (word (o.addr + 4) (bad + count) closed)) ∧
        ((∀ x ∈ es, finished x) → (∀ x ∈ es, x.status ≠ .error) → d.closeEntry (.entry p i) =
          released (let t := word (o.addr + 4) (1 + bad + count) closed
            if o.notify then t.raise .orderADone else t))) ∧
  ∀ (s : State) (ok : Bool) (x : Nat) (ws : List Word),
    let e := s.burstEnds x (.write ws) ok
    (∀ rest w, s.Answering .orderWord x (.write ws) → s.dev.order.writes = w :: rest →
      let d : Dev := { e.dev with order := { e.dev.order with writes := rest } }
      let d := if ok then d else d.raiseAt .orderError x
      exec (.orderWordWriteDone ok) s = .next { e with dev := Dev.settle (match rest with
        | [] => d
        | (y, v) :: _ => d.placeBurst { op := .orderWord, addr := y, kind := .write [v] }) }) ∧
    (s.Answering .status x (.write ws) →
      let d : Dev := if ok then e.dev else { e.dev with path := { e.dev.path with faults := e.dev.path.faults + 1 } }
      (∀ rest, s.dev.report.status = .first rest → exec (.statusBurstDone ok) s = .next { e with dev := Dev.settle (
        Dev.placeBurst { op := .status, addr := s.dev.base + 0x220, kind := .write rest }
          { d with report := { d.report with status := .second } }) }) ∧
      let finished : Dev := { d with report := { d.report with
        status := .idle, again := false, request := d.report.request || d.report.again } }
      (s.dev.report.status = .second → exec (.statusBurstDone ok) s = .next { e with dev := Dev.settle finished }))

/-- RECIPE_LOAD_START and RECIPE_LOAD_DONE (R131, R138). With the next entry WAITING and a slot FREE, the lowest FREE
slot becomes LOADING for the entry, the entry LOADING, and a good context address is fetched; a bad one fails the
load BAD_ADDRESS. Without a load to begin nothing happens. The next entry (R134) is the first still WAITING or LOADING
of the entries after the current one in its order, and then, when that order is not the running one, of the running
order's; without a current entry in an order, of the running order's. An answer: a FAULT fails the load FETCH_FAULT; a
length other than 13 or 77 fails it BAD_LENGTH; a context short of its length goes on; a failed test (R128) fails it with
the first failing field's word; which of the two dose words fails when the floor is not below the ceiling is a free value,
and the reject limits fail at word 2 (log 13). A valid context makes the slot PENDING with the recipe of its words (12.5),
and the flag of R32 is set when the entry is an order's first, when there is no current entry, or when the current entry
is due. A failed load: the slot FREE, no load under way, ORDER_ERROR with its address, the current entry open-ended; the
entry is written ERROR, the order's status word ERROR with the code, and each later entry not yet STARTED CANCELLED; an
order with nothing left is released with its final word, and the draining one runs again if the released one ran. The
model's choices: the start is a command of its own (log 31) and does nothing where there is no load to begin (log 3);
the words go in that order, each entry's status and then its fills made (log 16, 38). -/
def Obligations.RecipeLoadsRun : Prop :=
  (∀ d : Dev,
    let from' (p : Fin 2) (i : Nat) : List (Fin 2 × Nat) := match d.place p with
      | none => []
      | some o => ((List.range o.entries.length).drop i).map fun j => (p, j)
    let unstarted (x : Fin 2 × Nat) : Prop := ∃ o e, d.place x.1 = some o ∧ o.entries[x.2]? = some e ∧
      (e.status = .waiting ∨ e.status = .loading)
    (d.order.running = none → d.nextEntry = none) ∧
    ∀ p, d.order.running = some p →
      let schedule : List (Fin 2 × Nat) := match d.order.cur with
        | none => from' p 0
        | some c => match c.ref with
          | .detached => from' p 0
          | .entry q i => if q = p then from' p (i + 1) else from' q (i + 1) ++ from' p 0
      (∀ x, d.nextEntry = some x → ∃ n : Nat, schedule[n]? = some x ∧ unstarted x ∧
        ∀ m : Nat, m < n → ∀ y, schedule[m]? = some y → ¬unstarted y) ∧
      (d.nextEntry = none → ∀ x ∈ schedule, ¬unstarted x)) ∧
  (∀ ws : List Word,
    let n (i : Nat) : Nat := (ws.getD i 0).toNat
    let z (i : Nat) : Int := (ws.getD i 0).toInt
    let len : Nat := n 0 % 256
    let list : Bool := (ws.getD 0 0).getLsbD 8
    let counts (x : Nat) : Prop := 1 ≤ x ∧ x ≤ 15
    recipeOfWords ws =
      { lot := (ws.getD 1 0).setWidth 16, keepTrims := (ws.getD 0 0).getLsbD 9, autoSuspend := (ws.getD 0 0).getLsbD 10,
        target := z 2, lowLimit := z 3, highLimit := z 4, outlierBand := n 5, tare := z 6, gain := n 7, trimLimit := n 8,
        watchCount := n 9 % 256, suspendCount := n 9 / 256 % 256, mask := (ws.getD 10 0).setWidth 11,
        doseFloor := n 11, doseCeiling := n 12, nominals := if list then some ((ws.drop 13).take 64) else none } ∧
    ∃ doseWord, (doseWord = 11 ∨ doseWord = 12) ∧ recipeCheck ws =
      if ¬(len = 13 ∧ list = false ∨ len = 77 ∧ list = true) then some (.badLength, 0)
      else if ¬(z 3 < z 2 ∧ z 2 < z 4) then some (.recipeField, 2)
      else if 2147483647 < n 5 then some (.recipeField, 5)
      else if 16 < n 7 then some (.recipeField, 7)
      else if 65535 < n 8 then some (.recipeField, 8)
      else if ¬(counts (n 9 % 256) ∧ counts (n 9 / 256 % 256)) then some (.recipeField, 9)
      else if n 12 ≤ n 11 then some (.recipeField, doseWord)
      else if 1048575 < n 12 then some (.recipeField, 12)
      else none) ∧
  ∀ s : State,
    let leaves (s : State) (d : Dev) : State := { s with dev := Dev.settle d }
    (s.dev.order.loader ≠ none ∨ s.dev.nextEntry = none ∨ s.dev.slotIn .free = none →
      exec .recipeLoadStart s = .next (leaves s s.dev)) ∧
    (∀ p i k o e, s.dev.order.loader = none → s.dev.nextEntry = some (p, i) → s.dev.slotIn .free = some k →
      s.dev.place p = some o → o.entries[i]? = some e → e.status = .waiting →
      let c := e.context.toNat
      let l : Loader := { slot := k, place := p, idx := i, addr := c, got := [] }
      let d := s.dev.setSlot k { st := .loading, recipe := none, ref := .entry p i, members := [] }
      let d := d.setPlace p (some { o with entries := o.entries.set i { e with status := .loading } })
      let d := Dev.pushOrderWrite (o.addr + 20 + 16 * i) (BitVec.ofNat 32 e.made)
        (d.pushOrderWrite (o.addr + 16 + 16 * i) 2)
      (c % 4 = 0 → c < s.dev.size → exec .recipeLoadStart s = .next (leaves s (
        Dev.placeBurst { op := .recipe, addr := c, kind := .read 1 }
          { d with order := { d.order with loader := some l } }))) ∧
      (c % 4 ≠ 0 ∨ s.dev.size ≤ c → exec .recipeLoadStart s = .next (leaves s (d.loadFails l .badAddress c)))) ∧
    (∀ (ok : Bool) (x n : Nat) (l : Loader), s.Answering .recipe x (.read n) → s.dev.order.loader = some l →
      let e := s.burstEnds x (.read n) ok
      let got := l.got ++ Memory.readWords s.mem x n
      let len := (got.getD 0 0).toNat % 256
      let l' : Loader := { l with got := got }
      let run := exec (.recipeLoadDone ok) s
      (ok = false → run = .next (leaves e (e.dev.loadFails l .fetchFault x))) ∧
      (ok = true → len ≠ 13 → len ≠ 77 → run = .next (leaves e (e.dev.loadFails l' .badLength l.addr))) ∧
      (ok = true → len = 13 ∨ len = 77 → got.length < len → run = .next (leaves e (
        Dev.placeBurst { op := .recipe, addr := l.addr + 4 * got.length, kind := .read (min 8 (len - got.length)) }
          { e.dev with order := { e.dev.order with loader := some l' } }))) ∧
      (ok = true → len = 13 ∨ len = 77 → len ≤ got.length →
        (∀ code i, recipeCheck got = some (code, i) →
          run = .next (leaves e (e.dev.loadFails l' code (l.addr + 4 * i)))) ∧
        (recipeCheck got = none →
          let d := e.dev.setSlot l.slot { e.dev.slot l.slot with st := .pending, recipe := some (recipeOfWords got) }
          let due : Bool := match d.order.cur with
            | none => true
            | some c => decide (l.idx = 0 ∨ c.canCount ≠ 0 ∧ c.canCount ≤ c.made)
          run = .next (leaves e { d with
            order := { d.order with loader := none }
            fill := { d.fill with switchDue := d.fill.switchDue || due } })))) ∧
    (∀ (d : Dev) (l : Loader) (code : OrderCode) (x : Nat), d.setup.part ≠ .unplaced →
      let t := d.loadFails l code x
      t.slot l.slot = RecipeSlot.empty ∧ (∀ k, k ≠ l.slot → t.slot k = d.slot k) ∧ t.order.loader = none ∧
      (∀ c, t.order.cur = some c → c.canCount = 0) ∧ t.report.errAddr = BitVec.ofNat 32 x ∧
      t.report.pending.getLsbD 4 = true ∧ t.fill = d.fill ∧ t.valve = d.valve ∧ t.track = d.track ∧
      t.setup = d.setup ∧
      (∀ p, p ≠ l.place → t.place p = d.place p) ∧
      ∀ o e, d.place l.place = some o → o.entries[l.idx]? = some e →
        let later (y : LotEntry × Nat) : Prop := l.idx < y.2 ∧ (y.1.status = .waiting ∨ y.1.status = .loading)
        let es : List LotEntry := o.entries.zipIdx.map fun y =>
          if y.2 = l.idx then { y.1 with status := .error }
          else if later y then { y.1 with status := .cancelled } else y.1
        let words (y : LotEntry × Nat) (status : Nat) : List (Nat × Word) :=
          [(o.addr + 16 + 16 * y.2, BitVec.ofNat 32 status), (o.addr + 20 + 16 * y.2, BitVec.ofNat 32 y.1.made)]
        let final : Nat × Word := (o.addr + 4, BitVec.ofNat 32 (2 + 256 * code.code + 65536 * (o.closed % 16)))
        let ws := d.order.writes ++ words (e, l.idx) 7 ++ final ::
          o.entries.zipIdx.flatMap fun y => if later y then words y 6 else []
        let finished (y : LotEntry) : Prop := y.status = .closed ∨ y.status = .cancelled ∨ y.status = .error
        ((∃ y ∈ es, ¬finished y) → t.order.writes = ws ∧ t.order.running = d.order.running ∧
          t.order.draining = d.order.draining ∧
          t.place l.place = some { o with entries := es, error := some code }) ∧
        ((∀ y ∈ es, finished y) → t.order.writes = ws ++ [final] ∧ t.place l.place = none ∧
          t.order.running = (if d.order.running = some l.place then d.order.draining else d.order.running) ∧
          t.order.draining = (if d.order.running = some l.place ∨ d.order.draining = some l.place then none
            else d.order.draining)))

/-! ### Judgement, the gate and the track -/

/-- The test of a pocket's record (R4, R6, R7, R99), as judgement, the gate polls, the gate departure and the re-layouts
make it. With no record, or one that passes, nothing changes. A record that fails its check takes the failed mark and
TRACK_CHECK is raised; one already marked is treated as failed and raises it no more. Either way the record stays in
its pocket with its fields, the pocket's check failure is set, and a verdict already formed is formed again with
TRACK_CHECK in its reason set and under the bare-pocket mask; a gate answer handed over stands with its repeat count,
and so does everything else. That each later read of a marked record forms the verdict again, under the mask of the
setup then in effect, is the model's choice (log 46).

Judgement at the reader (R94 to R98). An empty pocket is not judged. Else the record is tested first (R6), the
reason set is formed as the table of R96 gives it under the recipe of R95, and the verdict is REJECT exactly when the
set holds TEST or shares a reason with the reject mask: the record's recipe's while its check has not failed, and the
setup's bare-pocket mask otherwise. Verdict and set are written into the entry; a sound record's facts go to its
valve. That the check failure stays with the pocket when its record moves on is the model's choice (log 27). -/
def Obligations.JudgementFormsTheVerdict : Prop :=
  (∀ (d : Dev) (p : Word),
    let e := d.entry p
    (e.record = none → d.testPocket p = d) ∧
    ∀ r, e.record = some r →
      (r.failed = false → r.checkOk = true → d.testPocket p = d) ∧
      (r.failed = true ∨ r.checkOk = false →
        let again (v : Verdict) : Verdict :=
          let reasons := v.reasons ||| 1024#11
          { reject := reasons.getLsbD 9 || decide (reasons &&& d.su.bareMask ≠ 0), reasons := reasons }
        d.testPocket p = Dev.setEntry (if r.failed then d else d.raise .trackCheck) p
          { e with checkFail := true, record := some { r with failed := true }, verdict := e.verdict.map again })) ∧
  ∀ (d : Dev) (p : Word),
    ((d.entry p).occ = .none → d.judge p = d) ∧
    ((d.entry p).occ ≠ .none →
      let t := d.testPocket p
      let e := t.entry p
      let recipe : Option Recipe := match e.record with
        | some r => some (t.recipeOf r.recipe)
        | none => (t.slotIn .current).map t.recipeOf
      let mask : BitVec 11 := match e.record with
        | some r => if e.checkFail then t.su.bareMask else (t.recipeOf r.recipe).mask
        | none => t.su.bareMask
      ∃ reasons : BitVec 11,
        (reasons.getLsbD 0 = true ↔ ∃ c w, recipe = some c ∧ e.weighing = some w ∧ w.net < c.lowLimit) ∧
        (reasons.getLsbD 1 = true ↔ ∃ c w, recipe = some c ∧ e.weighing = some w ∧ c.highLimit < w.net) ∧
        (reasons.getLsbD 2 = true ↔ (∃ w, e.weighing = some w ∧ w.flags ≠ 0) ∨ e.occ = .unseen) ∧
        (reasons.getLsbD 3 = true ↔ e.ident = .noRead) ∧ (reasons.getLsbD 4 = true ↔ e.ident = .missed) ∧
        (reasons.getLsbD 5 = true ↔ e.ident = .conflict) ∧ (reasons.getLsbD 6 = true ↔ e.ident = .lotMismatch) ∧
        (reasons.getLsbD 7 = true ↔ e.record = none) ∧
        (reasons.getLsbD 8 = true ↔ ∃ r, e.record = some r ∧ r.suspect = true ∧ e.ident ≠ .confirmed) ∧
        (reasons.getLsbD 9 = true ↔ ∃ r, e.record = some r ∧ r.test = true) ∧
        (reasons.getLsbD 10 = true ↔ e.checkFail = true) ∧
        let reject : Bool := reasons.getLsbD 9 || decide (reasons &&& mask ≠ 0)
        let judged := t.setEntry p { e with verdict := some { reject := reject, reasons := reasons } }
        let net : Int := match e.weighing with | some w => w.net | none => 0
        d.judge p = match e.record with
          | none => { judged with draws := judged.draws + 1 }
          | some r =>
            if e.checkFail then { judged with draws := judged.draws + 1 }
            else judged.handOver r.valve
              { ident := e.ident, weighFault := reasons.getLsbD 2, test := reasons.getLsbD 9, net := net,
                deviation := net - (t.recipeOf r.recipe).target, recipe := r.recipe, trim := r.trim,
                epoch := r.epoch, reject := reject })

/-- Gate departure and the report queue (R106, R107, R171). An empty pocket departs with no result. Else its record is
tested (JudgementFormsTheVerdict), REJECT_MISSED is raised for an unpolled REJECT, the result is composed from the entry and the record, the
entry is cleared and the record freed. A result joins the queue's tail while it holds fewer than 16; at 16 it is
dropped, the dropped count rises and RESULTS_DROPPED is raised. -/
def Obligations.GateDepartureComposesTheResult : Prop :=
  (∀ (d : Dev) (p : Word), (d.entry p).occ = .none →
    d.gateDeparts p = d.setEntry p (Entry.fresh (d.entry p).pocket)) ∧
  (∀ (d : Dev) (p : Word), (d.entry p).occ ≠ .none →
    let t := d.testPocket p
    let e := t.entry p
    let missed : Prop := e.gate = none ∧ ∃ v, e.verdict = some v ∧ v.reject = true
    let t' := if missed then t.raise .rejectMissed else t
    let result : Result :=
      { seq := match e.record with | none => 0 | some r => r.seq
        record := e.record.map fun r =>
          { tag := r.tag, valve := r.valve, recipe := r.recipe, dose := r.dose, trim := r.trim }
        ident := .pocket e.ident
        pocket := some e.pocket
        lot := match e.record with | none => e.codeLot | some r => some (t.recipeOf r.recipe).lot
        reasons := match e.verdict with | none => 0 | some v => v.reasons
        verdict := e.verdict.map fun v => v.reject
        gate := some (match e.gate with | none => .ungated | some x => .gated x e.repeats)
        weighing := e.weighing }
    let composed := (t'.compose result).setEntry p (Entry.fresh e.pocket)
    d.gateDeparts p = match e.record with
      | none => composed
      | some r => composed.releaseRecord r) ∧
  ∀ (d : Dev) (r : Result),
    (d.report.queue.length < 16 →
      (d.compose r).report.queue = d.report.queue ++ [r] ∧ (d.compose r).report.dropped = d.report.dropped) ∧
    (16 ≤ d.report.queue.length → d.setup.part ≠ .unplaced →
      (d.compose r).report.queue = d.report.queue ∧ (d.compose r).report.dropped = d.report.dropped + 1 ∧
      (d.compose r).report.pending.getLsbD 8 = true)
end

