-- ==== Sys2Proof/Decode.lean ====
section
/-! DEFINITION. The opcode table gives its rows no bits: no word spells a command. -/

namespace Sys2Proof

/-- The command that an `nbits`-bit word spells by the table's bits: none, since no row gives bits. -/
def decodeTableWord (_nbits _w : Nat) : Option Instr := none

end Sys2Proof
end

