-- ==== Sys2Proof/Laws/State.lean ====
section
/-! SUPPORT. One lemma per field per update of the part, true by rfl, so that no proof unfolds a record
update. -/

namespace Sys2Proof.Machine

@[simp] theorem Dev.setEntry_path (d : Dev) (p : Word) (e : Entry) : (d.setEntry p e).path = d.path := rfl
@[simp] theorem Dev.setEntry_setup (d : Dev) (p : Word) (e : Entry) : (d.setEntry p e).setup = d.setup := rfl
@[simp] theorem Dev.setEntry_report (d : Dev) (p : Word) (e : Entry) : (d.setEntry p e).report = d.report := rfl
@[simp] theorem Dev.setEntry_fill (d : Dev) (p : Word) (e : Entry) : (d.setEntry p e).fill = d.fill := rfl
@[simp] theorem Dev.setEntry_track (d : Dev) (p : Word) (e : Entry) : (d.setEntry p e).track = d.track := rfl
@[simp] theorem Dev.setEntry_weigh (d : Dev) (p : Word) (e : Entry) : (d.setEntry p e).weigh = d.weigh := rfl
@[simp] theorem Dev.setEntry_code (d : Dev) (p : Word) (e : Entry) : (d.setEntry p e).code = d.code := rfl
@[simp] theorem Dev.setEntry_valve (d : Dev) (p : Word) (e : Entry) : (d.setEntry p e).valve = d.valve := rfl
@[simp] theorem Dev.setEntry_order (d : Dev) (p : Word) (e : Entry) : (d.setEntry p e).order = d.order := rfl
@[simp] theorem Dev.setEntry_draws (d : Dev) (p : Word) (e : Entry) : (d.setEntry p e).draws = d.draws := rfl

@[simp] theorem Dev.setPocket_path (d : Dev) (u : PocketUnit) : (d.setPocket u).path = d.path := rfl
@[simp] theorem Dev.setPocket_setup (d : Dev) (u : PocketUnit) : (d.setPocket u).setup = d.setup := rfl
@[simp] theorem Dev.setPocket_report (d : Dev) (u : PocketUnit) : (d.setPocket u).report = d.report := rfl
@[simp] theorem Dev.setPocket_fill (d : Dev) (u : PocketUnit) : (d.setPocket u).fill = d.fill := rfl
@[simp] theorem Dev.setPocket_track (d : Dev) (u : PocketUnit) : (d.setPocket u).track = d.track := rfl
@[simp] theorem Dev.setPocket_weigh (d : Dev) (u : PocketUnit) : (d.setPocket u).weigh = d.weigh := rfl
@[simp] theorem Dev.setPocket_code (d : Dev) (u : PocketUnit) : (d.setPocket u).code = d.code := rfl
@[simp] theorem Dev.setPocket_valve (d : Dev) (u : PocketUnit) : (d.setPocket u).valve = d.valve := rfl
@[simp] theorem Dev.setPocket_order (d : Dev) (u : PocketUnit) : (d.setPocket u).order = d.order := rfl
@[simp] theorem Dev.setPocket_draws (d : Dev) (u : PocketUnit) : (d.setPocket u).draws = d.draws := rfl

@[simp] theorem Dev.startEntry_path (d : Dev) (p : Word) : (d.startEntry p).path = d.path := rfl
@[simp] theorem Dev.startEntry_setup (d : Dev) (p : Word) : (d.startEntry p).setup = d.setup := rfl
@[simp] theorem Dev.startEntry_report (d : Dev) (p : Word) : (d.startEntry p).report = d.report := rfl
@[simp] theorem Dev.startEntry_fill (d : Dev) (p : Word) : (d.startEntry p).fill = d.fill := rfl
@[simp] theorem Dev.startEntry_track (d : Dev) (p : Word) : (d.startEntry p).track = d.track := rfl
@[simp] theorem Dev.startEntry_weigh (d : Dev) (p : Word) : (d.startEntry p).weigh = d.weigh := rfl
@[simp] theorem Dev.startEntry_code (d : Dev) (p : Word) : (d.startEntry p).code = d.code := rfl
@[simp] theorem Dev.startEntry_valve (d : Dev) (p : Word) : (d.startEntry p).valve = d.valve := rfl
@[simp] theorem Dev.startEntry_order (d : Dev) (p : Word) : (d.startEntry p).order = d.order := rfl
@[simp] theorem Dev.startEntry_draws (d : Dev) (p : Word) : (d.startEntry p).draws = d.draws := rfl

@[simp] theorem Dev.setWeigh_path (d : Dev) (w : WeighUnit) : (d.setWeigh w).path = d.path := rfl
@[simp] theorem Dev.setWeigh_setup (d : Dev) (w : WeighUnit) : (d.setWeigh w).setup = d.setup := rfl
@[simp] theorem Dev.setWeigh_report (d : Dev) (w : WeighUnit) : (d.setWeigh w).report = d.report := rfl
@[simp] theorem Dev.setWeigh_fill (d : Dev) (w : WeighUnit) : (d.setWeigh w).fill = d.fill := rfl
@[simp] theorem Dev.setWeigh_track (d : Dev) (w : WeighUnit) : (d.setWeigh w).track = d.track := rfl
@[simp] theorem Dev.setWeigh_pocket (d : Dev) (w : WeighUnit) : (d.setWeigh w).pocket = d.pocket := rfl
@[simp] theorem Dev.setWeigh_code (d : Dev) (w : WeighUnit) : (d.setWeigh w).code = d.code := rfl
@[simp] theorem Dev.setWeigh_valve (d : Dev) (w : WeighUnit) : (d.setWeigh w).valve = d.valve := rfl
@[simp] theorem Dev.setWeigh_order (d : Dev) (w : WeighUnit) : (d.setWeigh w).order = d.order := rfl
@[simp] theorem Dev.setWeigh_draws (d : Dev) (w : WeighUnit) : (d.setWeigh w).draws = d.draws := rfl

@[simp] theorem Dev.setCode_path (d : Dev) (c : CodeUnit) : (d.setCode c).path = d.path := rfl
@[simp] theorem Dev.setCode_setup (d : Dev) (c : CodeUnit) : (d.setCode c).setup = d.setup := rfl
@[simp] theorem Dev.setCode_report (d : Dev) (c : CodeUnit) : (d.setCode c).report = d.report := rfl
@[simp] theorem Dev.setCode_fill (d : Dev) (c : CodeUnit) : (d.setCode c).fill = d.fill := rfl
@[simp] theorem Dev.setCode_track (d : Dev) (c : CodeUnit) : (d.setCode c).track = d.track := rfl
@[simp] theorem Dev.setCode_pocket (d : Dev) (c : CodeUnit) : (d.setCode c).pocket = d.pocket := rfl
@[simp] theorem Dev.setCode_weigh (d : Dev) (c : CodeUnit) : (d.setCode c).weigh = d.weigh := rfl
@[simp] theorem Dev.setCode_valve (d : Dev) (c : CodeUnit) : (d.setCode c).valve = d.valve := rfl
@[simp] theorem Dev.setCode_order (d : Dev) (c : CodeUnit) : (d.setCode c).order = d.order := rfl
@[simp] theorem Dev.setCode_draws (d : Dev) (c : CodeUnit) : (d.setCode c).draws = d.draws := rfl

@[simp] theorem Dev.phantom_path (d : Dev) : d.phantom.path = d.path := rfl
@[simp] theorem Dev.phantom_setup (d : Dev) : d.phantom.setup = d.setup := rfl
@[simp] theorem Dev.phantom_report (d : Dev) : d.phantom.report = d.report := rfl
@[simp] theorem Dev.phantom_fill (d : Dev) : d.phantom.fill = d.fill := rfl
@[simp] theorem Dev.phantom_track (d : Dev) : d.phantom.track = d.track := rfl
@[simp] theorem Dev.phantom_pocket (d : Dev) : d.phantom.pocket = d.pocket := rfl
@[simp] theorem Dev.phantom_weigh (d : Dev) : d.phantom.weigh = d.weigh := rfl
@[simp] theorem Dev.phantom_valve (d : Dev) : d.phantom.valve = d.valve := rfl
@[simp] theorem Dev.phantom_order (d : Dev) : d.phantom.order = d.order := rfl
@[simp] theorem Dev.phantom_draws (d : Dev) : d.phantom.draws = d.draws := rfl

@[simp] theorem Dev.duplicate_path (d : Dev) : d.duplicate.path = d.path := rfl
@[simp] theorem Dev.duplicate_setup (d : Dev) : d.duplicate.setup = d.setup := rfl
@[simp] theorem Dev.duplicate_report (d : Dev) : d.duplicate.report = d.report := rfl
@[simp] theorem Dev.duplicate_fill (d : Dev) : d.duplicate.fill = d.fill := rfl
@[simp] theorem Dev.duplicate_track (d : Dev) : d.duplicate.track = d.track := rfl
@[simp] theorem Dev.duplicate_pocket (d : Dev) : d.duplicate.pocket = d.pocket := rfl
@[simp] theorem Dev.duplicate_weigh (d : Dev) : d.duplicate.weigh = d.weigh := rfl
@[simp] theorem Dev.duplicate_valve (d : Dev) : d.duplicate.valve = d.valve := rfl
@[simp] theorem Dev.duplicate_order (d : Dev) : d.duplicate.order = d.order := rfl
@[simp] theorem Dev.duplicate_draws (d : Dev) : d.duplicate.draws = d.draws := rfl

@[simp] theorem Dev.setValve_path (d : Dev) (v : Fin 64) (r : ValveRec) : (d.setValve v r).path = d.path := rfl
@[simp] theorem Dev.setValve_setup (d : Dev) (v : Fin 64) (r : ValveRec) : (d.setValve v r).setup = d.setup := rfl
@[simp] theorem Dev.setValve_report (d : Dev) (v : Fin 64) (r : ValveRec) : (d.setValve v r).report = d.report := rfl
@[simp] theorem Dev.setValve_fill (d : Dev) (v : Fin 64) (r : ValveRec) : (d.setValve v r).fill = d.fill := rfl
@[simp] theorem Dev.setValve_track (d : Dev) (v : Fin 64) (r : ValveRec) : (d.setValve v r).track = d.track := rfl
@[simp] theorem Dev.setValve_pocket (d : Dev) (v : Fin 64) (r : ValveRec) : (d.setValve v r).pocket = d.pocket := rfl
@[simp] theorem Dev.setValve_weigh (d : Dev) (v : Fin 64) (r : ValveRec) : (d.setValve v r).weigh = d.weigh := rfl
@[simp] theorem Dev.setValve_code (d : Dev) (v : Fin 64) (r : ValveRec) : (d.setValve v r).code = d.code := rfl
@[simp] theorem Dev.setValve_order (d : Dev) (v : Fin 64) (r : ValveRec) : (d.setValve v r).order = d.order := rfl
@[simp] theorem Dev.setValve_draws (d : Dev) (v : Fin 64) (r : ValveRec) : (d.setValve v r).draws = d.draws := rfl

@[simp] theorem Dev.setSlot_path (d : Dev) (k : Fin 4) (r : RecipeSlot) : (d.setSlot k r).path = d.path := rfl
@[simp] theorem Dev.setSlot_setup (d : Dev) (k : Fin 4) (r : RecipeSlot) : (d.setSlot k r).setup = d.setup := rfl
@[simp] theorem Dev.setSlot_report (d : Dev) (k : Fin 4) (r : RecipeSlot) : (d.setSlot k r).report = d.report := rfl
@[simp] theorem Dev.setSlot_fill (d : Dev) (k : Fin 4) (r : RecipeSlot) : (d.setSlot k r).fill = d.fill := rfl
@[simp] theorem Dev.setSlot_track (d : Dev) (k : Fin 4) (r : RecipeSlot) : (d.setSlot k r).track = d.track := rfl
@[simp] theorem Dev.setSlot_pocket (d : Dev) (k : Fin 4) (r : RecipeSlot) : (d.setSlot k r).pocket = d.pocket := rfl
@[simp] theorem Dev.setSlot_weigh (d : Dev) (k : Fin 4) (r : RecipeSlot) : (d.setSlot k r).weigh = d.weigh := rfl
@[simp] theorem Dev.setSlot_code (d : Dev) (k : Fin 4) (r : RecipeSlot) : (d.setSlot k r).code = d.code := rfl
@[simp] theorem Dev.setSlot_valve (d : Dev) (k : Fin 4) (r : RecipeSlot) : (d.setSlot k r).valve = d.valve := rfl
@[simp] theorem Dev.setSlot_draws (d : Dev) (k : Fin 4) (r : RecipeSlot) : (d.setSlot k r).draws = d.draws := rfl

@[simp] theorem Dev.setPlace_path (d : Dev) (p : Fin 2) (o : Option LotOrder) : (d.setPlace p o).path = d.path := rfl
@[simp] theorem Dev.setPlace_setup (d : Dev) (p : Fin 2) (o : Option LotOrder) : (d.setPlace p o).setup = d.setup := rfl
@[simp] theorem Dev.setPlace_report (d : Dev) (p : Fin 2) (o : Option LotOrder) : (d.setPlace p o).report = d.report := rfl
@[simp] theorem Dev.setPlace_fill (d : Dev) (p : Fin 2) (o : Option LotOrder) : (d.setPlace p o).fill = d.fill := rfl
@[simp] theorem Dev.setPlace_track (d : Dev) (p : Fin 2) (o : Option LotOrder) : (d.setPlace p o).track = d.track := rfl
@[simp] theorem Dev.setPlace_pocket (d : Dev) (p : Fin 2) (o : Option LotOrder) : (d.setPlace p o).pocket = d.pocket := rfl
@[simp] theorem Dev.setPlace_weigh (d : Dev) (p : Fin 2) (o : Option LotOrder) : (d.setPlace p o).weigh = d.weigh := rfl
@[simp] theorem Dev.setPlace_code (d : Dev) (p : Fin 2) (o : Option LotOrder) : (d.setPlace p o).code = d.code := rfl
@[simp] theorem Dev.setPlace_valve (d : Dev) (p : Fin 2) (o : Option LotOrder) : (d.setPlace p o).valve = d.valve := rfl
@[simp] theorem Dev.setPlace_draws (d : Dev) (p : Fin 2) (o : Option LotOrder) : (d.setPlace p o).draws = d.draws := rfl

@[simp] theorem Dev.setService_path (d : Dev) (o : Option ServiceOrder) : (d.setService o).path = d.path := rfl
@[simp] theorem Dev.setService_setup (d : Dev) (o : Option ServiceOrder) : (d.setService o).setup = d.setup := rfl
@[simp] theorem Dev.setService_report (d : Dev) (o : Option ServiceOrder) : (d.setService o).report = d.report := rfl
@[simp] theorem Dev.setService_fill (d : Dev) (o : Option ServiceOrder) : (d.setService o).fill = d.fill := rfl
@[simp] theorem Dev.setService_track (d : Dev) (o : Option ServiceOrder) : (d.setService o).track = d.track := rfl
@[simp] theorem Dev.setService_pocket (d : Dev) (o : Option ServiceOrder) : (d.setService o).pocket = d.pocket := rfl
@[simp] theorem Dev.setService_weigh (d : Dev) (o : Option ServiceOrder) : (d.setService o).weigh = d.weigh := rfl
@[simp] theorem Dev.setService_code (d : Dev) (o : Option ServiceOrder) : (d.setService o).code = d.code := rfl
@[simp] theorem Dev.setService_valve (d : Dev) (o : Option ServiceOrder) : (d.setService o).valve = d.valve := rfl
@[simp] theorem Dev.setService_draws (d : Dev) (o : Option ServiceOrder) : (d.setService o).draws = d.draws := rfl

@[simp] theorem Dev.setFillList_path (d : Dev) (l : List CanRecord) : (d.setFillList l).path = d.path := rfl
@[simp] theorem Dev.setFillList_setup (d : Dev) (l : List CanRecord) : (d.setFillList l).setup = d.setup := rfl
@[simp] theorem Dev.setFillList_report (d : Dev) (l : List CanRecord) : (d.setFillList l).report = d.report := rfl
@[simp] theorem Dev.setFillList_fill (d : Dev) (l : List CanRecord) : (d.setFillList l).fill = d.fill := rfl
@[simp] theorem Dev.setFillList_pocket (d : Dev) (l : List CanRecord) : (d.setFillList l).pocket = d.pocket := rfl
@[simp] theorem Dev.setFillList_weigh (d : Dev) (l : List CanRecord) : (d.setFillList l).weigh = d.weigh := rfl
@[simp] theorem Dev.setFillList_code (d : Dev) (l : List CanRecord) : (d.setFillList l).code = d.code := rfl
@[simp] theorem Dev.setFillList_valve (d : Dev) (l : List CanRecord) : (d.setFillList l).valve = d.valve := rfl
@[simp] theorem Dev.setFillList_order (d : Dev) (l : List CanRecord) : (d.setFillList l).order = d.order := rfl
@[simp] theorem Dev.setFillList_draws (d : Dev) (l : List CanRecord) : (d.setFillList l).draws = d.draws := rfl

@[simp] theorem Dev.countSuspect_path (d : Dev) : d.countSuspect.path = d.path := rfl
@[simp] theorem Dev.countSuspect_setup (d : Dev) : d.countSuspect.setup = d.setup := rfl
@[simp] theorem Dev.countSuspect_report (d : Dev) : d.countSuspect.report = d.report := rfl
@[simp] theorem Dev.countSuspect_fill (d : Dev) : d.countSuspect.fill = d.fill := rfl
@[simp] theorem Dev.countSuspect_pocket (d : Dev) : d.countSuspect.pocket = d.pocket := rfl
@[simp] theorem Dev.countSuspect_weigh (d : Dev) : d.countSuspect.weigh = d.weigh := rfl
@[simp] theorem Dev.countSuspect_code (d : Dev) : d.countSuspect.code = d.code := rfl
@[simp] theorem Dev.countSuspect_valve (d : Dev) : d.countSuspect.valve = d.valve := rfl
@[simp] theorem Dev.countSuspect_order (d : Dev) : d.countSuspect.order = d.order := rfl
@[simp] theorem Dev.countSuspect_draws (d : Dev) : d.countSuspect.draws = d.draws := rfl

@[simp] theorem Dev.drawn_path (d : Dev) : d.drawn.path = d.path := rfl
@[simp] theorem Dev.drawn_setup (d : Dev) : d.drawn.setup = d.setup := rfl
@[simp] theorem Dev.drawn_report (d : Dev) : d.drawn.report = d.report := rfl
@[simp] theorem Dev.drawn_fill (d : Dev) : d.drawn.fill = d.fill := rfl
@[simp] theorem Dev.drawn_track (d : Dev) : d.drawn.track = d.track := rfl
@[simp] theorem Dev.drawn_pocket (d : Dev) : d.drawn.pocket = d.pocket := rfl
@[simp] theorem Dev.drawn_weigh (d : Dev) : d.drawn.weigh = d.weigh := rfl
@[simp] theorem Dev.drawn_code (d : Dev) : d.drawn.code = d.code := rfl
@[simp] theorem Dev.drawn_valve (d : Dev) : d.drawn.valve = d.valve := rfl
@[simp] theorem Dev.drawn_order (d : Dev) : d.drawn.order = d.order := rfl

@[simp] theorem Dev.requestStatus_path (d : Dev) : d.requestStatus.path = d.path := rfl
@[simp] theorem Dev.requestStatus_setup (d : Dev) : d.requestStatus.setup = d.setup := rfl
@[simp] theorem Dev.requestStatus_fill (d : Dev) : d.requestStatus.fill = d.fill := rfl
@[simp] theorem Dev.requestStatus_track (d : Dev) : d.requestStatus.track = d.track := rfl
@[simp] theorem Dev.requestStatus_pocket (d : Dev) : d.requestStatus.pocket = d.pocket := rfl
@[simp] theorem Dev.requestStatus_weigh (d : Dev) : d.requestStatus.weigh = d.weigh := rfl
@[simp] theorem Dev.requestStatus_code (d : Dev) : d.requestStatus.code = d.code := rfl
@[simp] theorem Dev.requestStatus_valve (d : Dev) : d.requestStatus.valve = d.valve := rfl
@[simp] theorem Dev.requestStatus_order (d : Dev) : d.requestStatus.order = d.order := rfl
@[simp] theorem Dev.requestStatus_draws (d : Dev) : d.requestStatus.draws = d.draws := rfl

@[simp] theorem Dev.setMask_path (d : Dev) (b : Bool) (w : Word) : (d.setMask b w).path = d.path := rfl
@[simp] theorem Dev.setMask_setup (d : Dev) (b : Bool) (w : Word) : (d.setMask b w).setup = d.setup := rfl
@[simp] theorem Dev.setMask_report (d : Dev) (b : Bool) (w : Word) : (d.setMask b w).report = d.report := rfl
@[simp] theorem Dev.setMask_track (d : Dev) (b : Bool) (w : Word) : (d.setMask b w).track = d.track := rfl
@[simp] theorem Dev.setMask_pocket (d : Dev) (b : Bool) (w : Word) : (d.setMask b w).pocket = d.pocket := rfl
@[simp] theorem Dev.setMask_weigh (d : Dev) (b : Bool) (w : Word) : (d.setMask b w).weigh = d.weigh := rfl
@[simp] theorem Dev.setMask_code (d : Dev) (b : Bool) (w : Word) : (d.setMask b w).code = d.code := rfl
@[simp] theorem Dev.setMask_valve (d : Dev) (b : Bool) (w : Word) : (d.setMask b w).valve = d.valve := rfl
@[simp] theorem Dev.setMask_order (d : Dev) (b : Bool) (w : Word) : (d.setMask b w).order = d.order := rfl
@[simp] theorem Dev.setMask_draws (d : Dev) (b : Bool) (w : Word) : (d.setMask b w).draws = d.draws := rfl

@[simp] theorem Dev.setMode_path (d : Dev) (w : Word) : (d.setMode w).path = d.path := rfl
@[simp] theorem Dev.setMode_report (d : Dev) (w : Word) : (d.setMode w).report = d.report := rfl
@[simp] theorem Dev.setMode_fill (d : Dev) (w : Word) : (d.setMode w).fill = d.fill := rfl
@[simp] theorem Dev.setMode_track (d : Dev) (w : Word) : (d.setMode w).track = d.track := rfl
@[simp] theorem Dev.setMode_pocket (d : Dev) (w : Word) : (d.setMode w).pocket = d.pocket := rfl
@[simp] theorem Dev.setMode_weigh (d : Dev) (w : Word) : (d.setMode w).weigh = d.weigh := rfl
@[simp] theorem Dev.setMode_code (d : Dev) (w : Word) : (d.setMode w).code = d.code := rfl
@[simp] theorem Dev.setMode_valve (d : Dev) (w : Word) : (d.setMode w).valve = d.valve := rfl
@[simp] theorem Dev.setMode_order (d : Dev) (w : Word) : (d.setMode w).order = d.order := rfl
@[simp] theorem Dev.setMode_draws (d : Dev) (w : Word) : (d.setMode w).draws = d.draws := rfl

@[simp] theorem Dev.setQueryRef_path (d : Dev) (w : Word) : (d.setQueryRef w).path = d.path := rfl
@[simp] theorem Dev.setQueryRef_setup (d : Dev) (w : Word) : (d.setQueryRef w).setup = d.setup := rfl
@[simp] theorem Dev.setQueryRef_report (d : Dev) (w : Word) : (d.setQueryRef w).report = d.report := rfl
@[simp] theorem Dev.setQueryRef_fill (d : Dev) (w : Word) : (d.setQueryRef w).fill = d.fill := rfl
@[simp] theorem Dev.setQueryRef_track (d : Dev) (w : Word) : (d.setQueryRef w).track = d.track := rfl
@[simp] theorem Dev.setQueryRef_pocket (d : Dev) (w : Word) : (d.setQueryRef w).pocket = d.pocket := rfl
@[simp] theorem Dev.setQueryRef_weigh (d : Dev) (w : Word) : (d.setQueryRef w).weigh = d.weigh := rfl
@[simp] theorem Dev.setQueryRef_code (d : Dev) (w : Word) : (d.setQueryRef w).code = d.code := rfl
@[simp] theorem Dev.setQueryRef_order (d : Dev) (w : Word) : (d.setQueryRef w).order = d.order := rfl
@[simp] theorem Dev.setQueryRef_draws (d : Dev) (w : Word) : (d.setQueryRef w).draws = d.draws := rfl

@[simp] theorem Dev.setQueryCare_path (d : Dev) (w : Word) : (d.setQueryCare w).path = d.path := rfl
@[simp] theorem Dev.setQueryCare_setup (d : Dev) (w : Word) : (d.setQueryCare w).setup = d.setup := rfl
@[simp] theorem Dev.setQueryCare_report (d : Dev) (w : Word) : (d.setQueryCare w).report = d.report := rfl
@[simp] theorem Dev.setQueryCare_fill (d : Dev) (w : Word) : (d.setQueryCare w).fill = d.fill := rfl
@[simp] theorem Dev.setQueryCare_track (d : Dev) (w : Word) : (d.setQueryCare w).track = d.track := rfl
@[simp] theorem Dev.setQueryCare_pocket (d : Dev) (w : Word) : (d.setQueryCare w).pocket = d.pocket := rfl
@[simp] theorem Dev.setQueryCare_weigh (d : Dev) (w : Word) : (d.setQueryCare w).weigh = d.weigh := rfl
@[simp] theorem Dev.setQueryCare_code (d : Dev) (w : Word) : (d.setQueryCare w).code = d.code := rfl
@[simp] theorem Dev.setQueryCare_order (d : Dev) (w : Word) : (d.setQueryCare w).order = d.order := rfl
@[simp] theorem Dev.setQueryCare_draws (d : Dev) (w : Word) : (d.setQueryCare w).draws = d.draws := rfl

@[simp] theorem Dev.setHead_setup (d : Dev) (h : Held) : (d.setHead h).setup = d.setup := rfl
@[simp] theorem Dev.setHead_report (d : Dev) (h : Held) : (d.setHead h).report = d.report := rfl
@[simp] theorem Dev.setHead_fill (d : Dev) (h : Held) : (d.setHead h).fill = d.fill := rfl
@[simp] theorem Dev.setHead_track (d : Dev) (h : Held) : (d.setHead h).track = d.track := rfl
@[simp] theorem Dev.setHead_pocket (d : Dev) (h : Held) : (d.setHead h).pocket = d.pocket := rfl
@[simp] theorem Dev.setHead_weigh (d : Dev) (h : Held) : (d.setHead h).weigh = d.weigh := rfl
@[simp] theorem Dev.setHead_code (d : Dev) (h : Held) : (d.setHead h).code = d.code := rfl
@[simp] theorem Dev.setHead_valve (d : Dev) (h : Held) : (d.setHead h).valve = d.valve := rfl
@[simp] theorem Dev.setHead_order (d : Dev) (h : Held) : (d.setHead h).order = d.order := rfl
@[simp] theorem Dev.setHead_draws (d : Dev) (h : Held) : (d.setHead h).draws = d.draws := rfl

@[simp] theorem Dev.freePort_setup (d : Dev) : d.freePort.setup = d.setup := rfl
@[simp] theorem Dev.freePort_report (d : Dev) : d.freePort.report = d.report := rfl
@[simp] theorem Dev.freePort_fill (d : Dev) : d.freePort.fill = d.fill := rfl
@[simp] theorem Dev.freePort_track (d : Dev) : d.freePort.track = d.track := rfl
@[simp] theorem Dev.freePort_pocket (d : Dev) : d.freePort.pocket = d.pocket := rfl
@[simp] theorem Dev.freePort_weigh (d : Dev) : d.freePort.weigh = d.weigh := rfl
@[simp] theorem Dev.freePort_code (d : Dev) : d.freePort.code = d.code := rfl
@[simp] theorem Dev.freePort_valve (d : Dev) : d.freePort.valve = d.valve := rfl
@[simp] theorem Dev.freePort_order (d : Dev) : d.freePort.order = d.order := rfl
@[simp] theorem Dev.freePort_draws (d : Dev) : d.freePort.draws = d.draws := rfl

@[simp] theorem Dev.setLrst_setup (d : Dev) (b : Bool) : (d.setLrst b).setup = d.setup := rfl
@[simp] theorem Dev.setLrst_report (d : Dev) (b : Bool) : (d.setLrst b).report = d.report := rfl
@[simp] theorem Dev.setLrst_fill (d : Dev) (b : Bool) : (d.setLrst b).fill = d.fill := rfl
@[simp] theorem Dev.setLrst_track (d : Dev) (b : Bool) : (d.setLrst b).track = d.track := rfl
@[simp] theorem Dev.setLrst_pocket (d : Dev) (b : Bool) : (d.setLrst b).pocket = d.pocket := rfl
@[simp] theorem Dev.setLrst_weigh (d : Dev) (b : Bool) : (d.setLrst b).weigh = d.weigh := rfl
@[simp] theorem Dev.setLrst_code (d : Dev) (b : Bool) : (d.setLrst b).code = d.code := rfl
@[simp] theorem Dev.setLrst_valve (d : Dev) (b : Bool) : (d.setLrst b).valve = d.valve := rfl
@[simp] theorem Dev.setLrst_order (d : Dev) (b : Bool) : (d.setLrst b).order = d.order := rfl
@[simp] theorem Dev.setLrst_draws (d : Dev) (b : Bool) : (d.setLrst b).draws = d.draws := rfl

@[simp] theorem Dev.joinMembers_path (d : Dev) (k : Fin 4) (n : Nat) : (d.joinMembers k n).path = d.path := rfl
@[simp] theorem Dev.joinMembers_setup (d : Dev) (k : Fin 4) (n : Nat) : (d.joinMembers k n).setup = d.setup := rfl
@[simp] theorem Dev.joinMembers_report (d : Dev) (k : Fin 4) (n : Nat) : (d.joinMembers k n).report = d.report := rfl
@[simp] theorem Dev.joinMembers_fill (d : Dev) (k : Fin 4) (n : Nat) : (d.joinMembers k n).fill = d.fill := rfl
@[simp] theorem Dev.joinMembers_track (d : Dev) (k : Fin 4) (n : Nat) : (d.joinMembers k n).track = d.track := rfl
@[simp] theorem Dev.joinMembers_pocket (d : Dev) (k : Fin 4) (n : Nat) : (d.joinMembers k n).pocket = d.pocket := rfl
@[simp] theorem Dev.joinMembers_weigh (d : Dev) (k : Fin 4) (n : Nat) : (d.joinMembers k n).weigh = d.weigh := rfl
@[simp] theorem Dev.joinMembers_code (d : Dev) (k : Fin 4) (n : Nat) : (d.joinMembers k n).code = d.code := rfl
@[simp] theorem Dev.joinMembers_valve (d : Dev) (k : Fin 4) (n : Nat) : (d.joinMembers k n).valve = d.valve := rfl
@[simp] theorem Dev.joinMembers_draws (d : Dev) (k : Fin 4) (n : Nat) : (d.joinMembers k n).draws = d.draws := rfl

@[simp] theorem Dev.dropBursts_setup (d : Dev) (op : InternalOp) : (d.dropBursts op).setup = d.setup := rfl
@[simp] theorem Dev.dropBursts_report (d : Dev) (op : InternalOp) : (d.dropBursts op).report = d.report := rfl
@[simp] theorem Dev.dropBursts_fill (d : Dev) (op : InternalOp) : (d.dropBursts op).fill = d.fill := rfl
@[simp] theorem Dev.dropBursts_track (d : Dev) (op : InternalOp) : (d.dropBursts op).track = d.track := rfl
@[simp] theorem Dev.dropBursts_pocket (d : Dev) (op : InternalOp) : (d.dropBursts op).pocket = d.pocket := rfl
@[simp] theorem Dev.dropBursts_weigh (d : Dev) (op : InternalOp) : (d.dropBursts op).weigh = d.weigh := rfl
@[simp] theorem Dev.dropBursts_code (d : Dev) (op : InternalOp) : (d.dropBursts op).code = d.code := rfl
@[simp] theorem Dev.dropBursts_valve (d : Dev) (op : InternalOp) : (d.dropBursts op).valve = d.valve := rfl
@[simp] theorem Dev.dropBursts_order (d : Dev) (op : InternalOp) : (d.dropBursts op).order = d.order := rfl
@[simp] theorem Dev.dropBursts_draws (d : Dev) (op : InternalOp) : (d.dropBursts op).draws = d.draws := rfl

@[simp] theorem Dev.setWeigh_weigh (d : Dev) (w : WeighUnit) : (d.setWeigh w).weigh = w := rfl
@[simp] theorem Dev.setCode_code (d : Dev) (c : CodeUnit) : (d.setCode c).code = c := rfl
@[simp] theorem Dev.setPocket_pocket (d : Dev) (u : PocketUnit) : (d.setPocket u).pocket = u := rfl
@[simp] theorem Dev.setFillList_fill' (d : Dev) (l : List CanRecord) : (d.setFillList l).track.fill = l := rfl
@[simp] theorem Dev.setFillList_free (d : Dev) (l : List CanRecord) :
    (d.setFillList l).track.free = d.track.free := rfl
@[simp] theorem Dev.setFillList_suspects (d : Dev) (l : List CanRecord) :
    (d.setFillList l).track.suspects = d.track.suspects := rfl

/-! ### Reading back what was set -/

@[simp] theorem Dev.entry_setEntry (d : Dev) (p : Word) (e : Entry) : (d.setEntry p e).entry p = e := by
  simp [Dev.entry, Dev.setEntry, Vector.get_eq_getElem]

theorem Dev.entry_setEntry_ne (d : Dev) {p q : Word} (e : Entry) (h : ringIx q ≠ ringIx p) :
    (d.setEntry p e).entry q = d.entry q := by
  have : (ringIx p).val ≠ (ringIx q).val := fun x => h (Fin.ext x.symm)
  simp [Dev.entry, Dev.setEntry, Vector.get_eq_getElem, this]

@[simp] theorem Dev.valveRec_setValve (d : Dev) (v : Fin 64) (r : ValveRec) :
    (d.setValve v r).valveRec v = r := by
  simp [Dev.valveRec, Dev.setValve, Vector.get_eq_getElem]

theorem Dev.valveRec_setValve_ne (d : Dev) {v w : Fin 64} (r : ValveRec) (h : w ≠ v) :
    (d.setValve v r).valveRec w = d.valveRec w := by
  have : v.val ≠ w.val := fun x => h (Fin.ext x.symm)
  simp [Dev.valveRec, Dev.setValve, Vector.get_eq_getElem, this]

@[simp] theorem Dev.slot_setSlot (d : Dev) (k : Fin 4) (r : RecipeSlot) : (d.setSlot k r).slot k = r := by
  simp [Dev.slot, Dev.setSlot, Vector.get_eq_getElem]

theorem Dev.slot_setSlot_ne (d : Dev) {k j : Fin 4} (r : RecipeSlot) (h : j ≠ k) :
    (d.setSlot k r).slot j = d.slot j := by
  have : k.val ≠ j.val := fun x => h (Fin.ext x.symm)
  simp [Dev.slot, Dev.setSlot, Vector.get_eq_getElem, this]

@[simp] theorem Dev.place_setPlace (d : Dev) (p : Fin 2) (o : Option LotOrder) :
    (d.setPlace p o).place p = o := by
  simp [Dev.place, Dev.setPlace, Vector.get_eq_getElem]

/-! ### The machine around the part -/

@[simp] theorem State.answer_pending (a : Answer) (s : State) : (s.answer a).pending = s.pending := rfl
@[simp] theorem State.answer_mem (a : Answer) (s : State) : (s.answer a).mem = s.mem := rfl
@[simp] theorem State.answer_answers (a : Answer) (s : State) : (s.answer a).answers = s.answers ++ [a] := rfl
@[simp] theorem State.answer_downstream (a : Answer) (s : State) : (s.answer a).downstream = s.downstream := rfl
@[simp] theorem State.answer_dev (a : Answer) (s : State) : (s.answer a).dev = s.dev := rfl

@[simp] theorem State.issue_pending (o : Owner) (x : Access) (s : State) : (s.issue o x).pending = s.pending := rfl
@[simp] theorem State.issue_mem (o : Owner) (x : Access) (s : State) : (s.issue o x).mem = s.mem := rfl
@[simp] theorem State.issue_answers (o : Owner) (x : Access) (s : State) : (s.issue o x).answers = s.answers := rfl
@[simp] theorem State.issue_downstream (o : Owner) (x : Access) (s : State) : (s.issue o x).downstream = s.downstream ++ [{ owner := o, access := x }] := rfl
@[simp] theorem State.issue_dev (o : Owner) (x : Access) (s : State) : (s.issue o x).dev = s.dev := rfl

@[simp] theorem State.portsClear_pending (s : State) : (s.portsClear).pending = s.pending := rfl
@[simp] theorem State.portsClear_mem (s : State) : (s.portsClear).mem = s.mem := rfl
@[simp] theorem State.portsClear_answers (s : State) : (s.portsClear).answers = [] := rfl
@[simp] theorem State.portsClear_downstream (s : State) : (s.portsClear).downstream = [] := rfl
@[simp] theorem State.portsClear_dev (s : State) : (s.portsClear).dev = s.dev := rfl

@[simp] theorem State.queueUp_pending (h : Held) (s : State) : (s.queueUp h).pending = s.pending := rfl
@[simp] theorem State.queueUp_mem (h : Held) (s : State) : (s.queueUp h).mem = s.mem := rfl
@[simp] theorem State.queueUp_answers (h : Held) (s : State) : (s.queueUp h).answers = s.answers := rfl
@[simp] theorem State.queueUp_downstream (h : Held) (s : State) : (s.queueUp h).downstream = s.downstream := rfl
@[simp] theorem State.queueUp_dev (h : Held) (s : State) : (s.queueUp h).dev = s.dev.withUp (s.dev.path.upstream ++ [h]) := rfl

end Sys2Proof.Machine
end

