-- ==== Sys2Proof/Laws/Block.lean ====
section
/-! SUPPORT. What every operation of a block leaves to the port, the straps and the report queue, said once
for each operation: it keeps the upstream port and the wait count, never fills the report queue above 16,
and in UNPLACED holds no cause and places no burst. Each lemma carries a step from `a` to `d` on through
the operation, so that the lemma of a caller is the chain of its callees' lemmas. -/

namespace Sys2Proof.Machine

/-- No cause pending and nothing of the part's own on its way to the downstream port. -/
def Dev.Silent (d : Dev) : Prop := d.report.pending = 0 ∧ d.path.bursts = [] ∧ d.path.port = none

/-- What an operation of a block does to the port, the straps and the report queue. -/
structure BlockStep (d d' : Dev) : Prop where
  cabase   : d'.path.cabase = d.path.cabase
  memsize  : d'.path.memsize = d.path.memsize
  lrst     : d'.path.lrst = d.path.lrst
  wait     : d'.path.waitCount = d.path.waitCount
  upstream : d'.path.upstream = d.path.upstream
  queue    : d.report.queue.length ≤ 16 → d'.report.queue.length ≤ 16
  placed   : d'.setup.part = .unplaced ↔ d.setup.part = .unplaced
  silent   : d.setup.part = .unplaced → d.Silent → d'.Silent

theorem BlockStep.refl (d : Dev) : BlockStep d d :=
  ⟨rfl, rfl, rfl, rfl, rfl, id, Iff.rfl, fun _ => id⟩

theorem BlockStep.trans {a b c : Dev} (h : BlockStep a b) (k : BlockStep b c) : BlockStep a c :=
  ⟨k.cabase.trans h.cabase, k.memsize.trans h.memsize, k.lrst.trans h.lrst, k.wait.trans h.wait,
    k.upstream.trans h.upstream, fun x => k.queue (h.queue x), k.placed.trans h.placed,
    fun x y => k.silent (h.placed.mpr x) (h.silent x y)⟩

/-- The Path unit, the part state, the pending set and the queue left alone. -/
theorem BlockStep.same {a d d' : Dev} (h : BlockStep a d) (hp : d'.path = d.path)
    (hs : d'.setup.part = d.setup.part) (hr : d'.report.pending = d.report.pending)
    (hq : d'.report.queue = d.report.queue) : BlockStep a d' := by
  refine h.trans ⟨by rw [hp], by rw [hp], by rw [hp], by rw [hp], by rw [hp], by rw [hq]; exact id,
    by rw [hs], fun _ h => ?_⟩
  unfold Dev.Silent at *
  rw [hp, hr]; exact h

/-- A record update that leaves those four alone. -/
theorem BlockStep.put {a d : Dev} {u r f t p w c v o n} (h : BlockStep a d) (hs : u.part = d.setup.part)
    (hr : r.pending = d.report.pending) (hq : r.queue = d.report.queue) :
    BlockStep a ⟨d.path, u, r, f, t, p, w, c, v, o, n⟩ := h.same rfl hs hr hq

theorem BlockStep.either {a x y : Dev} {p : Prop} [Decidable p] (hx : p → BlockStep a x)
    (hy : ¬p → BlockStep a y) : BlockStep a (if p then x else y) := by
  split
  · exact hx ‹_›
  · exact hy ‹_›

theorem BlockStep.foldl {α : Type} {a : Dev} (f : Dev → α → Dev)
    (hf : ∀ d x, BlockStep a d → BlockStep a (f d x)) :
    ∀ (l : List α) (d : Dev), BlockStep a d → BlockStep a (l.foldl f d) := by
  intro l
  induction l with
  | nil => exact fun d h => h
  | cons x l ih => exact fun d h => ih _ (hf d x h)

variable {a d : Dev}

/-! ### Ops -/

theorem Dev.setEntry_block (h : BlockStep a d) (p : Word) (e : Entry) : BlockStep a (d.setEntry p e) := h.same rfl rfl rfl rfl

theorem Dev.setPocket_block (h : BlockStep a d) (u : PocketUnit) : BlockStep a (d.setPocket u) := h.same rfl rfl rfl rfl

theorem Dev.startEntry_block (h : BlockStep a d) (p : Word) : BlockStep a (d.startEntry p) := h.same rfl rfl rfl rfl

theorem Dev.setWeigh_block (h : BlockStep a d) (w : WeighUnit) : BlockStep a (d.setWeigh w) := h.same rfl rfl rfl rfl

theorem Dev.setCode_block (h : BlockStep a d) (c : CodeUnit) : BlockStep a (d.setCode c) := h.same rfl rfl rfl rfl

theorem Dev.phantom_block (h : BlockStep a d) : BlockStep a (d.phantom) := h.same rfl rfl rfl rfl

theorem Dev.duplicate_block (h : BlockStep a d) : BlockStep a (d.duplicate) := h.same rfl rfl rfl rfl

theorem Dev.setValve_block (h : BlockStep a d) (v : Fin 64) (r : ValveRec) : BlockStep a (d.setValve v r) := h.same rfl rfl rfl rfl

theorem Dev.setSlot_block (h : BlockStep a d) (k : Fin 4) (r : RecipeSlot) : BlockStep a (d.setSlot k r) := h.same rfl rfl rfl rfl

theorem Dev.setPlace_block (h : BlockStep a d) (p : Fin 2) (o : Option LotOrder) : BlockStep a (d.setPlace p o) := h.same rfl rfl rfl rfl

theorem Dev.setService_block (h : BlockStep a d) (o : Option ServiceOrder) : BlockStep a (d.setService o) := h.same rfl rfl rfl rfl

theorem Dev.setFillList_block (h : BlockStep a d) (l : List CanRecord) : BlockStep a (d.setFillList l) := h.same rfl rfl rfl rfl

theorem Dev.countSuspect_block (h : BlockStep a d) : BlockStep a (d.countSuspect) := h.same rfl rfl rfl rfl

theorem Dev.drawn_block (h : BlockStep a d) : BlockStep a (d.drawn) := h.same rfl rfl rfl rfl

theorem Dev.requestStatus_block (h : BlockStep a d) : BlockStep a (d.requestStatus) := h.same rfl rfl rfl rfl

theorem Dev.setMask_block (h : BlockStep a d) (b : Bool) (w : Word) : BlockStep a (d.setMask b w) := h.same rfl rfl rfl rfl

theorem Dev.setMode_block (h : BlockStep a d) (w : Word) : BlockStep a (d.setMode w) := h.same rfl rfl rfl rfl

theorem Dev.setQueryRef_block (h : BlockStep a d) (w : Word) : BlockStep a (d.setQueryRef w) := h.same rfl rfl rfl rfl

theorem Dev.setQueryCare_block (h : BlockStep a d) (w : Word) : BlockStep a (d.setQueryCare w) := h.same rfl rfl rfl rfl

theorem Dev.joinMembers_block (h : BlockStep a d) (k : Fin 4) (n : Nat) : BlockStep a (d.joinMembers k n) := h.same rfl rfl rfl rfl

theorem Dev.raise_block (h : BlockStep a d) (c : Cause) : BlockStep a (d.raise c) := by
  refine h.trans ?_
  unfold Dev.raise
  split
  · exact .refl d
  · rename_i hu
    split
    · exact .refl d
    · exact ⟨rfl, rfl, rfl, rfl, rfl, id, Iff.rfl, fun x => absurd x hu⟩

theorem Dev.acknowledge_block (h : BlockStep a d) (m : BitVec 21) : BlockStep a (d.acknowledge m) := by
  refine h.trans ?_
  unfold Dev.acknowledge
  dsimp only
  split
  · exact .refl d
  · exact ⟨rfl, rfl, rfl, rfl, rfl, id, Iff.rfl, fun _ h => ⟨by simp [h.1], h.2⟩⟩

theorem Dev.raiseAt_block (h : BlockStep a d) (c : Cause) (x : Nat) : BlockStep a (d.raiseAt c x) := by
  unfold Dev.raiseAt
  repeat' first
    | with_reducible assumption
    | with_reducible apply Dev.raise_block
    | with_reducible apply BlockStep.either <;> intro _
    | extract_lets
    | split
    | with_reducible refine BlockStep.foldl _ (fun d _ h => ?_) _ _ ?_
    | fail_if_no_progress with_reducible refine BlockStep.put ?_ rfl rfl rfl

theorem Dev.placeBurst_block (h : BlockStep a d) (b : Burst) : BlockStep a (d.placeBurst b) := by
  refine h.trans ?_
  unfold Dev.placeBurst
  split
  · exact .refl d
  · rename_i hu
    exact ⟨rfl, rfl, rfl, rfl, rfl, id, Iff.rfl, fun x => absurd (Or.inl x) hu⟩

theorem Dev.dropBursts_block (h : BlockStep a d) (op : InternalOp) : BlockStep a (d.dropBursts op) := by
  refine h.trans ⟨rfl, rfl, rfl, rfl, rfl, id, Iff.rfl, fun _ h => ⟨h.1, ?_, h.2.2⟩⟩
  simp [Dev.dropBursts, h.2.1]

theorem Dev.stopIssued_block (h : BlockStep a d) (op : InternalOp) : BlockStep a (d.stopIssued op) := by
  refine h.trans ?_
  unfold Dev.stopIssued
  split
  · exact .refl d
  · rename_i i hi
    split
    · refine ⟨rfl, rfl, rfl, rfl, rfl, id, Iff.rfl, fun _ h => ?_⟩
      have := h.2.2; rw [hi] at this; cases this
    · exact .refl d

/-! ### The Report unit -/

theorem Dev.formStatus_block (h : BlockStep a d) : BlockStep a (d.formStatus) := by
  unfold Dev.formStatus
  repeat' first
    | with_reducible assumption
    | with_reducible apply Dev.placeBurst_block
    | with_reducible apply BlockStep.either <;> intro _
    | extract_lets
    | split
    | with_reducible refine BlockStep.foldl _ (fun d _ h => ?_) _ _ ?_
    | fail_if_no_progress with_reducible refine BlockStep.put ?_ rfl rfl rfl

theorem Dev.settle_block (h : BlockStep a d) : BlockStep a (d.settle) := by
  unfold Dev.settle
  repeat' first
    | with_reducible assumption
    | with_reducible apply Dev.formStatus_block
    | with_reducible apply BlockStep.either <;> intro _
    | extract_lets
    | split
    | with_reducible refine BlockStep.foldl _ (fun d _ h => ?_) _ _ ?_
    | fail_if_no_progress with_reducible refine BlockStep.put ?_ rfl rfl rfl

theorem Dev.statusAnswered_block (h : BlockStep a d) (ok : Bool) : BlockStep a (d.statusAnswered ok) := by
  have e : BlockStep a (if ok then d else { d with path := { d.path with faults := d.path.faults + 1#32 } }) := by
    split
    · exact h
    · exact h.trans ⟨rfl, rfl, rfl, rfl, rfl, id, Iff.rfl, fun _ => id⟩
  unfold Dev.statusAnswered
  revert e
  generalize (if ok then d else _) = e
  intro e
  dsimp only
  split <;> (repeat' first | with_reducible assumption | with_reducible apply Dev.placeBurst_block | with_reducible apply BlockStep.either <;> intro _ | extract_lets | fail_if_no_progress with_reducible refine BlockStep.put ?_ rfl rfl rfl)

theorem Dev.reportFault_block (h : BlockStep a d) (x : Nat) : BlockStep a (d.reportFault x) := by
  unfold Dev.reportFault
  repeat' first
    | with_reducible assumption
    | with_reducible apply Dev.raiseAt_block
    | with_reducible apply BlockStep.either <;> intro _
    | extract_lets
    | split
    | with_reducible refine BlockStep.foldl _ (fun d _ h => ?_) _ _ ?_
    | fail_if_no_progress with_reducible refine BlockStep.put ?_ rfl rfl rfl

theorem Dev.openDescriptor_block (h : BlockStep a d) (x : Nat) : BlockStep a (d.openDescriptor x) := by
  unfold Dev.openDescriptor
  repeat' first
    | with_reducible assumption
    | with_reducible apply Dev.placeBurst_block
    | with_reducible apply BlockStep.either <;> intro _
    | extract_lets
    | split
    | with_reducible refine BlockStep.foldl _ (fun d _ h => ?_) _ _ ?_
    | fail_if_no_progress with_reducible refine BlockStep.put ?_ rfl rfl rfl

theorem Dev.readNext_block (h : BlockStep a d) (x : Nat) : BlockStep a (d.readNext x) := by
  unfold Dev.readNext
  repeat' first
    | with_reducible assumption
    | with_reducible apply Dev.placeBurst_block
    | with_reducible apply BlockStep.either <;> intro _
    | extract_lets
    | split
    | with_reducible refine BlockStep.foldl _ (fun d _ h => ?_) _ _ ?_
    | fail_if_no_progress with_reducible refine BlockStep.put ?_ rfl rfl rfl

theorem Dev.reRead_block (h : BlockStep a d) : BlockStep a (d.reRead) := by
  unfold Dev.reRead
  repeat' first
    | with_reducible assumption
    | with_reducible apply Dev.openDescriptor_block
    | with_reducible apply Dev.readNext_block
    | with_reducible apply BlockStep.either <;> intro _
    | extract_lets
    | split

theorem Dev.compose_block (h : BlockStep a d) (r : Result) : BlockStep a (d.compose r) := by
  refine BlockStep.trans (b := d.drawn) (Dev.drawn_block h) ?_
  unfold Dev.compose
  generalize d.drawn = e
  dsimp only
  split
  · apply Dev.reRead_block
    refine ⟨rfl, rfl, rfl, rfl, rfl, fun _ => ?_, Iff.rfl, fun _ => id⟩
    simp only [List.length_append, List.length_cons, List.length_nil]; omega
  · apply Dev.raise_block
    exact ⟨rfl, rfl, rfl, rfl, rfl, id, Iff.rfl, fun _ => id⟩

theorem Dev.armReread_block (h : BlockStep a d) : BlockStep a (d.armReread) := by
  unfold Dev.armReread
  repeat' first
    | with_reducible assumption
    | with_reducible apply BlockStep.either <;> intro _
    | extract_lets
    | split
    | with_reducible refine BlockStep.foldl _ (fun d _ h => ?_) _ _ ?_
    | fail_if_no_progress with_reducible refine BlockStep.put ?_ rfl rfl rfl

theorem Dev.closeBuffer_block (h : BlockStep a d) (x : CloseReason) (y : AfterClose) (b : Buffer) : BlockStep a (d.closeBuffer x y b) := by
  unfold Dev.closeBuffer
  repeat' first
    | with_reducible assumption
    | with_reducible apply Dev.placeBurst_block
    | with_reducible apply BlockStep.either <;> intro _
    | extract_lets
    | split
    | with_reducible refine BlockStep.foldl _ (fun d _ h => ?_) _ _ ?_
    | fail_if_no_progress with_reducible refine BlockStep.put ?_ rfl rfl rfl

theorem Dev.descriptorAnswered_block (h : BlockStep a d) (x : Nat) (ok : Bool) (ws : List Word) : BlockStep a (d.descriptorAnswered x ok ws) := by
  unfold Dev.descriptorAnswered
  repeat' first
    | with_reducible assumption
    | with_reducible apply Dev.reportFault_block
    | with_reducible apply Dev.armReread_block
    | with_reducible apply BlockStep.either <;> intro _
    | extract_lets
    | split
    | with_reducible refine BlockStep.foldl _ (fun d _ h => ?_) _ _ ?_
    | fail_if_no_progress with_reducible refine BlockStep.put ?_ rfl rfl rfl

theorem Dev.nextAnswered_block (h : BlockStep a d) (x : Nat) (ok : Bool) (ws : List Word) : BlockStep a (d.nextAnswered x ok ws) := by
  unfold Dev.nextAnswered
  repeat' first
    | with_reducible assumption
    | with_reducible apply Dev.reportFault_block
    | with_reducible apply Dev.armReread_block
    | with_reducible apply Dev.openDescriptor_block
    | with_reducible apply BlockStep.either <;> intro _
    | extract_lets
    | split
    | with_reducible refine BlockStep.foldl _ (fun d _ h => ?_) _ _ ?_
    | fail_if_no_progress with_reducible refine BlockStep.put ?_ rfl rfl rfl

theorem Dev.closeAnswered_block (h : BlockStep a d) (x : Nat) (y : AfterClose) (ok : Bool) : BlockStep a (d.closeAnswered x y ok) := by
  unfold Dev.closeAnswered
  repeat' first
    | with_reducible assumption
    | with_reducible apply Dev.readNext_block
    | with_reducible apply Dev.reportFault_block
    | with_reducible apply Dev.openDescriptor_block
    | with_reducible apply BlockStep.either <;> intro _
    | extract_lets
    | split
    | with_reducible refine BlockStep.foldl _ (fun d _ h => ?_) _ _ ?_
    | fail_if_no_progress with_reducible refine BlockStep.put ?_ rfl rfl rfl

theorem Dev.writeResult_block (h : BlockStep a d) : BlockStep a (d.writeResult) := by
  unfold Dev.writeResult
  repeat' first
    | with_reducible assumption
    | with_reducible apply Dev.placeBurst_block
    | with_reducible apply BlockStep.either <;> intro _
    | extract_lets
    | split
    | with_reducible refine BlockStep.foldl _ (fun d _ h => ?_) _ _ ?_
    | fail_if_no_progress with_reducible refine BlockStep.put ?_ rfl rfl rfl

theorem Dev.resultAnswered_block (h : BlockStep a d) (ok : Bool) : BlockStep a (d.resultAnswered ok) := by
  refine h.trans ?_
  unfold Dev.resultAnswered
  split
  · dsimp only
    split
    · split
      · apply Dev.closeBuffer_block
        exact ⟨rfl, rfl, rfl, rfl, rfl, fun h => by simp only [List.length_drop]; omega, Iff.rfl, fun _ => id⟩
      · exact ⟨rfl, rfl, rfl, rfl, rfl, fun h => by simp only [List.length_drop]; omega, Iff.rfl, fun _ => id⟩
    · exact Dev.reportFault_block (BlockStep.put (.refl d) rfl rfl rfl) _
  · exact BlockStep.put (.refl d) rfl rfl rfl

theorem Dev.lapsedAnswered_block (h : BlockStep a d) (ok : Bool) : BlockStep a (d.lapsedAnswered ok) := by
  unfold Dev.lapsedAnswered
  repeat' first
    | with_reducible assumption
    | with_reducible apply Dev.closeBuffer_block
    | with_reducible apply Dev.reportFault_block
    | with_reducible apply BlockStep.either <;> intro _
    | extract_lets
    | split
    | fail_if_no_progress with_reducible refine BlockStep.put ?_ rfl rfl rfl

theorem Dev.ageExpired_block (h : BlockStep a d) : BlockStep a (d.ageExpired) := by
  unfold Dev.ageExpired
  repeat' first
    | with_reducible assumption
    | with_reducible apply Dev.closeBuffer_block
    | with_reducible apply Dev.dropBursts_block
    | with_reducible apply BlockStep.either <;> intro _
    | extract_lets
    | split
    | fail_if_no_progress with_reducible refine BlockStep.put ?_ rfl rfl rfl

theorem Dev.flushTaken_block (h : BlockStep a d) : BlockStep a (d.flushTaken) := by
  unfold Dev.flushTaken
  repeat' first
    | with_reducible assumption
    | with_reducible apply Dev.closeBuffer_block
    | with_reducible apply BlockStep.either <;> intro _
    | extract_lets
    | split

theorem Dev.restartTaken_block (h : BlockStep a d) (x : Nat) : BlockStep a (d.restartTaken x) := by
  unfold Dev.restartTaken
  repeat' first
    | with_reducible assumption
    | with_reducible apply Dev.closeBuffer_block
    | with_reducible apply Dev.openDescriptor_block
    | with_reducible apply BlockStep.either <;> intro _
    | extract_lets
    | split

/-! ### Orders -/

theorem Dev.pushOrderWrite_block (h : BlockStep a d) (x : Nat) (v : Word) : BlockStep a (d.pushOrderWrite x v) := by
  unfold Dev.pushOrderWrite
  repeat' first
    | with_reducible assumption
    | with_reducible apply Dev.placeBurst_block
    | with_reducible apply BlockStep.either <;> intro _
    | extract_lets
    | split
    | with_reducible refine BlockStep.foldl _ (fun d _ h => ?_) _ _ ?_
    | fail_if_no_progress with_reducible refine BlockStep.put ?_ rfl rfl rfl

theorem Dev.orderWordAnswered_block (h : BlockStep a d) (x : Nat) (ok : Bool) : BlockStep a (d.orderWordAnswered x ok) := by
  unfold Dev.orderWordAnswered
  repeat' first
    | with_reducible assumption
    | with_reducible apply Dev.raiseAt_block
    | with_reducible apply Dev.placeBurst_block
    | with_reducible apply BlockStep.either <;> intro _
    | extract_lets
    | split
    | with_reducible refine BlockStep.foldl _ (fun d _ h => ?_) _ _ ?_
    | fail_if_no_progress with_reducible refine BlockStep.put ?_ rfl rfl rfl
    | (dsimp +zetaDelta only; split)

theorem Dev.writeOrderStatus_block (h : BlockStep a d) (b : Bool) (o : LotOrder) : BlockStep a (d.writeOrderStatus b o) := by
  unfold Dev.writeOrderStatus
  repeat' first
    | with_reducible assumption
    | with_reducible apply Dev.pushOrderWrite_block

theorem Dev.writeEntry_block (h : BlockStep a d) (o : LotOrder) (i : Nat) (e : LotEntry) : BlockStep a (d.writeEntry o i e) := by
  unfold Dev.writeEntry
  repeat' first
    | with_reducible assumption
    | with_reducible apply Dev.pushOrderWrite_block

theorem Dev.updateEntry_block (h : BlockStep a d) (p : Fin 2) (i : Nat) (f : LotEntry → LotEntry) : BlockStep a (d.updateEntry p i f) := by
  unfold Dev.updateEntry
  repeat' first
    | with_reducible assumption
    | with_reducible apply Dev.writeEntry_block
    | with_reducible apply Dev.setPlace_block
    | with_reducible apply BlockStep.either <;> intro _
    | extract_lets
    | split

theorem Dev.releasePlace_block (h : BlockStep a d) (p : Fin 2) : BlockStep a (d.releasePlace p) := by
  unfold Dev.releasePlace
  repeat' first
    | with_reducible assumption
    | with_reducible apply Dev.setPlace_block
    | with_reducible apply BlockStep.either <;> intro _
    | extract_lets
    | split
    | with_reducible refine BlockStep.foldl _ (fun d _ h => ?_) _ _ ?_
    | fail_if_no_progress with_reducible refine BlockStep.put ?_ rfl rfl rfl

theorem Dev.completeOrder_block (h : BlockStep a d) (p : Fin 2) : BlockStep a (d.completeOrder p) := by
  unfold Dev.completeOrder
  repeat' first
    | with_reducible assumption
    | with_reducible apply Dev.releasePlace_block
    | with_reducible apply Dev.writeOrderStatus_block
    | with_reducible apply Dev.raise_block
    | with_reducible apply BlockStep.either <;> intro _
    | extract_lets
    | split

theorem Dev.closeEntry_block (h : BlockStep a d) (r : LotRef) : BlockStep a (d.closeEntry r) := by
  unfold Dev.closeEntry
  repeat' first
    | with_reducible assumption
    | with_reducible apply Dev.updateEntry_block
    | with_reducible apply Dev.completeOrder_block
    | with_reducible apply Dev.writeOrderStatus_block
    | with_reducible apply Dev.setPlace_block
    | with_reducible apply BlockStep.either <;> intro _
    | extract_lets
    | split

theorem Dev.recordLeaves_block (h : BlockStep a d) (n : Nat) (r : LotRef) : BlockStep a (d.recordLeaves n r) := by
  unfold Dev.recordLeaves
  repeat' first
    | with_reducible assumption
    | with_reducible apply Dev.setSlot_block
    | with_reducible apply Dev.closeEntry_block
    | with_reducible apply BlockStep.either <;> intro _
    | extract_lets
    | split

theorem Dev.drainIfEmpty_block (h : BlockStep a d) (k : Fin 4) : BlockStep a (d.drainIfEmpty k) := by
  unfold Dev.drainIfEmpty
  repeat' first
    | with_reducible assumption
    | with_reducible apply Dev.closeEntry_block
    | with_reducible apply Dev.setSlot_block
    | with_reducible apply BlockStep.either <;> intro _

theorem Dev.drainAll_block (h : BlockStep a d) : BlockStep a (d.drainAll) := by
  unfold Dev.drainAll
  repeat' first
    | with_reducible assumption
    | with_reducible apply Dev.drainIfEmpty_block

theorem Dev.cancelFrom_block (h : BlockStep a d) (p : Fin 2) (i : Nat) : BlockStep a (d.cancelFrom p i) := by
  unfold Dev.cancelFrom
  repeat' first
    | with_reducible assumption
    | with_reducible apply Dev.updateEntry_block
    | with_reducible apply BlockStep.either <;> intro _
    | extract_lets
    | split
    | with_reducible refine BlockStep.foldl _ (fun d _ h => ?_) _ _ ?_

theorem Dev.loadFails_block (h : BlockStep a d) (l : Loader) (c : OrderCode) (x : Nat) : BlockStep a (d.loadFails l c x) := by
  unfold Dev.loadFails
  repeat' first
    | with_reducible assumption
    | with_reducible apply Dev.setSlot_block
    | with_reducible apply Dev.updateEntry_block
    | with_reducible apply Dev.writeOrderStatus_block
    | with_reducible apply Dev.setPlace_block
    | with_reducible apply Dev.raiseAt_block
    | with_reducible apply Dev.cancelFrom_block
    | with_reducible apply Dev.completeOrder_block
    | with_reducible apply BlockStep.either <;> intro _
    | extract_lets
    | split
    | with_reducible refine BlockStep.foldl _ (fun d _ h => ?_) _ _ ?_
    | fail_if_no_progress with_reducible refine BlockStep.put ?_ rfl rfl rfl

theorem Dev.startLoad_block (h : BlockStep a d) : BlockStep a (d.startLoad) := by
  unfold Dev.startLoad
  repeat' first
    | with_reducible assumption
    | with_reducible apply Dev.setSlot_block
    | with_reducible apply Dev.updateEntry_block
    | with_reducible apply Dev.placeBurst_block
    | with_reducible apply Dev.loadFails_block
    | with_reducible apply BlockStep.either <;> intro _
    | extract_lets
    | split
    | with_reducible refine BlockStep.foldl _ (fun d _ h => ?_) _ _ ?_
    | fail_if_no_progress with_reducible refine BlockStep.put ?_ rfl rfl rfl

theorem Dev.loadSucceeds_block (h : BlockStep a d) (l : Loader) : BlockStep a (d.loadSucceeds l) := by
  unfold Dev.loadSucceeds
  repeat' first
    | with_reducible assumption
    | with_reducible apply Dev.setSlot_block
    | with_reducible apply BlockStep.either <;> intro _
    | extract_lets
    | split
    | with_reducible refine BlockStep.foldl _ (fun d _ h => ?_) _ _ ?_
    | fail_if_no_progress with_reducible refine BlockStep.put ?_ rfl rfl rfl

theorem Dev.recipeAnswered_block (h : BlockStep a d) (x : Nat) (ok : Bool) (ws : List Word) : BlockStep a (d.recipeAnswered x ok ws) := by
  unfold Dev.recipeAnswered
  repeat' first
    | with_reducible assumption
    | with_reducible apply Dev.loadFails_block
    | with_reducible apply Dev.placeBurst_block
    | with_reducible apply Dev.loadSucceeds_block
    | with_reducible apply BlockStep.either <;> intro _
    | extract_lets
    | split
    | with_reducible refine BlockStep.foldl _ (fun d _ h => ?_) _ _ ?_
    | fail_if_no_progress with_reducible refine BlockStep.put ?_ rfl rfl rfl

theorem Dev.refuseOrder_block (h : BlockStep a d) (c : OrderCode) (x : Nat) : BlockStep a (d.refuseOrder c x) := by
  unfold Dev.refuseOrder
  repeat' first
    | with_reducible assumption
    | with_reducible apply Dev.raiseAt_block
    | with_reducible apply Dev.pushOrderWrite_block

theorem Dev.orderAWritten_block (h : BlockStep a d) (v : Word) : BlockStep a (d.orderAWritten v) := by
  unfold Dev.orderAWritten
  repeat' first
    | with_reducible assumption
    | with_reducible apply Dev.raiseAt_block
    | with_reducible apply Dev.refuseOrder_block
    | with_reducible apply Dev.placeBurst_block
    | with_reducible apply BlockStep.either <;> intro _
    | extract_lets
    | split
    | with_reducible refine BlockStep.foldl _ (fun d _ h => ?_) _ _ ?_
    | fail_if_no_progress with_reducible refine BlockStep.put ?_ rfl rfl rfl

theorem Dev.orderBWritten_block (h : BlockStep a d) (v : Word) : BlockStep a (d.orderBWritten v) := by
  unfold Dev.orderBWritten
  repeat' first
    | with_reducible assumption
    | with_reducible apply Dev.raiseAt_block
    | with_reducible apply Dev.service_block
    | with_reducible apply Dev.refuseOrder_block
    | with_reducible apply Dev.placeBurst_block
    | with_reducible apply BlockStep.either <;> intro _
    | extract_lets
    | split
    | with_reducible refine BlockStep.foldl _ (fun d _ h => ?_) _ _ ?_
    | fail_if_no_progress with_reducible refine BlockStep.put ?_ rfl rfl rfl

theorem Dev.cancelSlot_block (h : BlockStep a d) (k : Fin 4) (p : Fin 2) : BlockStep a (d.cancelSlot k p) := by
  unfold Dev.cancelSlot
  repeat' first
    | with_reducible assumption
    | with_reducible apply Dev.setSlot_block
    | with_reducible apply Dev.stopIssued_block
    | with_reducible apply Dev.dropBursts_block
    | with_reducible apply BlockStep.either <;> intro _
    | extract_lets
    | split
    | with_reducible refine BlockStep.foldl _ (fun d _ h => ?_) _ _ ?_
    | fail_if_no_progress with_reducible refine BlockStep.put ?_ rfl rfl rfl

theorem Dev.cancelOrder_block (h : BlockStep a d) (p : Fin 2) : BlockStep a (d.cancelOrder p) := by
  unfold Dev.cancelOrder
  repeat' first
    | with_reducible assumption
    | with_reducible apply Dev.cancelSlot_block
    | with_reducible apply Dev.cancelFrom_block

theorem Dev.writeNewOrder_block (h : BlockStep a d) (o : LotOrder) : BlockStep a (d.writeNewOrder o) := by
  unfold Dev.writeNewOrder
  repeat' first
    | with_reducible assumption
    | with_reducible apply Dev.writeEntry_block
    | with_reducible apply Dev.writeOrderStatus_block
    | with_reducible apply BlockStep.either <;> intro _
    | extract_lets
    | split
    | with_reducible refine BlockStep.foldl _ (fun d _ h => ?_) _ _ ?_

theorem Dev.acceptOrder_block (h : BlockStep a d) (o : LotOrder) (r : Bool) : BlockStep a (d.acceptOrder o r) := by
  unfold Dev.acceptOrder
  repeat' first
    | with_reducible assumption
    | with_reducible apply Dev.refuseOrder_block
    | with_reducible apply Dev.cancelOrder_block
    | with_reducible apply Dev.writeNewOrder_block
    | with_reducible apply Dev.setPlace_block
    | with_reducible apply Dev.completeOrder_block
    | with_reducible apply BlockStep.either <;> intro _
    | extract_lets
    | split
    | with_reducible refine BlockStep.foldl _ (fun d _ h => ?_) _ _ ?_
    | fail_if_no_progress with_reducible refine BlockStep.put ?_ rfl rfl rfl
    | (dsimp +zetaDelta only; split)

theorem Dev.decideOrder_block (h : BlockStep a d) (x : Nat) (g : List Word) : BlockStep a (d.decideOrder x g) := by
  unfold Dev.decideOrder
  repeat' first
    | with_reducible assumption
    | with_reducible apply Dev.refuseOrder_block
    | with_reducible apply Dev.acceptOrder_block
    | with_reducible apply BlockStep.either <;> intro _
    | extract_lets
    | split

theorem Dev.decideHeld_block (h : BlockStep a d) : BlockStep a d.decideHeld := by
  unfold Dev.decideHeld
  split
  · exact h
  · split
    · exact Dev.decideOrder_block (BlockStep.put h rfl rfl rfl) _ _
    · exact h

theorem Dev.fetchAAnswered_block (h : BlockStep a d) (x : Nat) (ok : Bool) (ws : List Word) : BlockStep a (d.fetchAAnswered x ok ws) := by
  unfold Dev.fetchAAnswered
  repeat' first
    | with_reducible assumption
    | with_reducible apply Dev.raiseAt_block
    | with_reducible apply Dev.refuseOrder_block
    | with_reducible apply Dev.placeBurst_block
    | with_reducible apply Dev.decideOrder_block
    | with_reducible apply BlockStep.either <;> intro _
    | extract_lets
    | split
    | with_reducible refine BlockStep.foldl _ (fun d _ h => ?_) _ _ ?_
    | fail_if_no_progress with_reducible refine BlockStep.put ?_ rfl rfl rfl

theorem Dev.writeServiceEntry_block (h : BlockStep a d) (x i c : Nat) : BlockStep a (d.writeServiceEntry x i c) := by
  unfold Dev.writeServiceEntry
  repeat' first
    | with_reducible assumption
    | with_reducible apply Dev.pushOrderWrite_block

theorem Dev.writeServiceEntries_block (h : BlockStep a d) (x c i n : Nat) : BlockStep a (d.writeServiceEntries x c i n) := by
  unfold Dev.writeServiceEntries
  repeat' first
    | with_reducible assumption
    | with_reducible apply Dev.writeServiceEntry_block
    | with_reducible apply BlockStep.either <;> intro _
    | extract_lets
    | split
    | with_reducible refine BlockStep.foldl _ (fun d _ h => ?_) _ _ ?_

theorem Dev.acceptService_block (h : BlockStep a d) (x : Nat) (g : List Word) : BlockStep a (d.acceptService x g) := by
  unfold Dev.acceptService
  repeat' first
    | with_reducible assumption
    | with_reducible apply Dev.writeServiceEntries_block
    | with_reducible apply Dev.pushOrderWrite_block
    | with_reducible apply BlockStep.either <;> intro _
    | extract_lets
    | split
    | with_reducible refine BlockStep.foldl _ (fun d _ h => ?_) _ _ ?_
    | fail_if_no_progress with_reducible refine BlockStep.put ?_ rfl rfl rfl

theorem Dev.fetchBAnswered_block (h : BlockStep a d) (x : Nat) (ok : Bool) (ws : List Word) : BlockStep a (d.fetchBAnswered x ok ws) := by
  unfold Dev.fetchBAnswered
  repeat' first
    | with_reducible assumption
    | with_reducible apply Dev.raiseAt_block
    | with_reducible apply Dev.refuseOrder_block
    | with_reducible apply Dev.placeBurst_block
    | with_reducible apply Dev.acceptService_block
    | with_reducible apply BlockStep.either <;> intro _
    | extract_lets
    | split
    | with_reducible refine BlockStep.foldl _ (fun d _ h => ?_) _ _ ?_
    | fail_if_no_progress with_reducible refine BlockStep.put ?_ rfl rfl rfl

/-! ### The track store -/

theorem Dev.releaseRecord_block (h : BlockStep a d) (r : CanRecord) : BlockStep a (d.releaseRecord r) := by
  unfold Dev.releaseRecord
  repeat' first
    | with_reducible assumption
    | with_reducible apply Dev.recordLeaves_block
    | with_reducible apply BlockStep.either <;> intro _
    | extract_lets
    | split
    | with_reducible refine BlockStep.foldl _ (fun d _ h => ?_) _ _ ?_
    | fail_if_no_progress with_reducible refine BlockStep.put ?_ rfl rfl rfl

theorem Dev.freeAs_block (h : BlockStep a d) (i : ResultIdent) (r : CanRecord) (b : Bool) : BlockStep a (d.freeAs i r b) := by
  unfold Dev.freeAs
  repeat' first
    | with_reducible assumption
    | with_reducible apply Dev.releaseRecord_block
    | with_reducible apply Dev.compose_block

theorem Dev.raiseCheck_block (h : BlockStep a d) (r : CanRecord) : BlockStep a (d.raiseCheck r) := by
  unfold Dev.raiseCheck
  repeat' first
    | with_reducible assumption
    | with_reducible apply Dev.raise_block
    | with_reducible apply BlockStep.either <;> intro _

theorem Dev.failFilled_block (h : BlockStep a d) (r : CanRecord) : BlockStep a (d.failFilled r) := by
  unfold Dev.failFilled
  repeat' first
    | with_reducible assumption
    | with_reducible apply Dev.freeAs_block
    | with_reducible apply Dev.raiseCheck_block

theorem Dev.takeHead_block : ∀ (l : List CanRecord) {d : Dev}, BlockStep a d →
    BlockStep a (Dev.takeHead l d).2 := by
  intro l
  induction l with
  | nil => intro d h; exact Dev.setFillList_block h _
  | cons r l ih =>
    intro d h
    unfold Dev.takeHead
    split
    · exact ih (by repeat' first | with_reducible assumption | with_reducible apply Dev.setFillList_block | with_reducible apply Dev.failFilled_block | with_reducible apply BlockStep.either <;> intro _ | extract_lets)
    · (repeat' first | with_reducible assumption | with_reducible apply Dev.setFillList_block | with_reducible apply Dev.failFilled_block | with_reducible apply BlockStep.either <;> intro _ | extract_lets)

theorem Dev.testPocket_block (h : BlockStep a d) (p : Word) : BlockStep a (d.testPocket p) := by
  unfold Dev.testPocket
  repeat' first
    | with_reducible assumption
    | with_reducible apply Dev.setEntry_block
    | with_reducible apply Dev.raiseCheck_block
    | with_reducible apply BlockStep.either <;> intro _
    | extract_lets
    | split

theorem Dev.markPocket_block (h : BlockStep a d) (p : Word) : BlockStep a (d.markPocket p) := by
  unfold Dev.markPocket
  repeat' first
    | with_reducible assumption
    | with_reducible apply Dev.countSuspect_block
    | with_reducible apply Dev.setEntry_block
    | with_reducible apply Dev.testPocket_block
    | with_reducible apply BlockStep.either <;> intro _
    | extract_lets
    | split

theorem Dev.markFill_block : ∀ (l k : List CanRecord) {d : Dev}, BlockStep a d →
    BlockStep a (Dev.markFill l k d) := by
  intro l
  induction l with
  | nil => intro k d h; exact Dev.setFillList_block h _
  | cons r l ih =>
    intro k d h
    unfold Dev.markFill
    split
    · exact ih _ h
    · split <;> exact ih _ (by repeat' first | with_reducible assumption | with_reducible apply Dev.setFillList_block | with_reducible apply Dev.countSuspect_block | with_reducible apply Dev.failFilled_block | with_reducible apply BlockStep.either <;> intro _ | extract_lets)

theorem Dev.markSuspects_block (h : BlockStep a d) : BlockStep a (d.markSuspects) := by
  unfold Dev.markSuspects
  repeat' first
    | with_reducible assumption
    | with_reducible apply Dev.markPocket_block
    | with_reducible apply Dev.raise_block
    | with_reducible apply Dev.markFill_block
    | with_reducible apply BlockStep.either <;> intro _
    | extract_lets
    | split
    | with_reducible refine BlockStep.foldl _ (fun d _ h => ?_) _ _ ?_

theorem Dev.discardRecord_block (h : BlockStep a d) (r : CanRecord) : BlockStep a (d.discardRecord r) := by
  unfold Dev.discardRecord
  repeat' first
    | with_reducible assumption
    | with_reducible apply Dev.freeAs_block
    | with_reducible apply Dev.raiseCheck_block
    | with_reducible apply BlockStep.either <;> intro _

theorem Dev.discardPocket_block (h : BlockStep a d) (p : Word) : BlockStep a (d.discardPocket p) := by
  unfold Dev.discardPocket
  repeat' first
    | with_reducible assumption
    | with_reducible apply Dev.discardRecord_block
    | with_reducible apply Dev.setEntry_block
    | with_reducible apply BlockStep.either <;> intro _
    | extract_lets
    | split

theorem Dev.discardFill_block : ∀ (l : List CanRecord) {d : Dev}, BlockStep a d →
    BlockStep a (Dev.discardFill l d) := by
  intro l
  induction l with
  | nil => intro d h; exact h
  | cons r l ih => intro d h; exact ih (by repeat' first | with_reducible assumption | with_reducible apply Dev.discardRecord_block | with_reducible apply Dev.setFillList_block | with_reducible apply BlockStep.either <;> intro _ | extract_lets)

theorem Dev.discardTrack_block (h : BlockStep a d) : BlockStep a (d.discardTrack) := by
  unfold Dev.discardTrack
  repeat' first
    | with_reducible assumption
    | with_reducible apply Dev.discardPocket_block
    | with_reducible apply Dev.discardFill_block
    | with_reducible apply BlockStep.either <;> intro _
    | extract_lets
    | split
    | with_reducible refine BlockStep.foldl _ (fun d _ h => ?_) _ _ ?_

theorem Dev.clearRing_block (h : BlockStep a d) : BlockStep a (d.clearRing) := by
  unfold Dev.clearRing
  repeat' first
    | with_reducible assumption
    | with_reducible apply Dev.setEntry_block
    | with_reducible apply BlockStep.either <;> intro _
    | extract_lets
    | split
    | with_reducible refine BlockStep.foldl _ (fun d _ h => ?_) _ _ ?_

/-! ### Weighing, the valve table, judgement and the gate -/

theorem Dev.reformBare_block (h : BlockStep a d) : BlockStep a (d.reformBare) := by
  unfold Dev.reformBare
  repeat' first
    | with_reducible assumption
    | with_reducible apply Dev.setEntry_block
    | with_reducible apply BlockStep.either <;> intro _
    | extract_lets
    | split
    | with_reducible refine BlockStep.foldl _ (fun d _ h => ?_) _ _ ?_

theorem Dev.takeSample_block (h : BlockStep a d) (i : Nat) (w : Word) : BlockStep a (d.takeSample i w) := by
  unfold Dev.takeSample
  repeat' first
    | with_reducible assumption
    | with_reducible apply Dev.setWeigh_block

theorem Dev.takeSamples_block : ∀ (ws : List WWord) (i : Nat) {d : Dev}, BlockStep a d →
    BlockStep a (Dev.takeSamples i ws d) := by
  intro ws
  induction ws with
  | nil => intro i d h; exact h
  | cons w ws ih => intro i d h; exact ih _ (by repeat' first | with_reducible assumption | with_reducible apply Dev.takeSample_block | with_reducible apply BlockStep.either <;> intro _ | extract_lets)

theorem Dev.closeGap_block (h : BlockStep a d) : BlockStep a (d.closeGap) := by
  unfold Dev.closeGap
  repeat' first
    | with_reducible assumption
    | with_reducible apply Dev.setWeigh_block
    | with_reducible apply Dev.raise_block
    | with_reducible apply BlockStep.either <;> intro _

theorem Dev.closeWeigh_block (h : BlockStep a d) : BlockStep a (d.closeWeigh) := by
  unfold Dev.closeWeigh
  repeat' first
    | with_reducible assumption
    | with_reducible apply Dev.setWeigh_block

theorem Dev.moveGap_block (h : BlockStep a d) (p : Nat) : BlockStep a (d.moveGap p) := by
  unfold Dev.moveGap
  repeat' first
    | with_reducible assumption
    | with_reducible apply Dev.setWeigh_block
    | with_reducible apply Dev.closeGap_block
    | with_reducible apply BlockStep.either <;> intro _
    | extract_lets
    | split

theorem Dev.moveWeigh_block (h : BlockStep a d) (p : Nat) : BlockStep a (d.moveWeigh p) := by
  unfold Dev.moveWeigh
  repeat' first
    | with_reducible assumption
    | with_reducible apply Dev.setWeigh_block
    | with_reducible apply Dev.closeWeigh_block
    | with_reducible apply BlockStep.either <;> intro _
    | extract_lets
    | split

theorem Dev.handPhase_block (h : BlockStep a d) (p : Nat) : BlockStep a (d.handPhase p) := by
  unfold Dev.handPhase
  repeat' first
    | with_reducible assumption
    | with_reducible apply Dev.moveWeigh_block
    | with_reducible apply Dev.moveGap_block

theorem Dev.layCan_block (h : BlockStep a d) (p : Word) (g : Int) (f : BitVec 6) : BlockStep a (d.layCan p g f) := by
  unfold Dev.layCan
  repeat' first
    | with_reducible assumption
    | with_reducible apply Dev.takeHead_block
    | with_reducible apply Dev.setEntry_block

theorem Dev.scaleDeparts_block (h : BlockStep a d) (p : Word) : BlockStep a (d.scaleDeparts p) := by
  unfold Dev.scaleDeparts
  repeat' first
    | with_reducible assumption
    | with_reducible apply Dev.closeGap_block
    | with_reducible apply Dev.closeWeigh_block
    | with_reducible apply Dev.layCan_block
    | with_reducible apply Dev.setWeigh_block
    | with_reducible apply BlockStep.either <;> intro _
    | extract_lets
    | split

theorem Dev.unseenDeparts_block (h : BlockStep a d) (p : Word) : BlockStep a (d.unseenDeparts p) := by
  unfold Dev.unseenDeparts
  repeat' first
    | with_reducible assumption
    | with_reducible apply Dev.setEntry_block

theorem Dev.silenceExpired_block (h : BlockStep a d) : BlockStep a (d.silenceExpired) := by
  unfold Dev.silenceExpired
  repeat' first
    | with_reducible assumption
    | with_reducible apply Dev.raise_block
    | with_reducible apply Dev.setWeigh_block
    | with_reducible apply BlockStep.either <;> intro _
    | extract_lets
    | split

theorem Dev.handOver_block (h : BlockStep a d) (v : Fin 64) (x : HandOver) : BlockStep a (d.handOver v x) := by
  unfold Dev.handOver
  repeat' first
    | with_reducible assumption
    | with_reducible apply Dev.setValve_block
    | with_reducible apply Dev.raise_block
    | with_reducible apply BlockStep.either <;> intro _
    | extract_lets
    | split

theorem Dev.commandValve_block (h : BlockStep a d) (v : Fin 64) (c : ValveCommand) (x : Int) : BlockStep a (d.commandValve v c x) := by
  unfold Dev.commandValve
  repeat' first
    | with_reducible assumption
    | with_reducible apply Dev.setValve_block

theorem Dev.takeCommandWord_block (h : BlockStep a d) (v : Nat) (w : WWord) : BlockStep a (d.takeCommandWord v w) := by
  unfold Dev.takeCommandWord
  repeat' first
    | with_reducible assumption
    | with_reducible apply Dev.commandValve_block
    | with_reducible apply BlockStep.either <;> intro _
    | extract_lets
    | split

theorem Dev.takeCommandWords_block : ∀ (ws : List WWord) (v : Nat) {d : Dev}, BlockStep a d →
    BlockStep a (Dev.takeCommandWords v ws d) := by
  intro ws
  induction ws with
  | nil => intro v d h; exact h
  | cons w ws ih => intro v d h; exact ih _ (by repeat' first | with_reducible assumption | with_reducible apply Dev.takeCommandWord_block | with_reducible apply BlockStep.either <;> intro _ | extract_lets)

theorem Dev.viewRead_block (m : Master) (noms : List (Nat × Word)) : ∀ (n i : Nat) {d : Dev},
    BlockStep a d → BlockStep a (Dev.viewRead m noms i n d).2 := by
  intro n
  induction n with
  | zero => intro i d h; exact h
  | succ n ih =>
    intro i d h
    unfold Dev.viewRead
    dsimp only
    apply ih
    split
    · exact h.trans ⟨rfl, rfl, rfl, rfl, rfl, id, Iff.rfl, fun _ => id⟩
    · exact h

theorem Dev.judge_block (h : BlockStep a d) (p : Word) : BlockStep a (d.judge p) := by
  unfold Dev.judge
  repeat' first
    | with_reducible assumption
    | with_reducible apply Dev.testPocket_block
    | with_reducible apply Dev.setEntry_block
    | with_reducible apply Dev.drawn_block
    | with_reducible apply Dev.handOver_block
    | with_reducible apply BlockStep.either <;> intro _
    | extract_lets
    | split

theorem Dev.missedRead_block (h : BlockStep a d) (p : Word) : BlockStep a (d.missedRead p) := by
  unfold Dev.missedRead
  repeat' first
    | with_reducible assumption
    | with_reducible apply Dev.setEntry_block
    | with_reducible apply Dev.raise_block
    | with_reducible apply BlockStep.either <;> intro _
    | extract_lets
    | split
    | with_reducible refine BlockStep.foldl _ (fun d _ h => ?_) _ _ ?_
    | fail_if_no_progress with_reducible refine BlockStep.put ?_ rfl rfl rfl

theorem Dev.readerDeparts_block (h : BlockStep a d) (p : Word) : BlockStep a (d.readerDeparts p) := by
  unfold Dev.readerDeparts
  repeat' first
    | with_reducible assumption
    | with_reducible apply Dev.judge_block
    | with_reducible apply Dev.missedRead_block

theorem Dev.pollGate_block (h : BlockStep a d) : BlockStep a d.pollGate.2 := by
  unfold Dev.pollGate
  split
  · exact h
  · split
    · exact h
    · dsimp only
      split
      · (repeat' first | with_reducible assumption | with_reducible apply Dev.testPocket_block | with_reducible apply Dev.setEntry_block | with_reducible apply BlockStep.either <;> intro _ | extract_lets)
      · split <;> (repeat' first | with_reducible assumption | with_reducible apply Dev.testPocket_block | with_reducible apply Dev.setEntry_block | with_reducible apply BlockStep.either <;> intro _ | extract_lets)

theorem Dev.inspectGate_block (h : BlockStep a d) : BlockStep a d.inspectGate.2 := by
  unfold Dev.inspectGate
  split
  · exact h
  · split
    · exact h
    · dsimp only
      split <;> (repeat' first | with_reducible assumption | with_reducible apply Dev.testPocket_block | with_reducible apply BlockStep.either <;> intro _ | extract_lets)

theorem Dev.gateDeparts_block (h : BlockStep a d) (p : Word) : BlockStep a (d.gateDeparts p) := by
  unfold Dev.gateDeparts
  repeat' first
    | with_reducible assumption
    | with_reducible apply Dev.setEntry_block
    | with_reducible apply Dev.testPocket_block
    | with_reducible apply Dev.raise_block
    | with_reducible apply Dev.compose_block
    | with_reducible apply Dev.releaseRecord_block
    | with_reducible apply BlockStep.either <;> intro _
    | extract_lets
    | split
    | with_reducible refine BlockStep.foldl _ (fun d _ h => ?_) _ _ ?_
    | fail_if_no_progress with_reducible refine BlockStep.put ?_ rfl rfl rfl
    | (dsimp +zetaDelta only; split)

/-! ### Codes -/

theorem Dev.laterCode_block (h : BlockStep a d) (p : Word) (c : CodeRec) : BlockStep a (d.laterCode p c) := by
  unfold Dev.laterCode
  repeat' first
    | with_reducible assumption
    | with_reducible apply Dev.duplicate_block
    | with_reducible apply Dev.setEntry_block
    | with_reducible apply Dev.conflict_block
    | with_reducible apply BlockStep.either <;> intro _

theorem Dev.searchFill_block (t : BitVec 12) : ∀ (l k : List CanRecord) (n : Nat) {d : Dev},
    BlockStep a d → BlockStep a (Dev.searchFill t l k n d).2 := by
  intro l
  induction l with
  | nil => intro k n d h; exact h
  | cons r l ih =>
    intro k n d h
    unfold Dev.searchFill
    split
    · exact h
    · split
      · exact ih _ _ (by repeat' first | with_reducible assumption | with_reducible apply Dev.failFilled_block | with_reducible apply Dev.setFillList_block | with_reducible apply BlockStep.either <;> intro _ | extract_lets)
      · split
        · exact h
        · exact ih _ _ h

theorem Dev.searchTag_block (t : BitVec 12) : ∀ (l : List Word) (n : Nat) {d : Dev},
    BlockStep a d → BlockStep a (Dev.searchTag t l n d).2 := by
  intro l
  induction l with
  | nil => intro n d h; exact Dev.searchFill_block t _ _ _ h
  | cons p l ih =>
    intro n d h
    unfold Dev.searchTag
    split
    · exact h
    · dsimp only
      split
      · exact ih _ (by repeat' first | with_reducible assumption | with_reducible apply Dev.searchFill_block | with_reducible apply Dev.testPocket_block | with_reducible apply BlockStep.either <;> intro _ | extract_lets)
      · split
        · (repeat' first | with_reducible assumption | with_reducible apply Dev.searchFill_block | with_reducible apply Dev.testPocket_block | with_reducible apply BlockStep.either <;> intro _ | extract_lets)
        · exact ih _ (by repeat' first | with_reducible assumption | with_reducible apply Dev.searchFill_block | with_reducible apply Dev.testPocket_block | with_reducible apply BlockStep.either <;> intro _ | extract_lets)

theorem Dev.freeFront_block : ∀ (k : Nat) (l : List Word) {d : Dev},
    BlockStep a d → BlockStep a (Dev.freeFront l k d) := by
  intro k
  induction k with
  | zero => intro l d h; cases l <;> exact h
  | succ k ih =>
    intro l d h
    cases l with
    | nil =>
      unfold Dev.freeFront
      split
      · exact h
      · exact ih _ (by repeat' first | with_reducible assumption | with_reducible apply Dev.freeAs_block | with_reducible apply Dev.setFillList_block | with_reducible apply Dev.setEntry_block | with_reducible apply BlockStep.either <;> intro _ | extract_lets)
    | cons p l =>
      unfold Dev.freeFront
      split
      · exact ih _ h
      · exact ih _ (by repeat' first | with_reducible assumption | with_reducible apply Dev.freeAs_block | with_reducible apply Dev.setFillList_block | with_reducible apply Dev.setEntry_block | with_reducible apply BlockStep.either <;> intro _ | extract_lets)

theorem Dev.deal_block : ∀ (q s : List Word) {d : Dev}, BlockStep a d → BlockStep a (Dev.deal q s d) := by
  intro q
  induction q with
  | nil => intro s d h; cases s <;> exact h
  | cons p q ih =>
    intro s d h
    cases s with
    | nil => exact ih _ (by repeat' first | with_reducible assumption | with_reducible apply Dev.takeHead_block | with_reducible apply Dev.setEntry_block | with_reducible apply Dev.testPocket_block | with_reducible apply BlockStep.either <;> intro _ | extract_lets)
    | cons x s => exact ih _ (by repeat' first | with_reducible assumption | with_reducible apply Dev.takeHead_block | with_reducible apply Dev.setEntry_block | with_reducible apply Dev.testPocket_block | with_reducible apply BlockStep.either <;> intro _ | extract_lets)

theorem Dev.reformMoved_block (q : List Word) (o : Dev) (h : BlockStep a d) :
    BlockStep a (Dev.reformMoved q o d) := BlockStep.foldl _ (fun d _ h => by repeat' first | with_reducible assumption | with_reducible apply Dev.setEntry_block | with_reducible apply BlockStep.either <;> intro _ | extract_lets) _ d h

theorem Dev.moveForward_block (h : BlockStep a d) (q : List Word) (k : Nat) : BlockStep a (d.moveForward q k) := by
  unfold Dev.moveForward
  repeat' first
    | with_reducible assumption
    | with_reducible apply Dev.reformMoved_block
    | with_reducible apply Dev.deal_block
    | with_reducible apply Dev.freeFront_block
    | with_reducible apply Dev.raise_block
    | with_reducible apply Dev.setCode_block

theorem Dev.pushOn_block : ∀ (q : List Word) (r : Option CanRecord) {d : Dev}, BlockStep a d →
    BlockStep a (Dev.pushOn q r d).2 := by
  intro q
  induction q with
  | nil => intro r d h; exact h
  | cons p q ih => intro r d h; exact ih _ (by repeat' first | with_reducible assumption | with_reducible apply Dev.setEntry_block | with_reducible apply BlockStep.either <;> intro _ | extract_lets)

theorem Dev.moveBackward_block (h : BlockStep a d) (q : List Word) : BlockStep a (d.moveBackward q) := by
  unfold Dev.moveBackward
  repeat' first
    | with_reducible assumption
    | with_reducible apply Dev.pushOn_block
    | with_reducible apply Dev.setFillList_block
    | with_reducible apply Dev.reformMoved_block
    | with_reducible apply Dev.raise_block
    | with_reducible apply Dev.setCode_block
    | with_reducible apply BlockStep.either <;> intro _
    | extract_lets
    | split

theorem Dev.confirm_block (h : BlockStep a d) (p : Word) (c : CodeRec) : BlockStep a (d.confirm p c) := by
  unfold Dev.confirm
  repeat' first
    | with_reducible assumption
    | with_reducible apply Dev.setEntry_block
    | with_reducible apply Dev.drawn_block
    | with_reducible apply BlockStep.either <;> intro _
    | extract_lets
    | split
    | with_reducible refine BlockStep.foldl _ (fun d _ h => ?_) _ _ ?_
    | fail_if_no_progress with_reducible refine BlockStep.put ?_ rfl rfl rfl

theorem Dev.conflict_block (h : BlockStep a d) (p : Word) : BlockStep a (d.conflict p) := by
  unfold Dev.conflict
  repeat' first
    | with_reducible assumption
    | with_reducible apply Dev.setEntry_block

theorem Dev.identify_block (h : BlockStep a d) (p : Word) (c : CodeRec) : BlockStep a (d.identify p c) := by
  unfold Dev.identify
  repeat' first
    | with_reducible assumption
    | with_reducible apply Dev.searchTag_block
    | with_reducible apply Dev.conflict_block
    | with_reducible apply Dev.confirm_block
    | with_reducible apply Dev.moveForward_block
    | with_reducible apply Dev.setEntry_block
    | with_reducible apply BlockStep.either <;> intro _
    | extract_lets
    | split

theorem Dev.untag_block (h : BlockStep a d) (p : Word) : BlockStep a (d.untag p) := by
  unfold Dev.untag
  repeat' first
    | with_reducible assumption
    | with_reducible apply Dev.moveBackward_block
    | with_reducible apply Dev.setEntry_block
    | with_reducible apply BlockStep.either <;> intro _

theorem Dev.firstCode_block (h : BlockStep a d) (p : Word) (c : CodeRec) : BlockStep a (d.firstCode p c) := by
  unfold Dev.firstCode
  repeat' first
    | with_reducible assumption
    | with_reducible apply Dev.setEntry_block
    | with_reducible apply Dev.phantom_block
    | with_reducible apply Dev.untag_block
    | with_reducible apply Dev.identify_block
    | with_reducible apply BlockStep.either <;> intro _

theorem Dev.applyCode_block (h : BlockStep a d) (c : CodeRec) : BlockStep a (d.applyCode c) := by
  unfold Dev.applyCode
  repeat' first
    | with_reducible assumption
    | with_reducible apply Dev.phantom_block
    | with_reducible apply Dev.firstCode_block
    | with_reducible apply Dev.laterCode_block
    | with_reducible apply BlockStep.either <;> intro _
    | extract_lets
    | split

theorem Dev.takeCode_block (h : BlockStep a d) (j : Nat) (c : CodeRec) (q : Word) : BlockStep a (d.takeCode j c q) := by
  unfold Dev.takeCode
  repeat' first
    | with_reducible assumption
    | with_reducible apply Dev.raise_block
    | with_reducible apply Dev.applyCode_block
    | with_reducible apply Dev.setCode_block
    | with_reducible apply BlockStep.either <;> intro _

/-! ### Loads and the Pocket counter -/

theorem Dev.beginLoad_block (h : BlockStep a d) (hu : d.setup.part ≠ .unplaced) : BlockStep a d.beginLoad := by
  have e : BlockStep a (if decide (d.setup.part = .ready) then d else d.acknowledge (~~~0#21)) := by repeat' first | with_reducible assumption | with_reducible apply Dev.acknowledge_block | with_reducible apply Dev.placeBurst_block | with_reducible apply BlockStep.either <;> intro _ | extract_lets | fail_if_no_progress with_reducible refine BlockStep.put ?_ rfl rfl rfl
  have hp : (if decide (d.setup.part = .ready) then d else d.acknowledge (~~~0#21)).setup = d.setup := by
    split
    · rfl
    · unfold Dev.acknowledge; dsimp only; split <;> rfl
  unfold Dev.beginLoad
  dsimp only
  revert e hp
  generalize (if decide (d.setup.part = .ready) then d else d.acknowledge (~~~0#21)) = e
  intro e hp
  apply Dev.placeBurst_block
  refine e.trans ⟨rfl, rfl, rfl, rfl, rfl, id, ?_, fun x => absurd (hp ▸ x) hu⟩
  rw [hp]
  exact ⟨fun x => (PartState.noConfusion x), fun x => absurd x hu⟩

theorem Dev.takeLoad_block (h : BlockStep a d) (v : LoadValue) : BlockStep a (d.takeLoad v) := by
  unfold Dev.takeLoad
  split
  · exact h
  · split
    · exact h
    · exact h
    · rename_i e; exact Dev.beginLoad_block h (by rw [e]; exact fun x => PartState.noConfusion x)
    · rename_i e
      split
      · exact Dev.beginLoad_block h (by rw [e]; exact fun x => PartState.noConfusion x)
      · split <;> (repeat' first | with_reducible assumption | with_reducible apply Dev.raise_block | with_reducible apply BlockStep.either <;> intro _ | extract_lets | fail_if_no_progress with_reducible refine BlockStep.put ?_ rfl rfl rfl)

theorem Dev.loadFailed_block (h : BlockStep a d) (hu : d.setup.part ≠ .unplaced) (b : Bool) (e : LoadError) :
    BlockStep a (d.loadFailed b e) := by
  unfold Dev.loadFailed
  apply Dev.raise_block
  refine h.trans ⟨rfl, rfl, rfl, rfl, rfl, id, ⟨fun x => ?_, fun x => absurd x hu⟩, fun x => absurd x hu⟩
  cases b <;> cases x

theorem Dev.dropGeometry_block (h : BlockStep a d) : BlockStep a (d.dropGeometry) := by
  unfold Dev.dropGeometry
  repeat' first
    | with_reducible assumption
    | with_reducible apply Dev.clearRing_block
    | with_reducible apply Dev.discardTrack_block
    | with_reducible apply BlockStep.either <;> intro _
    | extract_lets
    | split
    | with_reducible refine BlockStep.foldl _ (fun d _ h => ?_) _ _ ?_
    | fail_if_no_progress with_reducible refine BlockStep.put ?_ rfl rfl rfl

theorem Dev.loadUnits_block (h : BlockStep a d) (u : Setup) : BlockStep a (d.loadUnits u) := by
  unfold Dev.loadUnits
  repeat' first
    | with_reducible assumption
    | with_reducible apply BlockStep.either <;> intro _
    | extract_lets
    | split
    | with_reducible refine BlockStep.foldl _ (fun d _ h => ?_) _ _ ?_
    | fail_if_no_progress with_reducible refine BlockStep.put ?_ rfl rfl rfl

theorem Dev.putSetup_block (h : BlockStep a d) (hu : d.setup.part ≠ .unplaced) (u : Setup) :
    BlockStep a (d.putSetup u) :=
  h.trans ⟨rfl, rfl, rfl, rfl, rfl, id, ⟨fun x => PartState.noConfusion x, fun x => absurd x hu⟩,
    fun x => absurd x hu⟩

theorem Dev.startReporting_block (h : BlockStep a d) (u : Setup) : BlockStep a (d.startReporting u) := by
  unfold Dev.startReporting
  repeat' first
    | with_reducible assumption
    | with_reducible apply Dev.openDescriptor_block
    | with_reducible apply BlockStep.either <;> intro _
    | extract_lets
    | split

theorem Dev.loadSucceeded_block (h : BlockStep a d) (hu : d.setup.part ≠ .unplaced) (u : Setup) :
    BlockStep a (d.loadSucceeded u) := by
  unfold Dev.loadSucceeded
  dsimp only
  have e : BlockStep d (if d.geometryChanges u = true then d.dropGeometry else d) :=
    BlockStep.either (fun _ => Dev.dropGeometry_block (.refl d)) fun _ => .refl d
  have hu' : (Dev.loadUnits u (if d.geometryChanges u = true then d.dropGeometry else d)).setup.part ≠ .unplaced :=
    fun x => hu ((BlockStep.placed (Dev.loadUnits_block e u)).mp x)
  have k := Dev.putSetup_block (Dev.loadUnits_block (h.trans e) u) hu' u
  repeat' first | with_reducible assumption | with_reducible apply Dev.dropGeometry_block | with_reducible apply Dev.raise_block | with_reducible apply Dev.loadUnits_block | with_reducible apply Dev.markSuspects_block | with_reducible apply Dev.startReporting_block | with_reducible apply BlockStep.either <;> intro _ | extract_lets

theorem Dev.setupAnswered_block (h : BlockStep a d) (ok : Bool) (ws : List Word) : BlockStep a (d.setupAnswered ok ws) := by
  unfold Dev.setupAnswered
  split
  · rename_i e
    have hu : d.setup.part ≠ .unplaced := by rw [e]; exact fun x => PartState.noConfusion x
    dsimp only
    split
    · exact Dev.loadFailed_block h hu _ _
    · split
      · (repeat' first | with_reducible assumption | with_reducible apply Dev.placeBurst_block | with_reducible apply BlockStep.either <;> intro _ | extract_lets | fail_if_no_progress with_reducible refine BlockStep.put ?_ rfl rfl rfl)
      · split
        · exact Dev.loadFailed_block h hu _ _
        · exact Dev.loadSucceeded_block h hu _
  · exact h

theorem Dev.establish_block (h : BlockStep a d) (w : Word) : BlockStep a (d.establish w) := by
  unfold Dev.establish
  repeat' first
    | with_reducible assumption
    | with_reducible apply Dev.startEntry_block
    | with_reducible apply Dev.setPocket_block

theorem Dev.nonAdvance_block (h : BlockStep a d) (q : Position) : BlockStep a (d.nonAdvance q) := by
  unfold Dev.nonAdvance
  repeat' first
    | with_reducible assumption
    | with_reducible apply Dev.setPocket_block
    | with_reducible apply Dev.markSuspects_block
    | with_reducible apply Dev.raise_block
    | with_reducible apply BlockStep.either <;> intro _

theorem Dev.boundary_block (h : BlockStep a d) (f : Bool) (p : Word) : BlockStep a (d.boundary f p) := by
  unfold Dev.boundary
  repeat' first
    | with_reducible assumption
    | with_reducible apply Dev.scaleDeparts_block
    | with_reducible apply Dev.unseenDeparts_block
    | with_reducible apply Dev.readerDeparts_block
    | with_reducible apply Dev.gateDeparts_block
    | with_reducible apply Dev.startEntry_block
    | with_reducible apply BlockStep.either <;> intro _

theorem Dev.boundaries_block : ∀ (n : Nat) (f : Bool) (p : Word) {d : Dev}, BlockStep a d →
    BlockStep a (Dev.boundaries n f p d) := by
  intro n
  induction n with
  | zero => intro f p d h; exact h
  | succ n ih => intro f p d h; exact ih _ _ (by repeat' first | with_reducible assumption | with_reducible apply Dev.boundary_block | with_reducible apply BlockStep.either <;> intro _ | extract_lets)

theorem Dev.lineRuns_block (h : BlockStep a d) : BlockStep a (d.lineRuns) := by
  unfold Dev.lineRuns
  repeat' first
    | with_reducible assumption
    | with_reducible apply BlockStep.either <;> intro _
    | extract_lets
    | split
    | with_reducible refine BlockStep.foldl _ (fun d _ h => ?_) _ _ ?_
    | fail_if_no_progress with_reducible refine BlockStep.put ?_ rfl rfl rfl

theorem Dev.advance_block (h : BlockStep a d) (q : Position) : BlockStep a (d.advance q) := by
  unfold Dev.advance
  repeat' first
    | with_reducible assumption
    | with_reducible apply Dev.setPocket_block
    | with_reducible apply Dev.handPhase_block
    | with_reducible apply Dev.boundaries_block
    | with_reducible apply Dev.markSuspects_block
    | with_reducible apply Dev.raise_block
    | with_reducible apply Dev.lineRuns_block
    | with_reducible apply Dev.requestStatus_block
    | with_reducible apply BlockStep.either <;> intro _

theorem Dev.takePosition_block (h : BlockStep a d) (w : Word) : BlockStep a (d.takePosition w) := by
  unfold Dev.takePosition
  repeat' first
    | with_reducible assumption
    | with_reducible apply Dev.establish_block
    | with_reducible apply Dev.advance_block
    | with_reducible apply Dev.nonAdvance_block
    | with_reducible apply BlockStep.either <;> intro _
    | extract_lets
    | split

theorem Dev.lineStops_block (h : BlockStep a d) (hu : d.setup.part ≠ .unplaced) : BlockStep a d.lineStops := by
  unfold Dev.lineStops
  dsimp only
  split
  · refine Dev.beginLoad_block (by repeat' first | with_reducible assumption | with_reducible apply Dev.raise_block | with_reducible apply BlockStep.either <;> intro _ | extract_lets | fail_if_no_progress with_reducible refine BlockStep.put ?_ rfl rfl rfl) fun x => hu ?_
    have e : BlockStep d (Dev.raise .lineStopped
      { d with pocket := { d.pocket with running := false, stall := none, stop := .running 0 },
               weigh := { d.weigh with silence := .idle } }) :=
      Dev.raise_block (BlockStep.put (.refl d) rfl rfl rfl) _
    exact e.placed.mp x
  · (repeat' first | with_reducible assumption | with_reducible apply Dev.raise_block | with_reducible apply BlockStep.either <;> intro _ | extract_lets | fail_if_no_progress with_reducible refine BlockStep.put ?_ rfl rfl rfl)

theorem Dev.stallExpired_block (h : BlockStep a d) : BlockStep a (d.stallExpired) := by
  unfold Dev.stallExpired
  split
  · exact h
  · rename_i e
    have hu : d.setup.part ≠ .unplaced := fun x => e (Or.inl (by rw [x]; exact fun y => PartState.noConfusion y))
    split
    · exact Dev.lineStops_block h hu
    · (repeat' first | with_reducible assumption | with_reducible apply Dev.setPocket_block | with_reducible apply BlockStep.either <;> intro _ | extract_lets)

theorem Dev.stopExpired_block (h : BlockStep a d) : BlockStep a (d.stopExpired) := by
  unfold Dev.stopExpired
  repeat' first
    | with_reducible assumption
    | with_reducible apply Dev.markSuspects_block
    | with_reducible apply Dev.setPocket_block
    | with_reducible apply BlockStep.either <;> intro _
    | extract_lets
    | split

theorem Dev.rereadExpired_block (h : BlockStep a d) : BlockStep a (d.rereadExpired) := by
  unfold Dev.rereadExpired
  repeat' first
    | with_reducible assumption
    | with_reducible apply Dev.reRead_block
    | with_reducible apply BlockStep.either <;> intro _
    | extract_lets
    | split
    | with_reducible refine BlockStep.foldl _ (fun d _ h => ?_) _ _ ?_
    | fail_if_no_progress with_reducible refine BlockStep.put ?_ rfl rfl rfl

/-! ### Fills -/

theorem Dev.fillUntracked_block (h : BlockStep a d) : BlockStep a (d.fillUntracked) := by
  unfold Dev.fillUntracked
  repeat' first
    | with_reducible assumption
    | with_reducible apply Dev.raise_block
    | with_reducible apply BlockStep.either <;> intro _
    | extract_lets
    | split
    | with_reducible refine BlockStep.foldl _ (fun d _ h => ?_) _ _ ?_
    | fail_if_no_progress with_reducible refine BlockStep.put ?_ rfl rfl rfl

theorem Dev.fillEffect_block (h : BlockStep a d) (f : FormedFill) : BlockStep a (d.fillEffect f) := by
  unfold Dev.fillEffect
  repeat' first
    | with_reducible assumption
    | with_reducible apply Dev.fillUntracked_block
    | with_reducible apply Dev.setValve_block
    | with_reducible apply Dev.joinMembers_block
    | with_reducible apply BlockStep.either <;> intro _
    | extract_lets
    | split
    | with_reducible refine BlockStep.foldl _ (fun d _ h => ?_) _ _ ?_
    | fail_if_no_progress with_reducible refine BlockStep.put ?_ rfl rfl rfl

theorem Dev.countFills_block (h : BlockStep a d) (c : Ctx) : BlockStep a (d.countFills c) := by
  unfold Dev.countFills
  repeat' first
    | with_reducible assumption
    | with_reducible apply BlockStep.either <;> intro _
    | extract_lets
    | split
    | with_reducible refine BlockStep.foldl _ (fun d _ h => ?_) _ _ ?_
    | fail_if_no_progress with_reducible refine BlockStep.put ?_ rfl rfl rfl

theorem Dev.takeFills_block (h : BlockStep a d) (c : Ctx) : BlockStep a (d.takeFills c) := by
  unfold Dev.takeFills
  repeat' first
    | with_reducible assumption
    | with_reducible apply Dev.fillEffect_block
    | with_reducible apply Dev.countFills_block
    | with_reducible apply Dev.drainAll_block
    | with_reducible apply Dev.raise_block
    | with_reducible apply BlockStep.either <;> intro _
    | extract_lets
    | split
    | with_reducible refine BlockStep.foldl _ (fun d _ h => ?_) _ _ ?_

theorem Dev.switchValves_block (h : BlockStep a d) (r : Recipe) : BlockStep a (d.switchValves r) := by
  unfold Dev.switchValves
  repeat' first
    | with_reducible assumption
    | with_reducible apply Dev.setValve_block
    | with_reducible apply BlockStep.either <;> intro _
    | extract_lets
    | split
    | with_reducible refine BlockStep.foldl _ (fun d _ h => ?_) _ _ ?_

theorem Dev.fillOldEntry_block (h : BlockStep a d) (c : Ctx) : BlockStep a (d.fillOldEntry c) := by
  unfold Dev.fillOldEntry
  repeat' first
    | with_reducible assumption
    | with_reducible apply Dev.updateEntry_block
    | with_reducible apply BlockStep.either <;> intro _
    | extract_lets
    | split

theorem Dev.startNewEntry_block (h : BlockStep a d) (r : LotRef) : BlockStep a (d.startNewEntry r) := by
  unfold Dev.startNewEntry
  repeat' first
    | with_reducible assumption
    | with_reducible apply Dev.updateEntry_block
    | with_reducible apply BlockStep.either <;> intro _
    | extract_lets
    | split
    | with_reducible refine BlockStep.foldl _ (fun d _ h => ?_) _ _ ?_
    | fail_if_no_progress with_reducible refine BlockStep.put ?_ rfl rfl rfl

theorem Dev.switchTo_block (h : BlockStep a d) (k : Fin 4) (c : Ctx) : BlockStep a (d.switchTo k c) := by
  unfold Dev.switchTo
  repeat' first
    | with_reducible assumption
    | with_reducible apply Dev.fillOldEntry_block
    | with_reducible apply Dev.switchValves_block
    | with_reducible apply Dev.setSlot_block
    | with_reducible apply Dev.startNewEntry_block
    | with_reducible apply Dev.drainIfEmpty_block
    | with_reducible apply Dev.raise_block
    | with_reducible apply Dev.reformBare_block
    | with_reducible apply BlockStep.either <;> intro _
    | extract_lets
    | split
    | with_reducible refine BlockStep.foldl _ (fun d _ h => ?_) _ _ ?_
    | fail_if_no_progress with_reducible refine BlockStep.put ?_ rfl rfl rfl

/-! ### Service orders and stored writes -/

theorem Dev.serviceDone_block (h : BlockStep a d) (o : ServiceOrder) : BlockStep a (d.serviceDone o) := by
  unfold Dev.serviceDone
  repeat' first
    | with_reducible assumption
    | with_reducible apply Dev.writeServiceEntry_block
    | with_reducible apply Dev.setService_block
    | with_reducible apply Dev.pushOrderWrite_block
    | with_reducible apply Dev.raise_block
    | with_reducible apply BlockStep.either <;> intro _

theorem Dev.serviceFails_block (h : BlockStep a d) (o : ServiceOrder) (c : OrderCode) : BlockStep a (d.serviceFails o c) := by
  unfold Dev.serviceFails
  repeat' first
    | with_reducible assumption
    | with_reducible apply Dev.pushOrderWrite_block
    | with_reducible apply Dev.writeServiceEntry_block
    | with_reducible apply Dev.raiseAt_block
    | with_reducible apply Dev.setService_block
    | with_reducible apply Dev.writeServiceEntries_block

theorem Dev.setSpan_block (h : BlockStep a d) (o : ServiceOrder) (e : ServiceEntry) : BlockStep a (d.setSpan o e) := by
  unfold Dev.setSpan
  repeat' first
    | with_reducible assumption
    | with_reducible apply Dev.serviceDone_block
    | with_reducible apply Dev.setWeigh_block
    | with_reducible apply Dev.serviceFails_block
    | with_reducible apply BlockStep.either <;> intro _

theorem Dev.zeroCapture_block (h : BlockStep a d) (o : ServiceOrder) (e : ServiceEntry) : BlockStep a (d.zeroCapture o e) := by
  unfold Dev.zeroCapture
  repeat' first
    | with_reducible assumption
    | with_reducible apply Dev.serviceDone_block
    | with_reducible apply Dev.setWeigh_block

theorem Dev.clearTrack_block (h : BlockStep a d) (o : ServiceOrder) (e : ServiceEntry) : BlockStep a (d.clearTrack o e) := by
  unfold Dev.clearTrack
  repeat' first
    | with_reducible assumption
    | with_reducible apply Dev.serviceFails_block
    | with_reducible apply Dev.serviceDone_block
    | with_reducible apply Dev.clearRing_block
    | with_reducible apply Dev.discardTrack_block
    | with_reducible apply BlockStep.either <;> intro _

theorem Dev.valveGroup_block (h : BlockStep a d) (n : Nat) (o : ServiceOrder) (e : ServiceEntry) : BlockStep a (d.valveGroup n o e) := by
  unfold Dev.valveGroup
  repeat' first
    | with_reducible assumption
    | with_reducible apply Dev.serviceFails_block
    | with_reducible apply Dev.commandValve_block
    | with_reducible apply Dev.serviceDone_block
    | with_reducible apply Dev.setService_block
    | with_reducible apply BlockStep.either <;> intro _
    | extract_lets
    | split
    | with_reducible refine BlockStep.foldl _ (fun d _ h => ?_) _ _ ?_

theorem Dev.reportFlush_block (h : BlockStep a d) (o : ServiceOrder) (e : ServiceEntry) : BlockStep a (d.reportFlush o e) := by
  unfold Dev.reportFlush
  repeat' first
    | with_reducible assumption
    | with_reducible apply Dev.serviceDone_block
    | with_reducible apply Dev.flushTaken_block
    | with_reducible apply BlockStep.either <;> intro _

theorem Dev.reportRestart_block (h : BlockStep a d) (o : ServiceOrder) (e : ServiceEntry) : BlockStep a (d.reportRestart o e) := by
  unfold Dev.reportRestart
  repeat' first
    | with_reducible assumption
    | with_reducible apply Dev.serviceFails_block
    | with_reducible apply Dev.serviceDone_block
    | with_reducible apply Dev.restartTaken_block
    | with_reducible apply BlockStep.either <;> intro _

theorem Dev.unknownOp_block (h : BlockStep a d) : BlockStep a (d.unknownOp) := by
  unfold Dev.unknownOp
  repeat' first
    | with_reducible assumption
    | with_reducible apply Dev.settle_block
    | with_reducible apply Dev.serviceFails_block
    | with_reducible apply BlockStep.either <;> intro _
    | extract_lets
    | split

theorem Dev.service_block (h : BlockStep a d) (op : Nat) (f : ServiceOrder → ServiceEntry → Dev → Dev)
    (hf : ∀ o e d, BlockStep a d → BlockStep a (f o e d)) : BlockStep a (d.service op f) := by
  unfold Dev.service
  split
  · exact h
  · split
    · exact Dev.settle_block (hf _ _ _ h)
    · exact h

theorem Dev.takeControl_block (h : BlockStep a d) (k : Window) (w : Word) :
    BlockStep a (d.takeControl k w).2 := by
  cases k <;> simp only [Dev.takeControl, Dev.setMode_block, Dev.orderAWritten_block, Dev.orderBWritten_block,
    Dev.acknowledge_block, Dev.setQueryRef_block, Dev.setQueryCare_block, Dev.setMask_block, h]
  split <;> (repeat' first | with_reducible assumption | with_reducible apply Dev.takeLoad_block | with_reducible apply Dev.setMode_block | with_reducible apply Dev.orderAWritten_block | with_reducible apply Dev.orderBWritten_block | with_reducible apply Dev.acknowledge_block | with_reducible apply Dev.setQueryRef_block | with_reducible apply Dev.setQueryCare_block | with_reducible apply Dev.setMask_block | with_reducible apply BlockStep.either <;> intro _ | extract_lets)

theorem Dev.takeReady_block (h : BlockStep a d) (m : Master) (k : Window) (i : Nat) (ws : List WWord) :
    BlockStep a (d.takeReady m k i ws).2 := by
  unfold Dev.takeReady
  split
  · exact Dev.takeCommandWords_block _ _ h
  · split
    · exact Dev.takeSamples_block _ _ h
    · exact h
  · split <;> exact h
  · split
    · (repeat' first | with_reducible assumption | with_reducible apply Dev.takeCommandWords_block | with_reducible apply Dev.takeSamples_block | with_reducible apply Dev.takePosition_block | with_reducible apply Dev.takeControl_block | with_reducible apply BlockStep.either <;> intro _ | extract_lets)
    · exact h
  · split
    · exact Dev.takeControl_block h _ _
    · exact h
  · exact h

/-- The blocks' part of a stored write, by the row of the map it lies in and the part state. The equation is
about the pair, so that a proof never evaluates the control area's base. -/
theorem Dev.takeStore_eq (m : Master) (x : Nat) (ws : List WWord) (d : Dev) :
    d.takeStore m x ws = ([], d) ∨
      ∃ r, d.rowOf (.write m x ws) = some r ∧ (d.setup.part = .ready ∨ d.setup.part = .unloaded ∧ r.kind = .load) ∧
        d.takeStore m x ws = d.takeReady m r.kind ((x - d.base - r.off) / 4) ws := by
  unfold Dev.takeStore
  generalize d.rowOf (.write m x ws) = o
  cases o with
  | none => exact .inl rfl
  | some r =>
    generalize hp : d.setup.part = p
    cases p with
    | unplaced => exact .inl rfl
    | loading b => exact .inl rfl
    | ready => exact .inr ⟨r, rfl, .inl rfl, rfl⟩
    | unloaded =>
      by_cases hk : r.kind = .load
      · exact .inr ⟨r, rfl, .inr ⟨rfl, hk⟩, if_pos hk⟩
      · exact .inl (if_neg hk)

theorem Dev.takeStore_block (h : BlockStep a d) (m : Master) (x : Nat) (ws : List WWord) :
    BlockStep a (d.takeStore m x ws).2 := by
  rcases Dev.takeStore_eq m x ws d with e | ⟨r, _, _, e⟩ <;> rw [e]
  · exact h
  · exact Dev.takeReady_block h _ _ _ _

end Sys2Proof.Machine
end

