-- ==== Sys2Proof/Laws/Memory.lean ====
section
/-! SUPPORT. Controller memory: what a byte reads as after a write, and the canonical form kept. -/

namespace Sys2Proof.Machine.Memory

theorem wfAbove_read_blank : ∀ (m : List Host.Cell) (l a : Nat), wfAbove (some l) m = true → a ≤ l →
    read m a = blank := by
  intro m
  induction m with
  | nil => intro l a _ _; rfl
  | cons c m ih =>
    obtain ⟨x, b⟩ := c
    intro l a h ha
    simp only [wfAbove, Bool.and_eq_true, decide_eq_true_eq] at h
    have hx : x ≠ a := by omega
    simp only [read, hx, if_false]
    exact ih x a h.2 (by omega)

/-- A lower bound may be lowered. -/
theorem wfAbove_mono : ∀ (m : List Host.Cell) (lo : Option Nat) (x : Nat),
    (∀ l, lo = some l → l ≤ x) → wfAbove (some x) m = true → wfAbove lo m = true := by
  intro m lo x hl h
  cases m with
  | nil => rfl
  | cons c m =>
    obtain ⟨y, b⟩ := c
    simp only [wfAbove, Bool.and_eq_true, decide_eq_true_eq] at h ⊢
    refine ⟨⟨?_, h.1.2⟩, h.2⟩
    cases lo with
    | none => rfl
    | some l => have := hl l rfl; simp; omega

/-- A write reads back, and touches no other byte. -/
theorem read_write : ∀ (m : List Host.Cell) (lo : Option Nat) (a b : Nat) (v : Byte),
    wfAbove lo m = true → read (write m a v) b = if b = a then v else read m b := by
  intro m
  induction m with
  | nil =>
    intro lo a b v _
    by_cases hv : v = blank
    · simp [write, read, hv]
    · by_cases hb : b = a
      · simp [write, read, hv, hb]
      · simp [write, read, hv, hb, Ne.symm hb]
  | cons c m ih =>
    obtain ⟨x, y⟩ := c
    intro lo a b v h
    simp only [wfAbove, Bool.and_eq_true, decide_eq_true_eq] at h
    unfold write
    by_cases h1 : a < x
    · by_cases hv : v = blank
      · by_cases hb : b = a
        · subst hb
          have : x ≠ b := by omega
          simp [h1, hv, read, this, wfAbove_read_blank m x b h.2 (by omega)]
        · simp [h1, hv, hb]
      · by_cases hb : b = a
        · subst hb; simp [h1, hv, read]
        · simp [h1, hv, hb, read, Ne.symm hb]
    · by_cases h2 : a = x
      · subst h2
        by_cases hv : v = blank
        · by_cases hb : b = a
          · subst hb; simp [hv, wfAbove_read_blank m b b h.2 (le_refl _)]
          · simp [hv, hb, read, Ne.symm hb]
        · by_cases hb : b = a
          · subst hb; simp [hv, read]
          · simp [hv, hb, read, Ne.symm hb]
      · by_cases hx : x = b
        · subst hx; simp [h1, h2, read, Ne.symm h2]
        · simp [h1, h2, read, hx, ih (some x) a b v h.2]

theorem wfAbove_write : ∀ (m : List Host.Cell) (lo : Option Nat) (a : Nat) (v : Byte),
    (∀ l, lo = some l → l < a) → wfAbove lo m = true → wfAbove lo (write m a v) = true := by
  intro m
  induction m with
  | nil =>
    intro lo a v hl _
    by_cases hv : v = blank
    · simp [write, hv, wfAbove]
    · cases lo with
      | none => simp [write, hv, wfAbove]
      | some l => simp [write, hv, wfAbove, hl l rfl]
  | cons c m ih =>
    obtain ⟨x, y⟩ := c
    intro lo a v hl h
    have h' := h
    simp only [wfAbove, Bool.and_eq_true, decide_eq_true_eq] at h
    unfold write
    by_cases h1 : a < x
    · by_cases hv : v = blank
      · simp only [h1, hv, if_true]; exact h'
      · simp only [h1, hv, if_true, if_false, wfAbove, Bool.and_eq_true, decide_eq_true_eq]
        refine ⟨⟨?_, hv⟩, ⟨by simpa using h1, h.1.2⟩, h.2⟩
        cases lo with
        | none => rfl
        | some l => simp [hl l rfl]
    · by_cases h2 : a = x
      · subst h2
        by_cases hv : v = blank
        · simp only [h1, hv, if_true, if_false]
          exact wfAbove_mono m lo a (fun l e => by have := hl l e; omega) h.2
        · simp only [h1, hv, if_true, if_false, wfAbove, Bool.and_eq_true, decide_eq_true_eq]
          exact ⟨⟨h.1.1, hv⟩, h.2⟩
      · simp only [h1, h2, if_false, wfAbove, Bool.and_eq_true, decide_eq_true_eq]
        exact ⟨h.1, ih (some x) a v (fun l e => by cases e; omega) h.2⟩

/-- A byte written keeps the canonical form. -/
theorem wf_write {m : List Host.Cell} (h : wf m = true) (a : Nat) (v : Byte) : wf (write m a v) = true :=
  wfAbove_write m none a v (fun _ e => nomatch e) h

theorem wf_writeLane {m : List Host.Cell} (h : wf m = true) (a : Nat) (w : WWord) (i : Nat) :
    wf (writeLane m a w i) = true := by
  unfold writeLane; split
  · exact wf_write h _ _
  · exact h

/-- A word written keeps the canonical form. -/
theorem wf_writeWord {m : List Host.Cell} (h : wf m = true) (a : Nat) (w : WWord) :
    wf (writeWord m a w) = true :=
  wf_writeLane (wf_writeLane (wf_writeLane (wf_writeLane h a w 0) a w 1) a w 2) a w 3

/-- Words written keep the canonical form. -/
theorem wf_writeWords : ∀ (ws : List WWord) {m : List Host.Cell}, wf m = true → ∀ a,
    wf (writeWords m a ws) = true := by
  intro ws
  induction ws with
  | nil => intro m h a; exact h
  | cons w ws ih => intro m h a; exact ih (wf_writeWord h a w) (a + 4)

/-- Reading after one lane of a word is written. -/
theorem read_writeLane {m : List Host.Cell} (h : wf m = true) (a b : Nat) (w : WWord) (i : Nat) :
    read (writeLane m a w i) b =
      if w.be.getLsbD i = true ∧ b = a + i then byteOf w.data i else read m b := by
  unfold writeLane; split
  · rename_i hb; rw [read_write m none _ _ _ h]; simp [hb]
  · rename_i hb; simp [hb]

/-- A word's write touches no byte outside the word. -/
theorem read_writeWord_outside {m : List Host.Cell} (h : wf m = true) (a b : Nat) (w : WWord)
    (hb : b < a ∨ a + 4 ≤ b) : read (writeWord m a w) b = read m b := by
  unfold writeWord
  have h0 := wf_writeLane h a w 0
  have h1 := wf_writeLane h0 a w 1
  have h2 := wf_writeLane h1 a w 2
  rw [read_writeLane h2, if_neg (by omega), read_writeLane h1, if_neg (by omega), read_writeLane h0,
    if_neg (by omega), read_writeLane h, if_neg (by omega)]

/-- An enabled byte of a written word reads back; one not enabled is as before. -/
theorem read_writeWord_lane {m : List Host.Cell} (h : wf m = true) (a : Nat) (w : WWord) (i : Nat)
    (hi : i < 4) : read (writeWord m a w) (a + i) =
      if w.be.getLsbD i then byteOf w.data i else read m (a + i) := by
  unfold writeWord
  have h0 := wf_writeLane h a w 0
  have h1 := wf_writeLane h0 a w 1
  have h2 := wf_writeLane h1 a w 2
  rw [read_writeLane h2, read_writeLane h1, read_writeLane h0, read_writeLane h]
  have hc : i = 0 ∨ i = 1 ∨ i = 2 ∨ i = 3 := by omega
  rcases hc with rfl | rfl | rfl | rfl <;> simp

/-- A write of words touches no byte outside them. -/
theorem read_writeWords_outside : ∀ (ws : List WWord) {m : List Host.Cell}, wf m = true → ∀ a b,
    (b < a ∨ a + 4 * ws.length ≤ b) → read (writeWords m a ws) b = read m b := by
  intro ws
  induction ws with
  | nil => intro m _ a b _; rfl
  | cons w ws ih =>
    intro m h a b hb
    simp only [List.length_cons] at hb
    simp only [writeWords]
    rw [ih (wf_writeWord h a w) (a + 4) b (by omega),
      read_writeWord_outside h a b w (by omega)]

/-- A fully enabled word reads back whole. -/
theorem readWord_writeWord {m : List Host.Cell} (h : wf m = true) (a : Nat) (w : Word) :
    readWord (writeWord m a (fullWord w)) a = w := by
  have e : ∀ i, i < 4 → read (writeWord m a (fullWord w)) (a + i) = byteOf w i := by
    intro i hi
    rw [read_writeWord_lane h a (fullWord w) i hi]
    have hc : i = 0 ∨ i = 1 ∨ i = 2 ∨ i = 3 := by omega
    rcases hc with rfl | rfl | rfl | rfl <;> simp [fullWord]
  have e0 := e 0 (by omega)
  simp only [Nat.add_zero] at e0
  unfold readWord
  rw [e0, e 1 (by omega), e 2 (by omega), e 3 (by omega)]
  apply BitVec.eq_of_toNat_eq
  have hw := w.isLt
  simp only [wordOfBytes, byteOf, BitVec.toNat_ofNat]
  omega

end Sys2Proof.Machine.Memory
end

