-- ==== Sys2Proof/Laws/Bus.lean ====
section
/-! SUPPORT. The upstream port said once: each piece of `State.serve` as an equation, the induction over it, a
transaction of one access, and a run of accesses from a quiet port. -/

namespace Sys2Proof.Machine

/-! ### The pieces of serve -/

theorem State.serve_idle (n b : Nat) {s : State} (h : s.dev.path.upstream = []) : State.serve n b s = s := by
  cases n with
  | zero => rfl
  | succ n => simp only [State.serve, h]

variable {s : State} {h : Held} {us : List Held}

theorem State.serve_accept (n b : Nat) (hu : s.dev.path.upstream = h :: us) (hw : h.work = none) :
    State.serve (n + 1) b s = State.serve n b (s.accept h) := by
  rw [State.serve]; simp only [hu, hw]

theorem State.serve_answer (n b : Nat) (hu : s.dev.path.upstream = h :: us) (hw : h.work = some []) :
    State.serve (n + 1) b s =
      State.serve n b (State.answer (.okay h.ctx.ans) { s with dev := s.dev.freePort }) := by
  rw [State.serve]; simp only [hu, hw]

theorem State.serve_work (n b : Nat) {mi : Micro} {rest : List Micro} (hu : s.dev.path.upstream = h :: us)
    (hw : h.work = some (mi :: rest)) (ha : mi.access h.ctx s.dev = none) :
    State.serve (n + 1) b s = State.serve n b { s with dev := s.dev.progress h mi rest [] } := by
  rw [State.serve]; simp only [hu, hw, ha]

theorem State.serve_grant (n b : Nat) {mi : Micro} {rest : List Micro} {x : Access}
    (hu : s.dev.path.upstream = h :: us) (hw : h.work = some (mi :: rest)) (ha : mi.access h.ctx s.dev = some x)
    (hg : s.dev.grantable = true) :
    State.serve (n + 1) (b + 1) s = State.serve n b (s.grantAccess h mi rest x) := by
  rw [State.serve]; simp only [hu, hw, ha, hg, if_true]

/-- What every piece of serve keeps, serve keeps. -/
theorem State.serve_induct (P : State → Prop)
    (accept : ∀ s h us, s.dev.path.upstream = h :: us → P s → P (s.accept h))
    (answer : ∀ s a, P s → P (State.answer a { s with dev := s.dev.freePort }))
    (work : ∀ s h us mi rest, s.dev.path.upstream = h :: us → h.work = some (mi :: rest) →
      mi.access h.ctx s.dev = none → P s → P { s with dev := s.dev.progress h mi rest [] })
    (grant : ∀ s h us mi rest x, s.dev.path.upstream = h :: us → h.work = some (mi :: rest) →
      mi.access h.ctx s.dev = some x → s.dev.grantable = true → P s → P (s.grantAccess h mi rest x)) :
    ∀ (n b : Nat) (s : State), P s → P (State.serve n b s) := by
  intro n
  induction n with
  | zero => exact fun _ _ hp => hp
  | succ n ih =>
    intro b s hp
    rw [State.serve]
    split
    · exact hp
    · rename_i h us hu
      split
      · exact ih _ _ (accept s h us hu hp)
      · exact ih _ _ (answer s _ hp)
      · rename_i mi rest hw
        split
        · rename_i ha; exact ih _ _ (work s h us mi rest hu hw ha hp)
        · rename_i x ha
          split
          · exact hp
          · split
            · rename_i hg; exact ih _ _ (grant s h us mi rest x hu hw ha hg hp)
            · exact hp

/-! ### The upstream port changed alone -/

@[simp] theorem Dev.withUp_withUp (u v : List Held) (d : Dev) : (d.withUp u).withUp v = d.withUp v := rfl
theorem Dev.withUp_self (d : Dev) : d.withUp d.path.upstream = d := rfl
theorem Dev.setHead_withUp (h k : Held) (us : List Held) (d : Dev) :
    Dev.setHead h (d.withUp (k :: us)) = d.withUp (h :: us) := rfl
theorem Dev.freePort_withUp (k : Held) (us : List Held) (d : Dev) : Dev.freePort (d.withUp (k :: us)) = d.withUp us := rfl
theorem Micro.access_withUp (mi : Micro) (c : Ctx) (u : List Held) (d : Dev) :
    mi.access c (d.withUp u) = mi.access c d := by cases mi <;> rfl
theorem Dev.countGrant_withUp (u : List Held) (d : Dev) : (d.withUp u).countGrant = d.countGrant.withUp u := by
  unfold Dev.countGrant
  by_cases h : d.waitingBursts.isEmpty
  · rw [if_pos h, if_pos (show (d.withUp u).waitingBursts.isEmpty = true from h)]
  · rw [if_neg h, if_neg (show ¬(d.withUp u).waitingBursts.isEmpty = true from h)]; rfl
theorem Dev.placeBurst_withUp (b : Burst) (u : List Held) (d : Dev) :
    Dev.placeBurst b (d.withUp u) = (d.placeBurst b).withUp u := by
  unfold Dev.placeBurst
  by_cases h : d.setup.part = .unplaced ∨ d.path.lrst = true
  · rw [if_pos h, if_pos (show (d.withUp u).setup.part = .unplaced ∨ (d.withUp u).path.lrst = true from h)]
  · rw [if_neg h, if_neg (show ¬((d.withUp u).setup.part = .unplaced ∨ (d.withUp u).path.lrst = true) from h)]
    rfl
theorem Dev.settle_withUp (u : List Held) (d : Dev) : (d.withUp u).settle = d.settle.withUp u := by
  unfold Dev.settle
  by_cases h : d.report.request = false ∨ d.path.lrst = true ∨ d.setup.part = .unplaced
  · rw [if_pos h, if_pos (show (d.withUp u).report.request = false ∨ (d.withUp u).path.lrst = true ∨
      (d.withUp u).setup.part = .unplaced from h)]
  · rw [if_neg h, if_neg (show ¬((d.withUp u).report.request = false ∨ (d.withUp u).path.lrst = true ∨
      (d.withUp u).setup.part = .unplaced) from h)]
    show (match d.report.status with
      | .idle => (d.withUp u).formStatus
      | .first _ => _
      | .second => _) = _
    cases d.report.status with
    | idle => exact Dev.placeBurst_withUp _ u { d with report := { d.report with
        request := false, status := .first (d.statusWords.drop 8) } }
    | first _ => rfl
    | second => rfl
theorem Dev.raise_withUp (c : Cause) (u : List Held) (d : Dev) : Dev.raise c (d.withUp u) = (d.raise c).withUp u := by
  unfold Dev.raise
  by_cases h : d.setup.part = .unplaced
  · rw [if_pos h, if_pos (show (d.withUp u).setup.part = .unplaced from h)]
  · rw [if_neg h, if_neg (show ¬(d.withUp u).setup.part = .unplaced from h)]
    by_cases k : d.report.pending.getLsbD c.bit = true
    · rw [if_pos k, if_pos (show (d.withUp u).report.pending.getLsbD c.bit = true from k)]
    · rw [if_neg k, if_neg (show ¬(d.withUp u).report.pending.getLsbD c.bit = true from k)]; rfl

theorem Dev.viewNeeds_withUp (u : List Held) (d : Dev) (m : Master) : ∀ (n i : Nat) (l : Option (Master × Nat)),
    (d.withUp u).viewNeeds m l i n = d.viewNeeds m l i n := by
  intro n
  induction n with
  | zero => exact fun _ _ => rfl
  | succ n ih =>
    intro i l
    unfold Dev.viewNeeds
    simp only [ih]
    rfl
theorem Dev.readWork_withUp (u : List Held) (d : Dev) (m : Master) (k : Window) (x i n : Nat) :
    (d.withUp u).readWork m k x i n = d.readWork m k x i n := by
  cases k <;> try rfl
  unfold Dev.readWork
  simp only [Dev.viewNeeds_withUp]
  rfl
theorem Dev.workOf_withUp (u : List Held) (d : Dev) (t : Txn) : (d.withUp u).workOf t = d.workOf t := by
  unfold Dev.workOf
  simp only [Dev.readWork_withUp]
  rfl

theorem Dev.settle_quiet {d : Dev} (h : d.report.request = false) : d.settle = d := by
  unfold Dev.settle; rw [if_pos (.inl h)]

theorem State.Quiet.grantable (q : s.Quiet) : s.dev.grantable = true := by
  simp [Dev.grantable, Dev.waitingBursts, q.port, q.bursts]

theorem State.Quiet.portFree (q : s.Quiet) : s.PortFree := ⟨q.upstream, q.grantable⟩

theorem Dev.countGrant_quiet {d : Dev} (h : d.path.bursts = []) : d.countGrant = d := by
  unfold Dev.countGrant Dev.waitingBursts; rw [h]; rfl

/-! ### Presenting a transaction at an idle port -/

/-- The machine holding transaction `t` with work `w` and context `c`, memory answering every access OKAY. -/
def State.holding (t : Txn) (w : Option (List Micro)) (c : Ctx) (s : State) : State :=
  { s with dev := s.dev.withUp [{ txn := t, faultAt := none, work := w, ctx := c }] }

theorem State.present_idle {t : Txn} {a : MemAns} (hu : s.dev.path.upstream = []) (ha : a.clean) :
    s.present t a = State.serve serveFuel serveFuel (s.portsClear.holding t none (Ctx.init 0)) := by
  unfold State.present
  rw [if_pos hu, ha.1, ha.2]
  unfold State.queueUp
  rw [show s.portsClear.dev.path.upstream = [] from hu]
  rfl

theorem State.present_accepted {t : Txn} {a : MemAns} (hu : s.dev.path.upstream = []) (ha : a.clean)
    (hr : s.dev.refuses t = false) :
    s.present t a =
      State.serve 1023 1024 (s.portsClear.holding t (some (s.dev.workOf t)) (Ctx.init s.dev.fill.seq)) := by
  rw [State.present_idle hu ha, show serveFuel = 1023 + 1 from rfl, State.serve_accept _ _ rfl rfl]
  unfold State.accept
  rw [if_neg (by rw [show (s.portsClear.holding t none (Ctx.init 0)).dev.refuses t = s.dev.refuses t from rfl, hr]; decide)]
  dsimp only
  rw [show (s.portsClear.holding t none (Ctx.init 0)).dev.workOf t = s.dev.workOf t from Dev.workOf_withUp _ _ _]
  rfl

/-- The path fault count after one more path refusal or path fault (R157). -/
def Dev.faulted (d : Dev) : Dev := { d with path := { d.path with faults := d.path.faults + 1#32 } }

/-- A refused transaction (R157): one response, no access. -/
theorem State.present_refused {t : Txn} {a : MemAns} (hu : s.dev.path.upstream = [])
    (hr : s.dev.refuses t = true) :
    s.present t a = State.served t.master [] .fault
      { s with dev := Dev.settle (Dev.raise .pathFault s.dev.faulted) } := by
  have e (h : Held) : Dev.pathRefusal (s.dev.withUp [h]) = Dev.settle (Dev.raise .pathFault s.dev.faulted) := by
    unfold Dev.pathRefusal
    rw [show Dev.freePort { (s.dev.withUp [h]) with path :=
        { (s.dev.withUp [h]).path with faults := (s.dev.withUp [h]).path.faults + 1#32 } } =
        s.dev.faulted.withUp s.dev.path.upstream by rw [hu]; rfl]
    rfl
  unfold State.present
  rw [if_pos hu]
  have k := State.serve_accept (s := s.portsClear.queueUp { txn := t, faultAt := a.faultAt, work := none, ctx := Ctx.init 0 })
    (h := { txn := t, faultAt := a.faultAt, work := none, ctx := Ctx.init 0 }) (us := [])
    1023 (a.pauseAt.getD serveFuel) (by show s.dev.path.upstream ++ [_] = _; rw [hu]; rfl) rfl
  refine Eq.trans k ?_
  unfold State.accept
  rw [if_pos (show (s.portsClear.queueUp _).dev.refuses t = true from hr)]
  unfold State.queueUp
  dsimp only
  rw [show s.portsClear.dev.path.upstream = [] from hu, show s.portsClear.dev = s.dev from rfl, List.nil_append, e,
    State.serve_idle]
  · rfl
  have := (Dev.settle_block (Dev.raise_block (.refl s.dev.faulted) .pathFault)).upstream
  exact this.trans hu

/-- Transaction `t` held with one piece of work. -/
def Held.fresh (t : Txn) (mi : Micro) (seq : Word) : Held :=
  { txn := t, faultAt := none, work := some [mi], ctx := Ctx.init seq }

/-- A transaction whose work is one access and what follows from it. -/
theorem State.present_one {t : Txn} {a : MemAns} {mi : Micro} {x : Access} (p : s.PortFree) (ha : a.clean)
    (hr : s.dev.refuses t = false) (hw : s.dev.workOf t = [mi])
    (hx : mi.access (Ctx.init s.dev.fill.seq) s.dev = some x) {r : List Micro × Ctx × Dev}
    (hd : (s.dev.countGrant.withUp [Held.fresh t mi s.dev.fill.seq]).workDone (Held.fresh t mi s.dev.fill.seq)
      (x.words s.mem) mi = r)
    (h1 : r.1 = []) (hup : r.2.2.path.upstream.drop 1 = []) :
    s.present t a = State.served t.master [x] (.okay r.2.1.ans)
      { s with mem := x.land s.mem, dev := (r.2.2.withUp []).settle } := by
  rw [State.present_accepted p.1 ha hr, hw]
  have g := State.serve_grant (s := s.portsClear.holding t (some [mi]) (Ctx.init s.dev.fill.seq)) 1022 1023 rfl rfl
    (mi.access_withUp _ _ _ |>.trans hx) p.2
  refine g.trans ?_
  unfold State.grantAccess
  dsimp only
  unfold Dev.progress
  unfold Held.fresh at hd
  rw [show (s.portsClear.holding t (some [mi]) (Ctx.init s.dev.fill.seq)).dev.countGrant = s.dev.countGrant.withUp _ from
    Dev.countGrant_withUp _ _,
    show (State.issue (.upstream t.master) x (s.portsClear.holding t (some [mi]) (Ctx.init s.dev.fill.seq))).mem = s.mem from rfl,
    hd]
  dsimp only
  rw [h1]
  have k : ∀ v : List Held, v.drop 1 = [] → ∀ h : Held, ∀ e : Dev, e.path.upstream = v →
      Dev.settle (Dev.setHead h e) = (e.withUp []).settle.withUp [h] := by
    intro v hv h e he
    rw [← Dev.settle_withUp]
    unfold Dev.setHead
    rw [he, hv]; rfl
  rw [k _ hup _ _ rfl, State.serve_answer 1021 _ rfl rfl, State.serve_idle, Dev.settle_withUp]
  · rfl
  · rfl

/-! ### Where a window's transactions lie (R157, 12.1) -/

/-- A placed control area lies wholly inside memory (R158). -/
theorem Dev.area_inside {d : Dev} (h : d.base < d.size) : d.base + areaSize ≤ d.size := by
  unfold Dev.base Dev.size areaBase memoryBytes at *
  have h1 : d.path.cabase + 1 ≤ 2 ^ d.path.memsize := Nat.lt_of_mul_lt_mul_left h
  have h2 := Nat.mul_le_mul_left (2 ^ 20) h1
  have h3 : areaSize = 65536 := rfl
  omega

/-- The windows of more than one word. -/
theorem rowAt_window (o : Nat) :
    (0x300 ≤ o ∧ o < 0x400 → rowAt o = some ⟨0x300, 64, .nominal⟩) ∧
    (0x400 ≤ o ∧ o < 0x500 → rowAt o = some ⟨0x400, 64, .issued⟩) ∧
    (0x500 ≤ o ∧ o < 0x600 → rowAt o = some ⟨0x500, 64, .add⟩) ∧
    (0x600 ≤ o ∧ o < 0x700 → rowAt o = some ⟨0x600, 64, .command⟩) ∧
    (0x800 ≤ o ∧ o < 0x1000 → rowAt o = some ⟨0x800, 512, .code⟩) ∧
    (0x1000 ≤ o ∧ o < 0x2000 → rowAt o = some ⟨0x1000, 1024, .valveView⟩) ∧
    (0x4000 ≤ o ∧ o < 0x8000 → rowAt o = some ⟨0x4000, 4096, .sample⟩) := by
  have hit (r : WindowRow) (l : List WindowRow) (h : r.off ≤ o ∧ o < r.off + 4 * r.words) :
      (r :: l).find? (fun r => decide (r.off ≤ o) && decide (o < r.off + 4 * r.words)) = some r := by
    simp [h.1, h.2]
  have miss (r : WindowRow) (l : List WindowRow) (h : ¬(r.off ≤ o ∧ o < r.off + 4 * r.words)) :
      (r :: l).find? (fun r => decide (r.off ≤ o) && decide (o < r.off + 4 * r.words)) =
        l.find? (fun r => decide (r.off ≤ o) && decide (o < r.off + 4 * r.words)) := by
    rw [List.find?_cons, ← Bool.decide_and, decide_eq_false h]
  unfold rowAt windowMap
  simp only [List.cons_append, List.nil_append]
  refine ⟨?_, ?_, ?_, ?_, ?_, ?_, ?_⟩ <;> intro h <;>
    repeat' first
      | exact hit _ _ (by dsimp only; omega)
      | rw [miss _ _ (by dsimp only; omega)]

/-- The row of a transaction at offset `off` of the control area. -/
theorem Dev.rowOf_at {d : Dev} {t : Txn} {off : Nat} {r : WindowRow} (h : t.addr = d.base + off)
    (hr : rowAt off = some r) (hl : off + 4 * t.len ≤ r.off + 4 * r.words) : d.rowOf t = some r := by
  unfold Dev.rowOf
  rw [if_neg (by omega), h, Nat.add_sub_cancel_left, hr]
  exact if_pos hl

/-- The control area ends with its last window. -/
theorem rowAt_inside {o : Nat} {r : WindowRow} (h : rowAt o = some r) : r.off + 4 * r.words ≤ areaSize := by
  have k := List.mem_of_find?_eq_some h
  have all : ∀ x ∈ windowMap, x.off + 4 * x.words ≤ areaSize := by decide
  exact all r k

/-- A transaction inside one window of READY's control area is accepted, unless it writes an answered one. -/
theorem Dev.accepted {d : Dev} {t : Txn} {off : Nat} {r : WindowRow} (hb : d.base < d.size)
    (h : t.addr = d.base + off) (hr : rowAt off = some r) (hl : off + 4 * t.len ≤ r.off + 4 * r.words)
    (hw : (t.isWrite && r.kind.answered) = false) : d.refuses t = false := by
  have k := Dev.area_inside hb
  have k' := rowAt_inside hr
  unfold Dev.refuses
  rw [Dev.rowOf_at h hr hl, decide_eq_false (by omega)]
  simp only [Bool.and_assoc, hw, Bool.and_false, Bool.or_false]

/-- Such a transaction touches the control area. -/
theorem Dev.touching {d : Dev} {t : Txn} {off : Nat} {r : WindowRow} (h : t.addr = d.base + off)
    (hr : rowAt off = some r) (hl : off + 4 * t.len ≤ r.off + 4 * r.words) (h0 : 0 < t.len) :
    d.touches t = true := by
  have k' := rowAt_inside hr
  unfold Dev.touches
  rw [decide_eq_true (by omega), decide_eq_true (by omega)]; rfl

/-- The work of a read in a window of READY. -/
theorem Dev.workOf_read {d : Dev} {m : Master} {x n off : Nat} {r : WindowRow} (hp : d.setup.part = .ready)
    (h : x = d.base + off) (hr : rowAt off = some r) (hl : off + 4 * n ≤ r.off + 4 * r.words) (h0 : 0 < n) :
    d.workOf (.read m x n) = d.readWork m r.kind x ((off - r.off) / 4) n := by
  unfold Dev.workOf
  rw [if_pos ⟨hp, Dev.touching (t := .read m x n) h hr hl h0⟩, Dev.rowOf_at (t := .read m x n) h hr hl]
  show d.readWork m r.kind x ((x - d.base - r.off) / 4) n = _
  rw [h, Nat.add_sub_cancel_left]

/-- The work of a write in a window of READY. -/
theorem Dev.workOf_write {d : Dev} {m : Master} {x off : Nat} {ws : List WWord} {r : WindowRow}
    (hp : d.setup.part = .ready) (h : x = d.base + off) (hr : rowAt off = some r)
    (hl : off + 4 * ws.length ≤ r.off + 4 * r.words) (h0 : 0 < ws.length) :
    d.workOf (.write m x ws) = writeWork d.shapeNominal r.kind x ((off - r.off) / 4) ws := by
  unfold Dev.workOf
  rw [if_pos ⟨hp, Dev.touching (t := .write m x ws) h hr hl h0⟩, Dev.rowOf_at (t := .write m x ws) h hr hl]
  show writeWork d.shapeNominal r.kind x ((x - d.base - r.off) / 4) ws = _
  rw [h, Nat.add_sub_cancel_left]

/-- What the blocks take from a write in a window of READY. -/
theorem Dev.takeStore_at {d : Dev} {m : Master} {x off : Nat} {ws : List WWord} {r : WindowRow}
    (hp : d.setup.part = .ready) (h : x = d.base + off) (hr : rowAt off = some r)
    (hl : off + 4 * ws.length ≤ r.off + 4 * r.words) :
    d.takeStore m x ws = d.takeReady m r.kind ((off - r.off) / 4) ws := by
  unfold Dev.takeStore
  rw [Dev.rowOf_at (t := .write m x ws) h hr hl, hp]
  show d.takeReady m r.kind ((x - d.base - r.off) / 4) ws = _
  rw [h, Nat.add_sub_cancel_left]

/-! ### Stores taken by a block -/

theorem Dev.withUp_idle {d : Dev} (h : d.path.upstream = []) : d.withUp [] = d := by
  rw [← h]; exact d.withUp_self

theorem Dev.countGrant_keeps (d : Dev) : d.countGrant.setup = d.setup ∧ d.countGrant.path.cabase = d.path.cabase ∧
    d.countGrant.path.lrst = d.path.lrst ∧ d.countGrant.path.upstream = d.path.upstream := by
  unfold Dev.countGrant; split <;> exact ⟨rfl, rfl, rfl, rfl⟩

theorem State.PortFree.grant_up (p : s.PortFree) : s.dev.countGrant.path.upstream = [] :=
  s.dev.countGrant_keeps.2.2.2.trans p.1

theorem State.PortFree.grant_idle (p : s.PortFree) : s.dev.countGrant.withUp [] = s.dev.countGrant :=
  Dev.withUp_idle p.grant_up

/-- A write stored as one access and taken by its block as `f`. -/
theorem State.present_taken {m : Master} {x : Nat} {ws : List WWord} {a : MemAns} {f : Dev → Dev}
    (p : s.PortFree) (ha : a.clean) (hr : s.dev.refuses (.write m x ws) = false)
    (hw : s.dev.workOf (.write m x ws) = [.store x ws])
    (hf : s.dev.countGrant.takeStore m x ws = ([], f s.dev.countGrant))
    (hu : (f s.dev.countGrant).path.upstream = []) :
    s.present (.write m x ws) a = s.stored m x ws f := by
  have e : ∀ k, (s.dev.countGrant.withUp [k]).apart (fun d => d.takeStore m x ws) =
      ([], (f s.dev.countGrant).withUp [k]) := by
    intro k
    unfold Dev.apart
    dsimp only
    rw [Dev.withUp_withUp, p.grant_idle, hf]
    rfl
  rw [State.present_one (mi := .store x ws) (x := .write x ws) p ha hr hw rfl rfl]
  · unfold State.stored
    dsimp only [Dev.workDone]
    rw [show (Held.fresh (.write m x ws) (.store x ws) s.dev.fill.seq).txn.master = m from rfl, e]
    dsimp only
    rw [Dev.withUp_withUp, Dev.withUp_idle hu]
    rfl
  · dsimp only [Dev.workDone]
    rw [show (Held.fresh (.write m x ws) (.store x ws) s.dev.fill.seq).txn.master = m from rfl, e]
  · dsimp only [Dev.workDone]
    rw [show (Held.fresh (.write m x ws) (.store x ws) s.dev.fill.seq).txn.master = m from rfl, e]
    rfl

/-- A write of READY that is stored as one access and taken by its block as `f`. -/
theorem State.present_store {m : Master} {x off : Nat} {ws : List WWord} {a : MemAns} {r : WindowRow} {f : Dev → Dev}
    (p : s.PortFree) (hp : s.Ready) (ha : a.clean) (h : x = s.dev.base + off) (hr : rowAt off = some r)
    (hl : off + 4 * ws.length ≤ r.off + 4 * r.words) (h0 : 0 < ws.length) (hw : r.kind.answered = false)
    (hs : writeWork s.dev.shapeNominal r.kind x ((off - r.off) / 4) ws = [.store x ws])
    (hf : Dev.takeReady m r.kind ((off - r.off) / 4) ws s.dev.countGrant = ([], f s.dev.countGrant))
    (hu : (f s.dev.countGrant).path.upstream = []) :
    s.present (.write m x ws) a = s.stored m x ws f := by
  have hpr : (s.dev.countGrant).setup.part = .ready := by rw [s.dev.countGrant_keeps.1]; exact hp.1
  have hb : s.dev.countGrant.base = s.dev.base := by unfold Dev.base; rw [s.dev.countGrant_keeps.2.1]
  refine State.present_taken p ha (Dev.accepted (t := .write m x ws) hp.2 h hr hl (by rw [hw]; rfl))
    (by rw [Dev.workOf_write hp.1 h hr hl h0]; exact hs) ?_ hu
  rw [Dev.takeStore_at hpr (by rw [h, ← hb]) hr hl]
  exact hf

end Sys2Proof.Machine
end

