-- ==== Sys2Proof/Laws/Path.lean ====
section
/-! SUPPORT. More of the memory path said once: what raising a cause and meeting a request leave, where a
transaction finds its window, and transactions that are forwarded or stored and taken by no block. -/

namespace Sys2Proof.Machine

/-! ### Raising and settling -/

/-- Meeting the requests of a step touches the Report unit's status write and the internal master's list. -/
theorem Dev.settle_shape (d : Dev) : ∃ rq st ag bs, d.settle = { d with
    report := { d.report with request := rq, status := st, again := ag },
    path := { d.path with bursts := bs } } := by
  unfold Dev.settle
  split
  · exact ⟨d.report.request, d.report.status, d.report.again, d.path.bursts, rfl⟩
  · split
    · unfold Dev.formStatus Dev.placeBurst
      dsimp only
      split
      · exact ⟨_, _, _, _, rfl⟩
      · exact ⟨_, _, _, _, rfl⟩
    · exact ⟨_, _, _, _, rfl⟩
    · exact ⟨_, _, _, _, rfl⟩

theorem Cause.mask_joined {p : BitVec 21} {c : Cause} (h : p.getLsbD c.bit = true) : p ||| c.mask = p := by
  apply BitVec.eq_of_getLsbD_eq
  intro i hi
  rw [BitVec.getLsbD_or]
  by_cases e : i = c.bit
  · subst e; simp [h]
  · have : c.mask.getLsbD i = false := by
      revert i; cases c <;> decide
    simp [this]

/-- Raising a cause joins it to the pending set, but in UNPLACED. -/
theorem Dev.raise_shape (c : Cause) (d : Dev) : ∃ rq, d.raise c = { d with
    report := { d.report with
      request := rq
      pending := if d.setup.part = .unplaced then d.report.pending else d.report.pending ||| c.mask } } := by
  unfold Dev.raise
  by_cases h : d.setup.part = .unplaced
  · rw [if_pos h, if_pos h]; exact ⟨d.report.request, rfl⟩
  · rw [if_neg h, if_neg h]
    split
    · rename_i k; rw [Cause.mask_joined k]; exact ⟨d.report.request, rfl⟩
    · exact ⟨_, rfl⟩

/-! ### Windows -/

/-- The windows of the map do not overlap. -/
theorem rowAt_of_mem {r : WindowRow} (h : r ∈ windowMap) {o : Nat} (h1 : r.off ≤ o)
    (h2 : o < r.off + 4 * r.words) : rowAt o = some r := by
  cases hr : rowAt o with
  | none =>
    have := List.find?_eq_none.mp hr r h
    simp [h1, h2] at this
  | some q =>
    have m := List.mem_of_find?_eq_some hr
    have p := List.find?_some hr
    simp only [Bool.and_eq_true, decide_eq_true_eq] at p
    have dis : ∀ a ∈ windowMap, ∀ b ∈ windowMap,
        a = b ∨ a.off + 4 * a.words ≤ b.off ∨ b.off + 4 * b.words ≤ a.off := by decide
    rcases dis q m r h with e | e | e
    · rw [e]
    · omega
    · omega

/-- A transaction that lies in no single window of the map has no row. -/
theorem Dev.rowOf_none {d : Dev} {t : Txn}
    (k : ∀ r ∈ windowMap, ¬(d.base + r.off ≤ t.addr ∧ t.addr + 4 * t.len ≤ d.base + r.off + 4 * r.words)) :
    d.rowOf t = none := by
  unfold Dev.rowOf
  by_cases hb : t.addr < d.base
  · rw [if_pos hb]
  · rw [if_neg hb]
    cases hr : rowAt (t.addr - d.base) with
    | none => rfl
    | some r =>
      dsimp only
      have m := List.mem_of_find?_eq_some hr
      have p := List.find?_some hr
      simp only [Bool.and_eq_true, decide_eq_true_eq] at p
      have := k r m
      rw [if_neg (by omega)]

/-- A transaction with a row lies in the control area. -/
theorem Dev.rowOf_inside {d : Dev} {t : Txn} {r : WindowRow} (h : d.rowOf t = some r) :
    d.base ≤ t.addr ∧ t.addr + 4 * t.len ≤ d.base + 65536 := by
  unfold Dev.rowOf at h
  split at h
  · cases h
  · split at h
    · cases h
    · rename_i q hq
      split at h
      · have := rowAt_inside hq
        have : areaSize = 65536 := rfl
        injection h with h; subst h
        omega
      · cases h

/-! ### Transactions no block takes -/

variable {s : State} {a : MemAns} {m : Master} {x : Nat}

/-- A forwarded write that no block takes. -/
theorem State.present_write_plain {ws : List WWord} (p : s.PortFree) (ha : a.clean)
    (hr : s.dev.refuses (.write m x ws) = false) (hw : s.dev.workOf (.write m x ws) = [.store x ws])
    (ht : s.dev.countGrant.takeStore m x ws = ([], s.dev.countGrant)) :
    s.present (.write m x ws) a = s.stored m x ws id :=
  State.present_taken p ha hr hw ht p.grant_up

/-- A forwarded read. -/
theorem State.present_read_plain {n : Nat} (p : s.PortFree) (ha : a.clean)
    (hr : s.dev.refuses (.read m x n) = false) (hw : s.dev.workOf (.read m x n) = [.read x n]) :
    s.present (.read m x n) a = State.served m [.read x n] (.okay (Memory.readWords s.mem x n))
      { s with dev := s.dev.countGrant.settle } := by
  rw [State.present_one (mi := .read x n) (x := .read x n) p ha hr hw rfl rfl rfl rfl]
  show State.served m _ _ { s with dev := Dev.settle (s.dev.countGrant.withUp []) } = _
  rw [p.grant_idle]
  rfl

/-- With every DRAINING slot named by a record nothing drains. -/
theorem Dev.drainAll_busy {d : Dev} (h : ∀ k : Fin 4, (d.slot k).st = .draining → (d.slot k).members ≠ []) :
    d.drainAll = d := by
  have e : ∀ k : Fin 4, d.drainIfEmpty k = d := by
    intro k; unfold Dev.drainIfEmpty; dsimp only; rw [if_neg]; intro ⟨a, b, _⟩; exact h k a b
  unfold Dev.drainAll; rw [e, e, e, e]

/-- With no slot DRAINING nothing drains. -/
theorem Dev.drainAll_none {d : Dev} (h : ∀ k : Fin 4, (d.slot k).st ≠ .draining) : d.drainAll = d :=
  Dev.drainAll_busy fun k e => absurd e (h k)

end Sys2Proof.Machine
end

