-- ==== Sys2Proof/Laws/Serve.lean ====
section
/-! SUPPORT. A transaction of several accesses from a quiet port: each piece of its work as one step of
`State.serve`, with the machine it leaves. -/

namespace Sys2Proof.Machine

variable {s : State} {t : Txn} {mi : Micro} {rest more : List Micro} {c c' : Ctx} {d' : Dev}

/-- The transaction held while piece `mi` of its work is next. -/
def Held.at (t : Txn) (mi : Micro) (rest : List Micro) (c : Ctx) : Held :=
  { txn := t, faultAt := none, work := some (mi :: rest), ctx := c }

/-- The port goes on with a piece of work done. -/
theorem Dev.progress_quiet {d : Dev} {ws : List Word} {h : Held}
    (hd : (Dev.withUp [h] d).workDone h ws mi = (more, c', d'.withUp [h]))
    (hq : d'.report.request = false) :
    Dev.progress h mi rest ws (d.withUp [h]) =
      d'.withUp [{ h with work := some (more ++ rest), ctx := c' }] := by
  unfold Dev.progress
  rw [hd]
  dsimp only
  rw [Dev.setHead_withUp, Dev.settle_withUp, Dev.settle_quiet hq]

/-- A piece of work with an access, memory answering OKAY. -/
theorem State.serve_access (n b : Nat) {x : Access} (q : s.Quiet) (hx : mi.access c s.dev = some x)
    (hd : (s.dev.withUp [Held.at t mi rest c]).workDone (Held.at t mi rest c) (x.words s.mem) mi =
      (more, c', d'.withUp [Held.at t mi rest c]))
    (hq : d'.report.request = false) :
    State.serve (n + 1) (b + 1) (s.holding t (some (mi :: rest)) c) =
      State.serve n b (State.holding t (some (more ++ rest)) c'
        { s.issue (.upstream t.master) x with mem := x.land s.mem, dev := d' }) := by
  have g := State.serve_grant (s := s.holding t (some (mi :: rest)) c) n b rfl rfl
    ((mi.access_withUp _ _ _).trans hx) q.grantable
  refine g.trans ?_
  unfold State.grantAccess
  dsimp only
  rw [show (s.holding t (some (mi :: rest)) c).dev.countGrant = s.dev.withUp [Held.at t mi rest c] from
    (Dev.countGrant_withUp _ _).trans (by rw [Dev.countGrant_quiet q.bursts]; rfl)]
  congr 1
  unfold State.holding
  dsimp only
  congr 1
  exact Dev.progress_quiet hd hq

/-- A piece of work without an access. -/
theorem State.serve_plain (n b : Nat) (hx : mi.access c s.dev = none)
    (hd : (s.dev.withUp [Held.at t mi rest c]).workDone (Held.at t mi rest c) [] mi =
      (more, c', d'.withUp [Held.at t mi rest c]))
    (hq : d'.report.request = false) :
    State.serve (n + 1) b (s.holding t (some (mi :: rest)) c) =
      State.serve n b (State.holding t (some (more ++ rest)) c' { s with dev := d' }) := by
  refine (State.serve_work (s := s.holding t (some (mi :: rest)) c) n b rfl rfl
    ((mi.access_withUp _ _ _).trans hx)).trans ?_
  congr 1
  unfold State.holding
  dsimp only
  congr 1
  exact Dev.progress_quiet hd hq

/-- The last piece of work, without an access: what it requests is met, and the words are answered. -/
theorem State.serve_last (n b : Nat) (hx : mi.access c s.dev = none)
    (hd : (s.dev.withUp [Held.at t mi [] c]).workDone (Held.at t mi [] c) [] mi =
      ([], c', d'.withUp [Held.at t mi [] c]))
    (hu : d'.path.upstream = []) :
    State.serve (n + 2) b (s.holding t (some [mi]) c) =
      State.answer (.okay c'.ans) { s with dev := d'.settle } := by
  refine (State.serve_work (s := s.holding t (some [mi]) c) (n + 1) b rfl rfl
    ((mi.access_withUp _ _ _).trans hx)).trans ?_
  have e : Dev.progress (Held.at t mi [] c) mi [] [] (s.dev.withUp [Held.at t mi [] c]) =
      d'.settle.withUp [{ Held.at t mi [] c with work := some [], ctx := c' }] := by
    unfold Dev.progress
    rw [hd]
    dsimp only
    rw [Dev.setHead_withUp, Dev.settle_withUp]
    rfl
  have e' : ({ s.holding t (some [mi]) c with
      dev := Dev.progress (Held.at t mi [] c) mi [] [] (s.dev.withUp [Held.at t mi [] c]) } : State) =
      { s with dev := d'.settle.withUp [{ Held.at t mi [] c with work := some [], ctx := c' }] } := by
    rw [e]; rfl
  refine (congrArg (State.serve (n + 1) b) e').trans ?_
  rw [State.serve_answer n b rfl rfl, State.serve_idle]
  · dsimp only
    rw [Dev.freePort_withUp, Dev.withUp_idle]
    rw [(Dev.settle_block (.refl d')).upstream, hu]
  · rfl

/-- All work is done: the words gathered are answered. -/
theorem State.serve_done (n b : Nat) (hu : s.dev.path.upstream = []) :
    State.serve (n + 1) b (s.holding t (some []) c) = s.answer (.okay c.ans) := by
  rw [State.serve_answer (s := s.holding t (some []) c) n b rfl rfl, State.serve_idle]
  · unfold State.holding
    dsimp only
    rw [Dev.freePort_withUp, Dev.withUp_idle hu]
  · rfl

/-- What comes out on the downstream port does not matter to a quiet state. -/
theorem State.Quiet.issuing (q : s.Quiet) (m : Master) (xs : List Access) : (s.issuing m xs).Quiet :=
  ⟨q.upstream, q.port, q.bursts, q.request⟩

theorem State.issuing_nil (m : Master) (s : State) : s.issuing m [] = s := by
  show ({ s with downstream := s.downstream ++ [] } : State) = s
  rw [List.append_nil]

theorem State.issuing_issuing (m : Master) (xs ys : List Access) (s : State) :
    (s.issuing m xs).issuing m ys = s.issuing m (xs ++ ys) := by
  unfold State.issuing issuedFor
  dsimp only
  rw [List.map_append, List.append_assoc]

theorem State.issue_upstream (m : Master) (x : Access) (s : State) : s.issue (.upstream m) x = s.issuing m [x] := rfl

/-- Pieces of work that read and gather, one after another. -/
theorem State.serve_reads {α : Type} (t : Txn) (rest : List Micro) (f : α → Micro) (addr : α → Nat)
    (len : α → Nat) (g : Ctx → α → List Word → Ctx) (d : Dev)
    (hx : ∀ x c, (f x).access c d = some (.read (addr x) (len x)))
    (hd : ∀ x c ws rs, (d.withUp [Held.at t (f x) rs c]).workDone (Held.at t (f x) rs c) ws (f x) =
      ([], g c x ws, d.withUp [Held.at t (f x) rs c])) :
    ∀ (l : List α) (c : Ctx) (n b : Nat) (s : State), s.dev = d → s.Quiet →
      State.serve (n + l.length) (b + l.length) (s.holding t (some (l.map f ++ rest)) c) =
        State.serve n b (State.holding t (some rest)
          (l.foldl (fun c x => g c x (Memory.readWords s.mem (addr x) (len x))) c)
          (s.issuing t.master (l.map fun x => .read (addr x) (len x)))) := by
  intro l
  induction l with
  | nil =>
    intro c n b s _ _
    rw [List.map_nil, List.map_nil, State.issuing_nil]
    rfl
  | cons x l ih =>
    intro c n b s e q
    subst e
    rw [List.length_cons, ← Nat.add_assoc, ← Nat.add_assoc, List.map_cons, List.cons_append]
    rw [State.serve_access (d' := s.dev) (n + l.length) (b + l.length) q (hx x c) (hd x c _ _) q.request]
    refine (ih _ n b (s.issuing t.master [.read (addr x) (len x)]) rfl (q.issuing _ _)).trans ?_
    rw [State.issuing_issuing]
    rfl

/-! ### Runs of work that end in a known state -/

/-- The machine with other answers and accesses given out by its ports. -/
def State.withPorts (as : List Answer) (ds : List OwnedAccess) (s : State) : State :=
  { s with answers := as, downstream := ds }

/-- From work `w` in `s` the port comes to work `w'` in `s'`, in at most `K` pieces of work and accesses, whatever
the ports gave out before; the accesses it makes are the transaction's master's. -/
def State.Reach (t : Txn) (c : Ctx) (K : Nat) (s s' : State) (w w' : List Micro) : Prop :=
  ∃ k j xs, k ≤ K ∧ j ≤ K ∧ ∀ n b as ds, State.serve (n + k) (b + j) ((s.withPorts as ds).holding t (some w) c) =
    State.serve n b ((s'.withPorts as (ds ++ issuedFor t.master xs)).holding t (some w') c)

theorem State.Reach.refl (K : Nat) (s : State) (w : List Micro) : State.Reach t c K s s w w :=
  ⟨0, 0, [], Nat.zero_le _, Nat.zero_le _, fun _ _ _ ds => by
    rw [show ds ++ issuedFor t.master [] = ds from List.append_nil ds]; rfl⟩

theorem State.Reach.trans {K L : Nat} {s s' s'' : State} {w w' w'' : List Micro} (h : State.Reach t c K s s' w w')
    (g : State.Reach t c L s' s'' w' w'') : State.Reach t c (K + L) s s'' w w'' := by
  obtain ⟨k, j, xs, hk, hj, h⟩ := h
  obtain ⟨k', j', xs', hk', hj', g⟩ := g
  refine ⟨k' + k, j' + j, xs ++ xs', by omega, by omega, fun n b as ds => ?_⟩
  rw [← Nat.add_assoc, ← Nat.add_assoc, h, g, List.append_assoc, issuedFor, issuedFor, issuedFor, List.map_append]

theorem State.Reach.mono {K L : Nat} {s s' : State} {w w' : List Micro} (h : State.Reach t c K s s' w w')
    (l : K ≤ L) : State.Reach t c L s s' w w' := by
  obtain ⟨k, j, xs, hk, hj, h⟩ := h
  exact ⟨k, j, xs, by omega, by omega, h⟩

theorem State.Reach.access {x : Access} (q : s.Quiet) (hx : mi.access c s.dev = some x)
    (hd : (s.dev.withUp [Held.at t mi rest c]).workDone (Held.at t mi rest c) (x.words s.mem) mi =
      (more, c, d'.withUp [Held.at t mi rest c])) (hq : d'.report.request = false) :
    State.Reach t c 1 s { s with mem := x.land s.mem, dev := d' } (mi :: rest) (more ++ rest) :=
  ⟨1, 1, [x], Nat.le_refl _, Nat.le_refl _, fun n b as ds =>
    State.serve_access (s := s.withPorts as ds) n b ⟨q.upstream, q.port, q.bursts, q.request⟩ hx hd hq⟩

/-- Work that comes to its end, from the moment the transaction is accepted: it has been served. -/
theorem State.Reach.served {K : Nat} {s s' : State} {w : List Micro} {m : Master} (h : State.Reach t c K s s' w [])
    (hu : s'.dev.path.upstream = []) (hm : t.master = m) (n b : Nat) (hn : K < n) (hb : K ≤ b) :
    ∃ xs, State.serve n b (s.portsClear.holding t (some w) c) = State.served m xs (.okay c.ans) s' := by
  obtain ⟨k, j, xs, hk, hj, h⟩ := h
  have := h (n - k) (b - j) [] []
  rw [show n - k + k = n by omega, show b - j + j = b by omega] at this
  subst hm
  refine ⟨xs, Eq.trans this ?_⟩
  rw [show n - k = (n - k - 1) + 1 by omega, State.serve_done _ _ (by exact hu)]
  rfl

/-! ### Reading words -/

theorem Memory.readWords_one (m : List Host.Cell) (a : Nat) : Memory.readWords m a 1 = [Memory.readWord m a] := rfl

theorem Memory.writeWords_append : ∀ (xs ys : List WWord) (m : List Host.Cell) (a : Nat),
    Memory.writeWords m a (xs ++ ys) = Memory.writeWords (Memory.writeWords m a xs) (a + 4 * xs.length) ys := by
  intro xs
  induction xs with
  | nil => exact fun _ _ _ => rfl
  | cons x xs ih =>
    intro ys m a
    show Memory.writeWords _ (a + 4) (xs ++ ys) = Memory.writeWords (Memory.writeWords _ (a + 4) xs) _ ys
    rw [ih, List.length_cons]
    congr 1
    omega

end Sys2Proof.Machine
end

