-- ==== Sys2Proof/Laws/Frames.lean ====
section
/-! SUPPORT. What the order unit's own operations leave alone, and the lemmas of the valve table, the recipe table
and the ring under one update. -/

namespace Sys2Proof.Machine

/-! ### One update of a table, any entry -/

theorem Dev.valveRec_setValve_ite (d : Dev) (v u : Fin 64) (r : ValveRec) :
    (d.setValve v r).valveRec u = if u = v then r else d.valveRec u := by
  by_cases h : u = v
  · subst h; rw [if_pos rfl, Dev.valveRec_setValve]
  · rw [if_neg h, Dev.valveRec_setValve_ne d r h]

theorem Dev.slot_setSlot_ite (d : Dev) (v u : Fin 4) (r : RecipeSlot) :
    (d.setSlot v r).slot u = if u = v then r else d.slot u := by
  by_cases h : u = v
  · subst h; rw [if_pos rfl, Dev.slot_setSlot]
  · rw [if_neg h, Dev.slot_setSlot_ne d r h]

theorem Dev.entry_setEntry_ite (d : Dev) (p q : Word) (e : Entry) :
    (d.setEntry p e).entry q = if ringIx q = ringIx p then e else d.entry q := by
  by_cases h : ringIx q = ringIx p
  · rw [if_pos h]; unfold Dev.entry Dev.setEntry; rw [h]; simp [Vector.get_eq_getElem]
  · rw [if_neg h, Dev.entry_setEntry_ne d e h]

theorem Dev.slotIn_none {d : Dev} {st : SlotState} (h : ∀ j, (d.slot j).st ≠ st) : d.slotIn st = none := by
  unfold Dev.slotIn; rw [if_neg (h 0), if_neg (h 1), if_neg (h 2), if_neg (h 3)]

theorem Dev.slotIn_some {d : Dev} {st : SlotState} {k : Fin 4} (h : d.slotIn st = some k) : (d.slot k).st = st := by
  unfold Dev.slotIn at h
  split at h
  · injection h with h; subst h; assumption
  split at h
  · injection h with h; subst h; assumption
  split at h
  · injection h with h; subst h; assumption
  split at h
  · injection h with h; subst h; assumption
  · cases h

/-- The one slot in a state is the lowest in it. -/
theorem Dev.slotIn_unique {d : Dev} {st : SlotState} {k : Fin 4} (hk : (d.slot k).st = st)
    (h : ∀ j, (d.slot j).st = st → j = k) : d.slotIn st = some k := by
  cases e : d.slotIn st with
  | some j => rw [h j (Dev.slotIn_some e)]
  | none =>
    unfold Dev.slotIn at e
    have : k = 0 ∨ k = 1 ∨ k = 2 ∨ k = 3 := by omega
    rcases this with rfl | rfl | rfl | rfl <;> (repeat' split at e) <;> first | cases e | (exfalso; simp_all)

/-! ### The order unit's own operations -/

/-- Only the order places, the order words, the bursts and the raised causes may differ. -/
def OrderStep (d d' : Dev) : Prop :=
  ∃ bs p q e pl r dr w, d' = { d with
    path := { d.path with bursts := bs }
    report := { d.report with pending := p, request := q, errAddr := e }
    order := { d.order with places := pl, running := r, draining := dr, writes := w } }

theorem OrderStep.refl (d : Dev) : OrderStep d d := ⟨_, _, _, _, _, _, _, _, rfl⟩

theorem OrderStep.trans {a b c : Dev} (h : OrderStep a b) (k : OrderStep b c) : OrderStep a c := by
  obtain ⟨_, _, _, _, _, _, _, _, rfl⟩ := h
  obtain ⟨_, _, _, _, _, _, _, _, rfl⟩ := k
  exact ⟨_, _, _, _, _, _, _, _, rfl⟩

/-- What an order step keeps. -/
theorem OrderStep.keeps {a b : Dev} (h : OrderStep a b) : b.valve = a.valve ∧ b.fill = a.fill ∧ b.track = a.track ∧
    b.code = a.code ∧ b.setup = a.setup ∧ b.order.cur = a.order.cur ∧ b.order.slots = a.order.slots := by
  obtain ⟨_, _, _, _, _, _, _, _, rfl⟩ := h
  exact ⟨rfl, rfl, rfl, rfl, rfl, rfl, rfl⟩

variable {a d : Dev}

theorem Dev.raise_order (h : OrderStep a d) (c : Cause) : OrderStep a (d.raise c) := by
  refine h.trans ?_
  obtain ⟨rq, e⟩ := Dev.raise_shape c d
  rw [e]; exact ⟨_, _, _, _, _, _, _, _, rfl⟩

theorem Dev.raiseAt_order (h : OrderStep a d) (c : Cause) (x : Nat) : OrderStep a (d.raiseAt c x) := by
  refine Dev.raise_order (h.trans ?_) c
  exact ⟨_, _, _, _, _, _, _, _, rfl⟩

theorem Dev.placeBurst_order (h : OrderStep a d) (b : Burst) : OrderStep a (d.placeBurst b) := by
  refine h.trans ?_
  unfold Dev.placeBurst
  split
  · exact .refl d
  · exact ⟨_, _, _, _, _, _, _, _, rfl⟩

theorem Dev.setPlace_order (h : OrderStep a d) (p : Fin 2) (o : Option LotOrder) : OrderStep a (d.setPlace p o) :=
  h.trans ⟨_, _, _, _, _, _, _, _, rfl⟩

theorem Dev.pushOrderWrite_order (h : OrderStep a d) (x : Nat) (v : Word) : OrderStep a (d.pushOrderWrite x v) := by
  unfold Dev.pushOrderWrite
  have k : OrderStep a { d with order := { d.order with writes := d.order.writes ++ [(x, v)] } } :=
    h.trans ⟨_, _, _, _, _, _, _, _, rfl⟩
  dsimp only
  split
  · exact Dev.placeBurst_order k _
  · exact k

theorem Dev.writeOrderStatus_order (h : OrderStep a d) (b : Bool) (o : LotOrder) :
    OrderStep a (d.writeOrderStatus b o) := Dev.pushOrderWrite_order h _ _

theorem Dev.writeEntry_order (h : OrderStep a d) (o : LotOrder) (i : Nat) (e : LotEntry) :
    OrderStep a (d.writeEntry o i e) := Dev.pushOrderWrite_order (Dev.pushOrderWrite_order h _ _) _ _

theorem Dev.updateEntry_order (h : OrderStep a d) (p : Fin 2) (i : Nat) (f : LotEntry → LotEntry) :
    OrderStep a (d.updateEntry p i f) := by
  unfold Dev.updateEntry
  split
  · exact h
  · split
    · exact h
    · exact Dev.writeEntry_order (Dev.setPlace_order h _ _) _ _ _

theorem Dev.releasePlace_order (h : OrderStep a d) (p : Fin 2) : OrderStep a (d.releasePlace p) := by
  unfold Dev.releasePlace
  dsimp only
  split
  · exact (Dev.setPlace_order h p none).trans ⟨_, _, _, _, _, _, _, _, rfl⟩
  · split
    · exact (Dev.setPlace_order h p none).trans ⟨_, _, _, _, _, _, _, _, rfl⟩
    · exact Dev.setPlace_order h p none

theorem Dev.completeOrder_order (h : OrderStep a d) (p : Fin 2) : OrderStep a (d.completeOrder p) := by
  unfold Dev.completeOrder
  split
  · exact h
  · split
    · split
      · exact Dev.releasePlace_order (Dev.writeOrderStatus_order h _ _) _
      · dsimp only
        split
        · exact Dev.releasePlace_order (Dev.raise_order (Dev.writeOrderStatus_order h _ _) _) _
        · exact Dev.releasePlace_order (Dev.writeOrderStatus_order h _ _) _
    · exact h

theorem Dev.closeEntry_order (h : OrderStep a d) (r : LotRef) : OrderStep a (d.closeEntry r) := by
  unfold Dev.closeEntry
  split
  · exact h
  · dsimp only
    split
    · exact Dev.updateEntry_order h _ _ _
    · exact Dev.completeOrder_order
        (Dev.writeOrderStatus_order (Dev.setPlace_order (Dev.updateEntry_order h _ _ _) _ _) _ _) _

/-! ### The switch's valves -/

theorem Dev.valveRec_switchValves (c : Recipe) (d : Dev) (v : Fin 64) :
    (d.switchValves c).valveRec v = (d.valveRec v).switched c := by
  have key : ∀ (l : List (Fin 64)) (d : Dev), l.Nodup →
      (l.foldl (fun d v => d.setValve v ((d.valveRec v).switched c)) d).valveRec v =
        if v ∈ l then (d.valveRec v).switched c else d.valveRec v := by
    intro l
    induction l with
    | nil => intro d _; simp
    | cons x l ih =>
      intro d hn
      rw [List.nodup_cons] at hn
      rw [List.foldl_cons, ih _ hn.2, Dev.valveRec_setValve_ite]
      by_cases h : v = x
      · subst h
        rw [if_neg hn.1, if_pos rfl, if_pos (by simp)]
      · rw [if_neg h]
        simp [h]
  have all : ∀ v : Fin 64, v ∈ valveNumbers := by decide
  unfold Dev.switchValves
  rw [key _ _ (by decide), if_pos (all v)]

/-- The switch's work on the valve table touches the valve table alone. -/
theorem Dev.switchValves_shape (c : Recipe) (d : Dev) : ∃ u, d.switchValves c = { d with valve := u } := by
  unfold Dev.switchValves
  generalize valveNumbers = l
  revert d
  induction l with
  | nil => exact fun d => ⟨d.valve, rfl⟩
  | cons x l ih =>
    intro d
    obtain ⟨u, e⟩ := ih (d.setValve x ((d.valveRec x).switched c))
    exact ⟨u, e⟩

/-- Forming bare pockets' nets again touches the ring alone. -/
theorem Dev.reformBare_shape (d : Dev) : ∃ r, d.reformBare = { d with pocket := { d.pocket with ring := r } } := by
  unfold Dev.reformBare
  generalize List.range 64 = l
  revert d
  induction l with
  | nil => exact fun d => ⟨d.pocket.ring, rfl⟩
  | cons x l ih =>
    intro d
    rw [List.foldl_cons]
    dsimp only
    split
    · obtain ⟨r, e⟩ := ih (d.setEntry (BitVec.ofNat 32 x) (d.reformNet (d.entry (BitVec.ofNat 32 x))))
      exact ⟨r, e⟩
    · exact ih d

end Sys2Proof.Machine
end

