-- ==== Sys2Proof/Laws/Words.lean ====
section
/-! SUPPORT. The words of the interface, field by field. -/

namespace Sys2Proof.Machine

variable {s : State} {t : Txn} {mi : Micro} {rest more : List Micro} {c c' : Ctx} {a d d' : Dev} {x : Nat}

/-- A length from 1 to 8 is a transaction length. -/
theorem lengthOk_of_le {n : Nat} (h1 : 1 ≤ n) (h2 : n ≤ 8) : lengthOk n = true := by simp [lengthOk, h1, h2]

/-- Words that lie within a window of `N` words. -/
theorem rangeOk_of_le {N i n : Nat} (h : i + n ≤ N) (h1 : 1 ≤ n) (h2 : n ≤ 8) : rangeOk N i n = true := by simp [rangeOk, lengthOk_of_le h1 h2]; omega

/-- A word is full when all four byte enables are set. -/
theorem isFull_iff (w : WWord) : isFull w = true ↔ w.be = 15#4 := by simp [isFull]

/-- A bit of a word, read off. -/
theorem bit_eq_getLsbD (w : Word) (i : Nat) : bit w i = w.getLsbD i := by
  unfold bit bits
  rw [BitVec.getLsbD, Nat.testBit_eq_decide_div_mod_eq]
  simp only [Nat.pow_one]
  by_cases h : w.toNat / 2 ^ i % 2 = 1 <;> simp [h]

/-- Clamping between ordered bounds. -/
theorem clampInt_eq_max_min {a b : Int} (h : a ≤ b) (x : Int) : clampInt a b x = max a (min b x) := by
  unfold clampInt; split
  · omega
  · split <;> omega

/-- Saturating counting. -/
theorem satSucc_eq_min (n : Nat) : satSucc 65535 n = min 65535 (n + 1) := by unfold satSucc; split <;> omega

/-- The entry count of a header word. -/
theorem headerCount_eq (w : Word) : headerCount w = w.toNat % 16 := by
  unfold headerCount bits; simp

/-- The status word of an order that is done. -/
theorem orderStatusWord_done (c : Nat) : orderStatusWord true none c = BitVec.ofNat 32 (1 + 65536 * (c % 16)) := by
  unfold orderStatusWord putBit put; rfl

/-- The status word of an order in error. -/
theorem orderStatusWord_error (c : OrderCode) (n : Nat) : orderStatusWord false (some c) n = BitVec.ofNat 32 (2 + 256 * c.code + 65536 * (n % 16)) := by
  unfold orderStatusWord putBit put
  have : c.code % 2 ^ 8 = c.code := by cases c <;> rfl
  dsimp only
  rw [this]
  simp

/-- The code and the operand of a command word. -/
theorem commandCode_word (x : BitVec 16) (c : Nat) (h : c < 8) : commandCode (BitVec.ofNat 32 (x.toNat + 65536 * c)) = c ∧ commandOperand (BitVec.ofNat 32 (x.toNat + 65536 * c)) = x.toInt := by
  have hx := x.isLt
  have e : (BitVec.ofNat 32 (x.toNat + 65536 * c)).toNat = x.toNat + 65536 * c := by
    rw [BitVec.toNat_ofNat]; exact Nat.mod_eq_of_lt (by omega)
  constructor
  · unfold commandCode bits
    rw [e]; omega
  · unfold commandOperand bits
    rw [e]
    congr 1
    apply BitVec.eq_of_toNat_eq
    rw [BitVec.toNat_ofNat]
    omega

/-- A command word from its code and its operand. -/
theorem commandWord_eq (c : ValveCommand) (x : BitVec 16) : commandWord c x = BitVec.ofNat 32 (x.toNat + 65536 * c.code) := by
  unfold commandWord put
  have hx := x.isLt
  have hc : c.code < 8 := by cases c <;> decide
  congr 1
  omega

/-- Each command is the one of its code. -/
theorem valveCommandOf_code (c : ValveCommand) : valveCommandOf c.code = some c := by cases c <;> rfl

/-- A gate answer word, field by field. -/
theorem gateWord_eq (reject noCan : Bool) (p : Word) (tag : BitVec 12) : gateWord reject noCan p tag = BitVec.ofNat 32 ((if reject then 1 else 0) + (if noCan then 2 else 0) + 256 * (p.toNat % 256) + 65536 * tag.toNat) := by
  unfold gateWord put putBit
  rw [Nat.mod_eq_of_lt tag.isLt, show 2 ^ 0 = 1 from rfl, show 2 ^ 1 = 2 from rfl, show 2 ^ 8 = 256 from rfl, show 2 ^ 16 = 65536 from rfl]

/-- A dose word with tag 0. -/
theorem doseWord_zero_tag (x : Nat) : doseWord x 0 = BitVec.ofNat 32 (x % 1048576) := by
  unfold doseWord put; simp

/-- A sum of bits at different places, bit by bit. -/
theorem testBit_sum_putBit (p : Nat → Bool) : ∀ n, ((List.range n).map fun i => putBit (p i) i).foldl (· + ·) 0 < 2 ^ n ∧
    ∀ b, (((List.range n).map fun i => putBit (p i) i).foldl (· + ·) 0).testBit b = (decide (b < n) && p b) := by
  intro n
  induction n with
  | zero => exact ⟨Nat.zero_lt_one, fun b => by simp⟩
  | succ n ih =>
    rw [List.range_succ, List.map_append, List.foldl_append]
    obtain ⟨h1, h2⟩ := ih
    generalize ((List.range n).map fun i => putBit (p i) i).foldl (· + ·) 0 = S at h1 h2
    show S + putBit (p n) n < 2 ^ (n + 1) ∧ ∀ b, (S + putBit (p n) n).testBit b = _
    unfold putBit
    cases hp : p n with
    | false =>
      simp only [Bool.false_eq_true, if_false, Nat.add_zero]
      refine ⟨by rw [Nat.pow_succ]; omega, fun b => ?_⟩
      rw [h2]
      by_cases e : b = n
      · subst e; simp [hp]
      · by_cases l : b < n
        · simp [l, Nat.lt_succ_of_lt l]
        · have : ¬ b < n + 1 := by omega
          simp [l, this]
    | true =>
      simp only [if_true]
      refine ⟨by rw [Nat.pow_succ]; omega, fun b => ?_⟩
      rw [Nat.add_comm]
      by_cases e : b = n
      · subst e
        rw [Nat.testBit_two_pow_add_eq, h2]; simp [hp]
      · by_cases l : b < n
        · rw [Nat.testBit_two_pow_add_gt l, h2]
          simp [l, Nat.lt_succ_of_lt l]
        · have g : ¬ b < n + 1 := by omega
          rw [Nat.testBit_eq_false_of_lt]
          · simp [g]
          · have : 2 ^ (n + 1) ≤ 2 ^ b := Nat.pow_le_pow_right (by decide) (by omega)
            rw [Nat.pow_succ] at this
            omega

/-- One word of those read. -/
theorem wordAt_readWords (m : List Host.Cell) : ∀ (n a k : Nat), k < n → wordAt (Memory.readWords m a n) k = Memory.readWord m (a + 4 * k) := by
  intro n
  induction n with
  | zero => intro a k h; omega
  | succ n ih =>
    intro a k h
    cases k with
    | zero => rfl
    | succ k =>
      show wordAt (Memory.readWords m (a + 4) n) k = _
      rw [ih _ _ (by omega)]; congr 1; omega

/-- Looking up in two lists. -/
theorem lookup_append (a b : List (Nat × Word)) (k : Nat) : (a ++ b).lookup k = (a.lookup k).or (b.lookup k) := by
  induction a with
  | nil => rfl
  | cons x a ih =>
    obtain ⟨y, w⟩ := x
    rw [List.cons_append, List.lookup_cons, List.lookup_cons]
    split
    · rfl
    · exact ih

/-- Looking up a key that was gathered. -/
theorem lookup_map_mem (l : List Nat) (f : Nat → Word) (k : Nat) (h : k ∈ l) : (l.map fun k => (k, f k)).lookup k = some (f k) := by
  induction l with
  | nil => cases h
  | cons x l ih =>
    rw [List.map_cons, List.lookup_cons]
    by_cases e : k = x
    · subst e; simp
    · rw [show (k == x) = false by simp [e]]
      exact ih (by simpa [e] using h)

/-- Folds that agree on the members of the list. -/
theorem foldl_congr_mem {α β : Type} (f g : β → α → β) : ∀ (l : List α) (b : β), (∀ b, ∀ x ∈ l, f b x = g b x) → l.foldl f b = l.foldl g b := by
  intro l
  induction l with
  | nil => intros; rfl
  | cons x l ih =>
    intro b h
    rw [List.foldl_cons, List.foldl_cons, h b x List.mem_cons_self]
    exact ih _ fun b y hy => h b y (List.mem_cons_of_mem _ hy)

/-- Two words agree wherever the mask is 1. -/
theorem masked_eq_zero_iff (x r c : BitVec 16) : ((x ^^^ r) &&& c = 0) ↔ ∀ b < 16, c.getLsbD b = true → x.getLsbD b = r.getLsbD b := by
  constructor
  · intro h b hb hc
    have := congrArg (fun w => BitVec.getLsbD w b) h
    simp only [BitVec.getLsbD_and, BitVec.getLsbD_xor, hc, Bool.and_true] at this
    have z : (0 : BitVec 16).getLsbD b = false := by simp
    rw [z] at this
    revert this
    cases x.getLsbD b <;> cases r.getLsbD b <;> decide
  · intro h
    apply BitVec.eq_of_getLsbD_eq
    intro b hb
    rw [BitVec.getLsbD_and, BitVec.getLsbD_xor]
    cases hc : c.getLsbD b with
    | false => simp
    | true => rw [h b hb hc]; simp

set_option maxRecDepth 100000 in
/-- The bits of a condition word. -/
theorem condition_bits : ∀ (c : Fin 3) (b2 b3 b4 b5 b6 b7 b8 b9 : Bool),
    let w := BitVec.ofNat 16 (c.val + putBit b2 2 + putBit b3 3 + putBit b4 4 + putBit b5 5 + putBit b6 6 + putBit b7 7 + putBit b8 8 + putBit b9 9)
    w.getLsbD 0 = decide (c = 1) ∧ w.getLsbD 1 = decide (c = 2) ∧ w.getLsbD 2 = b2 ∧ w.getLsbD 3 = b3 ∧ w.getLsbD 4 = b4 ∧ w.getLsbD 5 = b5 ∧
    w.getLsbD 6 = b6 ∧ w.getLsbD 7 = b7 ∧ w.getLsbD 8 = b8 ∧ w.getLsbD 9 = b9 ∧ ∀ i : Fin 6, w.getLsbD (10 + i.val) = false := by
  decide +kernel

/-- Replacing the low half of the broadcast mask. -/
theorem lowMask_eq (x : BitVec 64) (w : Word) : BitVec.ofNat 64 (2 ^ 32 * (x.toNat / 2 ^ 32) + w.toNat) = x.extractLsb' 32 32 ++ w := by
  apply BitVec.eq_of_toNat_eq
  rw [BitVec.toNat_append, BitVec.toNat_ofNat, BitVec.extractLsb'_toNat, ← Nat.shiftLeft_add_eq_or_of_lt w.isLt, Nat.shiftRight_eq_div_pow, Nat.shiftLeft_eq]
  have := x.isLt; have := w.isLt
  omega

/-- Replacing the high half of the broadcast mask. -/
theorem highMask_eq (x : BitVec 64) (w : Word) : BitVec.ofNat 64 (x.toNat % 2 ^ 32 + 2 ^ 32 * w.toNat) = w ++ x.extractLsb' 0 32 := by
  apply BitVec.eq_of_toNat_eq
  rw [BitVec.toNat_append, BitVec.toNat_ofNat, BitVec.extractLsb'_toNat, ← Nat.shiftLeft_add_eq_or_of_lt (Nat.mod_lt _ (by decide)), Nat.shiftRight_eq_div_pow, Nat.shiftLeft_eq]
  have := x.isLt; have := w.isLt
  omega

/-- A bit of a union. -/
theorem getLsbD_or_iff (a b : BitVec 11) (i : Nat) : (a ||| b).getLsbD i = true ↔ a.getLsbD i = true ∨ b.getLsbD i = true := by
  rw [BitVec.getLsbD_or, Bool.or_eq_true]

/-- The bit of one reason. -/
theorem Reason.mask_bit (r : Reason) (i : Nat) (hi : i < 11) : (r.mask).getLsbD i = true ↔ r.bit = i := by
  have : ∀ r : Reason, ∀ i, i < 11 → ((r.mask).getLsbD i = true ↔ r.bit = i) := by
    intro r i hi
    cases r <;> (revert i; decide)
  exact this r i hi

/-- The bit of a reason that is given when `b`. -/
theorem reasonIf_bit (b : Bool) (r : Reason) (i : Nat) (hi : i < 11) : (reasonIf b r).getLsbD i = true ↔ b = true ∧ r.bit = i := by
  unfold reasonIf
  have : ∀ r : Reason, ∀ i, i < 11 → ((r.mask).getLsbD i = true ↔ r.bit = i) := by
    intro r i hi
    cases r <;> (revert i; decide)
  cases b
  · simp
  · rw [if_pos rfl, this r i hi]; simp

/-- The reasons that the identity gives, bit by bit. -/
theorem Identity.reason_bit (x : Identity) (i : Nat) (hi : i < 11) : x.reason.getLsbD i = true ↔
    (i = 3 ∧ x = .noRead) ∨ (i = 4 ∧ x = .missed) ∨ (i = 5 ∧ x = .conflict) ∨ (i = 6 ∧ x = .lotMismatch) := by
  cases x <;> (revert i; decide)

/-- The reasons that the limits give, bit by bit. -/
theorem weightReasons_bit (c : Option Recipe) (e : Entry) (i : Nat) (hi : i < 11) : (weightReasons c e).getLsbD i = true ↔
    (i = 0 ∧ ∃ y w, c = some y ∧ e.weighing = some w ∧ w.net < y.lowLimit) ∨
    (i = 1 ∧ ∃ y w, c = some y ∧ e.weighing = some w ∧ y.highLimit < w.net) := by
  unfold weightReasons
  split
  · rename_i y w h1
    rw [getLsbD_or_iff, reasonIf_bit _ _ _ hi, reasonIf_bit _ _ _ hi]
    simp only [h1, decide_eq_true_eq, Option.some.injEq, exists_and_left, exists_eq_left', Reason.bit]
    constructor
    · rintro (⟨a, b⟩ | ⟨a, b⟩)
      · exact .inl ⟨b.symm, a⟩
      · exact .inr ⟨b.symm, a⟩
    · rintro (⟨a, b⟩ | ⟨a, b⟩)
      · exact .inl ⟨b, a.symm⟩
      · exact .inr ⟨b, a.symm⟩
  · rename_i h1
    constructor
    · intro h; simp at h
    · rintro (⟨_, y, w, rfl, h, _⟩ | ⟨_, y, w, rfl, h, _⟩)
      · exact absurd h (h1 _ _ rfl)
      · exact absurd h (h1 _ _ rfl)

/-- The reasons that the record gives, bit by bit. -/
theorem Entry.recordReasons_bit (e : Entry) (i : Nat) (hi : i < 11) : e.recordReasons.getLsbD i = true ↔
    (i = 7 ∧ e.record = none) ∨ (i = 8 ∧ ∃ r, e.record = some r ∧ r.suspect = true ∧ e.ident ≠ .confirmed) ∨
    (i = 9 ∧ ∃ r, e.record = some r ∧ r.test = true) := by
  unfold Entry.recordReasons
  cases h : e.record with
  | none =>
    dsimp only
    rw [Reason.mask_bit _ _ hi]
    simp only [Reason.bit, reduceCtorEq, false_and, exists_false, and_false, or_false, and_true]
    exact eq_comm
  | some r =>
    dsimp only
    rw [getLsbD_or_iff, reasonIf_bit _ _ _ hi, reasonIf_bit _ _ _ hi]
    simp only [Reason.bit, reduceCtorEq, and_false, false_or, Option.some.injEq, exists_eq_left', Bool.and_eq_true, Bool.not_eq_true', beq_eq_false_iff_ne, ne_eq]
    constructor
    · rintro (⟨a, b⟩ | ⟨a, b⟩)
      · exact .inl ⟨b.symm, a⟩
      · exact .inr ⟨b.symm, a⟩
    · rintro (⟨a, b⟩ | ⟨a, b⟩)
      · exact .inl ⟨b, a.symm⟩
      · exact .inr ⟨b, a.symm⟩

/-- A setup passes when every field passes its tests. -/
theorem firstFailure_eq_none (ts : List FieldTest) : firstFailure ts = none ↔ ∀ t ∈ ts, t.range = true ∧ t.order = true := by
  induction ts with
  | nil => simp [firstFailure]
  | cons t ts ih =>
    unfold firstFailure
    rw [List.forall_mem_cons]
    cases t.range <;> cases t.order <;> simp [ih]

/-- An open-ended entry before the last, in the words of the order. -/
theorem openBeforeLast_iff (got : List Word) (count : Nat) (hc : headerCount (wordAt got 0) = count) :
    openBeforeLast (lotEntries got) = true ↔ ∃ i, i + 1 < count ∧ (got.getD (3 + 4 * i) 0).toNat = 0 := by
  unfold openBeforeLast lotEntries
  rw [hc]
  cases count with
  | zero => simp
  | succ n =>
    rw [List.range_succ, List.map_append, List.map_singleton, List.dropLast_concat, List.any_map]
    simp only [List.any_eq_true, List.mem_range, Function.comp, beq_iff_eq, wordAt, Nat.add_lt_add_iff_right]
    exact Iff.rfl

end Sys2Proof.Machine
end

