-- ==== Sys2Proof/Laws/Served.lean ====
section
/-! SUPPORT. Whole transactions served, and the answers of bursts, said once. -/

namespace Sys2Proof.Machine

variable {s : State} {t : Txn} {mi : Micro} {rest more : List Micro} {c c' : Ctx} {a d d' : Dev} {x : Nat}

/-- The answer of an operation's burst on the port reaches it. -/
theorem State.answered_port {s : State} {op : InternalOp} {x : Nat} {k : BurstKind} {ok : Bool} (f : BurstAnswer → Dev → Dev)
    (h : s.Answering op x k) :
    s.answered op ok f = { s.burstEnds x k ok with
      dev := Dev.settle (f { ok := ok, data := k.data s.mem x, addr := x } (s.burstEnds x k ok).dev) } := by
  have e : s.takeAnswer op ok = (some { ok := ok, data := k.data s.mem x, addr := x }, s.burstEnds x k ok) := by
    unfold State.takeAnswer
    rw [h]
    dsimp only
    rw [if_pos rfl]
    cases k <;> rfl
  unfold State.answered
  rw [e]

/-- Meeting the requests of a step leaves none to meet. -/
theorem Dev.settle_settle (d : Dev) : d.settle.settle = d.settle := by
  by_cases h : d.report.request = false ∨ d.path.lrst = true ∨ d.setup.part = .unplaced
  · have : d.settle = d := by unfold Dev.settle; rw [if_pos h]
    rw [this, this]
  · apply Dev.settle_quiet
    unfold Dev.settle
    rw [if_neg h]
    split
    · unfold Dev.formStatus Dev.placeBurst
      dsimp only
      split <;> rfl
    · rfl
    · rfl

/-- A piece of work without an access: what it requests is met before the next. -/
theorem State.serve_settled (n b : Nat) (hx : mi.access c s.dev = none)
    (hd : (s.dev.withUp [Held.at t mi rest c]).workDone (Held.at t mi rest c) [] mi =
      (more, c', d'.withUp [Held.at t mi rest c])) :
    State.serve (n + 1) b (s.holding t (some (mi :: rest)) c) =
      State.serve n b (State.holding t (some (more ++ rest)) c' { s with dev := d'.settle }) := by
  refine (State.serve_work (s := s.holding t (some (mi :: rest)) c) n b rfl rfl
    ((mi.access_withUp _ _ _).trans hx)).trans ?_
  have e : Dev.progress (Held.at t mi rest c) mi rest [] (s.dev.withUp [Held.at t mi rest c]) =
      d'.settle.withUp [{ Held.at t mi rest c with work := some (more ++ rest), ctx := c' }] := by
    unfold Dev.progress
    rw [hd]
    dsimp only
    rw [Dev.setHead_withUp, Dev.settle_withUp]
  have e' : ({ s.holding t (some (mi :: rest)) c with
      dev := Dev.progress (Held.at t mi rest c) mi rest [] (s.dev.withUp [Held.at t mi rest c]) } : State) =
      State.holding t (some (more ++ rest)) c' { s with dev := d'.settle } := by
    rw [e]; rfl
  exact congrArg (State.serve n b) e'

/-- Raising a cause leaves the setup and the path. -/
theorem Dev.raise_keeps (c : Cause) (d : Dev) : (d.raise c).setup = d.setup ∧ (d.raise c).path = d.path := by
  obtain ⟨rq, e⟩ := Dev.raise_shape c d
  rw [e]; exact ⟨rfl, rfl⟩

/-- A load that begins in READY. -/
theorem Dev.beginLoad_ready {d : Dev} (h : d.setup.part = .ready) : d.beginLoad = Dev.placeBurst { op := .setup, addr := d.base, kind := .read 8 }
    { d with setup := { d.setup with part := .loading true, deferred := false, loadWords := [] } } := by
  unfold Dev.beginLoad
  simp only [h, decide_true, if_true]
  rfl

/-- A raised cause is pending. -/
theorem Dev.raise_pending (d : Dev) (c : Cause) (hu : d.setup.part ≠ .unplaced) : (d.raise c).report.pending.getLsbD c.bit = true := by
  unfold Dev.raise
  rw [if_neg hu]
  split
  · assumption
  · show (d.report.pending ||| c.mask).getLsbD c.bit = true
    rw [BitVec.getLsbD_or, show c.mask.getLsbD c.bit = true from by cases c <;> decide, Bool.or_true]

/-- A re-read leaves the report queue. -/
theorem Dev.reRead_queue (d : Dev) : d.reRead.report.queue = d.report.queue ∧ d.reRead.report.dropped = d.report.dropped := by
  have hp : ∀ (b : Burst) (d : Dev), (d.placeBurst b).report = d.report := by
    intro b d; unfold Dev.placeBurst; split <;> rfl
  unfold Dev.reRead
  split
  · constructor <;> exact (congrArg _ (hp _ _)).trans rfl
  · constructor <;> exact (congrArg _ (hp _ _)).trans rfl
  · exact ⟨rfl, rfl⟩

/-- Gathered code words. -/
theorem foldl_gather_code (l : List Nat) (f : Nat → List Word) : ∀ c : Ctx, l.foldl (fun c k => { c with code := c.code ++ [(k, wordAt (f k) 0)] }) c =
    { c with code := c.code ++ l.map fun k => (k, wordAt (f k) 0) } := by
  induction l with
  | nil => intro c; simp
  | cons x l ih => intro c; rw [List.foldl_cons, ih]; simp

/-- Work apart from an idle upstream port. -/
theorem Dev.apart_idle {s : State} (hu : s.dev.path.upstream = []) (h : Held) {α : Type} (f : Dev → α × Dev) :
    (s.dev.withUp [h]).apart f = ((f s.dev).1, (f s.dev).2.withUp [h]) := by
  unfold Dev.apart
  rw [Dev.withUp_withUp, Dev.withUp_idle hu]; rfl

/-- A control word written whole to a one-word window of READY. -/
theorem State.control_write {s : State} {m : Master} {w : WWord} {a : MemAns} {off : Nat} {k : Window} (f : Dev → Dev)
    (p : s.PortFree) (r : s.Ready) (ha : a.clean) (hr : rowAt off = some ⟨off, 1, k⟩)
    (h1 : k.answered = false) (h2 : ∀ g x, writeWork g k x 0 [w] = [.store x [w]])
    (hf : ∀ d : Dev, d.setup = s.dev.setup → d.path.lrst = s.dev.path.lrst → d.order = s.dev.order → d.path.cabase = s.dev.path.cabase → d.path.memsize = s.dev.path.memsize → d.pocket = s.dev.pocket → Dev.takeReady m k 0 [w] d = ([], f d))
    (hu : (f s.dev.countGrant).path.upstream = []) :
    exec (.plainWrite m 0 [] a) s = exec (.plainWrite m 0 [] a) s ∧ Host.Outcome.next (s.presentWrite m off 0 [w] a) = (Host.Outcome.next (s.stored m (s.dev.base + off) [w] f) : Host.Outcome State Fault Refusal) := by
  refine ⟨rfl, ?_⟩
  congr 1
  show s.present (.write m (s.dev.base + off + 4 * 0) [w]) a = _
  rw [Nat.mul_zero, Nat.add_zero]
  refine State.present_store p r ha rfl hr (by simp) (by simp) h1 ?_ ?_ ?_
  · rw [Nat.sub_self]; exact h2 _ _
  · rw [Nat.sub_self]
    apply hf <;> (unfold Dev.countGrant; split <;> rfl)
  · exact hu

/-- A LOAD word written in READY or UNLOADED. -/
theorem State.load_write {s : State} {m : Master} {v : Word} {be : BitVec 4} {a : MemAns} (f : Dev → Dev)
    (p : s.PortFree) (hb : s.dev.base < s.dev.size) (ha : a.clean) (hp : s.dev.setup.part = .ready ∨ s.dev.setup.part = .unloaded)
    (hf : Dev.takeReady m .load 0 [{ data := v, be := be }] s.dev.countGrant = ([], f s.dev.countGrant))
    (hu : (f s.dev.countGrant).path.upstream = []) :
    Host.Outcome.next (s.presentWrite m 0x100 0 [{ data := v, be := be }] a) = (Host.Outcome.next (s.stored m (s.dev.base + 0x100) [{ data := v, be := be }] f) : Host.Outcome State Fault Refusal) := by
  congr 1
  show s.present (.write m (s.dev.base + 0x100 + 4 * 0) _) a = _
  rw [Nat.mul_zero, Nat.add_zero]
  rcases hp with hp | hp
  · refine State.present_store (r := ⟨0x100, 1, .load⟩) p ⟨hp, hb⟩ ha rfl (by decide) (by simp) (by simp) rfl rfl hf hu
  · have row : ∀ d : Dev, d.path.cabase = s.dev.path.cabase → d.rowOf (.write m (s.dev.base + 0x100) [{ data := v, be := be }]) = some ⟨0x100, 1, .load⟩ := by
      intro d hd
      refine Dev.rowOf_at (t := .write m _ _) (off := 0x100) ?_ (by decide) (by simp [Txn.len])
      show s.dev.base + 0x100 = _
      unfold Dev.base; rw [hd]
    have ins := Dev.area_inside hb
    have as : areaSize = 65536 := rfl
    have hr : s.dev.refuses (.write m (s.dev.base + 0x100) [{ data := v, be := be }]) = false := by
      unfold Dev.refuses; rw [row _ rfl, hp]; simp [Txn.addr, Txn.len]; omega
    have hw : s.dev.workOf (.write m (s.dev.base + 0x100) [{ data := v, be := be }]) = [.store (s.dev.base + 0x100) [{ data := v, be := be }]] := by
      unfold Dev.workOf; rw [if_neg]; rfl; simp [hp]
    refine State.present_taken p ha hr hw ?_ hu
    unfold Dev.takeStore
    rw [row s.dev.countGrant s.dev.countGrant_keeps.2.1]
    dsimp only
    rw [show s.dev.countGrant.setup.part = .unloaded from (congrArg SetupUnit.part s.dev.countGrant_keeps.1).trans hp]
    dsimp only
    rw [if_pos rfl, show (s.dev.base + 0x100 - s.dev.countGrant.base - 0x100) / 4 = 0 from ?_]
    · exact hf
    · have : s.dev.countGrant.base = s.dev.base := by
        show areaBase s.dev.countGrant.path.cabase = _; rw [s.dev.countGrant_keeps.2.1]; rfl
      rw [this]; omega

/-- A read of GATE in READY. -/
theorem State.gate_read {s : State} {m : Master} {a : MemAns} {mi : Micro} {f : Dev → Word × Dev} (hu : s.dev.path.upstream = []) (r : s.Ready) (ha : a.clean)
    (hw : s.dev.readWork m .gate (s.dev.base + 0x144) 0 1 = [mi]) (hmi : (mi = .gatePoll ∧ f = Dev.pollGate) ∨ (mi = .gateInspect ∧ f = Dev.inspectGate)) (hb : (f s.dev).2.path.upstream = []) :
    s.presentRead m 0x144 0 1 a = State.served m [] (.okay [(f s.dev).1]) { s with dev := (f s.dev).2.settle } := by
  show s.present (.read m (s.dev.base + 0x144 + 4 * 0) 1) a = _
  rw [Nat.mul_zero, Nat.add_zero]
  have row : rowAt 0x144 = some ⟨0x144, 1, .gate⟩ := by decide
  have acc := Dev.accepted (d := s.dev) (t := .read m (s.dev.base + 0x144) 1) r.2 rfl row (by simp [Txn.len]) rfl
  rw [State.present_accepted hu ha acc, Dev.workOf_read r.1 rfl row (by decide) (by decide)]
  dsimp only
  rw [Nat.sub_self, Nat.zero_div, hw]
  have ap : ∀ h : Held, (s.dev.withUp [h]).apart f = ((f s.dev).1, (f s.dev).2.withUp [h]) := by
    intro h; unfold Dev.apart; rw [Dev.withUp_withUp, Dev.withUp_idle hu]; rfl
  rcases hmi with ⟨h1, h2⟩ | ⟨h1, h2⟩ <;> subst h1 <;> subst h2
  · exact State.serve_last (d' := s.dev.pollGate.2) (c' := { Ctx.init s.dev.fill.seq with ans := [s.dev.pollGate.1] }) 1021 1024 rfl (by unfold Dev.workDone; dsimp only [State.portsClear_dev]; rw [ap]; rfl) hb (s := s.portsClear)
  · exact State.serve_last (d' := s.dev.inspectGate.2) (c' := { Ctx.init s.dev.fill.seq with ans := [s.dev.inspectGate.1] }) 1021 1024 rfl (by unfold Dev.workDone; dsimp only [State.portsClear_dev]; rw [ap]; rfl) hb (s := s.portsClear)

/-- Memory does not matter to a quiet state. -/
theorem State.quiet_mem {s : State} (q : s.Quiet) (m) : ({ s with mem := m } : State).Quiet := ⟨q.upstream, q.port, q.bursts, q.request⟩

/-- Nominals put in one write. -/
theorem State.reach_nomPut {s : State} (q : s.Quiet) (m) (v : Nat) (vals : List Word) (w : List Micro) :
    State.Reach t c 1 { s with mem := m } { s with mem := Memory.writeWords m (s.dev.base + 0x300 + 4 * v) (vals.map fullWord) } (.nomPut v vals :: w) w :=
  State.Reach.access (s := { s with mem := m }) (d' := s.dev) (more := []) (mi := .nomPut v vals) (x := .write (s.dev.base + 0x300 + 4 * v) (vals.map fullWord)) (State.quiet_mem q m) rfl rfl q.request

/-- A nominal written in part. -/
theorem State.reach_nomMerge {s : State} (q : s.Quiet) (m) (v : Nat) (x : WWord) (w : List Micro) :
    State.Reach t c 2 { s with mem := m } { s with mem := Memory.writeWords m (s.dev.base + 0x300 + 4 * v) [fullWord (s.dev.shapeNominal (mergeBytes (Memory.readWord m (s.dev.base + 0x300 + 4 * v)) x.data x.be))] } (.nomMerge v x :: w) w := by
  have h : State.Reach t c 1 { s with mem := m } { s with mem := m } (.nomMerge v x :: w) ([.nomPut v [s.dev.shapeNominal (mergeBytes (Memory.readWord m (s.dev.base + 0x300 + 4 * v)) x.data x.be)]] ++ w) :=
    State.Reach.access (s := { s with mem := m }) (d' := s.dev) (mi := .nomMerge v x) (x := .read (s.dev.base + 0x300 + 4 * v) 1) (State.quiet_mem q m) rfl rfl q.request
  exact h.trans (State.reach_nomPut q m v _ w)

/-- A nominal added to. -/
theorem State.reach_nomAdd {s : State} (q : s.Quiet) (m) (v : Nat) (x : Word) (w : List Micro) :
    State.Reach t c 2 { s with mem := m } { s with mem := Memory.writeWords m (s.dev.base + 0x300 + 4 * v) [fullWord (s.dev.addNominal (Memory.readWord m (s.dev.base + 0x300 + 4 * v)) x)] } (.nomAdd v x :: w) w := by
  have h : State.Reach t c 1 { s with mem := m } { s with mem := m } (.nomAdd v x :: w) ([.nomPut v [s.dev.addNominal (Memory.readWord m (s.dev.base + 0x300 + 4 * v)) x]] ++ w) :=
    State.Reach.access (s := { s with mem := m }) (d' := s.dev) (mi := .nomAdd v x) (x := .read (s.dev.base + 0x300 + 4 * v) 1) (State.quiet_mem q m) rfl rfl q.request
  exact h.trans (State.reach_nomPut q m v _ w)

/-- A nominal write, run by run. -/
theorem State.reach_nominalRuns {s : State} (q : s.Quiet) (i : Nat) (rest : List Micro) : ∀ (ws : List WWord) (n start : Nat) (run : List Word) (m : List Host.Cell),
    (run ≠ [] → i + n = start + run.length) →
    State.Reach t c (3 * ws.length + 1) { s with mem := m }
      { s with mem := (ws.zipIdx n).foldl (fun mem x =>
        let addr := s.dev.base + 0x300 + 4 * (i + x.2)
        if x.1.be = 15#4 then Memory.writeWords mem addr [fullWord (s.dev.shapeNominal x.1.data)]
        else if x.1.be = 0#4 then mem
        else Memory.writeWords mem addr
          [fullWord (s.dev.shapeNominal (mergeBytes (Memory.readWord mem addr) x.1.data x.1.be))]) (Memory.writeWords m (s.dev.base + 0x300 + 4 * start) (run.reverse.map fullWord)) }
      (nominalRuns start run (i + n) (ws.map fun w => if isFull w then { w with data := s.dev.shapeNominal w.data } else w) ++ rest) rest := by
  intro ws
  induction ws with
  | nil =>
    intro n start run m hr
    show State.Reach t c 1 _ _ ((if run = [] then [] else [.nomPut start run.reverse]) ++ rest) rest
    by_cases e : run = []
    · subst e; exact .refl _ _ _
    · rw [if_neg e]; exact State.reach_nomPut q m _ _ _
  | cons w ws ih =>
    intro n start run m hr
    rw [List.zipIdx_cons, List.foldl_cons, List.map_cons, List.length_cons]
    by_cases hf : w.be = 15#4
    · have hf' := (isFull_iff w).2 hf
      rw [if_pos hf']
      dsimp only
      rw [if_pos hf]
      unfold nominalRuns
      rw [if_pos ((isFull_iff _).2 (show ({ w with data := s.dev.shapeNominal w.data } : WWord).be = _ from hf))]
      have k := ih (n + 1) (if run = [] then i + n else start) (s.dev.shapeNominal w.data :: run) m (by
        intro _
        by_cases e : run = []
        · rw [if_pos e, e]; simp only [List.length_cons, List.length_nil]; omega
        · rw [if_neg e]; have := hr e; simp only [List.length_cons]; omega)
      have me : Memory.writeWords (Memory.writeWords m (s.dev.base + 0x300 + 4 * start) (run.reverse.map fullWord)) (s.dev.base + 0x300 + 4 * (i + n)) [fullWord (s.dev.shapeNominal w.data)] = Memory.writeWords m (s.dev.base + 0x300 + 4 * (if run = [] then i + n else start)) ((s.dev.shapeNominal w.data :: run).reverse.map fullWord) := by
        by_cases e : run = []
        · subst e; rfl
        · rw [if_neg e, List.reverse_cons, List.map_append, Memory.writeWords_append]
          have := hr e
          rw [List.length_map, List.length_reverse, show s.dev.base + 0x300 + 4 * start + 4 * run.length = s.dev.base + 0x300 + 4 * (i + n) by omega]
          rfl
      rw [me]
      exact k.mono (by omega)
    · have hf' : ¬(isFull w = true) := fun h => hf ((isFull_iff w).1 h)
      rw [if_neg hf']
      dsimp only
      rw [if_neg hf]
      unfold nominalRuns
      rw [if_neg hf', List.append_assoc, List.append_assoc]
      have a1 : State.Reach t c 1 { s with mem := m } { s with mem := Memory.writeWords m (s.dev.base + 0x300 + 4 * start) (run.reverse.map fullWord) } ((if run = [] then [] else [.nomPut start run.reverse]) ++ ((if w.be = 0#4 then [] else [.nomMerge (i + n) w]) ++ (nominalRuns 0 [] (i + n + 1) (ws.map fun w => if isFull w then { w with data := s.dev.shapeNominal w.data } else w) ++ rest))) ((if w.be = 0#4 then [] else [.nomMerge (i + n) w]) ++ (nominalRuns 0 [] (i + n + 1) (ws.map fun w => if isFull w then { w with data := s.dev.shapeNominal w.data } else w) ++ rest)) := by
        by_cases e : run = []
        · subst e; exact .refl _ _ _
        · rw [if_neg e]; exact State.reach_nomPut q m _ _ _
      have k := fun m => ih (n + 1) 0 [] m (fun h => absurd rfl h)
      by_cases h0 : w.be = 0#4
      · rw [if_pos h0] at a1 ⊢
        rw [if_pos h0]
        exact (a1.trans (k _)).mono (by omega)
      · rw [if_neg h0] at a1 ⊢
        rw [if_neg h0]
        exact (a1.trans ((State.reach_nomMerge q _ _ w _).trans (k _))).mono (by omega)

/-- A write of the add view, word by word. -/
theorem State.reach_adds {s : State} (q : s.Quiet) (i : Nat) : ∀ (ws : List WWord) (n : Nat) (m : List Host.Cell),
    State.Reach t c (2 * ws.length) { s with mem := m }
      { s with mem := (ws.zipIdx n).foldl (fun mem x =>
        let addr := s.dev.base + 0x300 + 4 * (i + x.2)
        if x.1.be = 15#4 then
          Memory.writeWords mem addr [fullWord (s.dev.addNominal (Memory.readWord mem addr) x.1.data)]
        else mem) m }
      (addWords (i + n) ws) [] := by
  intro ws
  induction ws with
  | nil => intro n m; exact .refl _ _ _
  | cons w ws ih =>
    intro n m
    rw [List.zipIdx_cons, List.foldl_cons, List.length_cons]
    unfold addWords
    dsimp only
    by_cases hf : w.be = 15#4
    · rw [if_pos ((isFull_iff w).2 hf), if_pos hf]
      exact ((State.reach_nomAdd q m _ _ _).trans (ih (n + 1) _)).mono (by omega)
    · rw [if_neg (fun h => hf ((isFull_iff w).1 h)), if_neg hf]
      exact (ih (n + 1) _).mono (by omega)

/-- A broadcast set, burst by burst. -/
theorem State.reach_setBursts {s : State} (q : s.Quiet) (x : Word) : ∀ (l : List Nat) (start len : Nat) (m : List Host.Cell),
    State.Reach t c (l.length + 1) { s with mem := m }
      { s with mem := l.foldl (fun mem v => Memory.writeWords mem (s.dev.base + 0x300 + 4 * v) [fullWord x]) (Memory.writeWords m (s.dev.base + 0x300 + 4 * start) ((List.replicate len x).map fullWord)) }
      (setBursts x start len l) [] := by
  intro l
  induction l with
  | nil =>
    intro start len m
    unfold setBursts
    by_cases h : len = 0
    · rw [if_pos h, h]; exact .refl _ _ _
    · rw [if_neg h]; exact State.reach_nomPut q m _ _ _
  | cons v l ih =>
    intro start len m
    unfold setBursts
    rw [List.foldl_cons, List.length_cons]
    by_cases h : len = 0
    · rw [if_pos h, h]
      exact (ih v 1 m).mono (by omega)
    · rw [if_neg h]
      by_cases h2 : v = start + len ∧ len < 8
      · rw [if_pos h2]
        have k := ih start (len + 1) m
        rw [List.replicate_succ', List.map_append, Memory.writeWords_append, List.length_map, List.length_replicate] at k
        rw [show s.dev.base + 0x300 + 4 * start + 4 * len = s.dev.base + 0x300 + 4 * v by omega] at k
        exact k.mono (by omega)
      · rw [if_neg h2]
        exact ((State.reach_nomPut q m _ _ _).trans (ih v 1 _)).mono (by omega)

/-- A broadcast add, valve by valve. -/
theorem State.reach_addAll {s : State} (q : s.Quiet) (x : Word) : ∀ (l : List Nat) (m : List Host.Cell),
    State.Reach t c (2 * l.length) { s with mem := m }
      { s with mem := l.foldl (fun mem v => Memory.writeWords mem (s.dev.base + 0x300 + 4 * v) [fullWord (s.dev.addNominal (Memory.readWord mem (s.dev.base + 0x300 + 4 * v)) x)]) m }
      (l.map fun v => Micro.nomAdd v x) [] := by
  intro l
  induction l with
  | nil => intro m; exact .refl _ _ _
  | cons v l ih =>
    intro m
    rw [List.foldl_cons, List.length_cons, List.map_cons]
    exact ((State.reach_nomAdd q m _ _ _).trans (ih _)).mono (by omega)

/-- A broadcast word written in READY. -/
theorem State.broadcast_write {s : State} (q : s.Quiet) (r : s.Ready) {m : Master} {w : WWord} {a : MemAns} (ha : a.clean) {off : Nat} {k : Window} {K : Nat} {mem' : List Host.Cell} {mis : List Micro}
    (hr : rowAt off = some ⟨off, 1, k⟩) (h1 : k.answered = false) (h2 : ∀ g x, writeWork g k x 0 [w] = [.store x [w]])
    (ht : Dev.takeReady m k 0 [w] s.dev = (mis, s.dev)) (hK : K ≤ 1000)
    (hR : State.Reach (.write m (s.dev.base + off) [w]) (Ctx.init s.dev.fill.seq) K { s with mem := Memory.writeWords s.mem (s.dev.base + off) [w] } { s with mem := mem' } mis []) :
    ∃ xs, s.presentWrite m off 0 [w] a = State.served m xs (.okay []) { s with mem := mem' } := by
  show ∃ xs, s.present (.write m (s.dev.base + off + 4 * 0) [w]) a = _
  rw [Nat.mul_zero, Nat.add_zero]
  have acc := Dev.accepted (d := s.dev) (t := .write m (s.dev.base + off) [w]) r.2 rfl hr (by show _ + 4 * 1 ≤ _; simp only; omega) (by rw [h1]; rfl)
  rw [State.present_accepted q.upstream ha acc, Dev.workOf_write r.1 rfl hr (by simp) (by simp)]
  dsimp only
  rw [Nat.sub_self, h2]
  have st : State.Reach (.write m (s.dev.base + off) [w]) (Ctx.init s.dev.fill.seq) 1 s { s with mem := Memory.writeWords s.mem (s.dev.base + off) [w], dev := s.dev } [.store (s.dev.base + off) [w]] (mis ++ []) := by
    refine State.Reach.access (x := .write (s.dev.base + off) [w]) q rfl ?_ q.request
    unfold Dev.workDone
    dsimp only
    rw [Dev.apart_idle q.upstream, Dev.takeStore_at r.1 rfl hr (by simp)]
    dsimp only
    rw [Nat.sub_self]
    show ((Dev.takeReady m k 0 [w] s.dev).1, _) = _
    rw [show (Held.at (.write m (s.dev.base + off) [w]) (.store (s.dev.base + off) [w]) [] (Ctx.init s.dev.fill.seq)).txn.master = m from rfl, ht]
    rfl
  rw [List.append_nil] at st
  exact (st.trans hR).served q.upstream (m := m) rfl _ _ (by omega) (by omega)

/-- With no slot PENDING no fill is the switching fill. -/
theorem Dev.switchAt_none {d : Dev} (h : d.slotIn .pending = none) (v : Fin 64) (c : Ctx) : d.switchAt v c = none := by
  unfold Dev.switchAt; split
  · exact h
  · rfl

/-- With the flag clear and no can count that the read's fills reach, no fill is the switching fill (R32, R134). -/
theorem Dev.switchAt_notDue {d : Dev} {c : Ctx} (h : d.fill.switchDue = false)
    (he : ∀ e, d.order.cur = some e → e.canCount = 0 ∨ e.made + c.made < e.canCount) (v : Fin 64) :
    d.switchAt v c = none := by
  have k : d.dueWith c = false := by
    unfold Dev.dueWith Dev.entryWith
    cases hc : d.order.cur with
    | none => rfl
    | some e =>
      have := he e hc
      show decide (e.canCount ≠ 0 ∧ e.canCount ≤ e.made + c.made) = false
      rw [decide_eq_false_iff_not]; omega
  unfold Dev.switchAt
  rw [if_neg (by rw [h, k]; simp)]

/-- A fill of an idle valve or of a SUSPENDED one is not the switching fill (R32). -/
theorem Dev.switchAt_idle {d : Dev} {v : Fin 64} (h : d.su.valves ≤ v.val ∨ (d.valveRec v).st = .suspended) (c : Ctx) :
    d.switchAt v c = none := by
  unfold Dev.switchAt
  rw [if_neg]
  rintro ⟨_, a, b⟩
  rcases h with h | h
  · omega
  · exact b h

/-- A formed fill adds at most one to the fills made (R134). -/
theorem Dev.formFill_made (d : Dev) (v : Fin 64) (x : Word) (c : Ctx) : (d.formFill v x c).made ≤ c.made + 1 := by
  have st : ∀ c : Ctx, (d.stallTest c).made = c.made := by
    intro c
    unfold Dev.stallTest
    split
    · rfl
    · split <;> rfl
  unfold Dev.formFill
  split
  · exact Nat.le_succ _
  · exact Nat.le_succ _
  · rw [st]
    unfold Dev.formDosed
    dsimp only
    split
    · exact Nat.le_refl _
    · exact Nat.le_succ _

/-- The fills of a read, none of them the switching fill, are formed one after another, each with its nominal's
fetch. -/
theorem State.serve_fills (t : Txn) (rest : List Micro) : ∀ (l : List Nat) (c : Ctx) (n b : Nat) (s : State), s.Quiet →
    (∀ pre v post, l = pre ++ v :: post → s.dev.switchAt (Fin.ofNat 64 v) (pre.foldl (fun c v =>
      s.dev.formFill (Fin.ofNat 64 v) (Memory.readWord s.mem (s.dev.base + 0x300 + 4 * v)) c) c) = none) →
      State.serve (n + l.length) (b + l.length) (s.holding t (some (l.map Micro.fill ++ rest)) c) =
        State.serve n b (State.holding t (some rest)
          (l.foldl (fun c v => s.dev.formFill (Fin.ofNat 64 v) (Memory.readWord s.mem (s.dev.base + 0x300 + 4 * v)) c) c)
          (s.issuing t.master (l.map fun v => .read (s.dev.base + 0x300 + 4 * v) 1))) := by
  intro l
  induction l with
  | nil =>
    intro c n b s _ _
    rw [List.map_nil, List.map_nil, State.issuing_nil]
    rfl
  | cons x l ih =>
    intro c n b s q hp
    have h0 : s.dev.switchAt (Fin.ofNat 64 x) c = none := hp [] x l rfl
    rw [List.length_cons, ← Nat.add_assoc, ← Nat.add_assoc, List.map_cons, List.cons_append]
    rw [State.serve_access (d' := s.dev) (more := []) (x := .read (s.dev.base + 0x300 + 4 * x) 1)
      (c' := s.dev.formFill (Fin.ofNat 64 x) (Memory.readWord s.mem (s.dev.base + 0x300 + 4 * x)) c)
      (n + l.length) (b + l.length) q ?_ ?_ q.request]
    · refine (ih _ n b (s.issuing t.master [.read (s.dev.base + 0x300 + 4 * x) 1]) (q.issuing _ _) ?_).trans ?_
      · intro pre v post e
        exact hp (x :: pre) v post (by rw [e]; rfl)
      rw [State.issuing_issuing]
      rfl
    · unfold Micro.access; dsimp only; rw [h0]; rfl
    · unfold Dev.workDone
      dsimp only
      rw [show (s.dev.withUp [Held.at t (.fill x) (l.map Micro.fill ++ rest) c]).switchAt (Fin.ofNat 64 x)
        (Held.at t (.fill x) (l.map Micro.fill ++ rest) c).ctx = none from h0]
      rfl

/-- The part with another valve table. -/
def Dev.putRecs (x : Dev) (u : Vector ValveRec 64) : Dev := { x with valve := { x.valve with recs := u } }

/-- A valve command changes one record of the table. -/
theorem Dev.commandValve_putRecs (x : Dev) (c : ValveCommand) (operand : Int) (u) (y : Fin 64) : Dev.commandValve y c operand (Dev.putRecs x u) =
        Dev.putRecs x (u.set y.val ((u.get y).command c operand (x.trimLimit.getD 0)) y.isLt) := rfl

/-- One record of a table after an update. -/
theorem get_set_ite (u : Vector ValveRec 64) (y v : Fin 64) (r : ValveRec) : (u.set y.val r y.isLt).get v = if v = y then r else u.get v := by
  by_cases q : v = y
  · subst q; rw [if_pos rfl]; simp [Vector.get_eq_getElem]
  · rw [if_neg q, Vector.get_eq_getElem, Vector.getElem_set_ne]
    · rfl
    · exact fun k => q (Fin.ext k.symm)

/-- A table made of its own records. -/
theorem ofFn_get (u : Vector ValveRec 64) : (Vector.ofFn fun v => u.get v) = u := by
  apply Vector.ext; intro i hi; rw [Vector.getElem_ofFn]; rfl

/-- A command to a group of valves. -/
theorem Dev.foldl_commandValve (x : Dev) (c : ValveCommand) (operand : Int) (limit : Nat) (lim : x.trimLimit.getD 0 = limit) : ∀ (l : List (Fin 64)) (u : Vector ValveRec 64), l.Nodup →
    l.foldl (fun d v => d.commandValve v c operand) (Dev.putRecs x u) =
      Dev.putRecs x (Vector.ofFn fun v => if v ∈ l then (u.get v).command c operand limit else u.get v) := by
  intro l
  induction l with
  | nil =>
    intro u _
    simp only [List.not_mem_nil, if_false, List.foldl_nil, ofFn_get]
  | cons y l ih =>
    intro u hn
    rw [List.nodup_cons] at hn
    rw [List.foldl_cons, Dev.commandValve_putRecs, lim, ih _ hn.2]
    apply congrArg (Dev.putRecs x)
    apply congrArg Vector.ofFn
    funext v
    rw [get_set_ite]
    by_cases q : v = y
    · subst q; rw [if_neg hn.1, if_pos rfl, if_pos List.mem_cons_self]
    · rw [if_neg q]; simp [q]

end Sys2Proof.Machine
end

