-- ==== Sys2Proof/Laws/CodeSlots.lean ====
section
/-! SUPPORT. The slots that a code write takes. -/

namespace Sys2Proof.Machine

variable {s : State} {t : Txn} {mi : Micro} {rest more : List Micro} {c c' : Ctx} {a d d' : Dev} {x : Nat}

/-- Word `x` of the area as a write from word `i` on carries it whole. -/
def carriedWord (i : Nat) (ws : List WWord) (x : Nat) : Option Word :=
  if i ≤ x then
    match ws[x - i]? with
    | none => none
    | some w => if w.be = 15#4 then some w.data else none
  else none

/-- The words of a slot that a write carries. -/
theorem slotWords_eq (j i : Nat) (ws : List WWord) : slotWords j i ws = (List.range 4).filterMap fun k => (carriedWord i ws (4 * j + k)).map fun w => (k, w) := by
  unfold slotWords carriedWord
  congr 1
  funext k
  by_cases h : i ≤ 4 * j + k
  · rw [if_pos h, if_pos h]
    cases ws[4 * j + k - i]? with
    | none => rfl
    | some w =>
      dsimp only
      by_cases f : w.be = 15#4
      · rw [if_pos f, if_pos (by simp [isFull, f])]; rfl
      · rw [if_neg f, if_neg (by simp [isFull, f])]; rfl
  · rw [if_neg h, if_neg h]; rfl

theorem lookup_gathered (g : Nat → Option Word) (k : Nat) (hk : k < 4) :
    ((List.range 4).filterMap fun k => (g k).map fun w => (k, w)).lookup k = g k := by
  rw [show List.range 4 = [0, 1, 2, 3] from rfl]
  simp only [List.filterMap_cons, List.filterMap_nil]
  have : k = 0 ∨ k = 1 ∨ k = 2 ∨ k = 3 := by omega
  rcases this with rfl | rfl | rfl | rfl <;> cases g 0 <;> cases g 1 <;> cases g 2 <;> cases g 3 <;> rfl

/-- One word of a slot that a write carries. -/
theorem lookup_slotWords (j i : Nat) (ws : List WWord) (k : Nat) (hk : k < 4) : (slotWords j i ws).lookup k = carriedWord i ws (4 * j + k) := by
  rw [slotWords_eq, lookup_gathered (fun k => carriedWord i ws (4 * j + k)) k hk]

/-- A write without a whole word 3 takes no slot. -/
theorem codeSlots_none {i : Nat} {ws : List WWord} (h : ∀ j, carriedWord i ws (4 * j + 3) = none) : codeSlots i ws = [] := by
  unfold codeSlots
  rw [List.filterMap_eq_nil_iff]
  intro x _
  dsimp only
  rw [lookup_slotWords _ _ _ _ (by decide), h]
  rfl

/-- A carried word lies in the write. -/
theorem carriedWord_some {i : Nat} {ws : List WWord} {x : Nat} {w : Word} (h : carriedWord i ws x = some w) : i ≤ x ∧ x - i < ws.length := by
  unfold carriedWord at h
  split at h
  · rename_i g
    refine ⟨g, ?_⟩
    cases k : ws[x - i]? with
    | none => rw [k] at h; cases h
    | some y => exact (List.getElem?_eq_some_iff.mp k).1
  · cases h

/-- A write with one whole word 3 takes one slot. -/
theorem codeSlots_one {i : Nat} {ws : List WWord} (h8 : ws.length ≤ 8) {j : Nat} {seq : Word} (h : carriedWord i ws (4 * j + 3) = some seq)
    (h' : ∀ j', j' ≠ j → carriedWord i ws (4 * j' + 3) = none) : codeSlots i ws = [.codeSlot j (slotWords j i ws)] := by
  have b := carriedWord_some h
  have e : ∀ x, (let j' := i / 4 + x; let known := slotWords j' i ws; if (known.lookup 3).isSome then some (Micro.codeSlot j' known) else none) = if i / 4 + x = j then some (Micro.codeSlot j (slotWords j i ws)) else none := by
    intro x
    dsimp only
    rw [lookup_slotWords _ _ _ _ (by decide)]
    by_cases q : i / 4 + x = j
    · rw [q, h, if_pos rfl]; rfl
    · rw [h' _ q, if_neg q]; rfl
  unfold codeSlots
  rw [show (fun x => _) = _ from funext e]
  rw [show List.range 3 = [0, 1, 2] from rfl]
  simp only [List.filterMap_cons, List.filterMap_nil]
  have : i / 4 + 0 = j ∨ i / 4 + 1 = j ∨ i / 4 + 2 = j := by omega
  rcases this with q | q | q
  · rw [if_pos q, if_neg (by omega), if_neg (by omega)]
  · rw [if_neg (by omega), if_pos q, if_neg (by omega)]
  · rw [if_neg (by omega), if_neg (by omega), if_pos q]

/-- The slot after a slot. -/
theorem nextCodeIndex_eq (j : Nat) (h : j < 128) : nextCodeIndex j = (j + 1) % 128 := by unfold nextCodeIndex; split <;> omega

/-- When a record is a repost. -/
theorem CodeUnit.isRepost_iff {u : CodeUnit} {j : Nat} {seq : Word} (h : j < 128) : u.isRepost j seq = true ↔ (j + 1) % 128 = u.expected ∧ u.last = some seq := by
  unfold CodeUnit.isRepost; rw [nextCodeIndex_eq j h]; simp

/-- The words of a slot that are read from memory. -/
def codeNeeds (i : Nat) (ws : List WWord) (j : Nat) : List Nat := [0, 1, 2].filter fun k => (carriedWord i ws (4 * j + k)).isNone

/-- The work of one slot. -/
theorem Dev.codeWork_eq (d : Dev) {i : Nat} {ws : List WWord} {j : Nat} {seq : Word} (hj : j < 128) (h : carriedWord i ws (4 * j + 3) = some seq) :
    d.codeWork j (slotWords j i ws) = if (j + 1) % 128 = d.code.expected ∧ d.code.last = some seq then [] else
      (codeNeeds i ws j).map (Micro.codeWord j) ++ [.codeTake j (slotWords j i ws)] := by
  unfold Dev.codeWork codeNeeds
  rw [lookup_slotWords _ _ _ _ (by decide : 3 < 4), h]
  simp only [Option.getD_some, CodeUnit.isRepost_iff hj]
  congr 3
  apply List.filter_congr
  intro k hk
  rw [lookup_slotWords]
  simp only [List.mem_cons, List.not_mem_nil, or_false] at hk
  omega

/-- A word of a slot, carried or read. -/
theorem codeWord_eq {i : Nat} {ws : List WWord} {j k : Nat} (f : Nat → Word) (hk : k < 3) :
    ((slotWords j i ws ++ (codeNeeds i ws j).map fun k => (k, f k)).lookup k).getD 0 = (carriedWord i ws (4 * j + k)).getD (f k) := by
  rw [lookup_append, lookup_slotWords _ _ _ _ (by omega)]
  cases h : carriedWord i ws (4 * j + k) with
  | some w => rfl
  | none =>
    rw [Option.none_or, lookup_map_mem]
    · rfl
    · unfold codeNeeds
      simp only [List.mem_filter, List.mem_cons, List.not_mem_nil, or_false]
      exact ⟨by omega, by rw [h]; rfl⟩

/-- A slot taken with its words. -/
theorem Dev.codeTaken_eq {i : Nat} {ws : List WWord} {j : Nat} {seq : Word} (f : Nat → Word) (c : Ctx) (d : Dev) (h : carriedWord i ws (4 * j + 3) = some seq) :
    Dev.codeTaken j (slotWords j i ws) { c with code := (codeNeeds i ws j).map fun k => (k, f k) } d =
      Dev.takeCode j (codeRecOf ((carriedWord i ws (4 * j + 0)).getD (f 0)) ((carriedWord i ws (4 * j + 1)).getD (f 1)) ((carriedWord i ws (4 * j + 2)).getD (f 2))) seq d := by
  unfold Dev.codeTaken
  dsimp only
  rw [codeWord_eq f (by decide), codeWord_eq f (by decide), codeWord_eq f (by decide), lookup_append, lookup_slotWords _ _ _ _ (by decide : 3 < 4), h]
  rfl

theorem Dev.workDone_codeSlot (h : Held) (d : Dev) (j : Nat) (known : List (Nat × Word)) :
    (d.withUp [h]).workDone h [] (.codeSlot j known) = (d.codeWork j known, { h.ctx with code := [] }, d.withUp [h]) := rfl

theorem Dev.workDone_codeTake (h : Held) (d : Dev) (hu : d.path.upstream = []) (j : Nat) (known : List (Nat × Word)) :
    (d.withUp [h]).workDone h [] (.codeTake j known) = ([], h.ctx, (Dev.codeTaken j known h.ctx d).withUp [h]) := by
  show ([], h.ctx, ((d.withUp [h]).apart fun d => ((), d.codeTaken j known h.ctx)).2) = _
  unfold Dev.apart
  rw [Dev.withUp_withUp, Dev.withUp_idle hu]; rfl

theorem Dev.codeTaken_upstream {d : Dev} (hu : d.path.upstream = []) (j : Nat) (known : List (Nat × Word)) (c : Ctx) : (Dev.codeTaken j known c d).path.upstream = [] := by
  unfold Dev.codeTaken
  exact (Dev.takeCode_block (.refl _) _ _ _).upstream.trans hu

/-- A code write by the reader, after its store. -/
theorem State.serve_codeStore {m : Master} {i : Nat} {ws : List WWord} {a : MemAns} (q : s.Quiet) (r : s.Ready) (ha : a.clean)
    (h1 : 1 ≤ ws.length) (hi : i + ws.length ≤ 512) (hm : m.toNat = s.dev.su.reader) :
    s.presentWrite m 0x800 i ws a = State.serve 1022 1023 (State.holding (.write m (s.dev.base + 0x800 + 4 * i) ws) (some (codeSlots i ws ++ []))
      (Ctx.init s.dev.fill.seq) { s with
        answers := [], downstream := issuedFor m [.write (s.dev.base + 0x800 + 4 * i) ws]
        mem := Memory.writeWords s.mem (s.dev.base + 0x800 + 4 * i) ws }) := by
  have row := (rowAt_window (0x800 + 4 * i)).2.2.2.2.1 (by omega)
  have hl : 0x800 + 4 * i + 4 * ws.length ≤ 0x800 + 4 * 512 := by omega
  have acc := Dev.accepted (d := s.dev) (t := .write m (s.dev.base + 0x800 + 4 * i) ws) (off := 0x800 + 4 * i) r.2 (Nat.add_assoc _ _ _) row hl rfl
  show s.present (.write m (s.dev.base + 0x800 + 4 * i) ws) a = _
  rw [State.present_accepted q.upstream ha acc, Dev.workOf_write r.1 (Nat.add_assoc _ _ _) row hl h1]
  refine State.serve_access (s := s.portsClear) (d' := s.dev) 1022 1023 (x := .write (s.dev.base + 0x800 + 4 * i) ws)
    ⟨q.upstream, q.port, q.bursts, q.request⟩ rfl ?_ q.request
  show (let r := (s.dev.withUp [_]).apart fun d => d.takeStore m _ ws; (r.1, _, r.2)) = _
  unfold Dev.apart
  dsimp only
  rw [Dev.withUp_withUp, Dev.withUp_idle q.upstream, Dev.takeStore_at (off := 0x800 + 4 * i) r.1 (Nat.add_assoc _ _ _) row hl]
  rw [show (0x800 + 4 * i - 0x800) / 4 = i by omega]
  have e : Dev.takeReady m (WindowRow.kind ⟨2048, 512, .code⟩) i ws s.dev = (codeSlots i ws, s.dev) := if_pos hm
  rw [e]
  rfl

end Sys2Proof.Machine
end

