-- ==== Sys2Proof/Laws/Switch.lean ====
section
/-! SUPPORT. The switching fill said once: the order unit's operations leave the transactions presented alone, and
what serving the switch's writes, the switch and the fill leaves (R32 to R34). -/

namespace Sys2Proof.Machine

/-! ### Operations apart from the transactions presented -/

variable (u : List Held) (d : Dev)

theorem Dev.pushOrderWrite_withUp (a : Nat) (v : Word) :
    Dev.pushOrderWrite a v (d.withUp u) = (d.pushOrderWrite a v).withUp u := by
  unfold Dev.pushOrderWrite
  dsimp only
  by_cases h : d.order.writes = []
  · rw [if_pos h, if_pos (show (d.withUp u).order.writes = [] from h)]
    exact Dev.placeBurst_withUp _ u { d with order := { d.order with writes := d.order.writes ++ [(a, v)] } }
  · rw [if_neg h, if_neg (show ¬(d.withUp u).order.writes = [] from h)]; rfl

theorem Dev.writeEntry_withUp (o : LotOrder) (i : Nat) (e : LotEntry) :
    Dev.writeEntry o i e (d.withUp u) = (d.writeEntry o i e).withUp u := by
  unfold Dev.writeEntry
  rw [Dev.pushOrderWrite_withUp, Dev.pushOrderWrite_withUp]

theorem Dev.updateEntry_withUp (p : Fin 2) (i : Nat) (f : LotEntry → LotEntry) :
    Dev.updateEntry p i f (d.withUp u) = (d.updateEntry p i f).withUp u := by
  unfold Dev.updateEntry
  rw [show (d.withUp u).place p = d.place p from rfl]
  cases d.place p with
  | none => rfl
  | some o =>
    dsimp only
    cases o.entries[i]? with
    | none => rfl
    | some e => exact Dev.writeEntry_withUp u (d.setPlace p _) _ _ _

theorem Dev.writeOrderStatus_withUp (b : Bool) (o : LotOrder) :
    Dev.writeOrderStatus b o (d.withUp u) = (d.writeOrderStatus b o).withUp u :=
  Dev.pushOrderWrite_withUp u d _ _

theorem Dev.releasePlace_withUp (p : Fin 2) : Dev.releasePlace p (d.withUp u) = (d.releasePlace p).withUp u := by
  unfold Dev.releasePlace
  dsimp only
  rw [show (d.withUp u).order = d.order from rfl]
  split
  · rfl
  · split <;> rfl

theorem Dev.completeOrder_withUp (p : Fin 2) : Dev.completeOrder p (d.withUp u) = (d.completeOrder p).withUp u := by
  unfold Dev.completeOrder
  rw [show (d.withUp u).place p = d.place p from rfl]
  cases d.place p with
  | none => rfl
  | some o =>
    dsimp only
    split
    · split
      · rw [Dev.writeOrderStatus_withUp, Dev.releasePlace_withUp]
      · rw [Dev.writeOrderStatus_withUp]
        split
        · rw [Dev.raise_withUp, Dev.releasePlace_withUp]
        · rw [Dev.releasePlace_withUp]
    · rfl

theorem Dev.closeEntry_withUp (r : LotRef) : Dev.closeEntry r (d.withUp u) = (d.closeEntry r).withUp u := by
  unfold Dev.closeEntry
  cases r with
  | detached => rfl
  | entry p i =>
    dsimp only
    rw [Dev.updateEntry_withUp]
    rw [show (Dev.withUp u (Dev.updateEntry p i (fun e => { e with status := .closed }) d)).place p =
      (Dev.updateEntry p i (fun e => { e with status := .closed }) d).place p from rfl]
    cases (Dev.updateEntry p i (fun e => { e with status := .closed }) d).place p with
    | none => rfl
    | some o =>
      dsimp only
      refine Eq.trans (congrArg _ ?_) (Dev.completeOrder_withUp u _ p)
      exact Dev.writeOrderStatus_withUp u (Dev.setPlace _ p _) _ _

/-- A slot drains alike with other transactions presented, when they have formed no fill under it. -/
theorem Dev.drainIfEmpty_withUp (k : Fin 4) (h : (d.withUp u).tentative k = d.tentative k) :
    Dev.drainIfEmpty k (d.withUp u) = (d.drainIfEmpty k).withUp u := by
  unfold Dev.drainIfEmpty
  dsimp only
  rw [h, show (d.withUp u).slot k = d.slot k from rfl]
  split
  · exact Dev.closeEntry_withUp u (d.setSlot k .empty) _
  · rfl

theorem Dev.reformBare_withUp : (d.withUp u).reformBare = d.reformBare.withUp u := by
  unfold Dev.reformBare
  generalize List.range 64 = l
  revert d
  induction l with
  | nil => exact fun _ => rfl
  | cons x l ih =>
    intro d
    rw [List.foldl_cons, List.foldl_cons]
    dsimp only
    rw [show (d.withUp u).entry (BitVec.ofNat 32 x) = d.entry (BitVec.ofNat 32 x) from rfl]
    split
    · exact ih (d.setEntry (BitVec.ofNat 32 x) (d.reformNet (d.entry (BitVec.ofNat 32 x))))
    · exact ih d

theorem Dev.switchValves_withUp (c : Recipe) : Dev.switchValves c (d.withUp u) = (d.switchValves c).withUp u := by
  unfold Dev.switchValves
  generalize valveNumbers = l
  revert d
  induction l with
  | nil => exact fun _ => rfl
  | cons x l ih => exact fun d => ih (d.setValve x ((d.valveRec x).switched c))

theorem Dev.fillOldEntry_withUp (c : Ctx) : Dev.fillOldEntry c (d.withUp u) = (d.fillOldEntry c).withUp u := by
  unfold Dev.fillOldEntry
  rw [show (d.withUp u).entryWith c = d.entryWith c from rfl]
  split
  · rfl
  · split
    · rfl
    · exact Dev.updateEntry_withUp u d _ _ _

theorem Dev.startNewEntry_withUp (r : LotRef) : Dev.startNewEntry r (d.withUp u) = (d.startNewEntry r).withUp u := by
  unfold Dev.startNewEntry
  cases r with
  | detached => rfl
  | entry p i =>
    dsimp only
    rw [Dev.updateEntry_withUp]
    rfl

/-- The switch is made alike with another transaction held, when it has formed no fill yet. -/
theorem Dev.switchTo_withUp (k : Fin 4) (c : Ctx) (h : ∀ d : Dev, d.path.upstream = [] → ∀ j, (d.withUp u).tentative j = d.tentative j)
    (hd : d.path.upstream = []) : Dev.switchTo k c (d.withUp u) = (d.switchTo k c).withUp u := by
  unfold Dev.switchTo
  dsimp only
  rw [show (d.withUp u).recipeOf k = d.recipeOf k from rfl, show (d.withUp u).currentSlot = d.currentSlot from rfl,
    Dev.switchValves_withUp, Dev.fillOldEntry_withUp]
  have up : (Dev.fillOldEntry c (Dev.switchValves (d.recipeOf k) d)).path.upstream = [] := by
    obtain ⟨v, e⟩ := d.switchValves_shape (d.recipeOf k)
    refine ((Dev.fillOldEntry_block (.refl _) _).upstream.trans ?_)
    rw [e]; exact hd
  have ends : ∀ e : Dev, Dev.raise .lotSwitch (Dev.reformBare { e.withUp u with fill := { (e.withUp u).fill with switchDue := false } }) =
      (Dev.raise .lotSwitch (Dev.reformBare { e with fill := { e.fill with switchDue := false } })).withUp u := by
    intro e
    rw [show ({ e.withUp u with fill := { (e.withUp u).fill with switchDue := false } } : Dev) =
      Dev.withUp u { e with fill := { e.fill with switchDue := false } } from rfl, Dev.reformBare_withUp, Dev.raise_withUp]
  revert up
  generalize Dev.fillOldEntry c (Dev.switchValves (d.recipeOf k) d) = e
  intro up
  cases d.currentSlot with
  | none =>
    dsimp only
    rw [show (e.withUp u).setSlot k { (e.withUp u).slot k with st := .current } =
      (e.setSlot k { e.slot k with st := .current }).withUp u from rfl, Dev.startNewEntry_withUp]
    exact ends _
  | some j =>
    dsimp only
    rw [show Dev.setSlot ((e.withUp u).setSlot j { (e.withUp u).slot j with st := .draining }) k
        { ((e.withUp u).setSlot j { (e.withUp u).slot j with st := .draining }).slot k with st := .current } =
      (Dev.setSlot (e.setSlot j { e.slot j with st := .draining }) k
        { (e.setSlot j { e.slot j with st := .draining }).slot k with st := .current }).withUp u from rfl,
      Dev.startNewEntry_withUp, Dev.drainIfEmpty_withUp]
    · exact ends _
    · refine h _ ?_ _
      exact (Dev.startNewEntry_block (.refl _) _).upstream.trans up

/-- Order words and closings leave the port. -/
theorem OrderStep.port {a b : Dev} (h : OrderStep a b) : b.path.port = a.path.port := by
  obtain ⟨_, _, _, _, _, _, _, _, rfl⟩ := h; rfl

theorem Dev.raise_port (c : Cause) (d : Dev) : (d.raise c).path.port = d.path.port := by
  rw [(Dev.raise_keeps c d).2]

theorem Dev.drainIfEmpty_port (k : Fin 4) (d : Dev) : (d.drainIfEmpty k).path.port = d.path.port := by
  unfold Dev.drainIfEmpty
  dsimp only
  split
  · exact (Dev.closeEntry_order (.refl _) _).port
  · rfl

/-- The switch makes no access of its own. -/
theorem Dev.switchTo_port (k : Fin 4) (c : Ctx) (d : Dev) : (d.switchTo k c).path.port = d.path.port := by
  have h1 : (Dev.fillOldEntry c (d.switchValves (d.recipeOf k))).path.port = d.path.port := by
    obtain ⟨v, e⟩ := d.switchValves_shape (d.recipeOf k)
    rw [e]
    unfold Dev.fillOldEntry
    split
    · rfl
    · split
      · rfl
      · exact (Dev.updateEntry_order (.refl _) _ _ _).port
  have h2 : ∀ (r : LotRef) (d : Dev), (d.startNewEntry r).path.port = d.path.port := by
    intro r d
    unfold Dev.startNewEntry
    split
    · rfl
    · exact (Dev.updateEntry_order (.refl _) _ _ _).port
  have h3 : ∀ d : Dev, Dev.path (Dev.raise .lotSwitch (Dev.reformBare d)) = d.path := by
    intro d
    rw [(Dev.raise_keeps _ _).2]
    obtain ⟨r, e⟩ := d.reformBare_shape
    rw [e]
  unfold Dev.switchTo
  dsimp only
  rw [h3]
  dsimp only
  revert h1
  generalize Dev.fillOldEntry c (d.switchValves (d.recipeOf k)) = x
  intro h1
  cases d.currentSlot with
  | none => exact (h2 _ _).trans h1
  | some j => exact (Dev.drainIfEmpty_port j _).trans ((h2 _ _).trans h1)

/-! ### The switch's writes -/

variable {s : State} {t : Txn} {mi : Micro} {rest more : List Micro} {c c' : Ctx} {u d}

/-- The `j`-th write of the new recipe's nominal list (R33 step 1). -/
def Dev.listPut (d : Dev) (k : Fin 4) (j : Nat) : Access :=
  .write (d.nomAddr (8 * j)) ((listWords (d.recipeOf k) j).map fullWord)

theorem Micro.access_switchPut {d : Dev} {k : Fin 4} (h : d.slotIn .pending = some k) (j : Nat) (c : Ctx) :
    (Micro.switchPut j).access c d = some (d.listPut k j) := by
  unfold Micro.access
  dsimp only
  rw [h]
  rfl

/-- The switch's writes, memory answering OKAY. -/
theorem State.serve_puts (t : Txn) (rest : List Micro) (c : Ctx) (k : Fin 4) : ∀ (l : List Nat) (n b : Nat) (s : State),
    s.Quiet → s.dev.slotIn .pending = some k →
    State.serve (n + l.length) (b + l.length) (s.holding t (some (l.map Micro.switchPut ++ rest)) c) =
      State.serve n b (State.holding t (some rest) c (State.issuing t.master (l.map (s.dev.listPut k))
        { s with mem := l.foldl (fun m j => (s.dev.listPut k j).land m) s.mem })) := by
  intro l
  induction l with
  | nil =>
    intro n b s _ _
    rw [List.map_nil, List.map_nil, State.issuing_nil]
    rfl
  | cons x l ih =>
    intro n b s q hp
    rw [List.length_cons, ← Nat.add_assoc, ← Nat.add_assoc, List.map_cons, List.cons_append]
    rw [State.serve_access (d' := s.dev) (more := []) (x := s.dev.listPut k x) (c' := c)
      (n + l.length) (b + l.length) q (Micro.access_switchPut hp x c) rfl q.request]
    refine (ih n b (State.issuing t.master [s.dev.listPut k x] { s with mem := (s.dev.listPut k x).land s.mem })
      ⟨q.upstream, q.port, q.bursts, q.request⟩ hp).trans ?_
    congr 2
    unfold State.issuing issuedFor
    simp only [List.map_cons, List.append_assoc]
    rfl

/-- The machine holding transaction `t`, whose `f`-th access from here on memory answers FAULT. -/
def State.faulting (t : Txn) (w : Option (List Micro)) (c : Ctx) (f : Nat) (s : State) : State :=
  { s with dev := s.dev.withUp [{ txn := t, faultAt := some f, work := w, ctx := c }] }

/-- The switch given up at its `f`-th write (R34). -/
theorem State.serve_puts_fault (t : Txn) (rest : List Micro) (c : Ctx) (k : Fin 4) : ∀ (l : List Nat) (f n b : Nat) (s : State),
    s.Quiet → s.dev.slotIn .pending = some k → f < l.length → l.length ≤ n → l.length ≤ b →
    State.serve n b (s.faulting t (some (l.map Micro.switchPut ++ rest)) c f) =
      State.answer .fault (State.issuing t.master ((l.take (f + 1)).map (s.dev.listPut k))
        { s with mem := (l.take f).foldl (fun m j => (s.dev.listPut k j).land m) s.mem
                 dev := Dev.settle (Dev.decideHeld s.dev.drainAll) }) := by
  intro l
  induction l with
  | nil => intro f n b s _ _ h; exact absurd h (Nat.not_lt_zero _)
  | cons x l ih =>
    intro f n b s q hp hf hn hb
    obtain ⟨n, rfl⟩ : ∃ n', n = n' + 1 := ⟨n - 1, by simp at hn; omega⟩
    obtain ⟨b, rfl⟩ : ∃ b', b = b' + 1 := ⟨b - 1, by simp at hb; omega⟩
    rw [List.map_cons, List.cons_append]
    refine (State.serve_grant (s := s.faulting t (some (Micro.switchPut x :: (l.map Micro.switchPut ++ rest))) c f) n b rfl rfl
      ((Micro.access_withUp _ _ _ _).trans (Micro.access_switchPut hp x c)) q.grantable).trans ?_
    unfold State.grantAccess
    have cg : (s.faulting t (some (Micro.switchPut x :: (l.map Micro.switchPut ++ rest))) c f).dev.countGrant =
        s.dev.withUp [{ txn := t, faultAt := some f, work := some (Micro.switchPut x :: (l.map Micro.switchPut ++ rest)), ctx := c }] :=
      (Dev.countGrant_withUp _ _).trans (by rw [Dev.countGrant_quiet q.bursts])
    cases f with
    | zero =>
      dsimp only
      rw [cg]
      unfold Dev.faultEnds
      rw [Dev.freePort_withUp, Dev.withUp_idle q.upstream, show (Micro.switchPut x).switching = true from rfl]
      simp only [if_true]
      have up : (Dev.settle (Dev.decideHeld s.dev.drainAll)).path.upstream = [] :=
        (Dev.settle_block (Dev.decideHeld_block (Dev.drainAll_block (.refl s.dev)))).upstream.trans q.upstream
      revert up
      generalize Dev.settle (Dev.decideHeld s.dev.drainAll) = e
      intro up
      rw [State.serve_idle]
      · rfl
      · exact up
    | succ f =>
      dsimp only
      rw [cg]
      unfold Dev.progress
      dsimp only [Dev.workDone]
      rw [Dev.setHead_withUp, Dev.settle_withUp, Dev.settle_quiet q.request]
      refine Eq.trans ?_ ((ih f n b (State.issuing t.master [s.dev.listPut k x] { s with mem := (s.dev.listPut k x).land s.mem })
        ⟨q.upstream, q.port, q.bursts, q.request⟩ hp (by simpa using hf) (by simpa using hn) (by simpa using hb)).trans ?_)
      · rfl
      unfold State.issuing issuedFor
      simp only [List.take_succ_cons, List.map_cons, List.append_assoc, List.foldl_cons]
      rfl

end Sys2Proof.Machine
end

