-- ==== Sys2Proof/Laws/Faults.lean ====
section
/-! SUPPORT. A transaction one of whose accesses memory answers FAULT: the step at the fault and before it, the nominal
writes of R36 to R39 and the fills of R23 up to it. -/

namespace Sys2Proof.Machine

variable {s : State} {t : Txn} {mi : Micro} {rest more : List Micro} {c c' : Ctx} {d' : Dev} {x : Access}

/-- A transaction presented at an idle port and accepted, whose `f`-th access memory will answer FAULT. -/
theorem State.present_faulting {a : MemAns} {f : Nat} (hu : s.dev.path.upstream = []) (hf : a.faultAt = some f)
    (hp : a.pauseAt = none) (hr : s.dev.refuses t = false) :
    s.present t a =
      State.serve 1023 1024 (s.portsClear.faulting t (some (s.dev.workOf t)) (Ctx.init s.dev.fill.seq) f) := by
  unfold State.present
  rw [if_pos hu, hf, hp]
  have k := State.serve_accept (s := s.portsClear.queueUp { txn := t, faultAt := some f, work := none, ctx := Ctx.init 0 })
    (h := { txn := t, faultAt := some f, work := none, ctx := Ctx.init 0 }) (us := []) 1023 1024
    (by show s.dev.path.upstream ++ [_] = _; rw [hu]; rfl) rfl
  refine Eq.trans k ?_
  unfold State.accept
  rw [if_neg (by rw [show (s.portsClear.queueUp _).dev.refuses t = s.dev.refuses t from rfl, hr]; decide)]
  unfold State.queueUp
  dsimp only
  rw [show s.portsClear.dev.path.upstream = [] from hu, show s.portsClear.dev = s.dev from rfl, Dev.workOf_withUp]
  rfl

/-- The part that a transaction answered FAULT leaves, when none of its work was taken (R24, R159, log 21). -/
def Dev.unserved (d : Dev) : Dev := Dev.settle d.drainAll

theorem Dev.unserved_upstream {d : Dev} (hu : d.path.upstream = []) : d.unserved.path.upstream = [] := by
  unfold Dev.unserved
  exact (Dev.settle_block (Dev.drainAll_block (.refl d))).upstream.trans hu

/-- With nothing draining and no status write requested it is the part as it was. -/
theorem Dev.unserved_same {d : Dev} (hq : d.report.request = false) (h : ∀ k : Fin 4, (d.slot k).st ≠ .draining) :
    d.unserved = d := by
  unfold Dev.unserved
  rw [Dev.drainAll_none h, Dev.settle_quiet hq]

/-- The access that memory answers FAULT ends the transaction. -/
theorem State.serve_fault (n b : Nat) (q : s.Quiet) (hx : mi.access c s.dev = some x) (hs : mi.switching = false) :
    State.serve (n + 1) (b + 1) (s.faulting t (some (mi :: rest)) c 0) =
      State.answer .fault { s.issue (.upstream t.master) x with dev := s.dev.unserved } := by
  refine (State.serve_grant (s := s.faulting t (some (mi :: rest)) c 0) n b rfl rfl
    ((Micro.access_withUp _ _ _ _).trans hx) q.grantable).trans ?_
  unfold State.grantAccess
  dsimp only
  rw [show (s.faulting t (some (mi :: rest)) c 0).dev.countGrant =
      s.dev.withUp [{ txn := t, faultAt := some 0, work := some (mi :: rest), ctx := c }] from
    (Dev.countGrant_withUp _ _).trans (by rw [Dev.countGrant_quiet q.bursts])]
  unfold Dev.faultEnds
  rw [Dev.freePort_withUp, Dev.withUp_idle q.upstream, hs]
  dsimp only
  rw [if_neg (by decide)]
  have up := Dev.unserved_upstream q.upstream
  obtain ⟨e, he⟩ : ∃ e, e = s.dev.unserved := ⟨_, rfl⟩
  rw [← he] at up ⊢
  unfold Dev.unserved at he
  rw [← he, State.serve_idle]
  · rfl
  · exact up

/-- An access before the one that memory answers FAULT. -/
theorem State.serve_before_fault (n b f : Nat) (q : s.Quiet) (hx : mi.access c s.dev = some x)
    (hd : ∀ h k : Held, h.txn = t → h.ctx = c →
      (s.dev.withUp [k]).workDone h (x.words s.mem) mi = (more, c', d'.withUp [k]))
    (hq : d'.report.request = false) :
    State.serve (n + 1) (b + 1) (s.faulting t (some (mi :: rest)) c (f + 1)) =
      State.serve n b (State.faulting t (some (more ++ rest)) c' f
        { s.issue (.upstream t.master) x with mem := x.land s.mem, dev := d' }) := by
  refine (State.serve_grant (s := s.faulting t (some (mi :: rest)) c (f + 1)) n b rfl rfl
    ((Micro.access_withUp _ _ _ _).trans hx) q.grantable).trans ?_
  unfold State.grantAccess
  dsimp only
  rw [show (s.faulting t (some (mi :: rest)) c (f + 1)).dev.countGrant =
      s.dev.withUp [{ txn := t, faultAt := some (f + 1), work := some (mi :: rest), ctx := c }] from
    (Dev.countGrant_withUp _ _).trans (by rw [Dev.countGrant_quiet q.bursts])]
  unfold Dev.progress
  rw [show (State.issue (.upstream t.master) x (s.faulting t (some (mi :: rest)) c (f + 1))).mem = s.mem from rfl,
    hd { txn := t, faultAt := some f, work := some (mi :: rest), ctx := c } _ rfl rfl]
  dsimp only
  rw [Dev.setHead_withUp, Dev.settle_withUp, Dev.settle_quiet hq]
  rfl

/-- A piece of work without an access, before the FAULT. -/
theorem State.serve_plain_fault (n b f : Nat) (hx : mi.access c s.dev = none)
    (hd : ∀ h : Held, h.txn = t → h.ctx = c → (s.dev.withUp [h]).workDone h [] mi = (more, c', d'.withUp [h])) :
    State.serve (n + 1) b (s.faulting t (some (mi :: rest)) c f) =
      State.serve n b (State.faulting t (some (more ++ rest)) c' f { s with dev := d'.settle }) := by
  refine (State.serve_work (s := s.faulting t (some (mi :: rest)) c f) n b rfl rfl
    ((mi.access_withUp _ _ _).trans hx)).trans ?_
  have e : Dev.progress { txn := t, faultAt := some f, work := some (mi :: rest), ctx := c } mi rest []
      (s.dev.withUp [{ txn := t, faultAt := some f, work := some (mi :: rest), ctx := c }]) =
      d'.settle.withUp [{ txn := t, faultAt := some f, work := some (more ++ rest), ctx := c' }] := by
    unfold Dev.progress
    rw [hd _ rfl rfl]
    dsimp only
    rw [Dev.setHead_withUp, Dev.settle_withUp]
  have e' : ({ s.faulting t (some (mi :: rest)) c f with
      dev := Dev.progress { txn := t, faultAt := some f, work := some (mi :: rest), ctx := c } mi rest []
        (s.dev.withUp [{ txn := t, faultAt := some f, work := some (mi :: rest), ctx := c }]) } : State) =
      State.faulting t (some (more ++ rest)) c' f { s with dev := d'.settle } := by
    rw [e]; rfl
  exact congrArg (State.serve n b) e'

/-- The switch's writes, all before the FAULT (R33, R34). -/
theorem State.serve_puts_before (t : Txn) (rest : List Micro) (c : Ctx) (k : Fin 4) : ∀ (l : List Nat) (f n b : Nat) (s : State),
    s.Quiet → s.dev.slotIn .pending = some k →
    State.serve (n + l.length) (b + l.length) (s.faulting t (some (l.map Micro.switchPut ++ rest)) c (f + l.length)) =
      State.serve n b (State.faulting t (some rest) c f (State.issuing t.master (l.map (s.dev.listPut k))
        { s with mem := l.foldl (fun m j => (s.dev.listPut k j).land m) s.mem })) := by
  intro l
  induction l with
  | nil =>
    intro f n b s _ _
    rw [List.map_nil, List.map_nil, State.issuing_nil]
    rfl
  | cons y l ih =>
    intro f n b s q hp
    rw [List.length_cons, ← Nat.add_assoc, ← Nat.add_assoc, ← Nat.add_assoc, List.map_cons, List.cons_append]
    refine (State.serve_before_fault (more := []) (c' := c) (d' := s.dev) (n + l.length) (b + l.length) (f + l.length) q
      (Micro.access_switchPut hp y c) (fun h k _ e => by subst e; rfl) q.request).trans ?_
    refine (ih f n b (State.issuing t.master [s.dev.listPut k y] { s with mem := (s.dev.listPut k y).land s.mem })
      ⟨q.upstream, q.port, q.bursts, q.request⟩ hp).trans ?_
    congr 2
    unfold State.issuing issuedFor
    simp only [List.map_cons, List.append_assoc]
    rfl

/-! ### Writes of nominals (R36 to R39) -/

/-- The accesses that a piece of work on nominals makes. -/
def Micro.accesses : Micro → Nat
  | .nomPut _ _ => 1
  | .nomMerge _ _ => 2
  | .nomAdd _ _ => 2
  | _ => 0

/-- Memory after accesses answered OKAY, one after another. -/
def landed (xs : List Access) (m : List Host.Cell) : List Host.Cell := xs.foldl (fun m x => x.land m) m

/-- A piece of work on nominals makes an access, and leaves the part and what was gathered alone. -/
theorem Micro.nominal_step (h1 : 0 < mi.accesses) (s : State) (c : Ctx) : ∃ x more,
    mi.access c s.dev = some x ∧ mi.switching = false ∧ (∀ a ∈ more, 0 < a.accesses) ∧
      mi.accesses = 1 + (more.map Micro.accesses).sum ∧
      ∀ h k : Held, h.ctx = c → (s.dev.withUp [k]).workDone h (x.words s.mem) mi = (more, c, s.dev.withUp [k]) := by
  cases mi with
  | nomPut v vals => exact ⟨_, [], rfl, rfl, by simp, rfl, fun h k e => by subst e; rfl⟩
  | nomMerge v w => exact ⟨.read (s.dev.nomAddr v) 1,
      [.nomPut v [s.dev.shapeNominal (mergeBytes (wordAt (Memory.readWords s.mem (s.dev.nomAddr v) 1) 0) w.data w.be)]],
      rfl, rfl, by simp [Micro.accesses], rfl, fun h k e => by subst e; rfl⟩
  | nomAdd v w => exact ⟨.read (s.dev.nomAddr v) 1,
      [.nomPut v [s.dev.addNominal (wordAt (Memory.readWords s.mem (s.dev.nomAddr v) 1) 0) w]],
      rfl, rfl, by simp [Micro.accesses], rfl, fun h k e => by subst e; rfl⟩
  | _ => cases h1

/-- Work on nominals: the accesses it makes, the memory they leave, and what a FAULT on any of them leaves. -/
theorem State.serve_nominals (t : Txn) (c : Ctx) : ∀ (K : Nat) (w : List Micro) (s : State), s.Quiet →
    (∀ mi ∈ w, 0 < mi.accesses) → (w.map Micro.accesses).sum = K → ∃ xs : List Access, xs.length = K ∧
      (∀ n b, State.serve (n + K) (b + K) (s.holding t (some w) c) = State.serve n b
        (State.holding t (some []) c (State.issuing t.master xs { s with mem := landed xs s.mem }))) ∧
      ∀ j n b, j < K → K ≤ n → K ≤ b → State.serve n b (s.faulting t (some w) c j) =
        State.answer .fault (State.issuing t.master (xs.take (j + 1))
          { s with mem := landed (xs.take j) s.mem, dev := s.dev.unserved }) := by
  intro K
  induction K with
  | zero =>
    intro w s q hw hk
    have : w = [] := by
      cases w with
      | nil => rfl
      | cons mi w =>
        rw [List.map_cons, List.sum_cons] at hk
        have := hw mi List.mem_cons_self
        omega
    subst this
    exact ⟨[], rfl, fun n b => by rw [State.issuing_nil]; rfl, fun j _ _ h => absurd h (Nat.not_lt_zero _)⟩
  | succ K ih =>
    intro w s q hw hk
    cases w with
    | nil => cases hk
    | cons mi w =>
      obtain ⟨x, more, hx, hs, hm, hc, hd⟩ := Micro.nominal_step (hw mi List.mem_cons_self) s c
      obtain ⟨s', hs'⟩ : ∃ s' : State, s' = { s.issue (.upstream t.master) x with mem := x.land s.mem } := ⟨_, rfl⟩
      have q' : s'.Quiet := by rw [hs']; exact ⟨q.upstream, q.port, q.bursts, q.request⟩
      obtain ⟨xs, hl, hok, hf⟩ := ih (more ++ w) s' q'
        (fun a ha => by
          rcases List.mem_append.1 ha with ha | ha
          · exact hm a ha
          · exact hw a (List.mem_cons_of_mem _ ha))
        (by rw [List.map_append, List.sum_append]; rw [List.map_cons, List.sum_cons] at hk; omega)
      have dev' : s'.dev = s.dev := by rw [hs']; rfl
      have join : ∀ (ys zs : List Access) (d : Dev), State.issuing t.master ys { s' with mem := landed zs s'.mem, dev := d } =
          State.issuing t.master (x :: ys) { s with mem := landed (x :: zs) s.mem, dev := d } := by
        intro ys zs d
        rw [hs']
        unfold State.issuing issuedFor
        dsimp only
        rw [List.map_cons, show s.downstream ++ (_ :: List.map _ ys) = s.downstream ++ [_] ++ List.map _ ys from
          (List.append_assoc _ [_] _).symm]
        rfl
      refine ⟨x :: xs, by rw [List.length_cons, hl], ?_, ?_⟩
      · intro n b
        rw [← Nat.add_assoc, ← Nat.add_assoc, State.serve_access (d' := s.dev) (n + K) (b + K) q hx (hd _ _ rfl) q.request]
        have := hok n b
        rw [hs'] at this
        refine this.trans ?_
        have j := join xs xs s.dev
        rw [hs'] at j
        exact congrArg (fun s => State.serve n b (State.holding t (some []) c s)) j
      · intro j n b hj hn hb
        obtain ⟨n, rfl⟩ : ∃ n', n = n' + 1 := ⟨n - 1, by omega⟩
        obtain ⟨b, rfl⟩ : ∃ b', b = b' + 1 := ⟨b - 1, by omega⟩
        obtain ⟨e, he⟩ : ∃ e, e = s.dev.unserved := ⟨_, rfl⟩
        cases j with
        | zero =>
          refine (State.serve_fault n b q hx hs).trans ?_
          rw [← he]
          rfl
        | succ j =>
          have k := hf j n b (by omega) (by omega) (by omega)
          rw [dev', ← he, join] at k
          rw [← he]
          refine (State.serve_before_fault (more := more) (c' := c) (d' := s.dev) n b j q hx (fun h k _ e => hd h k e)
            q.request).trans ?_
          rw [hs'] at k
          exact k

/-- Memory after a value is added to the nominal of valve `x.1` (R37). -/
def Dev.addedTo (d : Dev) (m : List Host.Cell) (x : Nat × Word) : List Host.Cell :=
  Memory.writeWords m (d.nomAddr x.1) [fullWord (d.addNominal (Memory.readWord m (d.nomAddr x.1)) x.2)]

/-- Additions to nominals, each a read and a write, one of whose accesses memory answers FAULT (R37, R39). -/
theorem State.serve_adds_fault (t : Txn) (c : Ctx) : ∀ (l : List (Nat × Word)) (j n b : Nat) (s : State), s.Quiet →
    j < 2 * l.length → 2 * l.length ≤ n → 2 * l.length ≤ b → ∃ xs : List Access, xs.length = j + 1 ∧
      State.serve n b (s.faulting t (some (l.map fun x => Micro.nomAdd x.1 x.2)) c j) =
        State.answer .fault (State.issuing t.master xs
          { s with mem := (l.take (j / 2)).foldl s.dev.addedTo s.mem, dev := s.dev.unserved }) := by
  intro l
  induction l with
  | nil => intro j n b s _ h; exact absurd h (Nat.not_lt_zero _)
  | cons y l ih =>
    intro j n b s q hj hn hb
    rw [List.length_cons] at hj hn hb
    obtain ⟨n, rfl⟩ : ∃ n', n = n' + 2 := ⟨n - 2, by omega⟩
    obtain ⟨b, rfl⟩ : ∃ b', b = b' + 2 := ⟨b - 2, by omega⟩
    obtain ⟨e, he⟩ : ∃ e, e = s.dev.unserved := ⟨_, rfl⟩
    have read := State.serve_before_fault (s := s) (t := t) (mi := .nomAdd y.1 y.2) (c := c) (c' := c) (d' := s.dev)
      (rest := l.map fun x => Micro.nomAdd x.1 x.2) (x := .read (s.dev.nomAddr y.1) 1)
      (more := [.nomPut y.1 [s.dev.addNominal (Memory.readWord s.mem (s.dev.nomAddr y.1)) y.2]]) (n + 1) (b + 1)
      (hx := rfl) (hd := fun h k _ e => by subst e; rfl) (q := q) (hq := q.request)
    obtain ⟨s1, h1⟩ : ∃ s1 : State, s1 = s.issue (.upstream t.master) (.read (s.dev.nomAddr y.1) 1) := ⟨_, rfl⟩
    have q1 : s1.Quiet := by rw [h1]; exact ⟨q.upstream, q.port, q.bursts, q.request⟩
    have read' : ∀ f, State.serve (n + 1 + 1) (b + 1 + 1) (s.faulting t (some ((y :: l).map fun x => Micro.nomAdd x.1 x.2)) c (f + 1)) =
        State.serve (n + 1) (b + 1) (s1.faulting t (some (.nomPut y.1 [s.dev.addNominal (Memory.readWord s.mem (s.dev.nomAddr y.1)) y.2] ::
          l.map fun x => Micro.nomAdd x.1 x.2)) c f) := fun f => by rw [h1]; exact read f
    match j with
    | 0 =>
      refine ⟨[.read (s.dev.nomAddr y.1) 1], rfl, ?_⟩
      refine (State.serve_fault (mi := .nomAdd y.1 y.2) (x := .read (s.dev.nomAddr y.1) 1) (n + 1) (b + 1) q rfl rfl).trans ?_
      rw [← he]; rfl
    | 1 =>
      refine ⟨[.read (s.dev.nomAddr y.1) 1, .write (s.dev.nomAddr y.1)
        ([s.dev.addNominal (Memory.readWord s.mem (s.dev.nomAddr y.1)) y.2].map fullWord)], rfl, ?_⟩
      refine (read' 0).trans ?_
      refine (State.serve_fault (s := s1) (x := .write (s.dev.nomAddr y.1)
        ([s.dev.addNominal (Memory.readWord s.mem (s.dev.nomAddr y.1)) y.2].map fullWord)) n b q1 (by rw [h1]; rfl) rfl).trans ?_
      rw [show s1.dev = s.dev by rw [h1]; rfl, ← he, h1]
      unfold State.issuing State.issue issuedFor
      dsimp only
      rw [List.append_assoc]
      rfl
    | j + 2 =>
      obtain ⟨s2, h2⟩ : ∃ s2 : State, s2 = { s1.issue (.upstream t.master) (.write (s.dev.nomAddr y.1)
        ([s.dev.addNominal (Memory.readWord s.mem (s.dev.nomAddr y.1)) y.2].map fullWord)) with mem := s.dev.addedTo s.mem y } := ⟨_, rfl⟩
      have q2 : s2.Quiet := by rw [h2, h1]; exact ⟨q.upstream, q.port, q.bursts, q.request⟩
      obtain ⟨xs, hl, k⟩ := ih j n b s2 q2 (by omega) (by omega) (by omega)
      have d2 : s2.dev = s.dev := by rw [h2, h1]; rfl
      refine ⟨.read (s.dev.nomAddr y.1) 1 :: .write (s.dev.nomAddr y.1)
        ([s.dev.addNominal (Memory.readWord s.mem (s.dev.nomAddr y.1)) y.2].map fullWord) :: xs,
        by rw [List.length_cons, List.length_cons, hl], ?_⟩
      refine (read' (j + 1)).trans ?_
      have write := State.serve_before_fault (s := s1) (t := t) (c := c) (c' := c) (d' := s.dev) (more := [])
        (mi := .nomPut y.1 [s.dev.addNominal (Memory.readWord s.mem (s.dev.nomAddr y.1)) y.2])
        (rest := l.map fun x => Micro.nomAdd x.1 x.2) (x := .write (s.dev.nomAddr y.1)
          ([s.dev.addNominal (Memory.readWord s.mem (s.dev.nomAddr y.1)) y.2].map fullWord)) n b j
        (hx := by rw [h1]; rfl) (hd := fun h k _ e => by subst e; rw [h1]; rfl) (q := q1) (hq := q.request)
      refine write.trans ?_
      rw [d2, ← he] at k
      rw [← he, show (j + 2) / 2 = j / 2 + 1 by omega, List.take_succ_cons, List.foldl_cons]
      have same : ({ s1.issue (.upstream t.master) (.write (s.dev.nomAddr y.1)
          ([s.dev.addNominal (Memory.readWord s.mem (s.dev.nomAddr y.1)) y.2].map fullWord)) with
          mem := Access.land s1.mem (.write (s.dev.nomAddr y.1)
            ([s.dev.addNominal (Memory.readWord s.mem (s.dev.nomAddr y.1)) y.2].map fullWord)), dev := s.dev } : State) = s2 := by
        rw [h2, h1]; rfl
      rw [same, List.nil_append, k, h2, h1]
      unfold State.issuing State.issue issuedFor
      dsimp only
      rw [List.append_assoc, List.append_assoc]
      rfl

/-! ### Fills (R24) -/

/-- The fills of a read, none of them the switching fill, one of whose fetches memory answers FAULT: none takes
effect. -/
theorem State.serve_fills_fault (t : Txn) (rest : List Micro) : ∀ (l : List Nat) (c : Ctx) (j n b : Nat) (s : State), s.Quiet →
    (∀ pre v post, l = pre ++ v :: post → s.dev.switchAt (Fin.ofNat 64 v) (pre.foldl (fun c v =>
      s.dev.formFill (Fin.ofNat 64 v) (Memory.readWord s.mem (s.dev.base + 0x300 + 4 * v)) c) c) = none) →
    j < l.length → l.length ≤ n → l.length ≤ b →
    State.serve n b (s.faulting t (some (l.map Micro.fill ++ rest)) c j) =
      State.answer .fault (State.issuing t.master ((l.take (j + 1)).map fun v => .read (s.dev.base + 0x300 + 4 * v) 1)
        { s with dev := s.dev.unserved }) := by
  intro l
  induction l with
  | nil => intro c j n b s _ _ h; exact absurd h (Nat.not_lt_zero _)
  | cons v l ih =>
    intro c j n b s q hp hj hn hb
    rw [List.length_cons] at hj hn hb
    obtain ⟨n, rfl⟩ : ∃ n', n = n' + 1 := ⟨n - 1, by omega⟩
    obtain ⟨b, rfl⟩ : ∃ b', b = b' + 1 := ⟨b - 1, by omega⟩
    obtain ⟨e, he⟩ : ∃ e, e = s.dev.unserved := ⟨_, rfl⟩
    have h0 : s.dev.switchAt (Fin.ofNat 64 v) c = none := hp [] v l rfl
    have hx : (Micro.fill v).access c s.dev = some (.read (s.dev.base + 0x300 + 4 * v) 1) := by
      unfold Micro.access; dsimp only; rw [h0]; rfl
    cases j with
    | zero =>
      refine (State.serve_fault n b q hx rfl).trans ?_
      rw [← he]; rfl
    | succ j =>
      have step := State.serve_before_fault (t := t) (mi := .fill v) (d' := s.dev) (more := []) (rest := l.map Micro.fill ++ rest)
        (c' := s.dev.formFill (Fin.ofNat 64 v) (Memory.readWord s.mem (s.dev.base + 0x300 + 4 * v)) c) n b j q hx
        (fun h k _ e => by
          subst e
          unfold Dev.workDone
          dsimp only
          rw [show (s.dev.withUp [k]).switchAt (Fin.ofNat 64 v) h.ctx = none from h0]
          rfl) q.request
      refine step.trans ?_
      obtain ⟨s1, h1⟩ : ∃ s1 : State, s1 = s.issue (.upstream t.master) (.read (s.dev.base + 0x300 + 4 * v) 1) := ⟨_, rfl⟩
      have d1 : s1.dev = s.dev := by rw [h1]; rfl
      have m1 : s1.mem = s.mem := by rw [h1]; rfl
      have k := ih (s.dev.formFill (Fin.ofNat 64 v) (Memory.readWord s.mem (s.dev.base + 0x300 + 4 * v)) c) j n b s1
        (by rw [h1]; exact ⟨q.upstream, q.port, q.bursts, q.request⟩)
        (fun pre w post g => by rw [d1, m1]; exact hp (v :: pre) w post (by rw [g]; rfl)) (by omega) (by omega) (by omega)
      rw [d1, ← he] at k
      rw [← he]
      refine Eq.trans (b := State.serve n b (s1.faulting t (some (l.map Micro.fill ++ rest))
        (s.dev.formFill (Fin.ofNat 64 v) (Memory.readWord s.mem (s.dev.base + 0x300 + 4 * v)) c) j)) (by rw [h1]; rfl) ?_
      rw [k, h1]
      unfold State.issuing State.issue issuedFor
      dsimp only
      rw [List.append_assoc]
      rfl

end Sys2Proof.Machine
end

