-- ==== Sys2Proof/Laws/Track.lean ====
section
/-! SUPPORT. Freeing, discarding and marking records, and the failure of a recipe load: what each leaves alone. -/

namespace Sys2Proof.Machine

variable {s : State} {t : Txn} {mi : Micro} {rest more : List Micro} {c c' : Ctx} {a d d' : Dev} {x : Nat}

/-- A pocket without a record is not tested. -/
theorem Dev.testPocket_bare {d : Dev} {p : Word} (h : (d.entry p).record = none) : d.testPocket p = d := by
  unfold Dev.testPocket; dsimp only; rw [h]

/-- Testing a pocket leaves its occupancy. -/
theorem Dev.testPocket_occ (d : Dev) (p : Word) : ((d.testPocket p).entry p).occ = (d.entry p).occ := by
  unfold Dev.testPocket
  dsimp only
  cases h : (d.entry p).record with
  | none => rfl
  | some r =>
    dsimp only
    split
    · rw [Dev.entry_setEntry]
      unfold Entry.reformed
      cases (d.entry p).verdict <;> rfl
    · rfl

/-- The pocket at the gate while a position is held. -/
theorem Dev.gatePocket_held {d : Dev} {q : Position} (h : d.pocket.pos = some q) : d.gatePocket = some ((BitVec.ofNat 32 (q.high.toNat / d.su.pitch) : Word) - BitVec.ofNat 32 d.su.dGate) := by
  unfold Dev.gatePocket Dev.pocketNow; rw [h]; rfl

/-- The Weigh unit after a gap window close. -/
theorem Dev.closeGap_weigh (d : Dev) : d.closeGap.weigh = { d.gapOutcome with stale := d.gapOutcome.stale || decide (d.su.staleLimit < d.gapOutcome.zeroAge) } := by
  unfold Dev.closeGap Dev.zeroStale
  have hs : (d.setWeigh d.gapOutcome).su = d.su := rfl
  dsimp only
  rw [hs]
  show (if decide (d.su.staleLimit < d.gapOutcome.zeroAge) = true ∧ d.gapOutcome.stale = false then _ else _ : Dev).weigh = _
  by_cases h : decide (d.su.staleLimit < d.gapOutcome.zeroAge) = true ∧ d.gapOutcome.stale = false
  · rw [if_pos h]
    obtain ⟨rq, e⟩ := Dev.raise_shape .scaleFault ((d.setWeigh d.gapOutcome).setWeigh { (d.setWeigh d.gapOutcome).weigh with stale := true })
    rw [e, h.1, Bool.or_true]
    rfl
  · rw [if_neg h]
    have : (d.gapOutcome.stale || decide (d.su.staleLimit < d.gapOutcome.zeroAge)) = d.gapOutcome.stale := by
      cases hx : d.gapOutcome.stale with
      | true => rfl
      | false =>
        rw [Bool.false_or]
        cases hy : decide (d.su.staleLimit < d.gapOutcome.zeroAge) with
        | true => exact absurd ⟨hy, hx⟩ h
        | false => rfl
    rw [this]
    rfl

/-- When a gap window close raises SCALE_FAULT. -/
theorem Dev.closeGap_report (d : Dev) :
    (d.su.staleLimit < d.gapOutcome.zeroAge → d.gapOutcome.stale = false → d.setup.part ≠ .unplaced → d.closeGap.report.pending.getLsbD 16 = true) ∧
    (d.gapOutcome.stale = true ∨ ¬ d.su.staleLimit < d.gapOutcome.zeroAge → d.closeGap.report = d.report) := by
  have e : d.closeGap = if d.su.staleLimit < d.gapOutcome.zeroAge ∧ d.gapOutcome.stale = false then
      Dev.raise .scaleFault (d.setWeigh { d.gapOutcome with stale := true }) else d.setWeigh d.gapOutcome := by
    unfold Dev.closeGap Dev.zeroStale
    dsimp only
    have hs : (d.setWeigh d.gapOutcome).su = d.su := rfl
    rw [hs]
    simp only [decide_eq_true_eq]
    rfl
  rw [e]
  refine ⟨fun h1 h2 h3 => ?_, fun h => ?_⟩
  · rw [if_pos ⟨h1, h2⟩]
    exact Dev.raise_pending _ .scaleFault h3
  · rw [if_neg]
    · rfl
    · rintro ⟨h1, h2⟩
      rcases h with h | h
      · rw [h] at h2; cases h2
      · exact h h1

/-- The four outcomes of a gap window close. -/
theorem Dev.gapOutcome_eq (d : Dev) : 
    let mean := d.weigh.gapAcc.sum.tdiv d.weigh.gapAcc.count
    let fit : Prop := d.su.gapMin ≤ d.weigh.gapAcc.count ∧ d.weigh.gapAcc.gap = false ∧ d.weigh.gapAcc.overload = false
    d.gapOutcome = if fit then
      (if d.weigh.capture = true then { d.weigh with gapWin := .closed, zero := mean, zeroAge := 0, capture := false, stale := false }
      else if (mean - d.weigh.zero).natAbs ≤ d.su.zeroBand then { d.weigh with gapWin := .closed, zero := d.weigh.zero + (mean - d.weigh.zero).fdiv (2 ^ d.su.zeroShift), zeroAge := 0, stale := false }
      else { d.weigh with gapWin := .closed, zeroAge := satSucc 65535 d.weigh.zeroAge })
    else { d.weigh with gapWin := .closed, zeroAge := satSucc 65535 d.weigh.zeroAge } := by
  intro mean fit
  have hf : d.gapFit = true ↔ fit := by
    unfold Dev.gapFit
    simp only [Bool.and_eq_true, decide_eq_true_eq, Bool.not_eq_true', and_assoc, fit]
  unfold Dev.gapOutcome
  dsimp only
  by_cases h : fit
  · rw [if_pos (hf.2 h), if_pos h]; rfl
  · rw [if_neg (fun k => h (hf.1 k)), if_neg h]

/-- The later update of an entry stands. -/
theorem Dev.setEntry_setEntry {d : Dev} (r : Word) (e e' : Entry) : (d.setEntry r e).setEntry r e' = d.setEntry r e' := by
  unfold Dev.setEntry
  dsimp only
  rw [Vector.set_set]

theorem CanRecord.bad_of_sound {x : CanRecord} (h1 : x.failed = false) (h2 : x.checkOk = true) : x.bad = false := by
  unfold CanRecord.bad; rw [h1, h2]; rfl

/-- A sound record passes its test. -/
theorem Dev.testPocket_sound {d : Dev} {r : Word} {x : CanRecord} (h : (d.entry r).record = some x) (hb : x.bad = false) : d.testPocket r = d := by
  unfold Dev.testPocket; dsimp only; rw [h]; dsimp only; rw [hb]; rfl

/-- What freeing and discarding records leaves alone. -/
structure Freed (d d' : Dev) : Prop where
  pos      : d'.pocket.pos = d.pocket.pos
  running  : d'.pocket.running = d.pocket.running
  stall    : d'.pocket.stall = d.pocket.stall
  stop     : d'.pocket.stop = d.pocket.stop
  reversal : d'.pocket.reversal = d.pocket.reversal
  fill     : d'.fill = d.fill
  weigh    : d'.weigh = d.weigh
  code     : d'.code = d.code
  valve    : d'.valve = d.valve
  setup    : d'.setup = d.setup
  cur      : d'.order.cur = d.order.cur
  latch    : d'.path.latch = d.path.latch
  faults   : d'.path.faults = d.path.faults
  number   : ∀ p, (d'.entry p).pocket = (d.entry p).pocket

theorem Freed.refl (d : Dev) : Freed d d := ⟨rfl, rfl, rfl, rfl, rfl, rfl, rfl, rfl, rfl, rfl, rfl, rfl, rfl, fun _ => rfl⟩

theorem Freed.trans {a b c : Dev} (h : Freed a b) (k : Freed b c) : Freed a c :=
  ⟨k.pos.trans h.pos, k.running.trans h.running, k.stall.trans h.stall, k.stop.trans h.stop, k.reversal.trans h.reversal,
   k.fill.trans h.fill, k.weigh.trans h.weigh, k.code.trans h.code, k.valve.trans h.valve, k.setup.trans h.setup, k.cur.trans h.cur,
   k.latch.trans h.latch, k.faults.trans h.faults, fun p => (k.number p).trans (h.number p)⟩

/-- What freeing a record leaves alone: the fill list and the ring as well. -/
structure Released (d d' : Dev) : Prop extends Freed d d' where
  list : d'.track.fill = d.track.fill
  ring : d'.pocket = d.pocket

theorem Released.refl (d : Dev) : Released d d := ⟨.refl d, rfl, rfl⟩

theorem Released.trans {a b c : Dev} (h : Released a b) (k : Released b c) : Released a c :=
  ⟨h.toFreed.trans k.toFreed, k.list.trans h.list, k.ring.trans h.ring⟩

theorem OrderStep.released {b : Dev} (h : OrderStep a b) : Released a b := by
  obtain ⟨_, _, _, _, _, _, _, _, rfl⟩ := h
  exact ⟨⟨rfl, rfl, rfl, rfl, rfl, rfl, rfl, rfl, rfl, rfl, rfl, rfl, rfl, fun _ => rfl⟩, rfl, rfl⟩

theorem Dev.setSlot_released (d : Dev) (k r) : Released d (d.setSlot k r) :=
  ⟨⟨rfl, rfl, rfl, rfl, rfl, rfl, rfl, rfl, rfl, rfl, rfl, rfl, rfl, fun _ => rfl⟩, rfl, rfl⟩

theorem Dev.recordLeaves_released (n lot) (d : Dev) : Released d (d.recordLeaves n lot) := by
  unfold Dev.recordLeaves
  split
  · exact .refl d
  · dsimp only
    split
    · split
      · exact (d.setSlot_released _ _).trans (Dev.closeEntry_order (.refl _) _).released
      · exact d.setSlot_released _ _
    · exact d.setSlot_released _ _

theorem Dev.releaseRecord_released (r) (d : Dev) : Released d (d.releaseRecord r) := by
  unfold Dev.releaseRecord
  dsimp only
  have h : Released d { d with track := { d.track with suspects := if r.suspect = true then d.track.suspects - 1 else d.track.suspects } } :=
    ⟨⟨rfl, rfl, rfl, rfl, rfl, rfl, rfl, rfl, rfl, rfl, rfl, rfl, rfl, fun _ => rfl⟩, rfl, rfl⟩
  have k := h.trans (Dev.recordLeaves_released r.slot r.lot _)
  exact k.trans ⟨⟨rfl, rfl, rfl, rfl, rfl, rfl, rfl, rfl, rfl, rfl, rfl, rfl, rfl, fun _ => rfl⟩, rfl, rfl⟩

theorem Dev.report_released (d : Dev) (r n) : Released d { d with report := r, draws := n } :=
  ⟨⟨rfl, rfl, rfl, rfl, rfl, rfl, rfl, rfl, rfl, rfl, rfl, rfl, rfl, fun _ => rfl⟩, rfl, rfl⟩

theorem Dev.raise_released (c) (d : Dev) : Released d (d.raise c) := (Dev.raise_order (.refl d) c).released

theorem Dev.placeBurst_released (b) (d : Dev) : Released d (d.placeBurst b) := (Dev.placeBurst_order (.refl d) b).released

theorem Dev.reRead_released (d : Dev) : Released d d.reRead := by
  unfold Dev.reRead
  split
  · exact (d.report_released _ d.draws).trans (Dev.placeBurst_released _ _)
  · exact (d.report_released _ d.draws).trans (Dev.placeBurst_released _ _)
  · exact .refl d

theorem Dev.compose_released (r) (d : Dev) : Released d (d.compose r) := by
  unfold Dev.compose
  have h : Released d d.drawn := d.report_released d.report _
  dsimp only
  split
  · exact (h.trans (Dev.report_released _ _ _)).trans (Dev.reRead_released _)
  · exact (h.trans (Dev.report_released _ _ _)).trans (Dev.raise_released _ _)

theorem Dev.freeAs_released (i r b) (d : Dev) : Released d (d.freeAs i r b) :=
  (Dev.compose_released _ d).trans (Dev.releaseRecord_released _ _)

theorem Dev.discardRecord_released (r) (d : Dev) : Released d (d.discardRecord r) := by
  unfold Dev.discardRecord
  split
  · exact Dev.freeAs_released _ _ _ _
  · refine Released.trans ?_ (Dev.freeAs_released _ _ _ _)
    unfold Dev.raiseCheck
    split
    · exact .refl d
    · exact Dev.raise_released _ _

theorem Dev.setEntry_freed (d : Dev) (p : Word) (e : Entry) (h : e.pocket = (d.entry p).pocket) : Freed d (d.setEntry p e) := by
  refine ⟨rfl, rfl, rfl, rfl, rfl, rfl, rfl, rfl, rfl, rfl, rfl, rfl, rfl, fun q => ?_⟩
  rw [Dev.entry_setEntry_ite]
  split
  · rename_i g; rw [h]; unfold Dev.entry; rw [g]
  · rfl

theorem Dev.discardPocket_freed (p) (d : Dev) : Freed d (d.discardPocket p) := by
  unfold Dev.discardPocket
  dsimp only
  split
  · exact .refl d
  · rename_i r _
    have h1 := d.setEntry_freed p { d.entry p with record := none } rfl
    exact h1.trans (Dev.discardRecord_released r (d.setEntry p { d.entry p with record := none })).toFreed

theorem Dev.discardFill_freed : ∀ (l : List CanRecord) (d : Dev), Freed d (Dev.discardFill l d) := by
  intro l
  induction l with
  | nil => exact fun d => .refl d
  | cons r l ih =>
    intro d
    have h0 : Freed d (d.setFillList l) := ⟨rfl, rfl, rfl, rfl, rfl, rfl, rfl, rfl, rfl, rfl, rfl, rfl, rfl, fun _ => rfl⟩
    exact (h0.trans (Dev.discardRecord_released r (d.setFillList l)).toFreed).trans (ih (Dev.discardRecord r (d.setFillList l)))
    --exact ⟨rfl, rfl, rfl, rfl, rfl, rfl, rfl, rfl, rfl, rfl, rfl, rfl, rfl, fun _ => rfl⟩

theorem Dev.discardFill_empty : ∀ (l : List CanRecord) (d : Dev), d.track.fill = l → (Dev.discardFill l d).track.fill = [] := by
  intro l
  induction l with
  | nil => exact fun d h => h
  | cons r l ih =>
    intro d _
    refine ih _ ?_
    rw [(Dev.discardRecord_released _ _).list]; rfl

theorem Dev.foldl_freed {α : Type} (f : Dev → α → Dev) (hf : ∀ d x, Freed d (f d x)) : ∀ (l : List α) (d : Dev), Freed d (l.foldl f d) := by
  intro l
  induction l with
  | nil => exact fun d => .refl d
  | cons x l ih => exact fun d => (hf d x).trans (ih _)

/-- Discarding the track frees records and empties the fill list. -/
theorem Dev.discardTrack_freed (d : Dev) : Freed d d.discardTrack ∧ d.discardTrack.track.fill = [] := by
  unfold Dev.discardTrack
  dsimp only
  exact ⟨(Dev.foldl_freed _ (fun d p => Dev.discardPocket_freed p d) _ d).trans (Dev.discardFill_freed _ _), Dev.discardFill_empty _ _ rfl⟩

/-- Clearing the ring touches the ring alone and leaves each entry fresh. -/
theorem Dev.clearRing_entry (d : Dev) : d.clearRing = { d with pocket := { d.pocket with ring := d.clearRing.pocket.ring } } ∧
    ∀ p, d.clearRing.entry p = Entry.fresh (d.entry p).pocket := by
  have key : ∀ (l : List Nat) (d : Dev), (∀ i ∈ l, i < 64) → l.Nodup →
      let t := l.foldl (fun d i => d.setEntry (BitVec.ofNat 32 i) (Entry.fresh (d.entry (BitVec.ofNat 32 i)).pocket)) d
      t = { d with pocket := { d.pocket with ring := t.pocket.ring } } ∧
      ∀ p : Word, t.entry p = if (ringIx p).val ∈ l then Entry.fresh (d.entry p).pocket else d.entry p := by
    intro l
    induction l with
    | nil => intro d _ _; exact ⟨rfl, fun p => by simp⟩
    | cons i l ih =>
      intro d hl hn
      rw [List.nodup_cons] at hn
      obtain ⟨h1, h2⟩ := ih (d.setEntry (BitVec.ofNat 32 i) (Entry.fresh (d.entry (BitVec.ofNat 32 i)).pocket)) (fun j h => hl j (List.mem_cons_of_mem _ h)) hn.2
      dsimp only at h1 h2 ⊢
      rw [List.foldl_cons]
      refine ⟨?_, fun p => ?_⟩
      · rw [h1]; rfl
      · rw [h2 p, Dev.entry_setEntry_ite]
        have hi : (ringIx (BitVec.ofNat 32 i)).val = i := by
          have := hl i List.mem_cons_self
          show (BitVec.ofNat 32 i).toNat % 64 = i
          rw [BitVec.toNat_ofNat, Nat.mod_eq_of_lt (by omega : i < 2 ^ 32), Nat.mod_eq_of_lt this]
        by_cases q : ringIx p = ringIx (BitVec.ofNat 32 i)
        · have : (ringIx p).val = i := by rw [q, hi]
          rw [if_pos q, if_neg (by rw [this]; exact hn.1), if_pos (by rw [this]; exact List.mem_cons_self)]
          unfold Dev.entry; rw [q]
        · have : (ringIx p).val ≠ i := fun k => q (Fin.ext (k.trans hi.symm))
          rw [if_neg q]
          simp [this]
  obtain ⟨h1, h2⟩ := key (List.range 64) d (fun i h => List.mem_range.mp h) List.nodup_range
  refine ⟨h1, fun p => ?_⟩
  refine (h2 p).trans ?_
  rw [if_pos (List.mem_range.mpr (ringIx p).isLt)]

/-- A record after a suspect marking. -/
def CanRecord.flagged (r : CanRecord) : CanRecord := if r.failed = true ∨ r.suspect = true then r else { r with suspect := true }

/-- An entry after a suspect marking. -/
def Entry.flagged (e : Entry) : Entry := { e with record := e.record.map CanRecord.flagged }

theorem CanRecord.flagged_flagged (r : CanRecord) : CanRecord.flagged (CanRecord.flagged r) = CanRecord.flagged r := by
  unfold CanRecord.flagged
  by_cases h : r.failed = true ∨ r.suspect = true
  · rw [if_pos h, if_pos h]
  · rw [if_neg h, if_pos (.inr rfl)]

theorem CanRecord.flagged_checkOk (r : CanRecord) : (CanRecord.flagged r).checkOk = r.checkOk := by unfold CanRecord.flagged; split <;> rfl

theorem Entry.flagged_flagged (e : Entry) : Entry.flagged (Entry.flagged e) = Entry.flagged e := by
  unfold Entry.flagged
  dsimp only
  rw [Option.map_map]
  congr 1
  cases e.record with
  | none => rfl
  | some r => exact congrArg some (CanRecord.flagged_flagged r)

theorem CanRecord.marked_eq_flagged (r : CanRecord) (h : ¬ (r.failed = true ∨ r.suspect = true)) (g : r.checkOk = true) : r.marked = CanRecord.flagged r := by
  unfold CanRecord.flagged
  rw [if_neg h]
  unfold CanRecord.marked
  cases r; cases g; rfl

/-- The ring entries of `S` are marked, and nothing but the ring and the suspect count changes. -/
structure Marks (S : Fin 64 → Prop) (d d' : Dev) : Prop where
  entry : ∀ p, (S (ringIx p) → d'.entry p = Entry.flagged (d.entry p)) ∧ (¬ S (ringIx p) → d'.entry p = d.entry p)
  shape : ∃ ring n, d' = { d with pocket := { d.pocket with ring := ring }, track := { d.track with suspects := n } }

/-- Every record in the ring passes its check. -/
def Dev.AllSound (d : Dev) : Prop := ∀ p r, (d.entry p).record = some r → r.checkOk = true

theorem Dev.markPocket_marks (d : Dev) (p : Word) (hg : Dev.AllSound d) : Marks (fun i => i = ringIx p) d (d.markPocket p) := by
  have same : (d.entry p).record.map CanRecord.flagged = (d.entry p).record → Marks (fun i => i = ringIx p) d d := by
    intro h
    refine ⟨fun q => ⟨fun hq => ?_, fun _ => rfl⟩, ⟨_, _, rfl⟩⟩
    have : d.entry q = d.entry p := by unfold Dev.entry; rw [hq]
    rw [this]
    unfold Entry.flagged
    rw [h]
  unfold Dev.markPocket
  dsimp only
  split
  · rename_i hr
    exact same (by rw [hr]; rfl)
  · rename_i r hr
    split
    · rename_i q
      refine same ?_
      rw [hr, Option.map_some]
      unfold CanRecord.flagged
      rw [if_pos q]
    · rename_i q
      rw [if_pos (hg p r hr)]
      refine ⟨fun y => ?_, ⟨_, _, rfl⟩⟩
      have : (Dev.countSuspect (d.setEntry p { d.entry p with record := some r.marked })).entry y =
          (d.setEntry p { d.entry p with record := some r.marked }).entry y := rfl
      rw [this, Dev.entry_setEntry_ite]
      constructor
      · intro hq
        rw [if_pos hq]
        have : d.entry y = d.entry p := by unfold Dev.entry; rw [hq]
        rw [this]
        unfold Entry.flagged
        rw [hr, Option.map_some, CanRecord.marked_eq_flagged r q (hg p r hr)]
      · intro hq; rw [if_neg hq]

theorem Dev.AllSound.marks {S} {d d' : Dev} (h : Dev.AllSound d) (m : Marks S d d') : Dev.AllSound d' := by
  intro p r hr
  by_cases q : S (ringIx p)
  · rw [(m.entry p).1 q] at hr
    unfold Entry.flagged at hr
    cases hx : (d.entry p).record with
    | none => rw [hx] at hr; cases hr
    | some y =>
      rw [hx] at hr
      injection hr with hr
      rw [← hr, CanRecord.flagged_checkOk]
      exact h p y hx
  · rw [(m.entry p).2 q] at hr; exact h p r hr

/-- Marking a list of pockets. -/
theorem Dev.foldl_markPocket (l : List Word) : ∀ d : Dev, Dev.AllSound d → Marks (fun i => ∃ p ∈ l, i = ringIx p) d (l.foldl Dev.markPocket d) := by
  induction l with
  | nil => exact fun d _ => ⟨fun p => ⟨(by rintro ⟨_, h, _⟩; cases h), fun _ => rfl⟩, ⟨_, _, rfl⟩⟩
  | cons x l ih =>
    intro d hg
    have m := Dev.markPocket_marks d x hg
    have m' := ih _ (hg.marks m)
    rw [List.foldl_cons]
    constructor
    · intro p
      constructor
      · rintro ⟨y, hy, hp⟩
        by_cases q : ∃ p' ∈ l, ringIx p = ringIx p'
        · rw [(m'.entry p).1 q]
          by_cases q' : ringIx p = ringIx x
          · rw [(m.entry p).1 q', Entry.flagged_flagged]
          · rw [(m.entry p).2 q']
        · rw [(m'.entry p).2 q]
          rcases List.mem_cons.mp hy with rfl | hy
          · exact (m.entry p).1 hp
          · exact absurd ⟨y, hy, hp⟩ q
      · intro h
        rw [(m'.entry p).2 (fun ⟨y, hy, hp⟩ => h ⟨y, List.mem_cons_of_mem _ hy, hp⟩),
          (m.entry p).2 (fun hp => h ⟨x, List.mem_cons_self, hp⟩)]
    · obtain ⟨r1, n1, e1⟩ := m.shape
      obtain ⟨r2, n2, e2⟩ := m'.shape
      rw [e2, e1]
      exact ⟨_, _, rfl⟩

/-- The pockets of the ring reach all its entries. -/
theorem Dev.ringPockets_all (d : Dev) (i : Fin 64) : ∃ p ∈ d.ringPockets, i = ringIx p := by
  unfold Dev.ringPockets
  dsimp only
  generalize d.pocketNow.getD 0 - 63#32 = b
  refine ⟨b + BitVec.ofNat 32 ((i.val + 64 - b.toNat % 64) % 64), ?_, ?_⟩
  · refine List.mem_map.mpr ⟨_, List.mem_range.mpr (Nat.mod_lt _ (by decide)), rfl⟩
  · apply Fin.ext
    show i.val = (b + _).toNat % 64
    rw [BitVec.toNat_add, BitVec.toNat_ofNat]
    have := i.isLt
    omega

/-- Marking a fill list of sound records. -/
theorem Dev.markFill_sound : ∀ (l kept : List CanRecord) (d : Dev), (∀ r ∈ l, r.checkOk = true) →
    ∃ n, Dev.markFill l kept d = { d with track := { d.track with fill := kept.reverse ++ l.map CanRecord.flagged, suspects := n } } := by
  intro l
  induction l with
  | nil => exact fun kept d _ => ⟨d.track.suspects, by rw [List.map_nil, List.append_nil]; rfl⟩
  | cons r l ih =>
    intro kept d h
    have hl := fun r hr => h r (List.mem_cons_of_mem _ hr)
    unfold Dev.markFill
    split
    · rename_i q
      obtain ⟨n, e⟩ := ih (r :: kept) d hl
      refine ⟨n, ?_⟩
      rw [e, List.reverse_cons, List.append_assoc, List.map_cons]
      have : CanRecord.flagged r = r := by unfold CanRecord.flagged; rw [if_pos q]
      rw [this]; rfl
    · rename_i q
      rw [if_pos (h r List.mem_cons_self)]
      obtain ⟨n, e⟩ := ih (r.marked :: kept) d.countSuspect hl
      refine ⟨n, ?_⟩
      rw [e, List.reverse_cons, List.append_assoc, List.map_cons, CanRecord.marked_eq_flagged r q (h r List.mem_cons_self)]
      rfl

/-- Without order places nothing is closed. -/
theorem Dev.closeEntry_none {d : Dev} (h : ∀ p, d.place p = none) (r : LotRef) : d.closeEntry r = d := by
  unfold Dev.closeEntry
  split
  · rfl
  · rename_i p i
    have : d.updateEntry p i (fun e => { e with status := .closed }) = d := by unfold Dev.updateEntry; rw [h]
    rw [this]; dsimp only; rw [h]

/-- Only recipe slots that were draining differ. -/
structure OnlySlots (d d' : Dev) : Prop where
  eq : d' = { d with order := { d.order with slots := d'.order.slots } }
  keep : ∀ k, (d.slot k).st ≠ .draining → d'.slot k = d.slot k

theorem OnlySlots.refl (d : Dev) : OnlySlots d d := ⟨rfl, fun _ _ => rfl⟩

/-- Draining without order places touches draining slots alone. -/
theorem Dev.drainIfEmpty_slots {a d : Dev} (h : OnlySlots a d) (hp : ∀ p, a.place p = none) (k : Fin 4) : OnlySlots a (d.drainIfEmpty k) := by
  unfold Dev.drainIfEmpty
  dsimp only
  split
  · rename_i hs
    rw [Dev.closeEntry_none]
    · refine ⟨?_, ?_⟩
      · rw [h.eq]; rfl
      · intro j hj
        by_cases e : j = k
        · subst e
          rw [h.keep j hj] at hs
          exact absurd hs.1 hj
        · rw [← h.keep j hj]
          show (d.order.slots.set k.val RecipeSlot.empty k.isLt).get j = d.order.slots.get j
          simp only [Vector.get_eq_getElem]
          rw [Vector.getElem_set_ne]
          exact fun x => e (Fin.ext x.symm)
    · intro p
      show d.order.places.get p = none
      have := hp p
      rw [h.eq]; exact this
  · exact h

/-- The error address and the pending bit of ORDER_ERROR. -/
def OrderFault (x : Nat) (d : Dev) : Prop := d.report.errAddr = BitVec.ofNat 32 x ∧ d.report.pending.getLsbD 4 = true

theorem OrderFault.same {d' : Dev} (h : OrderFault x d) (e : d'.report = d.report) : OrderFault x d' := by
  unfold OrderFault; rw [e]; exact h

theorem Dev.placeBurst_report (b : Burst) (d : Dev) : (d.placeBurst b).report = d.report := by
  unfold Dev.placeBurst; split <;> rfl

theorem Dev.pushOrderWrite_report (a : Nat) (v : Word) (d : Dev) : (d.pushOrderWrite a v).report = d.report := by
  unfold Dev.pushOrderWrite
  dsimp only
  split
  · exact Dev.placeBurst_report _ _
  · rfl

theorem Dev.updateEntry_report (p : Fin 2) (i : Nat) (f) (d : Dev) : (d.updateEntry p i f).report = d.report := by
  unfold Dev.updateEntry
  split
  · rfl
  · split
    · rfl
    · unfold Dev.writeEntry
      rw [Dev.pushOrderWrite_report, Dev.pushOrderWrite_report]; rfl

theorem OrderFault.raise (h : OrderFault x d) (c : Cause) : OrderFault x (d.raise c) := by
  unfold Dev.raise
  split
  · exact h
  · split
    · exact h
    · refine ⟨h.1, ?_⟩
      show (d.report.pending ||| c.mask).getLsbD 4 = true
      rw [BitVec.getLsbD_or, h.2]; rfl

theorem OrderFault.raiseAt (hu : d.setup.part ≠ .unplaced) : OrderFault x (d.raiseAt .orderError x) := by
  unfold Dev.raiseAt Dev.raise
  rw [if_neg hu]
  split
  · rename_i h; exact ⟨rfl, h⟩
  · refine ⟨rfl, ?_⟩
    show (d.report.pending ||| Cause.orderError.mask).getLsbD 4 = true
    rw [BitVec.getLsbD_or, show Cause.orderError.mask.getLsbD 4 = true from by decide, Bool.or_true]

theorem Dev.releasePlace_report (p : Fin 2) (d : Dev) : (d.releasePlace p).report = d.report := by
  unfold Dev.releasePlace
  dsimp only
  split
  · rfl
  · split <;> rfl

theorem OrderFault.completeOrder (h : OrderFault x d) (p : Fin 2) : OrderFault x (d.completeOrder p) := by
  unfold Dev.completeOrder
  split
  · exact h
  · split
    · split
      · refine h.same ?_
        rw [Dev.releasePlace_report]; exact Dev.pushOrderWrite_report _ _ _
      · dsimp only
        refine OrderFault.same ?_ (Dev.releasePlace_report _ _)
        have h2 : ∀ b o, OrderFault x (d.writeOrderStatus b o) := fun b o => h.same (Dev.pushOrderWrite_report _ _ _)
        split
        · exact (h2 _ _).raise _
        · exact h2 _ _
    · exact h

theorem Dev.cancelFrom_order {a : Dev} (h : OrderStep a d) (p : Fin 2) (i : Nat) :
    OrderStep a (d.cancelFrom p i) ∧ (d.cancelFrom p i).report = d.report := by
  unfold Dev.cancelFrom
  generalize d.entryRefs p i = l
  induction l generalizing d with
  | nil => exact ⟨h, rfl⟩
  | cons y l ih =>
    rw [List.foldl_cons]
    by_cases q : d.unstartedAt y = true
    · rw [if_pos q]
      obtain ⟨h1, h2⟩ := ih (Dev.updateEntry_order h y.1 y.2 fun e => { e with status := .cancelled })
      exact ⟨h1, h2.trans (Dev.updateEntry_report _ _ _ _)⟩
    · rw [if_neg q]
      exact ih h

theorem OrderStep.keepsLoader {a b : Dev} (h : OrderStep a b) : b.order.loader = a.order.loader := by
  obtain ⟨_, _, _, _, _, _, _, _, rfl⟩ := h; rfl

/-- What a failed recipe load leaves. -/
theorem Dev.loadFails_frame (d : Dev) (l : Loader) (code : OrderCode) (x : Nat) (hu : d.setup.part ≠ .unplaced) :
      let t := d.loadFails l code x
      t.slot l.slot = RecipeSlot.empty ∧ (∀ k, k ≠ l.slot → t.slot k = d.slot k) ∧ t.order.loader = none ∧
      (∀ c, t.order.cur = some c → c.canCount = 0) ∧ t.report.errAddr = BitVec.ofNat 32 x ∧
      t.report.pending.getLsbD 4 = true ∧ t.fill = d.fill ∧ t.valve = d.valve ∧ t.track = d.track ∧
      t.setup = d.setup := by
  intro t
  let b : Dev := { d.setSlot l.slot .empty with order := { (d.setSlot l.slot .empty).order with loader := none } }
  let b1 : Dev := b.updateEntry l.place l.idx fun e => { e with status := .error }
  let c1 : Dev := match b1.place l.place with
    | none => b1
    | some o => Dev.writeOrderStatus false { o with error := some code } (b1.setPlace l.place (some { o with error := some code }))
  let c2 := (c1.raiseAt .orderError x).cancelFrom l.place (l.idx + 1)
  let c3 : Dev := { c2 with order := { c2.order with cur := openEnded c2.order.cur } }
  have et : t = c3.completeOrder l.place := rfl
  have h1 : OrderStep b c1 := by
    have h0 : OrderStep b b1 := Dev.updateEntry_order (.refl b) l.place l.idx fun e => { e with status := .error }
    dsimp only [c1]
    split
    · exact h0
    · exact Dev.writeOrderStatus_order (Dev.setPlace_order h0 _ _) _ _
  have h2 : OrderStep b c2 := (Dev.cancelFrom_order (Dev.raiseAt_order h1 _ _) _ _).1
  have h3 : OrderStep c3 t := Dev.completeOrder_order (.refl c3) _
  have f1 : OrderFault x (c1.raiseAt .orderError x) := OrderFault.raiseAt (by rw [h1.keeps.2.2.2.2.1]; exact hu)
  have f2 : OrderFault x c2 := f1.same (Dev.cancelFrom_order (.refl _) _ _).2
  have f3 : OrderFault x t := by rw [et]; exact OrderFault.completeOrder (show OrderFault x c3 from f2) _
  clear_value c2 c1 t
  have ks : ∀ k, t.slot k = b.slot k := by
    intro k
    have : t.order.slots = b.order.slots := h3.keeps.2.2.2.2.2.2.trans (show c3.order.slots = b.order.slots from h2.keeps.2.2.2.2.2.2)
    unfold Dev.slot; rw [this]
  refine ⟨(ks _).trans (Dev.slot_setSlot d _ _), fun k hk => (ks k).trans (Dev.slot_setSlot_ne d _ hk), ?_, ?_, f3.1, f3.2, ?_, ?_, ?_, ?_⟩
  · rw [h3.keepsLoader]; exact h2.keepsLoader
  · intro c hc
    rw [h3.keeps.2.2.2.2.2.1] at hc
    have hc : openEnded c2.order.cur = some c := hc
    unfold openEnded at hc
    cases hq : c2.order.cur with
    | none => rw [hq] at hc; cases hc
    | some y => rw [hq] at hc; injection hc with hc; rw [← hc]
  · exact h3.keeps.2.1.trans (h2.keeps.2.1)
  · exact h3.keeps.1.trans (h2.keeps.1)
  · exact h3.keeps.2.2.1.trans (h2.keeps.2.2.1)
  · exact h3.keeps.2.2.2.2.1.trans (h2.keeps.2.2.2.2.1)

end Sys2Proof.Machine
end

