-- ==== Sys2Proof/Laws/Freeing.lean ====
section
/-! SUPPORT. What freeing a record does, said once (R17 to R19, R171): its slot joins the head of the pool, and its
result joins the report queue or is dropped at a full one. -/

namespace Sys2Proof.Machine

variable {a d : Dev}

/-- An order step keeps the free pool, the report queue and the count of dropped results. -/
theorem OrderStep.pool {b : Dev} (h : OrderStep a b) :
    b.track = a.track ∧ b.report.queue = a.report.queue ∧ b.report.dropped = a.report.dropped ∧ b.setup = a.setup := by
  obtain ⟨_, _, _, _, _, _, _, _, rfl⟩ := h
  exact ⟨rfl, rfl, rfl, rfl⟩

theorem Dev.recordLeaves_pool (n : Nat) (lot : LotRef) (d : Dev) :
    (d.recordLeaves n lot).track = d.track ∧ (d.recordLeaves n lot).report.queue = d.report.queue ∧
      (d.recordLeaves n lot).report.dropped = d.report.dropped := by
  unfold Dev.recordLeaves
  split
  · exact ⟨rfl, rfl, rfl⟩
  · dsimp only
    split
    · split
      · rename_i k _ _ _
        have h := (Dev.closeEntry_order (.refl (d.setSlot k .empty)) lot).pool
        exact ⟨h.1, h.2.1, h.2.2.1⟩
      · exact ⟨rfl, rfl, rfl⟩
    · exact ⟨rfl, rfl, rfl⟩

/-- A released record's slot joins the head of the pool, and a suspect one lowers the suspect count (R17, R146). -/
theorem Dev.releaseRecord_pool (r : CanRecord) (d : Dev) :
    (d.releaseRecord r).track.free = r.slot :: d.track.free ∧ (d.releaseRecord r).report.queue = d.report.queue ∧
      (d.releaseRecord r).report.dropped = d.report.dropped ∧
      (d.releaseRecord r).track.suspects = d.track.suspects - (if r.suspect then 1 else 0) := by
  unfold Dev.releaseRecord
  dsimp only
  have h := Dev.recordLeaves_pool r.slot r.lot
    { d with track := { d.track with suspects := if r.suspect then d.track.suspects - 1 else d.track.suspects } }
  exact ⟨by rw [h.1], h.2.1, h.2.2, by rw [h.1]; dsimp only; split <;> rfl⟩

theorem Dev.reRead_pool (d : Dev) : d.reRead.track = d.track ∧ d.reRead.report.queue = d.report.queue ∧
    d.reRead.report.dropped = d.report.dropped ∧ d.reRead.report.pending = d.report.pending := by
  have hp : ∀ (b : Burst) (d : Dev), (d.placeBurst b).track = d.track ∧ (d.placeBurst b).report = d.report := by
    intro b d; unfold Dev.placeBurst; split <;> exact ⟨rfl, rfl⟩
  unfold Dev.reRead
  split
  · unfold Dev.openDescriptor; rw [(hp _ _).1, (hp _ _).2]; exact ⟨rfl, rfl, rfl, rfl⟩
  · unfold Dev.readNext; rw [(hp _ _).1, (hp _ _).2]; exact ⟨rfl, rfl, rfl, rfl⟩
  · exact ⟨rfl, rfl, rfl, rfl⟩

/-- A composed result joins a queue with room, and is counted as dropped at a full one. -/
theorem Dev.compose_pool (r : Result) (d : Dev) : (d.compose r).track = d.track ∧
    (d.report.queue.length < 16 → (d.compose r).report.queue = d.report.queue ++ [r] ∧
      (d.compose r).report.dropped = d.report.dropped) ∧
    (16 ≤ d.report.queue.length → (d.compose r).report.queue = d.report.queue ∧
      (d.compose r).report.dropped = d.report.dropped + 1) := by
  unfold Dev.compose
  dsimp only
  by_cases h : d.report.queue.length < 16
  · rw [if_pos (show d.drawn.report.queue.length < 16 from h)]
    have k := Dev.reRead_pool { d.drawn with report := { d.drawn.report with queue := d.drawn.report.queue ++ [r] } }
    exact ⟨k.1, fun _ => ⟨k.2.1, k.2.2.1⟩, fun g => by omega⟩
  · rw [if_neg (show ¬d.drawn.report.queue.length < 16 from h)]
    have k := (Dev.raise_order (.refl { d.drawn with report := { d.drawn.report with dropped := d.drawn.report.dropped + 1#32 } })
      .resultsDropped).pool
    exact ⟨k.1, fun g => absurd g h, fun _ => ⟨k.2.1, k.2.2.1⟩⟩

/-- Freeing a record: its slot joins the head of the pool; its result joins the queue, or is dropped. -/
theorem Dev.freeAs_pool (i : ResultIdent) (r : CanRecord) (b : Bool) (d : Dev) :
    (d.freeAs i r b).track.free = r.slot :: d.track.free ∧
    (d.report.queue.length < 16 → (d.freeAs i r b).report.queue = d.report.queue ++ [d.recordResult i r b] ∧
      (d.freeAs i r b).report.dropped = d.report.dropped) ∧
    (16 ≤ d.report.queue.length → (d.freeAs i r b).report.queue = d.report.queue ∧
      (d.freeAs i r b).report.dropped = d.report.dropped + 1) ∧
    (d.freeAs i r b).track.suspects = d.track.suspects - (if r.suspect then 1 else 0) := by
  unfold Dev.freeAs
  have h := Dev.releaseRecord_pool r (d.compose (d.recordResult i r b))
  have k := Dev.compose_pool (d.recordResult i r b) d
  rw [h.1, h.2.1, h.2.2.1, h.2.2.2, k.1]
  exact ⟨rfl, k.2.1, k.2.2, rfl⟩

theorem Dev.raiseCheck_pool (r : CanRecord) (d : Dev) : (d.raiseCheck r).track = d.track ∧
    (d.raiseCheck r).report.queue = d.report.queue ∧ (d.raiseCheck r).report.dropped = d.report.dropped := by
  unfold Dev.raiseCheck
  split
  · exact ⟨rfl, rfl, rfl⟩
  · have h := (Dev.raise_order (.refl d) .trackCheck).pool; exact ⟨h.1, h.2.1, h.2.2.1⟩

/-! ### Causes stay pending -/

/-- A cause pending in `a` is pending in `d`. -/
def StillPending (a d : Dev) : Prop :=
  ∀ n : Nat, a.report.pending.getLsbD n = true → d.report.pending.getLsbD n = true

theorem StillPending.refl (d : Dev) : StillPending d d := fun _ h => h

theorem StillPending.trans {a b c : Dev} (h : StillPending a b) (k : StillPending b c) : StillPending a c :=
  fun n q => k n (h n q)

theorem StillPending.same {b : Dev} (e : b.report.pending = a.report.pending) : StillPending a b :=
  fun n h => by rw [e]; exact h

theorem Dev.raise_stillPending (c : Cause) (d : Dev) : StillPending d (d.raise c) := by
  unfold Dev.raise
  split
  · exact .refl d
  · split
    · exact .refl d
    · intro n h
      show (d.report.pending ||| c.mask).getLsbD n = true
      rw [BitVec.getLsbD_or, h]; rfl

theorem Dev.completeOrder_stillPending (p : Fin 2) (d : Dev) : StillPending d (d.completeOrder p) := by
  have rel : ∀ d : Dev, StillPending d (d.releasePlace p) := fun d => .same (by rw [Dev.releasePlace_report])
  have wr : ∀ (d : Dev) b o, StillPending d (d.writeOrderStatus b o) :=
    fun d _ _ => .same (by unfold Dev.writeOrderStatus; rw [Dev.pushOrderWrite_report])
  unfold Dev.completeOrder
  split
  · exact .refl d
  · split
    · split
      · exact (wr _ _ _).trans (rel _)
      · dsimp only
        split
        · exact ((wr _ _ _).trans (Dev.raise_stillPending _ _)).trans (rel _)
        · exact (wr _ _ _).trans (rel _)
    · exact .refl d

theorem Dev.closeEntry_stillPending (r : LotRef) (d : Dev) : StillPending d (d.closeEntry r) := by
  unfold Dev.closeEntry
  split
  · exact .refl d
  · dsimp only
    split
    · exact .same (by rw [Dev.updateEntry_report])
    · refine StillPending.trans ?_ (Dev.completeOrder_stillPending _ _)
      refine .same ?_
      unfold Dev.writeOrderStatus
      rw [Dev.pushOrderWrite_report]
      exact congrArg ReportUnit.pending (Dev.updateEntry_report _ _ _ _)

theorem Dev.recordLeaves_stillPending (n : Nat) (lot : LotRef) (d : Dev) : StillPending d (d.recordLeaves n lot) := by
  unfold Dev.recordLeaves
  split
  · exact .refl d
  · dsimp only
    split
    · split
      · exact Dev.closeEntry_stillPending lot (d.setSlot _ .empty)
      · exact .refl d
    · exact .refl d

theorem Dev.releaseRecord_stillPending (r : CanRecord) (d : Dev) : StillPending d (d.releaseRecord r) :=
  Dev.recordLeaves_stillPending r.slot r.lot
    { d with track := { d.track with suspects := if r.suspect then d.track.suspects - 1 else d.track.suspects } }

theorem Dev.compose_stillPending (r : Result) (d : Dev) : StillPending d (d.compose r) := by
  unfold Dev.compose
  dsimp only
  split
  · exact .same (Dev.reRead_pool { d.drawn with report := { d.drawn.report with queue := d.drawn.report.queue ++ [r] } }).2.2.2
  · exact Dev.raise_stillPending .resultsDropped { d.drawn with report := { d.drawn.report with dropped := d.drawn.report.dropped + 1#32 } }

/-- Freeing a record takes no cause out of the pending set. -/
theorem Dev.freeAs_stillPending (i : ResultIdent) (r : CanRecord) (b : Bool) (d : Dev) :
    StillPending d (d.freeAs i r b) := by
  unfold Dev.freeAs
  refine StillPending.trans ?_ (Dev.releaseRecord_stillPending _ _)
  exact Dev.compose_stillPending _ _

/-! ### A head that fails its check (R5, R7, R11) -/

theorem Dev.failFilled_released (r : CanRecord) (d : Dev) : Released d (d.failFilled r) := by
  unfold Dev.failFilled
  refine Released.trans ?_ (Dev.freeAs_released _ _ _ _)
  unfold Dev.raiseCheck
  split
  · exact .refl d
  · exact Dev.raise_released _ _

/-- The failing record's slot joins the pool, TRACK_CHECK is raised for it once, and its LOST result joins a queue
with room. -/
theorem Dev.failFilled_pool (r : CanRecord) (d : Dev) :
    (d.failFilled r).track.free = r.slot :: d.track.free ∧
    (d.report.queue.length < 16 →
      (d.failFilled r).report.queue = d.report.queue ++ [(d.raiseCheck r).recordResult .lost r true]) ∧
    (r.failed = false → d.setup.part ≠ .unplaced → (d.failFilled r).report.pending.getLsbD 19 = true) := by
  have k := Dev.raiseCheck_pool r d
  have f := Dev.freeAs_pool .lost r true (d.raiseCheck r)
  refine ⟨by unfold Dev.failFilled; rw [f.1, k.1], fun q => ?_, fun q u => ?_⟩
  · unfold Dev.failFilled
    rw [(f.2.1 (by rw [k.2.1]; exact q)).1, k.2.1]
  · refine Dev.freeAs_stillPending _ _ _ _ 19 ?_
    unfold Dev.raiseCheck
    rw [q]
    exact Dev.raise_pending d .trackCheck u

/-- A head take over a failing head frees it first. -/
theorem Dev.takeHead_failing {r : CanRecord} {rest : List CanRecord} {d : Dev} (h : r.bad = true) :
    Dev.takeHead (r :: rest) d = Dev.takeHead rest (Dev.failFilled r (d.setFillList rest)) := by
  rw [Dev.takeHead, if_pos h]

/-- A head take from a list whose head is sound. -/
theorem Dev.takeHead_sound {r : CanRecord} {rest : List CanRecord} {d : Dev} (h : r.bad = false) :
    Dev.takeHead (r :: rest) d = (some r, d.setFillList rest) := by
  rw [Dev.takeHead, if_neg (by rw [h]; decide)]

/-! ### A list of records freed -/

/-- The records `l` freed with results of kind `ident`: their slots in the pool, the last freed at its head, their
results in the queue up to its 16, the rest counted as dropped, and the suspect count lowered by the suspect ones
(R17, R18, R146, R171). -/
structure FreedAll (ident : ResultIdent) (l : List CanRecord) (a d : Dev) : Prop where
  free    : d.track.free = (l.map fun r => r.slot).reverse ++ a.track.free
  length  : d.report.queue.length = max a.report.queue.length (min 16 (a.report.queue.length + l.length))
  queue   : a.report.queue.length ≤ 16 → ∃ zs, d.report.queue = (a.report.queue ++ zs).take 16 ∧
    zs.map (fun z => (z.seq, z.ident, z.pocket, z.reasons, z.record)) = l.map fun r =>
      (r.seq, ident, (none : Option Word), if r.failed = true ∨ r.checkOk = false then 1024#11 else 0#11,
        some r.resultFields)
  dropped : a.report.queue.length ≤ 16 →
    d.report.dropped = a.report.dropped + BitVec.ofNat 32 (a.report.queue.length + l.length - 16)
  suspects : d.track.suspects = a.track.suspects - l.countP fun r => r.suspect

theorem FreedAll.refl (ident : ResultIdent) (d : Dev) : FreedAll ident [] d d := by
  refine ⟨rfl, ?_, fun h => ⟨[], ?_, rfl⟩, fun h => ?_, rfl⟩
  · rw [List.length_nil, Nat.add_zero]; omega
  · rw [List.append_nil, List.take_of_length_le h]
  · rw [show d.report.queue.length + ([] : List CanRecord).length - 16 = 0 by simp; omega]
    simp

/-- One more record freed. -/
theorem FreedAll.snoc {ident : ResultIdent} {l : List CanRecord} {r : CanRecord} {d' : Dev} (h : FreedAll ident l a d)
    (h1 : d'.track.free = d.track.free) (h2 : d'.report.queue = d.report.queue) (h3 : d'.report.dropped = d.report.dropped)
    (h4 : d'.track.suspects = d.track.suspects) : FreedAll ident (l ++ [r]) a (d'.freeAs ident r r.bad) := by
  have k := Dev.freeAs_pool ident r r.bad d'
  have len := h.length
  have row : (fun z : Result => (z.seq, z.ident, z.pocket, z.reasons, z.record)) (d'.recordResult ident r r.bad) =
      (r.seq, ident, (none : Option Word), if r.failed = true ∨ r.checkOk = false then 1024#11 else 0#11,
        some r.resultFields) := by
    unfold Dev.recordResult CanRecord.bad reasonIf
    cases r.failed <;> cases r.checkOk <;> rfl
  refine ⟨?_, ?_, fun ha => ?_, fun ha => ?_, ?_⟩
  · rw [k.1, h1, h.free]; simp
  · rw [List.length_append, List.length_singleton]
    by_cases q : d.report.queue.length < 16
    · rw [(k.2.1 (by rw [h2]; exact q)).1, h2, List.length_append, List.length_singleton]; omega
    · rw [(k.2.2.1 (by rw [h2]; omega)).1, h2]; omega
  · obtain ⟨zs, e, f⟩ := h.queue ha
    have lz : zs.length = l.length := by simpa using congrArg List.length f
    refine ⟨zs ++ [d'.recordResult ident r r.bad], ?_, ?_⟩
    · by_cases q : d.report.queue.length < 16
      · rw [(k.2.1 (by rw [h2]; exact q)).1, h2, e]
        have : a.report.queue.length + l.length < 16 := by omega
        rw [List.take_of_length_le (by simp; omega), List.take_of_length_le (by simp; omega), List.append_assoc]
      · rw [(k.2.2.1 (by rw [h2]; omega)).1, h2, e]
        have : 16 ≤ (a.report.queue ++ zs).length := by rw [List.length_append]; omega
        rw [← List.append_assoc, List.take_append_of_le_length this]
    · rw [List.map_append, List.map_append, f]
      exact congrArg (fun x => _ ++ [x]) row
  · rw [List.length_append, List.length_singleton]
    by_cases q : d.report.queue.length < 16
    · rw [(k.2.1 (by rw [h2]; exact q)).2, h3, h.dropped ha]
      congr 2; omega
    · rw [(k.2.2.1 (by rw [h2]; omega)).2, h3, h.dropped ha]
      rw [BitVec.add_assoc]
      congr 1
      rw [show a.report.queue.length + (l.length + 1) - 16 = a.report.queue.length + l.length - 16 + 1 by omega]
      exact (BitVec.ofNat_add _ 1).symm
  · rw [k.2.2.2, h4, h.suspects, List.countP_append, List.countP_singleton]; omega

/-- A record discarded (R14). -/
theorem FreedAll.discard {l : List CanRecord} {r : CanRecord} {d' : Dev} (h : FreedAll .discarded l a d)
    (h1 : d'.track.free = d.track.free) (h2 : d'.report = d.report) (h3 : d'.track.suspects = d.track.suspects) :
    FreedAll .discarded (l ++ [r]) a (d'.discardRecord r) := by
  unfold Dev.discardRecord
  split
  · exact h.snoc h1 (by rw [h2]) (by rw [h2]) h3
  · have k := Dev.raiseCheck_pool r d'
    exact h.snoc (by rw [k.1, h1]) (by rw [k.2.1, h2]) (by rw [k.2.2, h2]) (by rw [k.1, h3])

/-- Discarding the track frees the pocketed records from the oldest pocket to the newest, then the fill list (R14). -/
theorem Dev.discardTrack_all (d : Dev) :
    FreedAll .discarded ((d.ringPockets.filterMap fun p => (d.entry p).record) ++ d.track.fill) d d.discardTrack := by
  have pockets : ∀ (ps : List Word) (l : List CanRecord) (e : Dev), FreedAll .discarded l d e → (ps.map ringIx).Nodup →
      (∀ p ∈ ps, (e.entry p).record = (d.entry p).record) → e.track.fill = d.track.fill →
      FreedAll .discarded (l ++ ps.filterMap fun p => (d.entry p).record) d (ps.foldl Dev.discardPocket e) ∧
        (ps.foldl Dev.discardPocket e).track.fill = d.track.fill := by
    intro ps
    induction ps with
    | nil => intro l e h _ _ f; rw [List.filterMap_nil, List.append_nil]; exact ⟨h, f⟩
    | cons p ps ih =>
      intro l e h hn hr f
      rw [List.map_cons, List.nodup_cons] at hn
      rw [List.foldl_cons, List.filterMap_cons]
      have hp := hr p List.mem_cons_self
      cases hc : (d.entry p).record with
      | none =>
        have : e.discardPocket p = e := by unfold Dev.discardPocket; dsimp only; rw [hp, hc]
        rw [this]
        exact ih l e h hn.2 (fun q hq => hr q (List.mem_cons_of_mem _ hq)) f
      | some r =>
        have ed : e.discardPocket p = Dev.discardRecord r (e.setEntry p { e.entry p with record := none }) := by
          unfold Dev.discardPocket; dsimp only; rw [hp, hc]
        have rel := Dev.discardRecord_released r (e.setEntry p { e.entry p with record := none })
        rw [ed]
        have := ih (l ++ [r]) (Dev.discardRecord r (e.setEntry p { e.entry p with record := none }))
          (h.discard rfl rfl rfl) hn.2 (fun q hq => ?_) (rel.list.trans f)
        · rw [List.append_assoc] at this; exact this
        · have ne : ringIx q ≠ ringIx p := fun x => hn.1 (x ▸ List.mem_map_of_mem hq)
          have : (Dev.discardRecord r (e.setEntry p { e.entry p with record := none })).entry q = e.entry q := by
            refine Eq.trans (b := (e.setEntry p { e.entry p with record := none }).entry q) ?_ (Dev.entry_setEntry_ne e _ ne)
            exact congrArg (fun u : PocketUnit => u.ring.get (ringIx q)) rel.ring
          rw [this]; exact hr q (List.mem_cons_of_mem _ hq)
  have list : ∀ (fs : List CanRecord) (l : List CanRecord) (e : Dev), FreedAll .discarded l d e →
      FreedAll .discarded (l ++ fs) d (Dev.discardFill fs e) := by
    intro fs
    induction fs with
    | nil => intro l e h; rw [List.append_nil]; exact h
    | cons r fs ih =>
      intro l e h
      have := ih (l ++ [r]) _ (h.discard (d' := e.setFillList fs) (r := r) rfl rfl rfl)
      rw [List.append_assoc] at this; exact this
  have nd : (d.ringPockets.map ringIx).Nodup := by
    unfold Dev.ringPockets
    rw [List.map_map]
    refine List.Nodup.map_on ?_ List.nodup_range
    intro x hx y hy e
    rw [List.mem_range] at hx hy
    have := congrArg Fin.val e
    simp only [Function.comp, ringIx, BitVec.toNat_add, BitVec.toNat_ofNat] at this
    omega
  unfold Dev.discardTrack
  dsimp only
  have h := pockets d.ringPockets [] d (.refl _ _) nd (fun _ _ => rfl) rfl
  rw [h.2]
  exact list _ _ _ h.1

end Sys2Proof.Machine
end

