-- ==== Sys2Proof/Laws/Invariant.lean ====
section
/-! SUPPORT. The invariant of Safety.lean kept by the pieces of a step: a block's operation, serving the port,
presenting a transaction, a burst's answer and a grant. -/

namespace Sys2Proof.Machine

/-- A block's step keeps the invariant. -/
theorem State.Inv.block {s : State} (h : s.Inv) {d : Dev} (k : BlockStep s.dev d) : ({ s with dev := d } : State).Inv :=
  ⟨h.memory, by dsimp only; rw [k.cabase, k.memsize]; exact h.straps, by dsimp only; rw [k.wait]; exact h.wait, k.queue h.queue,
    by dsimp only; rw [k.placed, k.cabase, k.memsize]; exact h.placed, fun x => k.silent (k.placed.mp x) (h.silent (k.placed.mp x))⟩

/-- A change of the Path unit alone. -/
theorem State.Inv.path {s : State} (h : s.Inv) {u : PathUnit} (h1 : u.cabase = s.dev.path.cabase) (h2 : u.memsize = s.dev.path.memsize)
  (h3 : u.waitCount ≤ 4) (h4 : s.dev.setup.part = .unplaced → u.bursts = [] ∧ u.port = none) :
  ({ s with dev := { s.dev with path := u } } : State).Inv :=
  ⟨h.memory, by dsimp only; rw [h1, h2]; exact h.straps, h3, h.queue, by dsimp only; rw [h1, h2]; exact h.placed,
    fun x => ⟨(h.silent x).1, (h4 x).1, (h4 x).2⟩⟩

theorem State.Inv.withMem {s : State} (h : s.Inv) {m} (k : Memory.wf m = true) : ({ s with mem := m } : State).Inv :=
  ⟨k, h.straps, h.wait, h.queue, h.placed, h.silent⟩

theorem State.Inv.withPending {s : State} (h : s.Inv) (p) : ({ s with pending := p } : State).Inv :=
  ⟨h.memory, h.straps, h.wait, h.queue, h.placed, h.silent⟩

theorem State.Inv.setHead {s : State} (h : s.Inv) (k : Held) : ({ s with dev := s.dev.setHead k } : State).Inv :=
  State.Inv.path h rfl rfl h.wait (fun x => (h.silent x).2)

theorem State.Inv.freePort {s : State} (h : s.Inv) : ({ s with dev := s.dev.freePort } : State).Inv :=
  State.Inv.path h rfl rfl h.wait (fun x => (h.silent x).2)

/-- The invariant says nothing of what the ports gave out. -/
theorem State.Inv.ports {s : State} (h : s.Inv) (xs ys) : ({ s with answers := xs, downstream := ys } : State).Inv :=
  ⟨h.memory, h.straps, h.wait, h.queue, h.placed, h.silent⟩

/-- A block acting with the transactions presented set aside. -/
theorem Dev.apart_block {α : Type} {d : Dev} {f : Dev → α × Dev} (h : BlockStep (d.withUp []) (f (d.withUp [])).2) :
    BlockStep d (d.apart f).2 :=
  ⟨h.cabase, h.memsize, h.lrst, h.wait, rfl, h.queue, h.placed, h.silent⟩

theorem Dev.apart_one_block {d : Dev} {f : Dev → Dev} (h : BlockStep (d.withUp []) (f (d.withUp []))) :
    BlockStep d (d.apart fun d => ((), f d)).2 :=
  ⟨h.cabase, h.memsize, h.lrst, h.wait, rfl, h.queue, h.placed, h.silent⟩

/-- Every piece of work is a block's step. -/
theorem Dev.workDone_block (d : Dev) (k : Held) (ws : List Word) (mi : Micro) :
    BlockStep d (d.workDone k ws mi).2.2 := by
  cases mi with
  | store a xs => exact Dev.apart_block (Dev.takeStore_block (.refl _) _ _ _)
  | switchCommit =>
    cases hk : d.slotIn .pending with
    | none => simp only [Dev.workDone, hk]; exact .refl _
    | some j => simp only [Dev.workDone, hk]; exact Dev.switchTo_block (.refl _) _ _
  | fill v =>
    cases hk : d.switchAt (Fin.ofNat 64 v) k.ctx with
    | none => simp only [Dev.workDone, hk]; exact .refl _
    | some j => simp only [Dev.workDone, hk]; exact .refl _
  | fillFetch v => exact Dev.apart_one_block (f := Dev.decideHeld) (Dev.decideHeld_block (.refl _))
  | fillEnd =>
    have h : BlockStep (d.withUp []) (Dev.takeFills k.ctx (d.withUp [])) := Dev.takeFills_block (.refl _) _
    have g := Dev.apart_one_block (f := Dev.takeFills k.ctx) h
    unfold Dev.workDone
    exact g
  | codeTake j known =>
    have h : BlockStep (d.withUp []) (Dev.codeTaken j known k.ctx (d.withUp [])) := by
      unfold Dev.codeTaken
      exact Dev.takeCode_block (.refl _) _ _ _
    have g := Dev.apart_one_block (f := Dev.codeTaken j known k.ctx) h
    unfold Dev.workDone
    exact g
  | gatePoll => exact Dev.apart_block (Dev.pollGate_block (.refl _))
  | gateInspect => exact Dev.apart_block (Dev.inspectGate_block (.refl _))
  | viewEnd i n => exact Dev.apart_block (Dev.viewRead_block _ _ _ _ (.refl _))
  | _ => exact .refl _

theorem State.Inv.progress {s : State} (h : s.Inv) (k : Held) (mi rest ws) : ({ s with dev := s.dev.progress k mi rest ws } : State).Inv := by
  unfold Dev.progress
  dsimp only
  exact State.Inv.block (s := { s with dev := Dev.setHead _ _ }) (State.Inv.setHead (State.Inv.block h (Dev.workDone_block _ _ _ _)) _) (Dev.settle_block (.refl _))

theorem Access.land_wf {m} (h : Memory.wf m = true) (x : Access) : Memory.wf (x.land m) = true := by
  cases x with
  | read _ _ => exact h
  | write a ws => exact (Memory.wf_writeWords _ ‹_› _)

theorem State.Inv.countGrant {s : State} (h : s.Inv) (g : s.dev.grantable = true) : ({ s with dev := s.dev.countGrant } : State).Inv := by
  unfold Dev.countGrant
  split
  · exact h
  · rename_i hn
    refine State.Inv.path h rfl rfl ?_ (fun x => (h.silent x).2)
    simp only [Dev.grantable, Bool.and_eq_true, Bool.or_eq_true, decide_eq_true_eq] at g
    rcases g.2 with k | k
    · exact absurd k hn
    · dsimp only; omega

/-- An access granted and answered keeps the invariant. -/
theorem State.Inv.grantAccess {s : State} (h : s.Inv) (g : s.dev.grantable = true) (k : Held) (mi rest x) :
    (s.grantAccess k mi rest x).Inv := by
  have c := State.Inv.countGrant (s := s.issue (.upstream k.txn.master) x) (State.Inv.ports h _ _) g
  unfold State.grantAccess
  dsimp only
  split
  · refine State.Inv.ports (s := { s with dev := _ }) ?_ _ _
    unfold Dev.faultEnds
    refine State.Inv.block (s := { s with dev := s.dev.countGrant.freePort }) (State.Inv.freePort (State.Inv.countGrant h g)) (Dev.settle_block ?_)
    split
    · exact Dev.decideHeld_block (Dev.drainAll_block (.refl _))
    · exact Dev.drainAll_block (.refl _)
  · exact State.Inv.progress (s := { s.issue (.upstream k.txn.master) x with mem := x.land s.mem, dev := s.dev.countGrant }) (State.Inv.withMem c (Access.land_wf h.memory x)) _ _ _ _
  · exact State.Inv.progress (s := { s.issue (.upstream k.txn.master) x with mem := x.land s.mem, dev := s.dev.countGrant }) (State.Inv.withMem c (Access.land_wf h.memory x)) _ _ _ _

/-- Serving the port keeps the invariant. -/
theorem State.Inv.serve (n b : Nat) (s : State) (h : s.Inv) : (State.serve n b s).Inv := by
  refine State.serve_induct State.Inv ?_ ?_ ?_ ?_ n b s h
  · intro s k us hu h
    unfold State.accept
    split
    · unfold Dev.pathRefusal
      refine State.Inv.ports (s := { s with dev := _ }) ?_ _ _
      refine State.Inv.block (s := { s with dev := Dev.freePort _ }) ?_ (Dev.settle_block (Dev.raise_block (.refl _) _))
      exact State.Inv.freePort (s := { s with dev := Dev.faulted s.dev }) (State.Inv.path h rfl rfl h.wait (fun x => (h.silent x).2))
    · exact State.Inv.setHead h _
  · exact fun s a h => State.Inv.ports (State.Inv.freePort h) _ _
  · exact fun s k us mi rest _ _ _ h => State.Inv.progress h _ _ _ _
  · exact fun s k us mi rest x _ _ _ g h => State.Inv.grantAccess h g k mi rest x

/-- The work done before a line reset takes effect keeps the invariant. -/
theorem State.Inv.workOn {s : State} (h : s.Inv) (n : Nat) : ({ s with dev := s.dev.workOn n } : State).Inv := by
  have step : ∀ (n : Nat) (d : Dev), ({ s with dev := d } : State).Inv → ({ s with dev := d.workOn n } : State).Inv := by
    intro n
    induction n with
    | zero => exact fun _ h => h
    | succ n ih =>
      intro d h
      unfold Dev.workOn
      split
      · exact h
      · split
        · exact h
        · exact h
        · split
          · exact h
          · exact ih _ (State.Inv.progress h _ _ _ _)
  exact step n s.dev h

/-- What a line reset finds keeps the invariant, whatever memory holds (R57, R75). -/
theorem State.Inv.resetFinds {s : State} (h : s.Inv) (up ok) : ({ s with dev := s.resetFinds up ok } : State).Inv := by
  have work : s.dev.grantable = true → ∀ (k : Held) (mi rest x),
      ({ s with dev := (s.grantAccess k mi rest x).dev.workOn resetFuel } : State).Inv := fun g k mi rest x => by
    have i := State.Inv.workOn (State.Inv.grantAccess h g k mi rest x) resetFuel
    exact ⟨h.memory, i.straps, i.wait, i.queue, i.placed, i.silent⟩
  unfold State.resetFinds
  split
  · unfold State.resetTakes
    split
    · exact h
    · split
      · exact h
      · exact h
      · split
        · exact h
        · split
          · exact work ‹_› _ _ _ _
          · exact h
  · exact h

/-- From `d` to `d'` the transactions behind the held one stand, and so do LRST and whether the part is placed. -/
structure HeldStep (d d' : Dev) : Prop where
  behind : d'.path.upstream.drop 1 = d.path.upstream.drop 1
  lrst   : d'.path.lrst = d.path.lrst
  placed : d'.setup.part = .unplaced ↔ d.setup.part = .unplaced

theorem HeldStep.refl (d : Dev) : HeldStep d d := ⟨rfl, rfl, Iff.rfl⟩

theorem HeldStep.trans {a b c : Dev} (h : HeldStep a b) (k : HeldStep b c) : HeldStep a c :=
  ⟨k.behind.trans h.behind, k.lrst.trans h.lrst, k.placed.trans h.placed⟩

theorem BlockStep.held {a b : Dev} (h : BlockStep a b) : HeldStep a b :=
  ⟨congrArg (List.drop 1) h.upstream, h.lrst, h.placed⟩

theorem Dev.setHead_held (h : Held) (d : Dev) : HeldStep d (d.setHead h) := ⟨rfl, rfl, Iff.rfl⟩

/-- A piece of work done touches only the held transaction's place at the port. -/
theorem Dev.progress_held (d : Dev) (k : Held) (mi rest ws) : HeldStep d (d.progress k mi rest ws) := by
  unfold Dev.progress
  dsimp only
  exact ((Dev.workDone_block d k ws mi).held.trans (Dev.setHead_held _ _)).trans (Dev.settle_block (.refl _)).held

/-- So does the work done before a line reset takes effect. -/
theorem Dev.workOn_held : ∀ (n : Nat) (d : Dev), HeldStep d (d.workOn n) := by
  intro n
  induction n with
  | zero => exact .refl
  | succ n ih =>
    intro d
    unfold Dev.workOn
    split
    · exact .refl d
    · split
      · exact .refl d
      · exact .refl d
      · split
        · exact .refl d
        · exact (Dev.progress_held d _ _ _ _).trans (ih _)

/-- What a line reset finds differs from what stood by the held transaction's work alone. -/
theorem State.resetFinds_held (up ok) (s : State) : HeldStep s.dev (s.resetFinds up ok) := by
  have work : ∀ (k : Held) (mi rest x), k.faultAt = none → HeldStep s.dev ((s.grantAccess k mi rest x).dev.workOn resetFuel) := by
    intro k mi rest x hk
    refine HeldStep.trans ?_ (Dev.workOn_held _ _)
    have g : HeldStep s.dev s.dev.countGrant :=
      ⟨congrArg (List.drop 1) s.dev.countGrant_keeps.2.2.2, s.dev.countGrant_keeps.2.2.1, by rw [s.dev.countGrant_keeps.1]⟩
    unfold State.grantAccess
    rw [hk]
    exact g.trans (Dev.progress_held _ _ _ _ _)
  unfold State.resetFinds
  split
  · unfold State.resetTakes
    split
    · exact .refl _
    · split
      · exact .refl _
      · exact .refl _
      · split
        · exact .refl _
        · split
          · exact work _ _ _ _ rfl
          · exact .refl _
  · exact .refl _

/-- Presenting a transaction keeps the invariant. -/
theorem State.Inv.present {s : State} (h : s.Inv) (t a) : (s.present t a).Inv := by
  have k (k : Held) : (s.queueUp k).Inv := State.Inv.path h rfl rfl h.wait (fun x => (h.silent x).2)
  unfold State.present
  dsimp only
  split
  · exact State.Inv.serve _ _ _ (State.Inv.ports (k _) [] [])
  · exact k _

theorem Burst.land_wf {m} (h : Memory.wf m = true) (b : Burst) (ok) : Memory.wf (b.land m ok) = true := by
  unfold Burst.land
  split
  · exact h
  · split
    · exact (Memory.wf_writeWords _ ‹_› _)
    · exact h

theorem State.Inv.takeAnswer {s : State} (h : s.Inv) (op ok) : (s.takeAnswer op ok).2.Inv := by
  have o : (s.outsideAnswer op).2.Inv := by
    unfold State.outsideAnswer
    split
    · exact h
    · refine State.Inv.path h rfl rfl h.wait (fun x => ⟨?_, (h.silent x).2.2⟩)
      dsimp only; rw [(h.silent x).2.1]; rfl
  unfold State.takeAnswer
  split
  · exact o
  · rename_i i hi
    split
    · exact State.Inv.withMem (State.Inv.path (u := { s.dev.path with port := none }) h rfl rfl h.wait (fun x => ⟨(h.silent x).2.1, rfl⟩)) (Burst.land_wf h.memory _ _)
    · exact o

/-- An internal burst's answer keeps the invariant. -/
theorem State.Inv.answered {s : State} (h : s.Inv) (op ok f) (hf : ∀ x d, BlockStep d (f x d)) : (s.answered op ok f).Inv := by
  have k := State.Inv.takeAnswer h op ok
  unfold State.answered
  dsimp only
  split
  · exact k
  · exact State.Inv.block k (Dev.settle_block (hf _ _))

theorem State.Inv.issue {s : State} (h : s.Inv) : ({ s with dev := s.dev.issueBurst } : State).Inv := by
  unfold Dev.issueBurst
  split
  · exact h
  · rename_i b bs hb
    refine State.Inv.path h rfl rfl (by simp) (fun x => ?_)
    have := (h.silent x).2.1
    simp [Dev.waitingBursts, this] at hb

/-- A grant keeps the invariant. -/
theorem State.Inv.grant {s : State} (h : s.Inv) : s.arbiterGrant.Inv := by
  unfold State.arbiterGrant
  split
  · exact h
  · split
    · exact State.Inv.serve _ _ _ (State.Inv.ports h [] [])
    · unfold State.grantBurst
      split
      · exact h
      · exact State.Inv.ports (State.Inv.issue h) _ _

end Sys2Proof.Machine
end

