-- ==== Sys2Proof/Laws/Relayout.lean ====
section
/-! SUPPORT. The lists Q and S of the identity decision (R83), the tag search over sound records (R84), and what the
forward and the backward re-layout do to pockets and fill list (R12, R13, R86, R87). -/

namespace Sys2Proof.Machine

variable {a d : Dev}

/-- No record of the pockets `ps` or of the fill list `fl` fails its check. -/
structure Dev.SoundOver (d : Dev) (ps : List Word) (fl : List CanRecord) : Prop where
  held : ∀ p ∈ ps, ∀ r, (d.entry p).record = some r → r.bad = false
  fill : ∀ r ∈ fl, r.bad = false

/-- The records that the pockets `ps` hold, in their order. -/
def Dev.recordsOf (d : Dev) (ps : List Word) : List CanRecord := ps.filterMap fun p => (d.entry p).record

/-! ### Q and S (R83) -/

theorem Dev.canPockets_eq (d : Dev) : ∀ (n : Nat) (p : Word), d.canPockets p n =
    ((List.range n).map fun i => p + BitVec.ofNat 32 i).filter fun x => decide ((d.entry x).occ = .can) := by
  intro n
  induction n with
  | zero => intro p; rfl
  | succ n ih =>
    intro p
    rw [List.range_succ_eq_map, List.map_cons, List.map_map]
    have e : ((fun i => p + BitVec.ofNat 32 i) ∘ Nat.succ) = fun i => (p + 1#32) + BitVec.ofNat 32 i := by
      funext i
      show p + BitVec.ofNat 32 (i + 1) = p + 1#32 + BitVec.ofNat 32 i
      rw [BitVec.add_assoc]
      congr 1
      rw [Nat.add_comm i 1, BitVec.ofNat_add]
    rw [e, show p + BitVec.ofNat 32 0 = p by simp, List.filter_cons, Dev.canPockets, ih]
    simp only [decide_eq_true_eq]

/-- The pockets of Q have entries of their own: they lie less than the ring's length apart (R50, R83). -/
theorem Dev.listQ_nodup (d : Dev) (r : Word) (h : d.su.dRead ≤ 31) : ((d.listQ r).map ringIx).Nodup := by
  have all : (((List.range (d.su.dRead - 1 + 1)).map fun i => r + BitVec.ofNat 32 i).map ringIx).Nodup := by
    rw [List.map_map]
    refine List.Nodup.map_on ?_ List.nodup_range
    intro x hx y hy e
    rw [List.mem_range] at hx hy
    have := congrArg Fin.val e
    simp only [Function.comp, ringIx, BitVec.toNat_add, BitVec.toNat_ofNat] at this
    omega
  refine List.Nodup.sublist ?_ all
  refine List.Sublist.map _ ?_
  unfold Dev.listQ
  rw [Dev.canPockets_eq, List.range_succ_eq_map, List.map_cons, List.map_map, show r + BitVec.ofNat 32 0 = r by simp]
  have e : ((fun i => r + BitVec.ofNat 32 i) ∘ Nat.succ) = fun i => (r + 1#32) + BitVec.ofNat 32 i := by
    funext i
    show r + BitVec.ofNat 32 (i + 1) = r + 1#32 + BitVec.ofNat 32 i
    rw [BitVec.add_assoc, Nat.add_comm i 1, BitVec.ofNat_add]
  rw [e]
  exact List.Sublist.cons_cons _ List.filter_sublist

theorem Dev.recordsOf_holders (d : Dev) (q : List Word) : d.recordsOf (d.holders q) = d.recordsOf q := by
  unfold Dev.recordsOf Dev.holders
  induction q with
  | nil => rfl
  | cons p q ih =>
    rw [List.filter_cons, List.filterMap_cons]
    cases h : (d.entry p).record with
    | none => simp [ih]
    | some r => simp only [Option.isSome_some, if_true]; rw [List.filterMap_cons, h]; exact congrArg _ ih

theorem Dev.holders_sublist (d : Dev) (q : List Word) : (d.holders q).Sublist q := List.filter_sublist

theorem Dev.mem_holders {d : Dev} {q : List Word} {p : Word} (h : p ∈ d.holders q) : ∃ r, (d.entry p).record = some r := by
  have := (List.mem_filter.1 h).2
  exact Option.isSome_iff_exists.1 this

/-! ### The tag search (R84) -/

theorem Dev.searchFill_sound (tag : BitVec 12) : ∀ (l kept : List CanRecord) (k : Nat) (d : Dev),
    (∀ r ∈ l, r.bad = false) →
    ((∀ x ∈ l.take (17 - k), x.tag ≠ tag) → Dev.searchFill tag l kept k d = (none, d)) ∧
    ∀ lost x rest, l = lost ++ x :: rest → k + lost.length ≤ 16 → (∀ y ∈ lost, y.tag ≠ tag) → x.tag = tag →
      Dev.searchFill tag l kept k d = (some (k + lost.length, x), d) := by
  intro l
  induction l with
  | nil =>
    intro kept k d _
    refine ⟨fun _ => rfl, fun lost x rest h => ?_⟩
    simp at h
  | cons r l ih =>
    intro kept k d hb
    have hr := hb r List.mem_cons_self
    have hl := fun x hx => hb x (List.mem_cons_of_mem r hx)
    have go : ¬16 < k → r.tag ≠ tag → Dev.searchFill tag (r :: l) kept k d = Dev.searchFill tag l (r :: kept) (k + 1) d := by
      intro h1 h2
      rw [Dev.searchFill, if_neg h1, if_neg (by rw [hr]; decide), if_neg h2]
    refine ⟨fun h => ?_, fun lost x rest h hk hn hx => ?_⟩
    · by_cases h1 : 16 < k
      · rw [Dev.searchFill, if_pos h1]
      · rw [show 17 - k = (17 - (k + 1)) + 1 by omega, List.take_succ_cons] at h
        rw [go h1 (h r List.mem_cons_self)]
        exact (ih (r :: kept) (k + 1) d hl).1 fun x hx => h x (List.mem_cons_of_mem _ hx)
    · cases lost with
      | nil =>
        rw [List.nil_append] at h
        injection h with h1 h2
        subst h1
        rw [Dev.searchFill, if_neg (by simpa using hk), if_neg (by rw [hr]; decide), if_pos hx]
        rfl
      | cons y lost =>
        rw [List.cons_append] at h
        injection h with h1 h2
        subst h1
        rw [List.length_cons] at hk ⊢
        rw [go (by omega) (hn r List.mem_cons_self)]
        have := (ih (r :: kept) (k + 1) d hl).2 lost x rest h2 (by omega) (fun z hz => hn z (List.mem_cons_of_mem _ hz)) hx
        rw [this, show k + 1 + lost.length = k + (lost.length + 1) by omega]

/-- The search over sound records changes nothing and gives the first match among S[0] to S[16]. -/
theorem Dev.searchTag_sound (tag : BitVec 12) (d : Dev) : ∀ (ps : List Word) (k : Nat), d.SoundOver ps d.track.fill →
    (∀ p ∈ ps, ∃ r, (d.entry p).record = some r) →
    ((∀ x ∈ (d.recordsOf ps ++ d.track.fill).take (17 - k), x.tag ≠ tag) → Dev.searchTag tag ps k d = (none, d)) ∧
    ∀ lost x rest, d.recordsOf ps ++ d.track.fill = lost ++ x :: rest → k + lost.length ≤ 16 → (∀ y ∈ lost, y.tag ≠ tag) →
      x.tag = tag → Dev.searchTag tag ps k d = (some (k + lost.length, x), d) := by
  intro ps
  induction ps with
  | nil =>
    intro k hb _
    exact Dev.searchFill_sound tag d.track.fill [] k d hb.fill
  | cons p ps ih =>
    intro k hb hr
    obtain ⟨r, e⟩ := hr p List.mem_cons_self
    have br := hb.held p List.mem_cons_self r e
    have recs : d.recordsOf (p :: ps) = r :: d.recordsOf ps := by unfold Dev.recordsOf; rw [List.filterMap_cons, e]
    have hb' : d.SoundOver ps d.track.fill := ⟨fun q hq => hb.held q (List.mem_cons_of_mem _ hq), hb.fill⟩
    have hr' := fun q hq => hr q (List.mem_cons_of_mem _ hq)
    have one : ¬16 < k → Dev.searchTag tag (p :: ps) k d = if r.tag = tag then (some (k, r), d) else Dev.searchTag tag ps (k + 1) d := by
      intro h1
      rw [Dev.searchTag, if_neg h1]
      dsimp only
      rw [Dev.testPocket_sound e br, e]
      simp only [br, true_and]
    rw [recs, List.cons_append]
    refine ⟨fun h => ?_, fun lost x rest h hk hn hx => ?_⟩
    · by_cases h1 : 16 < k
      · rw [Dev.searchTag, if_pos h1]
      · rw [show 17 - k = (17 - (k + 1)) + 1 by omega, List.take_succ_cons] at h
        rw [one h1, if_neg (h r List.mem_cons_self)]
        exact (ih (k + 1) hb' hr').1 fun x hx => h x (List.mem_cons_of_mem _ hx)
    · cases lost with
      | nil =>
        injection h with h1 h2
        subst h1
        rw [one (by simpa using hk), if_pos hx]
        rfl
      | cons y lost =>
        injection h with h1 h2
        subst h1
        rw [List.length_cons] at hk ⊢
        rw [one (by omega), if_neg (hn r List.mem_cons_self)]
        have := (ih (k + 1) hb' hr').2 lost x rest h2 (by omega) (fun z hz => hn z (List.mem_cons_of_mem _ hz)) hx
        rw [this, show k + 1 + lost.length = k + (lost.length + 1) by omega]

/-! ### Movements -/

/-- Only entries of the ring and the fill list differ. -/
def Moved (a d : Dev) : Prop :=
  d = { a with track := { a.track with fill := d.track.fill }, pocket := { a.pocket with ring := d.pocket.ring } }

theorem Moved.refl (d : Dev) : Moved d d := rfl

theorem Moved.trans {a b c : Dev} (h : Moved a b) (k : Moved b c) : Moved a c := by
  unfold Moved at *
  rw [k]
  generalize c.track.fill = x
  generalize c.pocket.ring = y
  rw [h]

theorem Dev.setEntry_moved (d : Dev) (p : Word) (e : Entry) : Moved d (d.setEntry p e) := rfl

theorem Dev.setFillList_moved (d : Dev) (l : List CanRecord) : Moved d (d.setFillList l) := rfl

/-- The entries whose ring index is none of those of `ps` stand. -/
def KeepsOthers (ps : List Word) (a d : Dev) : Prop := ∀ p, (∀ y ∈ ps, ringIx p ≠ ringIx y) → d.entry p = a.entry p

theorem ringIx_ne_of_nodup {p : Word} {ps : List Word} (h : ((p :: ps).map ringIx).Nodup) {y : Word} (m : y ∈ ps) :
    ringIx y ≠ ringIx p := by
  rw [List.map_cons, List.nodup_cons] at h
  exact fun e => h.1 (e ▸ List.mem_map_of_mem m)

theorem Dev.recordsOf_congr {a d : Dev} {ps : List Word} (h : ∀ p ∈ ps, d.entry p = a.entry p) :
    d.recordsOf ps = a.recordsOf ps := by
  unfold Dev.recordsOf
  refine List.filterMap_congr fun p hp => ?_
  rw [h p hp]

/-- The first `k` records of S are freed as LOST, the pockets' first (R12, R86). -/
theorem Dev.freeFront_spec : ∀ (ps : List Word) (k : Nat) (l : List CanRecord) (a d : Dev), (ps.map ringIx).Nodup →
    (∀ p ∈ ps, ∃ r, (d.entry p).record = some r) → k ≤ (d.recordsOf ps ++ d.track.fill).length → FreedAll .lost l a d →
    let t := Dev.freeFront ps k d
    t.track.fill = d.track.fill.drop (k - ps.length) ∧
    (∀ p ∈ ps.take k, t.entry p = { d.entry p with record := none }) ∧ KeepsOthers (ps.take k) d t ∧
    FreedAll .lost (l ++ (d.recordsOf ps ++ d.track.fill).take k) a t ∧ Freed d t := by
  intro ps
  induction ps with
  | nil =>
    intro k
    induction k with
    | zero =>
      intro l a d _ _ _ f
      refine ⟨rfl, fun p h => absurd h List.not_mem_nil, fun _ _ => rfl, ?_, .refl d⟩
      rw [List.take_zero, List.append_nil]; exact f
    | succ k ih =>
      intro l a d hn hr hk f
      cases hf : d.track.fill with
      | nil => rw [hf] at hk; simp [Dev.recordsOf] at hk
      | cons r rest =>
        have e : Dev.freeFront [] (k + 1) d = Dev.freeFront [] k (Dev.freeAs .lost r r.bad (d.setFillList rest)) := by
          rw [Dev.freeFront, hf]
        have rel := Dev.freeAs_released .lost r r.bad (d.setFillList rest)
        have fl : (Dev.freeAs .lost r r.bad (d.setFillList rest)).track.fill = rest := rel.list
        have en : ∀ p, (Dev.freeAs .lost r r.bad (d.setFillList rest)).entry p = d.entry p :=
          fun p => congrArg (fun u : PocketUnit => u.ring.get (ringIx p)) rel.ring
        have := ih (l ++ [r]) a (Dev.freeAs .lost r r.bad (d.setFillList rest)) List.nodup_nil
          (fun p h => absurd h List.not_mem_nil) (by rw [fl]; rw [hf] at hk; simpa [Dev.recordsOf] using hk)
          (f.snoc (d' := d.setFillList rest) rfl rfl rfl rfl)
        dsimp only at this ⊢
        rw [e]
        rw [fl] at this
        refine ⟨?_, fun p h => absurd h List.not_mem_nil, fun p _ => (this.2.2.1 p (fun y h => by rw [List.take_nil] at h; exact absurd h List.not_mem_nil)).trans (en p), ?_,
          Freed.trans (b := d.setFillList rest) ⟨rfl, rfl, rfl, rfl, rfl, rfl, rfl, rfl, rfl, rfl, rfl, rfl, rfl, fun _ => rfl⟩
            (rel.toFreed.trans this.2.2.2.2)⟩
        · rw [this.1]; rfl
        · have g := this.2.2.2.1
          rw [List.append_assoc] at g
          exact g
  | cons p ps ih =>
    intro k l a d hn hr hk f
    cases k with
    | zero =>
      refine ⟨by rw [Nat.zero_sub]; rfl, fun p h => absurd h List.not_mem_nil, fun _ _ => rfl, ?_, .refl d⟩
      rw [List.take_zero, List.append_nil]; exact f
    | succ k =>
      obtain ⟨r, hp⟩ := hr p List.mem_cons_self
      have e : Dev.freeFront (p :: ps) (k + 1) d =
          Dev.freeFront ps k (Dev.freeAs .lost r r.bad (d.setEntry p { d.entry p with record := none })) := by
        rw [Dev.freeFront, hp]
      obtain ⟨u, hu⟩ : ∃ u, u = Dev.freeAs .lost r r.bad (d.setEntry p { d.entry p with record := none }) := ⟨_, rfl⟩
      have rel := Dev.freeAs_released .lost r r.bad (d.setEntry p { d.entry p with record := none })
      have g := f.snoc (d' := d.setEntry p { d.entry p with record := none }) (r := r) rfl rfl rfl rfl
      rw [← hu] at rel g e
      have en : ∀ q, u.entry q = (d.setEntry p { d.entry p with record := none }).entry q :=
        fun q => congrArg (fun u : PocketUnit => u.ring.get (ringIx q)) rel.ring
      have eo : ∀ q, ringIx q ≠ ringIx p → u.entry q = d.entry q := fun q h => (en q).trans (Dev.entry_setEntry_ne d _ h)
      have es : ∀ q ∈ ps, u.entry q = d.entry q := fun q hq => eo q (ringIx_ne_of_nodup hn hq)
      have ro : u.recordsOf ps = d.recordsOf ps := Dev.recordsOf_congr es
      have fl : u.track.fill = d.track.fill := rel.list
      have rc : d.recordsOf (p :: ps) = r :: d.recordsOf ps := by unfold Dev.recordsOf; rw [List.filterMap_cons, hp]
      have := ih k (l ++ [r]) a u (List.nodup_cons.1 hn).2 (fun q hq => by rw [es q hq]; exact hr q (List.mem_cons_of_mem _ hq))
        (by rw [ro, fl]; rw [rc] at hk; simpa using hk) g
      dsimp only at this ⊢
      rw [e]
      obtain ⟨t, ht⟩ : ∃ t, t = Dev.freeFront ps k u := ⟨_, rfl⟩
      rw [← ht] at this ⊢
      obtain ⟨t1, t2, t3, t4, t5⟩ := this
      have pn : ∀ y ∈ ps.take k, ringIx p ≠ ringIx y := fun y hy => (ringIx_ne_of_nodup hn (List.mem_of_mem_take hy)).symm
      refine ⟨?_, ?_, ?_, ?_, ?_⟩
      · rw [t1, fl]; congr 1; rw [List.length_cons]; omega
      · intro q hq
        rw [List.take_succ_cons] at hq
        rcases List.mem_cons.1 hq with rfl | hq
        · rw [t3 q pn, en q, Dev.entry_setEntry]
        · rw [t2 q hq, es q (List.mem_of_mem_take hq)]
      · intro q hq
        rw [List.take_succ_cons] at hq
        rw [t3 q fun y hy => hq y (List.mem_cons_of_mem _ hy)]
        exact eo q (hq p List.mem_cons_self)
      · rw [rc, List.cons_append, List.take_succ_cons]
        rw [ro, fl, List.append_assoc] at t4
        exact t4
      · exact Freed.trans (Dev.setEntry_freed d p { d.entry p with record := none } rfl) (rel.toFreed.trans t5)

/-- The records dealt to the pockets of Q in order; the fill list keeps the rest (R12, R86). Only records move. -/
theorem Dev.deal_spec : ∀ (ps ss : List Word) (d : Dev), (ps.map ringIx).Nodup → ss.Sublist ps →
    (∀ p ∈ ss, ∃ r, (d.entry p).record = some r) → d.SoundOver ss d.track.fill →
    let t := Dev.deal ps ss d
    let recs := d.recordsOf ss ++ d.track.fill
    t.track.fill = recs.drop ps.length ∧
    (∀ (n : Nat) (p : Word), ps[n]? = some p → t.entry p = { d.entry p with record := recs[n]? }) ∧
    KeepsOthers ps d t ∧ Moved d t := by
  intro ps
  induction ps with
  | nil =>
    intro ss d _ sub _ _
    rw [List.sublist_nil] at sub
    subst sub
    refine ⟨rfl, ?_, fun _ _ => rfl, .refl d⟩
    intro n p h
    rw [List.getElem?_nil] at h; cases h
  | cons p ps ih =>
    intro ss d hn sub hr hb
    have hn' := (List.nodup_cons.1 hn).2
    have far : ∀ y ∈ ps, ringIx y ≠ ringIx p := fun y hy => ringIx_ne_of_nodup hn hy
    -- from a machine `u` in which only entry `p` and the fill list have changed, the tail goes on
    have go : ∀ (ss : List Word) (x : Option CanRecord) (u : Dev) (T : List CanRecord), Moved d u → ss.Sublist ps →
        (∀ q ∈ ss, ∃ r, (u.entry q).record = some r) → u.SoundOver ss u.track.fill →
        u.entry p = { d.entry p with record := x } →
        (∀ q ∈ ps, { u.entry q with record := none } = { d.entry q with record := none }) →
        (∀ q, (∀ y ∈ p :: ps, ringIx q ≠ ringIx y) → u.entry q = d.entry q) →
        u.recordsOf ss ++ u.track.fill = T.drop 1 → x = T[0]? →
        let t := Dev.deal ps ss u
        t.track.fill = T.drop (ps.length + 1) ∧
        (∀ (n : Nat) (q : Word), (p :: ps)[n]? = some q → t.entry q = { d.entry q with record := T[n]? }) ∧
        KeepsOthers (p :: ps) d t ∧ Moved d t := by
      intro ss x u T mv sub hr hb ep et eo hT hx
      have h := ih ss u hn' sub hr hb
      dsimp only at h ⊢
      obtain ⟨t, ht⟩ : ∃ t, t = Dev.deal ps ss u := ⟨_, rfl⟩
      rw [← ht] at h ⊢
      obtain ⟨t1, t2, t3, t4⟩ := h
      rw [hT] at t1 t2
      refine ⟨?_, ?_, ?_, mv.trans t4⟩
      · rw [t1, List.drop_drop, Nat.add_comm]
      · intro n q hq
        cases n with
        | zero =>
          rw [List.getElem?_cons_zero] at hq
          injection hq with hq
          subst hq
          rw [t3 p fun y hy => (far y hy).symm, ep, hx]
        | succ n =>
          rw [List.getElem?_cons_succ] at hq
          have m : q ∈ ps := List.mem_of_getElem? hq
          rw [t2 n q hq, List.getElem?_drop, Nat.add_comm]
          have := et q m
          exact congrArg (fun e : Entry => { e with record := T[n + 1]? }) this
      · intro q hq
        rw [t3 q fun y hy => hq y (List.mem_cons_of_mem _ hy)]
        exact eo q hq
    cases ss with
    | nil =>
      rw [Dev.deal]
      dsimp only
      cases hf : d.track.fill with
      | nil =>
        refine go [] none (Dev.setEntry (d.setFillList []) p { (d.setFillList []).entry p with record := none }) [] rfl
          (List.nil_sublist _) (fun q h => absurd h List.not_mem_nil) ⟨fun q h => absurd h List.not_mem_nil, fun r h => absurd h List.not_mem_nil⟩
          (Dev.entry_setEntry _ _ _) ?_ ?_ rfl rfl
        · intro q hq
          rw [Dev.entry_setEntry_ne _ _ (far q hq)]; rfl
        · intro q hq
          exact Dev.entry_setEntry_ne _ _ (hq p List.mem_cons_self)
      | cons r rest =>
        have br : r.bad = false := hb.fill r (by rw [hf]; exact List.mem_cons_self)
        rw [Dev.takeHead_sound br]
        refine go [] (some r) (Dev.setEntry (d.setFillList rest) p { (d.setFillList rest).entry p with record := some r }) (r :: rest) rfl
          (List.nil_sublist _) (fun q h => absurd h List.not_mem_nil) ⟨fun q h => absurd h List.not_mem_nil, fun x h => ?_⟩
          (Dev.entry_setEntry _ _ _) ?_ ?_ rfl rfl
        · exact hb.fill x (by rw [hf]; exact List.mem_cons_of_mem _ h)
        · intro q hq
          rw [Dev.entry_setEntry_ne _ _ (far q hq)]; rfl
        · intro q hq
          exact Dev.entry_setEntry_ne _ _ (hq p List.mem_cons_self)
    | cons z ss =>
      obtain ⟨r, hz⟩ := hr z List.mem_cons_self
      have br := hb.held z List.mem_cons_self r hz
      have subs : ss.Sublist ps := by
        cases sub with
        | cons _ h => exact (List.sublist_cons_self z ss).trans h
        | cons_cons _ h => exact h
      have zin : z = p ∨ z ∈ ps := List.mem_cons.1 (sub.subset List.mem_cons_self)
      have nd : ((z :: ss).map ringIx).Nodup := List.Nodup.sublist (sub.map ringIx) hn
      have zfar : ∀ y ∈ ss, ringIx y ≠ ringIx z := fun y hy => ringIx_ne_of_nodup nd hy
      rw [Dev.deal]
      dsimp only
      rw [Dev.testPocket_sound hz br, hz]
      obtain ⟨v, hv⟩ : ∃ v, v = d.setEntry z { d.entry z with record := none } := ⟨_, rfl⟩
      rw [← hv]
      have vz : ∀ q, ringIx q ≠ ringIx z → v.entry q = d.entry q := fun q h => by rw [hv]; exact Dev.entry_setEntry_ne d _ h
      have vr : ∀ q, { v.entry q with record := none } = { d.entry q with record := none } := by
        intro q
        by_cases h : ringIx q = ringIx z
        · have e1 : v.entry q = v.entry z := congrArg (fun i => v.pocket.ring.get i) h
          have e2 : d.entry q = d.entry z := congrArg (fun i => d.pocket.ring.get i) h
          rw [e1, e2, hv, Dev.entry_setEntry]
        · rw [vz q h]
      have wx : ∀ q, ringIx q ≠ ringIx p → (v.setEntry p { v.entry p with record := some r }).entry q = v.entry q :=
        fun q h => Dev.entry_setEntry_ne v _ h
      have ws : ∀ q ∈ ss, (v.setEntry p { v.entry p with record := some r }).entry q = d.entry q := by
        intro q hq
        rw [wx q (far q (subs.subset hq)), vz q (zfar q hq)]
      have vf : v.track.fill = d.track.fill := by rw [hv]; rfl
      refine go ss (some r) (v.setEntry p { v.entry p with record := some r }) (d.recordsOf (z :: ss) ++ d.track.fill) ?_ subs
        (fun q hq => by rw [ws q hq]; exact hr q (List.mem_cons_of_mem _ hq)) ⟨fun q hq x hx => ?_, fun x hx => ?_⟩ ?_ ?_ ?_ ?_ ?_
      · have h1 : Moved d v := by rw [hv]; rfl
        exact h1.trans (Dev.setEntry_moved v p _)
      · rw [ws q hq] at hx; exact hb.held q (List.mem_cons_of_mem _ hq) x hx
      · exact hb.fill x (by rw [← vf]; exact hx)
      · rw [Dev.entry_setEntry]
        exact congrArg (fun e : Entry => { e with record := some r }) (vr p)
      · intro q hq
        rw [wx q (far q hq)]; exact vr q
      · intro q hq
        rw [wx q (hq p List.mem_cons_self)]
        refine vz q ?_
        rcases zin with e | m
        · rw [e]; exact hq p List.mem_cons_self
        · exact hq z (List.mem_cons_of_mem _ m)
      · have rc : d.recordsOf (z :: ss) = r :: d.recordsOf ss := by unfold Dev.recordsOf; rw [List.filterMap_cons, hz]
        rw [rc, Dev.recordsOf_congr ws, List.cons_append, List.drop_succ_cons, List.drop_zero]
        exact congrArg _ vf
      · have rc : d.recordsOf (z :: ss) = r :: d.recordsOf ss := by unfold Dev.recordsOf; rw [List.filterMap_cons, hz]
        rw [rc]; rfl

/-- Every record goes one pocket on; the first pocket takes `r`, and what the last held is left over (R87). -/
theorem Dev.pushOn_spec : ∀ (ps : List Word) (r : Option CanRecord) (d : Dev), (ps.map ringIx).Nodup →
    let t := Dev.pushOn ps r d
    (∀ p, ps.getLast? = some p → t.1 = (d.entry p).record) ∧
    (∀ (n : Nat) (p : Word), ps[n]? = some p →
      t.2.entry p = { d.entry p with record := if n = 0 then r else (ps[n - 1]?).bind fun q => (d.entry q).record }) ∧
    KeepsOthers ps d t.2 ∧ Moved d t.2 ∧ t.2.track = d.track := by
  intro ps
  induction ps with
  | nil =>
    intro r d _
    refine ⟨?_, ?_, fun _ _ => rfl, .refl d, rfl⟩
    · intro p h; cases h
    · intro n p h; rw [List.getElem?_nil] at h; cases h
  | cons p ps ih =>
    intro r d hn
    have far : ∀ y ∈ ps, ringIx y ≠ ringIx p := fun y hy => ringIx_ne_of_nodup hn hy
    obtain ⟨u, hu⟩ : ∃ u, u = d.setEntry p { d.entry p with record := r } := ⟨_, rfl⟩
    have e : Dev.pushOn (p :: ps) r d = Dev.pushOn ps (d.entry p).record u := by rw [Dev.pushOn, hu]
    have up : u.entry p = { d.entry p with record := r } := by rw [hu]; exact Dev.entry_setEntry _ _ _
    have uo : ∀ q, ringIx q ≠ ringIx p → u.entry q = d.entry q := fun q h => by rw [hu]; exact Dev.entry_setEntry_ne d _ h
    have h := ih (d.entry p).record u (List.nodup_cons.1 hn).2
    dsimp only at h ⊢
    rw [e]
    obtain ⟨t, ht⟩ : ∃ t, t = Dev.pushOn ps (d.entry p).record u := ⟨_, rfl⟩
    have ht0 := ht
    rw [← ht] at h ⊢
    obtain ⟨t1, t2, t3, t4, t5⟩ := h
    refine ⟨?_, ?_, ?_, Moved.trans (b := u) (by rw [hu]; rfl) t4, by rw [t5, hu]; rfl⟩
    · intro q hq
      cases ps with
      | nil =>
        injection hq with hq
        subst hq
        rw [ht0]; rfl
      | cons y ys =>
        rw [List.getLast?_cons_cons] at hq
        rw [t1 q hq, uo q (far q (List.mem_of_getLast? hq))]
    · intro n q hq
      cases n with
      | zero =>
        injection hq with hq
        subst hq
        rw [t3 p fun y hy => (far y hy).symm, up, if_pos rfl]
      | succ n =>
        rw [List.getElem?_cons_succ] at hq
        rw [t2 n q hq, uo q (far q (List.mem_of_getElem? hq))]
        cases n with
        | zero => rfl
        | succ n =>
          have : ((ps[n]?).bind fun q => (u.entry q).record) = (ps[n]?).bind fun q => (d.entry q).record := by
            cases g : ps[n]? with
            | none => rfl
            | some y => simp only [Option.bind_some]; rw [uo y (far y (List.mem_of_getElem? g))]
          exact congrArg (fun x => { d.entry q with record := x }) this
    · intro q hq
      rw [t3 q fun y hy => hq y (List.mem_cons_of_mem _ hy)]
      exact uo q (hq p List.mem_cons_self)

theorem Dev.reformNet_congr {a d : Dev} (h1 : d.order = a.order) (h2 : d.draws = a.draws) (e : Entry) :
    d.reformNet e = a.reformNet e := by
  unfold Dev.reformNet Dev.tareFor Dev.recipeOf Dev.currentRecipe Dev.currentSlot Dev.slotIn Dev.slot
  rw [h1, h2]
  have : d.recipeOf = a.recipeOf := by funext k; unfold Dev.recipeOf Dev.slot; rw [h1, h2]
  rw [this]

theorem Dev.reformNet_record (d : Dev) (e : Entry) : (d.reformNet e).record = e.record := by
  unfold Dev.reformNet
  split
  · split <;> rfl
  · rfl

/-- The nets of the pockets of Q whose record changed are formed again (R70). -/
theorem Dev.reformMoved_spec (old : Dev) : ∀ (q : List Word) (d : Dev), (q.map ringIx).Nodup →
    let t := Dev.reformMoved q old d
    (∀ p ∈ q, t.entry p = if d.slotAt p = old.slotAt p then d.entry p else d.reformNet (d.entry p)) ∧
    KeepsOthers q d t ∧ Moved d t ∧ t.track = d.track := by
  intro q
  induction q with
  | nil => intro d _; exact ⟨fun p h => absurd h List.not_mem_nil, fun _ _ => rfl, .refl d, rfl⟩
  | cons p q ih =>
    intro d hn
    have far : ∀ y ∈ q, ringIx y ≠ ringIx p := fun y hy => ringIx_ne_of_nodup hn hy
    obtain ⟨u, hu⟩ : ∃ u, u = if d.slotAt p = old.slotAt p then d else d.setEntry p (d.reformNet (d.entry p)) := ⟨_, rfl⟩
    have e : Dev.reformMoved (p :: q) old d = Dev.reformMoved q old u := by
      unfold Dev.reformMoved; rw [List.foldl_cons, hu]
    have up : u.entry p = if d.slotAt p = old.slotAt p then d.entry p else d.reformNet (d.entry p) := by
      rw [hu]; split
      · rfl
      · exact Dev.entry_setEntry _ _ _
    have uo : ∀ y, ringIx y ≠ ringIx p → u.entry y = d.entry y := by
      intro y h; rw [hu]; split
      · rfl
      · exact Dev.entry_setEntry_ne d _ h
    have um : Moved d u := by rw [hu]; split <;> rfl
    have ut : u.track = d.track := by rw [hu]; split <;> rfl
    have h := ih u (List.nodup_cons.1 hn).2
    dsimp only at h ⊢
    rw [e]
    obtain ⟨t, ht⟩ : ∃ t, t = Dev.reformMoved q old u := ⟨_, rfl⟩
    rw [← ht] at h ⊢
    obtain ⟨t1, t2, t3, t4⟩ := h
    refine ⟨?_, ?_, um.trans t3, t4.trans ut⟩
    · intro y hy
      rcases List.mem_cons.1 hy with rfl | hy
      · rw [t2 y fun z hz => (far z hz).symm, up]
      · have : u.slotAt y = d.slotAt y := by unfold Dev.slotAt; rw [uo y (far y hy)]
        rw [t1 y hy, uo y (far y hy), this, Dev.reformNet_congr (a := d) (by rw [um]) (by rw [um])]
    · intro y hy
      rw [t2 y fun z hz => hy z (List.mem_cons_of_mem _ hz)]
      exact uo y (hy p List.mem_cons_self)

/-- A switch forms the nets of the bare pockets again and leaves every other entry (R70). -/
theorem Dev.reformBare_entry (d : Dev) (p : Word) :
    d.reformBare.entry p = if (d.entry p).record = none then d.reformNet (d.entry p) else d.entry p := by
  have step : ∀ (l : List Nat) (u : Dev), (l.map fun i => ringIx (BitVec.ofNat 32 i)).Nodup → u.order = d.order → u.draws = d.draws →
      (l.foldl (fun d i =>
        let p : Word := BitVec.ofNat 32 i
        let e := d.entry p
        if e.record = none then d.setEntry p (d.reformNet e) else d) u).entry p =
      if (∃ i ∈ l, ringIx p = ringIx (BitVec.ofNat 32 i)) ∧ (u.entry p).record = none then d.reformNet (u.entry p) else u.entry p := by
    intro l
    induction l with
    | nil => intro u _ _ _; rw [if_neg (by simp)]; rfl
    | cons i l ih =>
      intro u hn ho hd
      rw [List.map_cons, List.nodup_cons] at hn
      rw [List.foldl_cons]
      dsimp only
      have other : ∀ j ∈ l, ringIx (BitVec.ofNat 32 j) ≠ ringIx (BitVec.ofNat 32 i) :=
        fun j hj e => hn.1 (e ▸ List.mem_map_of_mem (f := fun i => ringIx (BitVec.ofNat 32 i)) hj)
      by_cases hp : ringIx p = ringIx (BitVec.ofNat 32 i)
      · have no : ¬((∃ j ∈ l, ringIx p = ringIx (BitVec.ofNat 32 j))) := by
          rintro ⟨j, hj, e⟩; exact other j hj (e.symm.trans hp)
        have he : u.entry p = u.entry (BitVec.ofNat 32 i) := congrArg (fun x => u.pocket.ring.get x) hp
        have yes : ∃ j ∈ i :: l, ringIx p = ringIx (BitVec.ofNat 32 j) := ⟨i, List.mem_cons_self, hp⟩
        by_cases hr : (u.entry (BitVec.ofNat 32 i)).record = none
        · rw [if_pos hr, ih (u.setEntry _ _) hn.2 ho hd, if_neg (fun x => no x.1), if_pos ⟨yes, by rw [he]; exact hr⟩,
            Dev.entry_setEntry_ite, if_pos hp, he]
          exact Dev.reformNet_congr ho hd _
        · rw [if_neg hr, ih u hn.2 ho hd, if_neg (fun x => no x.1), if_neg (fun x => hr (he ▸ x.2))]
      · have same : (∃ j ∈ i :: l, ringIx p = ringIx (BitVec.ofNat 32 j)) ↔ ∃ j ∈ l, ringIx p = ringIx (BitVec.ofNat 32 j) := by
          simp [hp]
        have keep : ∀ e, (u.setEntry (BitVec.ofNat 32 i) e).entry p = u.entry p := fun e => by
          rw [Dev.entry_setEntry_ite, if_neg hp]
        simp only [same]
        split
        · rw [ih (u.setEntry _ _) hn.2 ho hd, keep]
        · exact ih u hn.2 ho hd
  have all : ∃ i ∈ List.range 64, ringIx p = ringIx (BitVec.ofNat 32 i) := by
    refine ⟨p.toNat % 64, List.mem_range.2 (Nat.mod_lt _ (by decide)), ?_⟩
    apply Fin.ext
    show p.toNat % 64 = (BitVec.ofNat 32 (p.toNat % 64)).toNat % 64
    rw [BitVec.toNat_ofNat]; omega
  have nd : ((List.range 64).map fun i => ringIx (BitVec.ofNat 32 i)).Nodup := by
    refine List.Nodup.map_on ?_ List.nodup_range
    intro x hx y hy e
    rw [List.mem_range] at hx hy
    have := congrArg Fin.val e
    simp only [ringIx, BitVec.toNat_ofNat] at this
    omega
  refine (step (List.range 64) d nd rfl rfl).trans ?_
  simp only [all, true_and]

end Sys2Proof.Machine
end

