-- ==== Sys2Proof/Laws/Kept.lean ====
section
/-! SUPPORT. The laws of the device of Safety.lean: what of the part they rest on, the records of the ring as a list,
and the books through the creation, the movement and the freeing of a record. -/

namespace Sys2Proof.Machine

variable {a b d : Dev} {p q : Word} {l : List CanRecord} {m n : Nat}

/-! ### What the laws rest on -/

/-- The part of the device that the laws and the orders speak of. -/
structure LawView where
  track    : Track
  ring     : Vector Entry 64
  pos      : Option Position
  slots    : Vector RecipeSlot 4
  loader   : Option Loader
  recs     : Vector ValveRec 64
  setup    : Option Setup
  part     : PartState
  seq      : Word
  memsize  : Nat
  upstream : List Held

def Dev.view (d : Dev) : LawView :=
  { track := d.track, ring := d.pocket.ring, pos := d.pocket.pos, slots := d.order.slots, loader := d.order.loader,
    recs := d.valve.recs, setup := d.setup.setup, part := d.setup.part, seq := d.fill.seq, memsize := d.path.memsize,
    upstream := d.path.upstream }

/-- A device with the given view. -/
def LawView.dev (v : LawView) : Dev :=
  let d := Dev.powerOn 0 v.memsize false v.upstream
  { d with track := v.track, pocket := { d.pocket with ring := v.ring, pos := v.pos },
           order := { d.order with slots := v.slots, loader := v.loader }, valve := { d.valve with recs := v.recs },
           setup := { d.setup with setup := v.setup, part := v.part }, fill := { d.fill with seq := v.seq } }

theorem Dev.Books.congr (h : a.Books l) (e1 : d.track = a.track) (e2 : d.order.slots = a.order.slots) : d.Books l := by
  refine ⟨by rw [e1]; exact h.pool, fun k => ?_, by rw [e1]; exact h.suspects, h.sound⟩
  unfold Dev.slot; rw [e2]; exact h.members k

theorem Dev.LawsAt.view (h : d.LawsAt p) : d.view.dev.LawsAt p :=
  ⟨⟨h.books.pool, h.books.members, h.books.suspects, h.books.sound⟩, h.pockets,
    ⟨h.table.empty, h.table.taught, h.table.one, h.table.loader, h.table.trims, h.table.untaught⟩,
    ⟨h.setup.valid, h.setup.ready, h.setup.placed, h.setup.empty⟩,
    ⟨h.port.waiting, h.port.idle, h.port.kind, h.port.slots⟩⟩

theorem Dev.LawsAt.ofView (h : d.view.dev.LawsAt p) : d.LawsAt p :=
  ⟨⟨h.books.pool, h.books.members, h.books.suspects, h.books.sound⟩, h.pockets,
    ⟨h.table.empty, h.table.taught, h.table.one, h.table.loader, h.table.trims, h.table.untaught⟩,
    ⟨h.setup.valid, h.setup.ready, h.setup.placed, h.setup.empty⟩,
    ⟨h.port.waiting, h.port.idle, h.port.kind, h.port.slots⟩⟩

theorem Dev.LawsAt.congr (h : a.LawsAt p) (e : d.view = a.view) : d.LawsAt p :=
  Dev.LawsAt.ofView (by rw [e]; exact h.view)

/-- The orders of R10 with `p` as the scale pocket, no live record being `n` numbers old. -/
def Dev.OrdAt (p : Word) (n : Nat) (d : Dev) : Prop :=
  ((d.liveAt p).Pairwise fun a b => 0 < (b.seq - a.seq).toInt) ∧
  ∀ r ∈ d.liveAt p, 0 < (d.fill.seq - r.seq).toNat ∧ (d.fill.seq - r.seq).toNat < n

theorem Dev.OrdAt.congr (h : a.OrdAt p n) (e : d.view = a.view) : d.OrdAt p n := by
  have k : ∀ x : Dev, x.OrdAt p n ↔ x.view.dev.OrdAt p n := fun x => Iff.rfl
  rw [k, e, ← k]; exact h

/-- The laws are kept, and so are the orders, at most `m` numbers being given out; the scale pocket is `p` before
and `q` after. -/
def Keeps (m : Nat) (p q : Word) (a d : Dev) : Prop :=
  a.LawsAt p → d.LawsAt q ∧ ∀ n, n + m ≤ 2 ^ 31 → a.OrdAt p n → d.OrdAt q (n + m)

theorem Keeps.same (e : d.view = a.view) : Keeps 0 p p a d :=
  fun h => ⟨h.congr e, fun _ _ k => k.congr e⟩

theorem Keeps.refl : Keeps 0 p p d d := Keeps.same rfl

theorem Keeps.trans {m' : Nat} {r : Word} (h : Keeps m p q a b) (k : Keeps m' q r b d) : Keeps (m + m') p r a d := by
  intro x
  obtain ⟨y, f⟩ := h x
  obtain ⟨z, g⟩ := k y
  exact ⟨z, fun n hn o => by rw [← Nat.add_assoc]; exact g (n + m) (by omega) (f n (by omega) o)⟩

theorem Keeps.mono {m' : Nat} (h : Keeps m p q a d) (k : m ≤ m') : Keeps m' p q a d := by
  intro x
  obtain ⟨y, f⟩ := h x
  exact ⟨y, fun n hn o => ⟨(f n (by omega) o).1, fun r hr => ⟨((f n (by omega) o).2 r hr).1, by have := ((f n (by omega) o).2 r hr).2; omega⟩⟩⟩

/-- A step that keeps the view after one that keeps the laws. -/
theorem Keeps.thenSame (h : Keeps m p q a b) (e : d.view = b.view) : Keeps m p q a d := h.trans (Keeps.same e)

/-- The orders outlast records that leave, and fields other than the number that change. -/
theorem Dev.OrdAt.thin (h : a.OrdAt p n) (s : ((d.liveAt q).map fun r => r.seq).Sublist ((a.liveAt p).map fun r => r.seq))
    (e : d.fill.seq = a.fill.seq) : d.OrdAt q n := by
  obtain ⟨h1, h2⟩ := h
  have k : ((a.liveAt p).map fun r => r.seq).Pairwise fun x y : Word => 0 < (y - x).toInt := by
    rw [List.pairwise_map]; exact h1
  refine ⟨?_, fun r hr => ?_⟩
  · have := k.sublist s
    rw [List.pairwise_map] at this; exact this
  · obtain ⟨r', hr', e'⟩ := List.mem_map.1 (s.subset (List.mem_map_of_mem hr))
    have := h2 r' hr'
    rw [e, ← e']; exact this

theorem Keeps.thin (l : a.LawsAt p → d.LawsAt q)
    (s : a.LawsAt p → ((d.liveAt q).map fun r => r.seq).Sublist ((a.liveAt p).map fun r => r.seq)) (e : d.fill.seq = a.fill.seq) :
    Keeps 0 p q a d := fun h => ⟨l h, fun _ _ k => k.thin (s h) e⟩

theorem Dev.Ordered.at (h : d.Ordered) (k : d.Recent n) : d.OrdAt (d.pocketNow.getD 0) n := by
  refine ⟨h.numbers, fun r hr => ⟨?_, k r hr⟩⟩
  have := h.counter r hr
  rw [BitVec.toInt_eq_toNat_cond] at this
  split at this <;> omega

theorem Dev.OrdAt.ordered (h : d.OrdAt (d.pocketNow.getD 0) n) (hn : n ≤ 2 ^ 31) : d.Ordered := by
  refine ⟨h.1, fun r hr => ?_⟩
  have := h.2 r hr
  rw [BitVec.toInt_eq_toNat_cond, if_pos (by omega)]
  omega

/-! ### The records of the ring -/

theorem ringFrom_nodup (p : Word) : ((ringFrom p).map ringIx).Nodup := by
  unfold ringFrom
  rw [List.map_map]
  refine List.Nodup.map_on ?_ List.nodup_range
  intro x hx y hy e
  rw [List.mem_range] at hx hy
  have := congrArg Fin.val e
  simp only [Function.comp, ringIx, BitVec.toNat_add, BitVec.toNat_ofNat] at this
  omega

theorem ringFrom_all (p q : Word) : ∃ w ∈ ringFrom p, ringIx w = ringIx q := by
  refine ⟨p - 63#32 + BitVec.ofNat 32 ((q.toNat + 64 - (p - 63#32).toNat % 64) % 64), ?_, ?_⟩
  · exact List.mem_map.mpr ⟨_, List.mem_range.mpr (Nat.mod_lt _ (by decide)), rfl⟩
  · apply Fin.ext
    show (p - 63#32 + _).toNat % 64 = q.toNat % 64
    rw [BitVec.toNat_add, BitVec.toNat_ofNat]
    omega

/-- The ring from the oldest pocket to `p`, cut at the pocket that stands at the index of `q`. -/
theorem ringFrom_split (p q : Word) : ∃ pre w post, ringFrom p = pre ++ w :: post ∧ ringIx w = ringIx q ∧
    (∀ x ∈ pre, ringIx x ≠ ringIx q) ∧ ∀ x ∈ post, ringIx x ≠ ringIx q := by
  obtain ⟨w, hw, e⟩ := ringFrom_all p q
  obtain ⟨pre, post, hs⟩ := List.append_of_mem hw
  have nd := ringFrom_nodup p
  rw [hs, List.map_append, List.map_cons] at nd
  have nd := (List.nodup_middle.1 nd)
  rw [List.nodup_cons, List.mem_append] at nd
  refine ⟨pre, w, post, hs, e, fun x hx k => nd.1 (.inl ?_), fun x hx k => nd.1 (.inr ?_)⟩
  · rw [e, ← k]; exact List.mem_map_of_mem hx
  · rw [e, ← k]; exact List.mem_map_of_mem hx

theorem Dev.entry_ix (d : Dev) (h : ringIx p = ringIx q) : d.entry p = d.entry q := by
  unfold Dev.entry; rw [h]

/-- The live records with the entry of pocket `q` picked out: another entry there changes its record alone. -/
theorem Dev.liveAt_entry (p q : Word) (d : Dev) : ∃ A B, d.liveAt p = A ++ (d.entry q).record.toList ++ B ∧
    ∀ e, (d.setEntry q e).liveAt p = A ++ e.record.toList ++ B := by
  obtain ⟨pre, w, post, hs, hw, h1, h2⟩ := ringFrom_split p q
  have out : ∀ (ls : List Word) (e : Entry), (∀ x ∈ ls, ringIx x ≠ ringIx q) →
      (ls.filterMap fun x => ((d.setEntry q e).entry x).record) = ls.filterMap fun x => (d.entry x).record :=
    fun ls e h => List.filterMap_congr fun x hx => by rw [Dev.entry_setEntry_ne d e (h x hx)]
  have one : ∀ o : Option CanRecord, ∀ rest : List CanRecord, (match o with | none => rest | some r => r :: rest) = o.toList ++ rest := by
    intro o rest; cases o <;> rfl
  refine ⟨pre.filterMap fun x => (d.entry x).record, (post.filterMap fun x => (d.entry x).record) ++ d.track.fill, ?_, fun e => ?_⟩
  · unfold Dev.liveAt
    rw [hs, List.filterMap_append, List.filterMap_cons, Dev.entry_ix d hw]
    cases (d.entry q).record <;> simp
  · unfold Dev.liveAt
    rw [hs, List.filterMap_append, List.filterMap_cons, Dev.entry_ix _ hw, Dev.entry_setEntry, out pre e h1, out post e h2]
    cases e.record <;> simp [Dev.setEntry]

/-- An entry replaced by one with the same record. -/
theorem Dev.liveAt_setEntry_same (p q : Word) (d : Dev) {e : Entry} (h : e.record = (d.entry q).record) :
    (d.setEntry q e).liveAt p = d.liveAt p := by
  obtain ⟨A, B, h1, h2⟩ := d.liveAt_entry p q
  rw [h1, h2, h]

/-- The record of pocket `q` taken out. -/
theorem Dev.liveAt_taken (p : Word) {e : Entry} {r : CanRecord} (h : (d.entry q).record = some r) (he : e.record = none) :
    (d.liveAt p).Perm (r :: (d.setEntry q e).liveAt p) ∧ ((d.setEntry q e).liveAt p).Sublist (d.liveAt p) := by
  obtain ⟨A, B, h1, h2⟩ := d.liveAt_entry p q
  rw [h1, h2, h, he]
  simp only [Option.toList_some, Option.toList_none, List.append_nil, List.append_assoc, List.singleton_append]
  exact ⟨List.perm_middle, List.Sublist.append_left (List.sublist_cons_self r B) A⟩

theorem Dev.liveAt_congr (h1 : d.pocket.ring = a.pocket.ring) (h2 : d.track.fill = a.track.fill) : d.liveAt p = a.liveAt p := by
  unfold Dev.liveAt Dev.entry; rw [h1, h2]

/-- The newest pocket is the last of the ring. -/
theorem ringFrom_last (p : Word) : ∃ pre, ringFrom p = pre ++ [p] ∧ ∀ x ∈ pre, ringIx x ≠ ringIx p := by
  have e : ringFrom p = ((List.range 63).map fun i => p - 63#32 + BitVec.ofNat 32 i) ++ [p] := by
    unfold ringFrom
    rw [List.range_succ, List.map_append, List.map_singleton]
    rw [show p - 63#32 + BitVec.ofNat 32 63 = p from BitVec.sub_add_cancel p 63#32]
  have nd := ringFrom_nodup p
  rw [e, List.map_append, List.map_singleton] at nd
  refine ⟨_, e, fun x hx k => ?_⟩
  exact (List.disjoint_of_nodup_append nd) (List.mem_map_of_mem hx) (by rw [List.mem_singleton]; exact k)

/-- The live records with the scale pocket picked out, the last before the fill list. -/
theorem Dev.liveAt_newest (p : Word) (d : Dev) : ∃ A, d.liveAt p = A ++ (d.entry p).record.toList ++ d.track.fill ∧
    ∀ e f, ((d.setFillList f).setEntry p e).liveAt p = A ++ e.record.toList ++ f := by
  obtain ⟨pre, hs, h⟩ := ringFrom_last p
  refine ⟨pre.filterMap fun x => (d.entry x).record, ?_, fun e f => ?_⟩
  · unfold Dev.liveAt
    rw [hs, List.filterMap_append]
    congr 2
  · unfold Dev.liveAt
    rw [hs, List.filterMap_append]
    have out : (pre.filterMap fun x => (((d.setFillList f).setEntry p e).entry x).record) = pre.filterMap fun x => (d.entry x).record :=
      List.filterMap_congr fun x hx => by rw [Dev.entry_setEntry_ne (d.setFillList f) e (h x hx)]; rfl
    rw [out]
    congr 2
    rw [List.filterMap_cons, List.filterMap_nil, Dev.entry_setEntry]
    cases e.record <;> rfl

/-! ### The books -/

theorem Dev.Books.perm {l' : List CanRecord} (h : d.Books l) (e : l.Perm l') : d.Books l' :=
  ⟨((e.map _).append_left _).symm.trans h.pool, fun k => (h.members k).trans ((e.filter _).map _),
    h.suspects.trans (e.countP_eq _), fun r hr => h.sound r (e.mem_iff.2 hr)⟩

/-- No two records hold one track slot, and none holds a slot of the pool. -/
theorem Dev.Books.nodup (h : d.Books l) : (d.track.free ++ l.map fun r => r.slot).Nodup :=
  h.pool.nodup_iff.2 List.nodup_range

/-- The member set that holds a record's slot is that of the recipe slot it names. -/
theorem Dev.Books.memberSlot {r : CanRecord} (h : d.Books (r :: l)) : d.memberSlot r.slot = some r.recipe := by
  have nd : ((r :: l).map fun r => r.slot).Nodup := (List.nodup_append.1 h.nodup).2.1
  rw [List.map_cons, List.nodup_cons] at nd
  have mine : r.slot ∈ (d.slot r.recipe).members := by
    rw [(h.members r.recipe).mem_iff]
    exact List.mem_map_of_mem (List.mem_filter.2 ⟨List.mem_cons_self, by simp⟩)
  have other : ∀ k, r.slot ∈ (d.slot k).members → k = r.recipe := by
    intro k hk
    rw [(h.members k).mem_iff] at hk
    obtain ⟨x, hx, e⟩ := List.mem_map.1 hk
    obtain ⟨hx, hr⟩ := List.mem_filter.1 hx
    rcases List.mem_cons.1 hx with rfl | hx
    · exact (beq_iff_eq.1 hr).symm
    · exact absurd (e ▸ List.mem_map_of_mem hx) nd.1
  unfold Dev.memberSlot
  have k4 : r.recipe = 0 ∨ r.recipe = 1 ∨ r.recipe = 2 ∨ r.recipe = 3 := by omega
  repeat' split
  · rw [other 0 ‹_›]
  · rw [other 1 ‹_›]
  · rw [other 2 ‹_›]
  · rw [other 3 ‹_›]
  · rcases k4 with k | k | k | k <;> rw [k] at mine <;> contradiction

/-- What a record leaving a member set does to the recipe table: the slot's members lose it, or a DRAINING slot that
no formed fill names goes FREE. -/
structure Leaves (a d : Dev) : Prop where
  slot : ∀ k, ((d.slot k).st = (a.slot k).st ∧ (d.slot k).recipe = (a.slot k).recipe ∧
      ((a.slot k).members = [] → (d.slot k).members = [])) ∨
    ((a.slot k).st = .draining ∧ a.tentative k = false ∧ (d.slot k).st = .free ∧ (d.slot k).members = [])
  loader : d.order.loader = a.order.loader
  valve  : d.valve = a.valve
  upstream : d.path.upstream = a.path.upstream

theorem Leaves.same (h1 : d.order.slots = a.order.slots) (h2 : d.order.loader = a.order.loader) (h3 : d.valve = a.valve)
    (h4 : d.path.upstream = a.path.upstream) : Leaves a d := by
  refine ⟨fun k => .inl ?_, h2, h3, h4⟩
  have : d.slot k = a.slot k := by unfold Dev.slot; rw [h1]
  rw [this]; exact ⟨rfl, rfl, id⟩

theorem Dev.tentative_congr (h : d.path.upstream = a.path.upstream) (k : Fin 4) : d.tentative k = a.tentative k := by
  unfold Dev.tentative; rw [h]

theorem Leaves.trans (h : Leaves a b) (k : Leaves b d) : Leaves a d := by
  refine ⟨fun j => ?_, k.loader.trans h.loader, k.valve.trans h.valve, k.upstream.trans h.upstream⟩
  have t := Dev.tentative_congr h.upstream j
  rcases h.slot j with ⟨h1, h2, h3⟩ | ⟨h1, h2, h3, h4⟩
  · rcases k.slot j with ⟨k1, k2, k3⟩ | ⟨k1, k2, k3⟩
    · exact .inl ⟨k1.trans h1, k2.trans h2, fun x => k3 (h3 x)⟩
    · exact .inr ⟨h1 ▸ k1, t ▸ k2, k3⟩
  · refine .inr ⟨h1, h2, ?_⟩
    rcases k.slot j with ⟨k1, _, k3⟩ | ⟨k1, _, _⟩
    · exact ⟨k1.trans h3, k3 h4⟩
    · rw [h3] at k1; cases k1

/-- The recipe table's laws outlast it. -/
theorem Dev.TableLaws.leaves (h : a.TableLaws) (k : Leaves a d) : d.TableLaws := by
  have cur : ∀ j, (d.slot j).st = .current ↔ (a.slot j).st = .current := by
    intro j
    rcases k.slot j with ⟨k1, _, _⟩ | ⟨k1, _, k3, _⟩
    · rw [k1]
    · rw [k1, k3]; simp
  have vr : ∀ v, d.valveRec v = a.valveRec v := fun v => by unfold Dev.valveRec; rw [k.valve]
  refine ⟨fun j hj => ?_, fun j hj => ?_, fun i j hi hj => ?_, fun l hl => ?_, fun j c v hj hc => ?_, fun hn v => ?_⟩
  · rcases k.slot j with ⟨k1, _, k3⟩ | ⟨_, _, _, k4⟩
    · rw [k1] at hj; exact k3 (h.empty j hj)
    · exact k4
  · rcases k.slot j with ⟨k1, k2, _⟩ | ⟨_, _, k3, _⟩
    · rw [k1] at hj; rw [k2]; exact h.taught j hj
    · rw [k3] at hj; rcases hj with hj | hj <;> cases hj
  · exact h.one i j ((cur i).1 hi) ((cur j).1 hj)
  · rw [k.loader] at hl
    have := h.loader l hl
    rcases k.slot l.slot with ⟨k1, _, _⟩ | ⟨k1, _, _, _⟩
    · rw [k1]; exact this
    · rw [this] at k1; cases k1
  · rw [vr]
    rcases k.slot j with ⟨_, k2, _⟩ | ⟨_, _, k3, _⟩
    · exact h.trims j c v ((cur j).1 hj) (k2 ▸ hc)
    · rw [k3] at hj; cases hj
  · rw [vr]; exact h.untaught (fun j hj => hn j ((cur j).2 hj)) v

/-- The port's law outlasts it. -/
theorem Dev.PortLaws.leaves (h : a.PortLaws) (k : Leaves a d) : d.PortLaws := by
  refine ⟨by rw [k.upstream]; exact h.waiting, by rw [k.upstream]; exact h.idle, by rw [k.upstream]; exact h.kind, ?_⟩
  intro x us hu f hf ht
  rw [k.upstream] at hu
  have := h.slots x us hu f hf ht
  rcases k.slot f.recipe with ⟨k1, _, _⟩ | ⟨_, k2, _, _⟩
  · rw [k1]; exact this
  · exfalso
    unfold Dev.tentative at k2
    rw [hu] at k2
    have : (x.ctx.formed.any fun g => g.tracked && g.recipe == f.recipe) = true :=
      List.any_eq_true.2 ⟨f, hf, by simp [ht]⟩
    have k2 : (x.ctx.formed.any fun g => g.tracked && g.recipe == f.recipe) = false := k2
    rw [this] at k2; cases k2

theorem OrderStep.leaves {b : Dev} (h : OrderStep a b) : Leaves a b := by
  obtain ⟨_, _, _, _, _, _, _, _, rfl⟩ := h
  exact Leaves.same rfl rfl rfl rfl

theorem OrderStep.view {b : Dev} (h : OrderStep a b) : b.view = a.view := by
  obtain ⟨_, _, _, _, _, _, _, _, rfl⟩ := h; rfl

theorem Dev.slot_set (k j : Fin 4) (s : RecipeSlot) (d : Dev) : (d.setSlot k s).slot j = if j = k then s else d.slot j := by
  by_cases h : j = k
  · subst h; rw [if_pos rfl]; exact Dev.slot_setSlot d _ _
  · rw [if_neg h]; exact Dev.slot_setSlot_ne d _ h

/-- A record leaves the books: its slot goes to the pool. -/
theorem Dev.Books.release {r : CanRecord} (h : d.Books (r :: l)) : (d.releaseRecord r).Books l ∧ Leaves d (d.releaseRecord r) := by
  have ms := h.memberSlot
  unfold Dev.releaseRecord
  dsimp only
  obtain ⟨a, ha⟩ : ∃ a, a = ({ d with track := { d.track with suspects := if r.suspect = true then d.track.suspects - 1 else d.track.suspects } } : Dev) := ⟨_, rfl⟩
  rw [← ha]
  have la : Leaves d a := by rw [ha]; exact Leaves.same rfl rfl rfl rfl
  have hm : a.memberSlot r.slot = some r.recipe := by rw [ha]; exact ms
  have sl : ∀ k, a.slot k = d.slot k := fun k => by rw [ha]; rfl
  have fr : a.track.free = d.track.free := by rw [ha]
  have su : a.track.suspects = l.countP fun r => r.suspect := by
    rw [ha]
    show (if r.suspect = true then d.track.suspects - 1 else d.track.suspects) = _
    rw [h.suspects, List.countP_cons]
    split <;> simp_all
  -- the members that stay
  have keep : ∀ k, k ≠ r.recipe → (d.slot k).members.Perm ((l.filter fun r => r.recipe == k).map fun r => r.slot) := by
    intro k hk
    have := h.members k
    rw [List.filter_cons, if_neg (by simpa using fun x => hk x.symm)] at this
    exact this
  have lose : ((d.slot r.recipe).members.erase r.slot).Perm ((l.filter fun x => x.recipe == r.recipe).map fun r => r.slot) := by
    have := (h.members r.recipe).erase r.slot
    rw [List.filter_cons, if_pos (by simp), List.map_cons, List.erase_cons_head] at this
    exact this
  have key : ∃ b, Dev.recordLeaves r.slot r.lot a = b ∧ b.track = a.track ∧ Leaves a b ∧
      ∀ k, (b.slot k).members.Perm ((l.filter fun r => r.recipe == k).map fun r => r.slot) := by
    refine ⟨_, rfl, ?_⟩
    unfold Dev.recordLeaves
    rw [hm]
    dsimp only
    have step : ∀ s : RecipeSlot, s.members.Perm ((l.filter fun x => x.recipe == r.recipe).map fun r => r.slot) →
        ((s.st = (a.slot r.recipe).st ∧ s.recipe = (a.slot r.recipe).recipe ∧ ((a.slot r.recipe).members = [] → s.members = [])) ∨
          ((a.slot r.recipe).st = .draining ∧ a.tentative r.recipe = false ∧ s.st = .free ∧ s.members = [])) →
        (a.setSlot r.recipe s).track = a.track ∧ Leaves a (a.setSlot r.recipe s) ∧
        ∀ k, ((a.setSlot r.recipe s).slot k).members.Perm ((l.filter fun r => r.recipe == k).map fun r => r.slot) := by
      intro s hs hl
      refine ⟨rfl, ⟨fun k => ?_, rfl, rfl, rfl⟩, fun k => ?_⟩
      · rw [Dev.slot_set]
        split
        · rename_i e; subst e; exact hl
        · exact .inl ⟨rfl, rfl, id⟩
      · rw [Dev.slot_set]
        split
        · rename_i e; subst e; exact hs
        · rename_i e; rw [sl]; exact keep k e
    rw [sl]
    split
    · rename_i g
      have e := step .empty (by have := lose; rw [g.2.1] at this; exact this)
        (.inr ⟨by rw [sl]; exact g.1, g.2.2, rfl, rfl⟩)
      split
      · have o := Dev.closeEntry_order (.refl (a.setSlot r.recipe .empty)) r.lot
        refine ⟨o.keeps.2.2.1.trans e.1, e.2.1.trans o.leaves, fun k => ?_⟩
        have : (Dev.closeEntry r.lot (a.setSlot r.recipe .empty)).slot k = (a.setSlot r.recipe .empty).slot k := by
          unfold Dev.slot; rw [o.keeps.2.2.2.2.2.2]
        rw [this]; exact e.2.2 k
      · exact e
    · refine step { d.slot r.recipe with members := (d.slot r.recipe).members.erase r.slot } lose (.inl ⟨by rw [sl], by rw [sl], fun k => ?_⟩)
      rw [sl] at k
      show (d.slot r.recipe).members.erase r.slot = []
      rw [k]; rfl
  obtain ⟨b, e, t, lv, mem⟩ := key
  rw [e]
  refine ⟨⟨?_, mem, ?_, fun x hx => h.sound x (List.mem_cons_of_mem _ hx)⟩, (la.trans lv).trans (Leaves.same rfl rfl rfl rfl)⟩
  · show (r.slot :: b.track.free ++ _).Perm _
    rw [t, fr]
    refine List.Perm.trans ?_ h.pool
    rw [List.map_cons]
    exact List.perm_middle.symm
  · show b.track.suspects = _
    rw [t]; exact su

end Sys2Proof.Machine
end

