-- ==== Sys2Proof/Laws/KeptViews.lean ====
section
/-! SUPPORT. The operations that leave alone all that the laws of the device rest on (`Dev.view`): raising causes,
status and results, windows and samples, order words and service orders, bursts. -/

namespace Sys2Proof.Machine

variable (d : Dev)

theorem Dev.setService_view (o : Option ServiceOrder) : (d.setService o).view = d.view := rfl

theorem Dev.raise_view (c : Cause) : (d.raise c).view = d.view := by
  unfold Dev.raise; (repeat' split) <;> rfl

theorem Dev.placeBurst_view (b : Burst) : (d.placeBurst b).view = d.view := by
  unfold Dev.placeBurst; split <;> rfl

theorem Dev.raiseAt_view (c : Cause) (x : Nat) : (d.raiseAt c x).view = d.view := by
  unfold Dev.raiseAt
  simp only [Dev.raise_view]
  rfl

theorem Dev.acknowledge_view (m : BitVec 21) : (d.acknowledge m).view = d.view := by
  unfold Dev.acknowledge
  dsimp only
  split <;> rfl

theorem Dev.dropBursts_view (o : InternalOp) : (d.dropBursts o).view = d.view := by
  unfold Dev.dropBursts
  rfl

theorem Dev.stopIssued_view (o : InternalOp) : (d.stopIssued o).view = d.view := by
  unfold Dev.stopIssued
  (repeat' split) <;> rfl

theorem Dev.formStatus_view : (d.formStatus).view = d.view := by
  unfold Dev.formStatus
  simp only [Dev.placeBurst_view]
  rfl

theorem Dev.settle_view : (d.settle).view = d.view := by
  unfold Dev.settle
  (repeat' split) <;> first | rfl | simp only [Dev.formStatus_view]

theorem Dev.statusAnswered_view (ok : Bool) : (d.statusAnswered ok).view = d.view := by
  unfold Dev.statusAnswered
  dsimp only
  (repeat' split) <;> first | rfl | (simp only [Dev.placeBurst_view]; rfl)

theorem Dev.reportFault_view (x : Nat) : (d.reportFault x).view = d.view := by
  unfold Dev.reportFault
  simp only [Dev.raiseAt_view]
  rfl

theorem Dev.openDescriptor_view (x : Nat) : (d.openDescriptor x).view = d.view := by
  unfold Dev.openDescriptor
  simp only [Dev.placeBurst_view]
  rfl

theorem Dev.readNext_view (x : Nat) : (d.readNext x).view = d.view := by
  unfold Dev.readNext
  simp only [Dev.placeBurst_view]
  rfl

theorem Dev.reRead_view : (d.reRead).view = d.view := by
  unfold Dev.reRead
  split <;> simp only [Dev.openDescriptor_view, Dev.readNext_view]

theorem Dev.compose_view (r : Result) : (d.compose r).view = d.view := by
  unfold Dev.compose
  dsimp only
  (repeat' split) <;> first | rfl | (simp only [Dev.reRead_view, Dev.raise_view]; rfl)

theorem Dev.armReread_view : (d.armReread).view = d.view := by
  unfold Dev.armReread
  split <;> rfl

theorem Dev.closeBuffer_view (r : CloseReason) (x : AfterClose) (b : Buffer) : (d.closeBuffer r x b).view = d.view := by
  unfold Dev.closeBuffer
  simp only [Dev.placeBurst_view]
  rfl

theorem Dev.descriptorAnswered_view (x : Nat) (ok : Bool) (ws : List Word) : (d.descriptorAnswered x ok ws).view = d.view := by
  unfold Dev.descriptorAnswered
  dsimp only
  (repeat' split) <;> first | rfl | (simp only [Dev.reportFault_view, Dev.armReread_view]; rfl)

theorem Dev.nextAnswered_view (x : Nat) (ok : Bool) (ws : List Word) : (d.nextAnswered x ok ws).view = d.view := by
  unfold Dev.nextAnswered
  dsimp only
  (repeat' split) <;> first | rfl | (simp only [Dev.reportFault_view, Dev.armReread_view, Dev.openDescriptor_view]; rfl)

theorem Dev.closeAnswered_view (x : Nat) (y : AfterClose) (ok : Bool) : (d.closeAnswered x y ok).view = d.view := by
  unfold Dev.closeAnswered
  (repeat' split) <;> (simp only [Dev.reportFault_view, Dev.readNext_view, Dev.openDescriptor_view]; rfl)

theorem Dev.writeResult_view : (d.writeResult).view = d.view := by
  unfold Dev.writeResult
  split
  · simp only [Dev.placeBurst_view]
    rfl
  · rfl

theorem Dev.resultAnswered_view (ok : Bool) : (d.resultAnswered ok).view = d.view := by
  unfold Dev.resultAnswered
  (repeat' split) <;> (simp only [Dev.closeBuffer_view, Dev.reportFault_view]; rfl)

theorem Dev.lapsedAnswered_view (ok : Bool) : (d.lapsedAnswered ok).view = d.view := by
  unfold Dev.lapsedAnswered
  dsimp only
  (repeat' split) <;> first | rfl | (simp only [Dev.closeBuffer_view, Dev.reportFault_view]; rfl)

theorem Dev.ageExpired_view : (d.ageExpired).view = d.view := by
  unfold Dev.ageExpired
  (repeat' split) <;> first | rfl | simp only [Dev.closeBuffer_view, Dev.dropBursts_view]

theorem Dev.flushTaken_view : (d.flushTaken).view = d.view := by
  unfold Dev.flushTaken
  (repeat' split) <;> simp only [Dev.closeBuffer_view]

theorem Dev.restartTaken_view (x : Nat) : (d.restartTaken x).view = d.view := by
  unfold Dev.restartTaken
  (repeat' split) <;> simp only [Dev.closeBuffer_view, Dev.openDescriptor_view]

theorem Dev.rereadExpired_view : (d.rereadExpired).view = d.view := by
  unfold Dev.rereadExpired
  dsimp only
  (repeat' split) <;> first | rfl | (simp only [Dev.reRead_view]; rfl)

theorem Dev.raiseCheck_view (r : CanRecord) : (d.raiseCheck r).view = d.view := by
  unfold Dev.raiseCheck
  split <;> simp only [Dev.raise_view]

theorem Dev.silenceExpired_view : (d.silenceExpired).view = d.view := by
  unfold Dev.silenceExpired
  split
  · simp only [Dev.raise_view]
    rfl
  · rfl

theorem Dev.closeGap_view : (d.closeGap).view = d.view := by
  unfold Dev.closeGap
  dsimp only
  (repeat' split) <;> first | rfl | (simp only [Dev.raise_view]; rfl)

theorem Dev.moveGap_view (x : Nat) : (d.moveGap x).view = d.view := by
  unfold Dev.moveGap
  (repeat' split) <;> first | rfl | simp only [Dev.closeGap_view]

theorem Dev.moveWeigh_view (x : Nat) : (d.moveWeigh x).view = d.view := by
  unfold Dev.moveWeigh
  split <;> rfl

theorem Dev.handPhase_view (x : Nat) : (d.handPhase x).view = d.view := by
  unfold Dev.handPhase
  simp only [Dev.moveGap_view, Dev.moveWeigh_view]

theorem Dev.pushOrderWrite_view (x : Nat) (v : Word) : (d.pushOrderWrite x v).view = d.view := by
  unfold Dev.pushOrderWrite
  split <;> simp only [Dev.placeBurst_view] <;> rfl

theorem Dev.orderWordAnswered_view (x : Nat) (ok : Bool) : (d.orderWordAnswered x ok).view = d.view := by
  unfold Dev.orderWordAnswered
  dsimp only
  (repeat' split) <;> first | rfl | (simp only [Dev.placeBurst_view, Dev.raiseAt_view]; rfl)

theorem Dev.refuseOrder_view (c : OrderCode) (x : Nat) : (d.refuseOrder c x).view = d.view := by
  unfold Dev.refuseOrder
  simp only [Dev.raiseAt_view, Dev.pushOrderWrite_view]

theorem Dev.orderAWritten_view (v : Word) : (d.orderAWritten v).view = d.view := by
  unfold Dev.orderAWritten
  dsimp only
  split
  · rfl
  · split
    · exact d.raiseAt_view _ _
    · split
      · exact d.refuseOrder_view _ _
      · exact Dev.placeBurst_view _ _

theorem Dev.orderBWritten_view (v : Word) : (d.orderBWritten v).view = d.view := by
  unfold Dev.orderBWritten
  dsimp only
  split
  · rfl
  · split
    · exact d.raiseAt_view _ _
    · split
      · exact d.refuseOrder_view _ _
      · exact Dev.placeBurst_view _ _

theorem Dev.writeServiceEntries_view (x y i n : Nat) : (d.writeServiceEntries x y i n).view = d.view := by
  unfold Dev.writeServiceEntries
  generalize (List.range n).filter _ = l
  revert d
  induction l with
  | nil => exact fun _ => rfl
  | cons j l ih => exact fun d => (ih _).trans (d.pushOrderWrite_view _ _)

theorem Dev.acceptService_view (x : Nat) (ws : List Word) : (d.acceptService x ws).view = d.view := by
  unfold Dev.acceptService
  simp only [Dev.writeServiceEntries_view, Dev.pushOrderWrite_view]
  rfl

theorem Dev.fetchBAnswered_view (x : Nat) (ok : Bool) (ws : List Word) : (d.fetchBAnswered x ok ws).view = d.view := by
  unfold Dev.fetchBAnswered
  dsimp only
  (repeat' split) <;> first | rfl | (simp only [Dev.raiseAt_view, Dev.refuseOrder_view, Dev.placeBurst_view, Dev.acceptService_view]; rfl)

theorem Dev.writeServiceEntry_view (x i c : Nat) : (d.writeServiceEntry x i c).view = d.view := by
  unfold Dev.writeServiceEntry
  simp only [Dev.pushOrderWrite_view]

theorem Dev.serviceDone_view (o : ServiceOrder) : (d.serviceDone o).view = d.view := by
  unfold Dev.serviceDone
  (repeat' split) <;> simp only [Dev.writeServiceEntry_view, Dev.pushOrderWrite_view, Dev.raise_view, Dev.setService_view]

theorem Dev.serviceFails_view (o : ServiceOrder) (c : OrderCode) : (d.serviceFails o c).view = d.view := by
  unfold Dev.serviceFails
  simp only [Dev.writeServiceEntry_view, Dev.writeServiceEntries_view, Dev.pushOrderWrite_view, Dev.raiseAt_view, Dev.setService_view]

theorem Dev.setSpan_view (o : ServiceOrder) (e : ServiceEntry) : (d.setSpan o e).view = d.view := by
  unfold Dev.setSpan
  split
  · exact Dev.serviceDone_view _ _
  · exact d.serviceFails_view _ _

theorem Dev.zeroCapture_view (o : ServiceOrder) (e : ServiceEntry) : (d.zeroCapture o e).view = d.view := by
  unfold Dev.zeroCapture
  simp only [Dev.serviceDone_view]
  rfl

theorem Dev.reportFlush_view (o : ServiceOrder) (e : ServiceEntry) : (d.reportFlush o e).view = d.view := by
  unfold Dev.reportFlush
  split <;> simp only [Dev.serviceDone_view, Dev.flushTaken_view]

theorem Dev.reportRestart_view (o : ServiceOrder) (e : ServiceEntry) : (d.reportRestart o e).view = d.view := by
  unfold Dev.reportRestart
  (repeat' split) <;> simp only [Dev.serviceDone_view, Dev.serviceFails_view, Dev.restartTaken_view]

theorem Dev.unknownOp_view : (d.unknownOp).view = d.view := by
  unfold Dev.unknownOp
  (repeat' split) <;> simp only [Dev.settle_view, Dev.serviceFails_view]

theorem Dev.updateEntry_view (p : Fin 2) (i : Nat) (f : LotEntry → LotEntry) : (d.updateEntry p i f).view = d.view := by
  exact (Dev.updateEntry_order (.refl d) p i f).view

theorem Dev.closeEntry_view (r : LotRef) : (d.closeEntry r).view = d.view := by
  exact (Dev.closeEntry_order (.refl d) r).view

theorem Dev.completeOrder_view (p : Fin 2) : (d.completeOrder p).view = d.view := by
  exact (Dev.completeOrder_order (.refl d) p).view

theorem Dev.cancelFrom_view (p : Fin 2) (i : Nat) : (d.cancelFrom p i).view = d.view := by
  exact (Dev.cancelFrom_order (.refl d) p i).1.view

theorem Dev.writeNewOrder_view (o : LotOrder) : (d.writeNewOrder o).view = d.view := by
  unfold Dev.writeNewOrder
  have h : (d.writeOrderStatus false o).view = d.view := d.pushOrderWrite_view _ _
  rw [← h]
  clear h
  generalize d.writeOrderStatus false o = d'
  generalize List.range o.entries.length = l
  revert d'
  induction l with
  | nil => exact fun _ => rfl
  | cons j l ih =>
    intro d'
    rw [List.foldl_cons]
    split
    · exact ih d'
    · refine (ih _).trans ?_
      unfold Dev.writeEntry
      rw [Dev.pushOrderWrite_view, Dev.pushOrderWrite_view]

theorem Dev.startReporting_view (u : Setup) : (d.startReporting u).view = d.view := by
  unfold Dev.startReporting
  split <;> simp only [Dev.openDescriptor_view]

theorem Dev.countFills_view (c : Ctx) : (d.countFills c).view = d.view := by
  unfold Dev.countFills
  rfl

theorem Dev.fillOldEntry_view (c : Ctx) : (d.fillOldEntry c).view = d.view := by
  unfold Dev.fillOldEntry
  (repeat' split) <;> simp only [Dev.updateEntry_view]

theorem Dev.startNewEntry_view (r : LotRef) : (d.startNewEntry r).view = d.view := by
  unfold Dev.startNewEntry
  split
  · rfl
  · exact Dev.updateEntry_view d _ _ _

theorem Dev.fillUntracked_view : (d.fillUntracked).view = d.view := by
  unfold Dev.fillUntracked
  simp only [Dev.raise_view]
  rfl

theorem Dev.countGrant_view : (d.countGrant).view = d.view := by
  unfold Dev.countGrant
  split <;> rfl

theorem Dev.issueBurst_view : (d.issueBurst).view = d.view := by
  unfold Dev.issueBurst
  split <;> rfl

theorem Dev.takeSamples_view : ∀ (ws : List WWord) (i : Nat) (d : Dev), (Dev.takeSamples i ws d).view = d.view := by
  intro ws
  induction ws with
  | nil => exact fun _ _ => rfl
  | cons w ws ih => exact fun i d => ih (i + 1) (d.takeSample i (maskedWord w))

theorem Dev.viewRead_view (m : Master) (noms : List (Nat × Word)) : ∀ (n i : Nat) (d : Dev), (Dev.viewRead m noms i n d).2.view = d.view := by
  intro n
  induction n with
  | zero => exact fun _ _ => rfl
  | succ n ih =>
    intro i d
    rw [Dev.viewRead]
    dsimp only
    refine (ih _ _).trans ?_
    split <;> rfl

end Sys2Proof.Machine
end

