-- ==== Sys2Proof/Laws/KeptTrack.lean ====
section
/-! SUPPORT. The laws of the device through the track store's claims, the movement of the line and the gate: what each
leaves of the books, of the pockets that hold records, and of the orders of R10. -/

namespace Sys2Proof.Machine

variable {a b d : Dev} {p q : Word} {l : List CanRecord} {m n : Nat}

/-! ### The rest of the laws -/

/-- Apart from the books and the pockets, what the laws rest on is kept. -/
structure Rest (a d : Dev) : Prop where
  leaves  : Leaves a d
  setup   : d.setup = a.setup
  fill    : d.fill = a.fill
  memsize : d.path.memsize = a.path.memsize
  pos     : d.pocket.pos = a.pocket.pos

theorem Rest.refl (d : Dev) : Rest d d := ⟨.same rfl rfl rfl rfl, rfl, rfl, rfl, rfl⟩

theorem Rest.trans (h : Rest a b) (k : Rest b d) : Rest a d :=
  ⟨h.leaves.trans k.leaves, k.setup.trans h.setup, k.fill.trans h.fill, k.memsize.trans h.memsize, k.pos.trans h.pos⟩

theorem Rest.moved (h : Moved a d) : Rest a d := by
  unfold Moved at h
  refine ⟨.same ?_ ?_ ?_ ?_, ?_, ?_, ?_, ?_⟩ <;> rw [h]

theorem Rest.released (h : Released a d) (k : BlockStep a d) (l : Leaves a d) : Rest a d :=
  ⟨l, h.setup, h.fill, k.memsize, h.pos⟩

/-- The laws with bounds of their own on the pockets that hold records. -/
structure Dev.LawsIn (lo hi : Nat) (p : Word) (d : Dev) : Prop where
  books   : d.Books (d.liveAt p)
  pockets : d.Pockets lo hi none p
  table   : d.TableLaws
  setup   : d.SetupLaws
  port    : d.PortLaws

theorem Dev.LawsAt.in (h : d.LawsAt p) : d.LawsIn 1 d.su.dGate p := ⟨h.books, h.pockets, h.table, h.setup, h.port⟩

theorem Dev.LawsIn.at (h : d.LawsIn 1 d.su.dGate p) : d.LawsAt p := ⟨h.books, h.pockets, h.table, h.setup, h.port⟩

theorem Dev.SetupLaws.rest (h : a.SetupLaws) (k : Rest a d) (e : a.pocket.pos = none → ∀ q, (d.entry q).record = none) :
    d.SetupLaws := by
  refine ⟨?_, by rw [k.setup]; exact h.ready, by rw [k.setup, k.pos]; exact h.placed, by rw [k.pos]; exact e⟩
  have : d.size = a.size := by unfold Dev.size; rw [k.memsize]
  rw [k.setup, this]; exact h.valid

/-- The laws after a step that keeps the rest. -/
theorem Dev.LawsIn.rest {lo hi lo' hi' : Nat} (h : a.LawsIn lo hi p) (k : Rest a d) (bk : d.Books (d.liveAt q))
    (pk : d.Pockets lo' hi' none q) (e : a.pocket.pos = none → ∀ q, (d.entry q).record = none) : d.LawsIn lo' hi' q :=
  ⟨bk, pk, h.table.leaves k.leaves, h.setup.rest k e, h.port.leaves k.leaves⟩

/-- One piece of a step in which no number is given out and none is put out of order. -/
structure Hop (p : Word) (lo hi lo' hi' : Nat) (a d : Dev) : Prop where
  laws : d.LawsIn lo' hi' p
  seqs : ((d.liveAt p).map fun r => r.seq).Sublist ((a.liveAt p).map fun r => r.seq)
  rest : d.setup = a.setup ∧ d.fill = a.fill ∧ d.pocket.pos = a.pocket.pos

theorem Hop.trans {p : Word} {lo hi lo' hi' lo'' hi'' : Nat} (h : Hop p lo hi lo' hi' a b) (k : Hop p lo' hi' lo'' hi'' b d) :
    Hop p lo hi lo'' hi'' a d :=
  ⟨k.laws, k.seqs.trans h.seqs, k.rest.1.trans h.rest.1, k.rest.2.1.trans h.rest.2.1, k.rest.2.2.trans h.rest.2.2⟩

theorem Dev.LawsIn.congr {lo hi : Nat} (h : a.LawsIn lo hi p) (e : d.view = a.view) : d.LawsIn lo hi p := by
  have k : ∀ x : Dev, x.LawsIn lo hi p → x.view.dev.LawsIn lo hi p := fun x h =>
    ⟨⟨h.books.pool, h.books.members, h.books.suspects, h.books.sound⟩, h.pockets,
      ⟨h.table.empty, h.table.taught, h.table.one, h.table.loader, h.table.trims, h.table.untaught⟩,
      ⟨h.setup.valid, h.setup.ready, h.setup.placed, h.setup.empty⟩,
      ⟨h.port.waiting, h.port.idle, h.port.kind, h.port.slots⟩⟩
  have k' : ∀ x : Dev, x.view.dev.LawsIn lo hi p → x.LawsIn lo hi p := fun x h =>
    ⟨⟨h.books.pool, h.books.members, h.books.suspects, h.books.sound⟩, h.pockets,
      ⟨h.table.empty, h.table.taught, h.table.one, h.table.loader, h.table.trims, h.table.untaught⟩,
      ⟨h.setup.valid, h.setup.ready, h.setup.placed, h.setup.empty⟩,
      ⟨h.port.waiting, h.port.idle, h.port.kind, h.port.slots⟩⟩
  exact k' d (by rw [e]; exact k a h)

theorem Dev.liveAt_view (e : d.view = a.view) : d.liveAt p = a.liveAt p := by
  have k : ∀ x : Dev, x.liveAt p = x.view.dev.liveAt p := fun _ => rfl
  rw [k, e, ← k]

/-- After a piece that leaves the view. -/
theorem Hop.same {lo hi lo' hi' : Nat} (h : Hop p lo hi lo' hi' a b) (e : d.view = b.view) (s : d.setup = b.setup)
    (f : d.fill = b.fill) : Hop p lo hi lo' hi' a d :=
  ⟨h.laws.congr e, by rw [Dev.liveAt_view e]; exact h.seqs, s.trans h.rest.1, f.trans h.rest.2.1,
    (congrArg LawView.pos e).trans h.rest.2.2⟩

theorem Hop.refl {lo hi : Nat} (h : d.LawsIn lo hi p) : Hop p lo hi lo hi d d := ⟨h, List.Sublist.refl _, rfl, rfl, rfl⟩

theorem Hop.keeps (h : a.LawsAt p → Hop p 1 a.su.dGate 1 a.su.dGate a d) : Keeps 0 p p a d := by
  intro k
  have x := h k
  have e : d.su.dGate = a.su.dGate := by unfold Dev.su; rw [x.rest.1]
  exact ⟨Dev.LawsIn.at (e ▸ x.laws), fun _ _ o => o.thin x.seqs (congrArg FillUnit.seq x.rest.2.1)⟩

/-! ### Pockets -/

/-- Entries change; those with a record lie within the bounds and are CAN. -/
theorem Dev.Pockets.setEntry {lo hi : Nat} {x : Option Word} {e : Entry} (h : d.Pockets lo hi x p)
    (k : ∀ i < 64, ringIx (p - BitVec.ofNat 32 i) = ringIx q → e.record ≠ none →
      lo ≤ i ∧ i ≤ hi ∧ (x = some (p - BitVec.ofNat 32 i) ∨ e.occ = .can)) : (d.setEntry q e).Pockets lo hi x p := by
  intro i hi' hr
  rw [Dev.entry_setEntry_ite] at hr ⊢
  by_cases c : ringIx (p - BitVec.ofNat 32 i) = ringIx q
  · rw [if_pos c] at hr ⊢; exact k i hi' c hr
  · rw [if_neg c] at hr ⊢; exact h i hi' hr

/-- An entry that keeps its record and its occupancy. -/
theorem Dev.Pockets.setEntry_same {lo hi : Nat} {x : Option Word} {e : Entry} (h : d.Pockets lo hi x p)
    (k : e.record ≠ none → (d.entry q).record ≠ none ∧ e.occ = (d.entry q).occ) : (d.setEntry q e).Pockets lo hi x p := by
  refine h.setEntry fun i hi' c hr => ?_
  have e' := Dev.entry_ix d c
  have := h i hi' (by rw [e']; exact (k hr).1)
  rw [(k hr).2, ← e']; exact this

theorem Dev.Pockets.ring {lo hi : Nat} {x : Option Word} (h : a.Pockets lo hi x p) (e : d.pocket.ring = a.pocket.ring) :
    d.Pockets lo hi x p := by
  have k : ∀ q, d.entry q = a.entry q := fun q => by unfold Dev.entry; rw [e]
  intro i hi' hr
  rw [k] at hr ⊢; exact h i hi' hr

/-- The record of a pocket is live. -/
theorem Dev.record_live (p : Word) {r : CanRecord} (h : (d.entry q).record = some r) : r ∈ d.liveAt p := by
  obtain ⟨A, B, e, _⟩ := d.liveAt_entry p q
  rw [e, h]; simp

/-- Under the laws every record passes its test. -/
theorem Dev.Books.testPocket (h : d.Books (d.liveAt p)) (q : Word) : d.testPocket q = d := by
  cases e : (d.entry q).record with
  | none => exact Dev.testPocket_bare e
  | some r => exact Dev.testPocket_sound e (h.sound r (Dev.record_live p e))

theorem Dev.noRecord_set (e : Entry) (h : a.pocket.pos = none → ∀ q, (a.entry q).record = none) (k : e.record ≠ none → (a.entry q).record ≠ none) :
    a.pocket.pos = none → ∀ x, ((a.setEntry q e).entry x).record = none := by
  intro hp x
  rw [Dev.entry_setEntry_ite]
  split
  · cases he : e.record with
    | none => rfl
    | some r => exact absurd (h hp q) (k (by rw [he]; exact Option.some_ne_none r))
  · exact h hp x

/-- An entry changes but for its record and, with a record, its occupancy. -/
theorem Hop.entry {lo hi : Nat} {e : Entry} (h : d.LawsIn lo hi p) (h1 : e.record = (d.entry q).record)
    (h2 : e.record ≠ none → e.occ = (d.entry q).occ) : Hop p lo hi lo hi d (d.setEntry q e) := by
  have lv := Dev.liveAt_setEntry_same p q d h1
  refine ⟨h.rest (Rest.moved (Dev.setEntry_moved d q e)) ?_ (h.pockets.setEntry_same fun hr => ⟨h1 ▸ hr, h2 hr⟩)
    (Dev.noRecord_set e h.setup.empty (by rw [h1]; exact id)), by rw [lv], rfl, rfl, rfl⟩
  rw [lv]
  exact h.books.congr rfl rfl

/-! ### Freeing -/

theorem Dev.Books.view (h : a.Books l) (e : d.view = a.view) : d.Books l :=
  h.congr (congrArg LawView.track e) (congrArg LawView.slots e)

theorem Leaves.view (e : d.view = a.view) (v : d.valve = a.valve) : Leaves a d :=
  .same (congrArg LawView.slots e) (congrArg LawView.loader e) v (congrArg LawView.upstream e)

/-- A freeing takes the record out of the books. -/
theorem Dev.Books.freeAs {r : CanRecord} (h : d.Books (r :: l)) (i : ResultIdent) (x : Bool) :
    (d.freeAs i r x).Books l ∧ Rest d (d.freeAs i r x) ∧ (d.freeAs i r x).pocket = d.pocket ∧
    (d.freeAs i r x).track.fill = d.track.fill := by
  unfold Dev.freeAs
  have v := d.compose_view (d.recordResult i r x)
  have c := Dev.compose_released (d.recordResult i r x) d
  have k := Dev.Books.release (h.view v)
  have rl := Dev.releaseRecord_released r (d.compose (d.recordResult i r x))
  have bs : BlockStep d (Dev.releaseRecord r (d.compose (d.recordResult i r x))) := Dev.releaseRecord_block (Dev.compose_block (.refl d) _) _
  exact ⟨k.1, Rest.released (c.trans rl) bs ((Leaves.view v c.valve).trans k.2), (c.trans rl).ring, (c.trans rl).list⟩

theorem Dev.Books.release' {r : CanRecord} (h : d.Books (r :: l)) : (d.releaseRecord r).Books l ∧ Rest d (d.releaseRecord r) ∧
    (d.releaseRecord r).pocket = d.pocket ∧ (d.releaseRecord r).track.fill = d.track.fill :=
  ⟨h.release.1, Rest.released (Dev.releaseRecord_released r d) (Dev.releaseRecord_block (.refl d) _) h.release.2,
    (Dev.releaseRecord_released r d).ring, (Dev.releaseRecord_released r d).list⟩

/-! ### The line -/

theorem ringIx_back {i j : Nat} (hi : i < 64) (hj : j < 64) (h : ringIx (p - BitVec.ofNat 32 i) = ringIx (p - BitVec.ofNat 32 j)) :
    i = j := by
  have := congrArg Fin.val h
  simp only [ringIx, BitVec.toNat_sub, BitVec.toNat_ofNat] at this
  omega

/-- A can is laid on the scale pocket, which holds no record: it takes the head of the fill list (R11, R69). -/
theorem Hop.layCan {hi : Nat} (h : d.LawsIn 1 hi p) (hp : d.pocket.pos ≠ none) (g : Int) (f : BitVec 6) :
    Hop p 1 hi 0 hi d (d.layCan p g f) := by
  have bare : (d.entry p).record = none := by
    by_contra c
    have := h.pockets 0 (by decide) (by rw [show p - BitVec.ofNat 32 0 = p by simp]; exact c)
    omega
  obtain ⟨A, hA, hB⟩ := d.liveAt_newest p
  rw [bare] at hA
  have key : ∀ (o : Option CanRecord) (fl : List CanRecord) (e : Entry), e.record = o → e.occ = .can → o.toList ++ fl = d.track.fill →
      Hop p 1 hi 0 hi d ((d.setFillList fl).setEntry p e) := by
    intro o fl e he ho hl
    have lv : ((d.setFillList fl).setEntry p e).liveAt p = d.liveAt p := by
      rw [hB, he, hA, List.append_assoc, hl]; simp
    have mv : Moved d ((d.setFillList fl).setEntry p e) := (Dev.setFillList_moved d fl).trans (Dev.setEntry_moved _ p e)
    refine ⟨h.rest (Rest.moved mv) ?_ ?_ (fun c => absurd c hp), by rw [lv], rfl, rfl, rfl⟩
    · rw [lv]
      refine ⟨h.books.pool, h.books.members, h.books.suspects, h.books.sound⟩
    · refine Dev.Pockets.setEntry (d := d.setFillList fl) (q := p) (fun i hi' hr => ?_) fun i hi' c _ => ?_
      · have := h.pockets i hi' hr
        exact ⟨by omega, this.2⟩
      · have : i = 0 := ringIx_back hi' (by decide) (by rw [c]; simp)
        subst this
        exact ⟨Nat.le_refl _, Nat.zero_le _, .inr ho⟩
  unfold Dev.layCan
  dsimp only
  cases hf : d.track.fill with
  | nil => exact key none [] _ rfl rfl hf.symm
  | cons r rest =>
    have br : r.bad = false := h.books.sound r (by rw [hA, hf]; simp)
    rw [Dev.takeHead_sound br]
    exact key (some r) rest _ rfl rfl hf.symm

theorem Dev.LawsIn.wider {lo hi : Nat} (h : d.LawsIn 1 hi p) (k : lo ≤ 1) : d.LawsIn lo hi p :=
  ⟨h.books, fun i hi' hr => by have := h.pockets i hi' hr; exact ⟨by omega, this.2⟩, h.table, h.setup, h.port⟩

theorem Dev.closeGap_rest (d : Dev) : d.closeGap.setup = d.setup ∧ d.closeGap.fill = d.fill := by
  unfold Dev.closeGap
  dsimp only
  split
  · obtain ⟨_, e⟩ := Dev.raise_shape .scaleFault ((d.setWeigh d.gapOutcome).setWeigh { (d.setWeigh d.gapOutcome).weigh with stale := true })
    rw [e]; exact ⟨rfl, rfl⟩
  · exact ⟨rfl, rfl⟩

/-- The scale pocket departs the scale (R69). -/
theorem Hop.scaleDeparts {hi : Nat} (h : d.LawsIn 1 hi p) (hp : d.pocket.pos ≠ none) : Hop p 1 hi 0 hi d (d.scaleDeparts p) := by
  unfold Dev.scaleDeparts
  dsimp only
  obtain ⟨a, ha⟩ : ∃ a, a = if d.weigh.gapWin = .closed then d else d.closeGap := ⟨_, rfl⟩
  have h1 : Hop p 1 hi 1 hi d a := by
    rw [ha]; split
    · exact .refl h
    · exact (Hop.refl h).same d.closeGap_view d.closeGap_rest.1 d.closeGap_rest.2
  rw [← ha]
  obtain ⟨b, hb⟩ : ∃ b, b = if a.weigh.weighWin = .closed then a else a.closeWeigh := ⟨_, rfl⟩
  have h2 : Hop p 1 hi 1 hi d b := by
    rw [hb]; split
    · exact h1
    · exact h1.same rfl rfl rfl
  rw [← hb]
  have h3 : b.pocket.pos ≠ none := by rw [h2.rest.2.2]; exact hp
  split
  · exact (h2.trans (Hop.layCan h2.laws h3 _ _)).same rfl rfl rfl
  · have w : Hop p 1 hi 0 hi d b := ⟨h2.laws.wider (by decide), h2.seqs, h2.rest⟩
    exact w.same rfl rfl rfl

/-- An unseen pocket departs the scale (R48). -/
theorem Hop.unseenDeparts {hi : Nat} (h : d.LawsIn 1 hi p) : Hop p 1 hi 0 hi d (d.unseenDeparts p) := by
  have bare : (d.entry p).record = none := by
    by_contra c
    have := h.pockets 0 (by decide) (by rw [show p - BitVec.ofNat 32 0 = p by simp]; exact c)
    omega
  have k := Hop.entry (q := p) (e := { d.entry p with occ := .unseen }) h rfl (fun hr => absurd bare hr)
  exact ⟨k.laws.wider (by decide), k.seqs, k.rest⟩

/-- The gate pocket departs: no record is left at it (R106). -/
theorem Hop.gateDeparts {hi : Nat} (h : d.LawsIn 0 hi p) (h63 : hi < 64) (hp : d.pocket.pos ≠ none) :
    Hop p 0 hi 0 (hi - 1) d (d.gateDeparts (p - BitVec.ofNat 32 hi)) ∨ hi = 0 := by
  by_cases h0 : hi = 0
  · exact .inr h0
  refine .inl ?_
  obtain ⟨q, hq⟩ : ∃ q, q = p - BitVec.ofNat 32 hi := ⟨_, rfl⟩
  rw [← hq]
  have drop : ∀ t : Dev, t.Pockets 0 hi none p → (t.entry q).record = none → t.Pockets 0 (hi - 1) none p := by
    intro t k hr i hi' hx
    have := k i hi' hx
    refine ⟨Nat.zero_le _, ?_, this.2.2⟩
    by_contra c
    have : i = hi := by omega
    rw [this, ← hq] at hx
    exact hx hr
  unfold Dev.gateDeparts
  split
  · rename_i hocc
    have bare : (d.entry q).record = none := by
      by_contra c
      have := h.pockets hi h63 (by rw [← hq]; exact c)
      rcases this.2.2 with x | x
      · cases x
      · rw [← hq, hocc] at x; cases x
    have k := Hop.entry (q := q) (e := Entry.fresh (d.entry q).pocket) h (by rw [bare]; rfl) (fun hr => absurd rfl hr)
    exact ⟨⟨k.laws.books, drop _ k.laws.pockets (by rw [Dev.entry_setEntry]; rfl), k.laws.table, k.laws.setup, k.laws.port⟩, k.seqs, k.rest⟩
  · rw [h.books.testPocket q]
    suffices key : ∀ a : Dev, a.view = d.view ∧ a.setup = d.setup ∧ a.fill = d.fill →
        Hop p 0 hi 0 (hi - 1) d (match (d.entry q).record with
          | none => (a.compose (a.gateResult (d.entry q))).setEntry q (Entry.fresh (d.entry q).pocket)
          | some r => Dev.releaseRecord r ((a.compose (a.gateResult (d.entry q))).setEntry q (Entry.fresh (d.entry q).pocket))) by
      refine key _ ?_
      split
      · split
        · obtain ⟨_, e⟩ := Dev.raise_shape .rejectMissed d
          exact ⟨d.raise_view _, by rw [e], by rw [e]⟩
        · exact ⟨rfl, rfl, rfl⟩
      · exact ⟨rfl, rfl, rfl⟩
    intro a a1
    obtain ⟨b, hb⟩ : ∃ b, b = a.compose (a.gateResult (d.entry q)) := ⟨_, rfl⟩
    rw [← hb]
    have b1 : b.view = a.view ∧ b.setup = a.setup ∧ b.fill = a.fill := by
      have r := Dev.compose_released (a.gateResult (d.entry q)) a
      rw [hb]
      exact ⟨a.compose_view _, r.setup, r.fill⟩
    clear hb
    have hb : Hop p 0 hi 0 hi d b := (Hop.refl h).same (b1.1.trans a1.1) (b1.2.1.trans a1.2.1) (b1.2.2.trans a1.2.2)
    have eb : b.entry q = d.entry q := congrArg (fun v : LawView => v.ring.get (ringIx q)) (b1.1.trans a1.1)
    rw [← eb]
    have pb : b.pocket.pos ≠ none := by rw [hb.rest.2.2]; exact hp
    cases hr : (b.entry q).record with
    | none =>
      dsimp only
      have k := Hop.entry (q := q) (e := Entry.fresh (b.entry q).pocket) hb.laws (by rw [hr]; rfl) (fun hr => absurd rfl hr)
      refine hb.trans ⟨⟨k.laws.books, drop _ k.laws.pockets (by rw [Dev.entry_setEntry]; rfl), k.laws.table, k.laws.setup, k.laws.port⟩, k.seqs, k.rest⟩
    | some r =>
      dsimp only
      obtain ⟨t1, t2⟩ := Dev.liveAt_taken p (e := Entry.fresh (b.entry q).pocket) hr rfl
      obtain ⟨c, hc⟩ : ∃ c, c = b.setEntry q (Entry.fresh (b.entry q).pocket) := ⟨_, rfl⟩
      rw [← hc] at t1 t2 ⊢
      have bc : c.Books (r :: c.liveAt p) := by
        have := hb.laws.books.perm t1
        rw [hc]; rw [hc] at this
        exact this.congr rfl rfl
      have rl := bc.release'
      have lv : (c.releaseRecord r).liveAt p = c.liveAt p := Dev.liveAt_congr (by rw [rl.2.2.1]) rl.2.2.2
      have mc : Rest b c := by rw [hc]; exact Rest.moved (Dev.setEntry_moved b q _)
      have pc : c.Pockets 0 hi none p := by
        rw [hc]; exact hb.laws.pockets.setEntry_same fun hx => absurd rfl hx
      refine hb.trans ⟨hb.laws.rest (mc.trans rl.2.1) (by rw [lv]; exact rl.1) ?_ (fun x => absurd x pb), ?_, ?_⟩
      · refine Dev.Pockets.ring (a := c) ?_ (by rw [rl.2.2.1])
        exact drop c pc (by rw [hc, Dev.entry_setEntry]; rfl)
      · rw [lv]; exact t2.map _
      · exact ⟨(mc.trans rl.2.1).setup, (mc.trans rl.2.1).fill, (mc.trans rl.2.1).pos⟩

/-! ### Valve records -/

theorem clampInt_natAbs (n : Nat) (x : Int) : (clampInt (-(n : Int)) n x).natAbs ≤ n := by
  unfold clampInt; (repeat' split) <;> omega

/-- A valve record is replaced by one whose trim stays within the limit. -/
theorem Dev.TableLaws.setValve {v : Fin 64} {r : ValveRec} (h : d.TableLaws)
    (h1 : ∀ k c, (d.slot k).st = .current → (d.slot k).recipe = some c → r.trim.natAbs ≤ c.trimLimit)
    (h2 : (∀ k, (d.slot k).st ≠ .current) → r.trim = 0) : (d.setValve v r).TableLaws := by
  have e : ∀ w, (d.setValve v r).valveRec w = if w = v then r else d.valveRec w := fun w => get_set_ite _ v w r
  refine ⟨h.empty, h.taught, h.one, h.loader, fun k c w hk hc => ?_, fun hn w => ?_⟩
  · rw [e]; split
    · exact h1 k c hk hc
    · exact h.trims k c w hk hc
  · rw [e]; split
    · exact h2 hn
    · exact h.untaught hn w

/-- A valve record is replaced by one with the same trim. -/
theorem Dev.TableLaws.setValve_same {v : Fin 64} {r : ValveRec} (h : d.TableLaws) (e : r.trim = (d.valveRec v).trim) :
    (d.setValve v r).TableLaws :=
  h.setValve (fun k c hk hc => by rw [e]; exact h.trims k c v hk hc) (fun hn => by rw [e]; exact h.untaught hn v)

/-- The CURRENT slot is found, and its recipe is the one it holds. -/
theorem Dev.TableLaws.current {k : Fin 4} (h : d.TableLaws) (hk : d.currentSlot = some k) :
    (d.slot k).st = .current ∧ (d.slot k).recipe = some (d.recipeOf k) := by
  have st := Dev.slotIn_some hk
  refine ⟨st, ?_⟩
  have := h.taught k (.inr st)
  unfold Dev.recipeOf
  cases hr : (d.slot k).recipe with
  | none => exact absurd hr this
  | some c => rfl

theorem ValveRec.noteWeight_trim (r : ValveRec) (x y : Int) (z : Nat) : (r.noteWeight x y z).trim = r.trim := by
  unfold ValveRec.noteWeight; dsimp only; split <;> rfl

theorem ValveRec.testState_trim (r : ValveRec) (c : Recipe) : (r.testState c).1.trim = r.trim := by
  unfold ValveRec.testState
  (repeat' split) <;> rfl

/-- A hand-over keeps the laws of the recipe table (R115, R116). -/
theorem Dev.handOver_table (h : d.TableLaws) (v : Fin 64) (x : HandOver) : ∃ r, (d.setValve v r).TableLaws ∧
    (d.handOver v x).view = (d.setValve v r).view ∧ (d.handOver v x).setup = d.setup ∧ (d.handOver v x).fill = d.fill := by
  unfold Dev.handOver
  dsimp only
  obtain ⟨r0, h0⟩ : ∃ r0, r0 = (d.valveRec v).noteVerdict x.reject := ⟨_, rfl⟩
  have t0 : r0.trim = (d.valveRec v).trim := by rw [h0]; rfl
  rw [← h0]
  split
  · obtain ⟨r1, h1⟩ : ∃ r1, r1 = r0.noteWeight x.net x.deviation (d.recipeOf x.recipe).outlierBand := ⟨_, rfl⟩
    have t1 : r1.trim = (d.valveRec v).trim := by rw [h1, ValveRec.noteWeight_trim, t0]
    rw [← h1]
    obtain ⟨r2, h2⟩ : ∃ r2, r2 = if d.trimAllowed r1 x = true then
      r1.updateTrim (computedTrim x.trim x.deviation (d.recipeOf x.recipe).gain) (d.recipeOf x.recipe).trimLimit else r1 := ⟨_, rfl⟩
    rw [← h2]
    have t2 : (∀ k c, (d.slot k).st = .current → (d.slot k).recipe = some c → r2.trim.natAbs ≤ c.trimLimit) ∧
        ((∀ k, (d.slot k).st ≠ .current) → r2.trim = 0) := by
      rw [h2]
      split
      · rename_i ha
        unfold Dev.trimAllowed at ha
        simp only [Bool.and_eq_true, beq_iff_eq] at ha
        have cur := h.current ha.1.1.1.2
        refine ⟨fun k c hk hc => ?_, fun hn => absurd cur.1 (hn _)⟩
        rw [h.one k _ hk cur.1, cur.2] at hc
        injection hc with hc
        rw [← hc]
        exact clampInt_natAbs _ _
      · rw [t1]
        exact ⟨fun k c hk hc => h.trims k c v hk hc, fun hn => h.untaught hn v⟩
    obtain ⟨r3, h3⟩ : ∃ r3, r3 = if r0.sameRuns r2 = true then (r2, none) else r2.testState (d.recipeOf x.recipe) := ⟨_, rfl⟩
    rw [← h3]
    have t3 : r3.1.trim = r2.trim := by rw [h3]; split; rfl; exact ValveRec.testState_trim _ _
    refine ⟨r3.1, h.setValve (by rw [t3]; exact t2.1) (by rw [t3]; exact t2.2), ?_⟩
    split
    · exact ⟨rfl, rfl, rfl⟩
    · rename_i c _
      obtain ⟨_, e⟩ := Dev.raise_shape c (d.setValve v r3.1)
      exact ⟨Dev.raise_view _ _, by rw [e]; rfl, by rw [e]; rfl⟩
  · exact ⟨r0, h.setValve_same t0, rfl, rfl, rfl⟩

theorem Dev.LawsIn.valves {lo hi : Nat} (h : d.LawsIn lo hi p) {v : Fin 64} {r : ValveRec} (k : (d.setValve v r).TableLaws) :
    (d.setValve v r).LawsIn lo hi p :=
  ⟨h.books.congr rfl rfl, h.pockets, k, ⟨h.setup.valid, h.setup.ready, h.setup.placed, h.setup.empty⟩,
    ⟨h.port.waiting, h.port.idle, h.port.kind, h.port.slots⟩⟩

/-- The pocket departing the reader is judged (R90, R94). -/
theorem Hop.readerDeparts {lo hi : Nat} (h : d.LawsIn lo hi p) (q : Word) : Hop p lo hi lo hi d (d.readerDeparts q) := by
  unfold Dev.readerDeparts
  obtain ⟨a, ha⟩ : ∃ a, a = d.missedRead q := ⟨_, rfl⟩
  rw [← ha]
  have h1 : Hop p lo hi lo hi d a := by
    rw [ha]
    unfold Dev.missedRead
    dsimp only
    split
    · obtain ⟨x, hx⟩ : ∃ x : CodeUnit, x = { d.code with missRun := satSucc 63 d.code.missRun } := ⟨_, rfl⟩
      have k : Hop p lo hi lo hi d ({ d with code := { d.code with missRun := satSucc 63 d.code.missRun } } : Dev) :=
        (Hop.refl h).same rfl rfl rfl
      have k2 := k.trans (Hop.entry (q := q) (e := { d.entry q with ident := .missed }) k.laws rfl (fun _ => rfl))
      split
      · obtain ⟨_, e⟩ := Dev.raise_shape .readerFault (Dev.setEntry { d with code := { d.code with missRun := satSucc 63 d.code.missRun } } q { d.entry q with ident := .missed })
        exact k2.same (Dev.raise_view _ _) (by rw [e]) (by rw [e])
      · exact k2
    · exact .refl h
  refine h1.trans ?_
  clear ha
  have h := h1.laws
  unfold Dev.judge
  split
  · exact .refl h
  · rw [h.books.testPocket q]
    dsimp only
    obtain ⟨b, hb⟩ : ∃ b, b = a.setEntry q { a.entry q with
      verdict := some (Verdict.mk (formReject (a.reasonsFor (a.entry q)) (a.maskFor (a.entry q))) (a.reasonsFor (a.entry q))) } := ⟨_, rfl⟩
    rw [← hb]
    have k : Hop p lo hi lo hi a b := by rw [hb]; exact Hop.entry h rfl (fun _ => rfl)
    split
    · exact k.same rfl rfl rfl
    · split
      · exact k.same rfl rfl rfl
      · rename_i r _ _
        obtain ⟨y, t, e1, e2, e3⟩ := Dev.handOver_table k.laws.table r.valve (a.handOverFor (a.entry q) r
          { reject := formReject (a.reasonsFor (a.entry q)) (a.maskFor (a.entry q)), reasons := a.reasonsFor (a.entry q) })
        have k2 : Hop p lo hi lo hi b (b.setValve r.valve y) := ⟨k.laws.valves t, List.Sublist.refl _, rfl, rfl, rfl⟩
        exact k.trans (k2.same e1 e2 e3)

/-! ### Boundaries -/

theorem firstFailure_none {ts : List FieldTest} (h : firstFailure ts = none) : ∀ t ∈ ts, t.range = true ∧ t.order = true := by
  induction ts with
  | nil => exact fun t k => absurd k List.not_mem_nil
  | cons x ts ih =>
    rw [firstFailure] at h
    by_cases h1 : x.range = false
    · rw [if_pos h1] at h; cases h
    · rw [if_neg h1] at h
      by_cases h2 : x.order = false
      · rw [if_pos h2] at h; cases h
      · rw [if_neg h2] at h
        intro t k
        rcases List.mem_cons.1 k with rfl | k
        · exact ⟨by simpa using h1, by simpa using h2⟩
        · exact ih h t k

theorem Dev.SetupLaws.dims (h : d.SetupLaws) (hp : d.pocket.pos ≠ none) : 1 ≤ d.su.dRead ∧ d.su.dRead ≤ 31 ∧
    d.su.dRead < d.su.dGate ∧ d.su.dGate ≤ 63 := by
  cases hs : d.setup.setup with
  | none => exact absurd hs (h.placed hp)
  | some u =>
    have k := h.valid u hs
    have e : d.su = u := by unfold Dev.su; rw [hs]; rfl
    rw [e]
    have f7 := (firstFailure_none k (FieldTest.mk 7 (inRange 1 31 u.dRead) true) (List.mem_of_getElem? (i := 7) rfl)).1
    have f8 := firstFailure_none k (FieldTest.mk 8 (inRange 2 63 u.dGate) (decide (u.dRead < u.dGate))) (List.mem_of_getElem? (i := 8) rfl)
    have f9 := f8.2
    have f8 := f8.1
    unfold inRange at f7 f8
    simp only [Bool.and_eq_true, decide_eq_true_eq] at f7 f8 f9
    exact ⟨f7.1, f7.2, f9, f8.2⟩

/-- The ring from the next pocket on: the oldest pocket goes, the new one comes. -/
theorem ringFrom_next (p : Word) : ∃ l, ringFrom p = (p - 63#32) :: l ∧ ringFrom (p + 1#32) = l ++ [p + 1#32] := by
  have e : ∀ i : Nat, p - 63#32 + BitVec.ofNat 32 (i + 1) = p + 1#32 - 63#32 + BitVec.ofNat 32 i := by
    intro i
    apply BitVec.eq_of_toNat_eq
    simp only [BitVec.toNat_sub, BitVec.toNat_add, BitVec.toNat_ofNat]
    omega
  refine ⟨(List.range 63).map fun i => p + 1#32 - 63#32 + BitVec.ofNat 32 i, ?_, ?_⟩
  · unfold ringFrom
    rw [List.range_succ_eq_map, List.map_cons, List.map_map]
    congr 1
    · simp
    · exact List.map_congr_left fun i _ => e i
  · unfold ringFrom
    rw [List.range_succ, List.map_append, List.map_singleton]
    congr 2
    exact BitVec.sub_add_cancel (p + 1#32) 63#32

/-- The scale pocket becomes `q`: the laws, no number given out, none put out of order. -/
structure Goes (p q : Word) (a d : Dev) : Prop where
  laws : d.LawsAt q
  seqs : ((d.liveAt q).map fun r => r.seq).Sublist ((a.liveAt p).map fun r => r.seq)
  rest : d.setup = a.setup ∧ d.fill = a.fill ∧ d.pocket.pos = a.pocket.pos

theorem Goes.trans {r : Word} (h : Goes p q a b) (k : Goes q r b d) : Goes p r a d :=
  ⟨k.laws, k.seqs.trans h.seqs, k.rest.1.trans h.rest.1, k.rest.2.1.trans h.rest.2.1, k.rest.2.2.trans h.rest.2.2⟩

theorem Goes.refl (h : d.LawsAt p) : Goes p p d d := ⟨h, List.Sublist.refl _, rfl, rfl, rfl⟩

theorem Goes.same (h : Goes p q a b) (e : d.view = b.view) (s : d.setup = b.setup) (f : d.fill = b.fill) : Goes p q a d :=
  ⟨h.laws.congr e, by rw [Dev.liveAt_view e]; exact h.seqs, s.trans h.rest.1, f.trans h.rest.2.1,
    (congrArg LawView.pos e).trans h.rest.2.2⟩

theorem Hop.goes {g : Nat} (h : Hop p 1 g 1 g a d) (e : a.su.dGate = g) : Goes p p a d := by
  have e' : d.su.dGate = g := by unfold Dev.su; rw [h.rest.1]; exact e
  exact ⟨Dev.LawsIn.at (e'.symm ▸ h.laws), h.seqs, h.rest⟩

theorem Goes.keeps (h : a.LawsAt p → Goes p q a d) : Keeps 0 p q a d := by
  intro k
  have x := h k
  exact ⟨x.laws, fun _ _ o => o.thin x.seqs (congrArg FillUnit.seq x.rest.2.1)⟩

/-- A boundary (R47). -/
theorem Goes.boundary (h : d.LawsAt p) (hp : d.pocket.pos ≠ none) (first : Bool) :
    Goes p (p + 1#32) d (d.boundary first p) := by
  obtain ⟨_, _, d3, d4⟩ := h.setup.dims hp
  obtain ⟨g, hg⟩ : ∃ g, d.su.dGate = g := ⟨_, rfl⟩
  have h1 := h.in
  rw [hg] at h1 d3 d4
  unfold Dev.boundary
  dsimp only
  obtain ⟨a, ha⟩ : ∃ a, a = if first = true then d.scaleDeparts p else d.unseenDeparts p := ⟨_, rfl⟩
  have k1 : Hop p 1 g 0 g d a := by
    rw [ha]; split
    · exact Hop.scaleDeparts h1 hp
    · exact Hop.unseenDeparts h1
  rw [← ha]
  have k2 := k1.trans (Hop.readerDeparts k1.laws (p - BitVec.ofNat 32 a.su.dRead))
  obtain ⟨b, hb⟩ : ∃ b, b = a.readerDeparts (p - BitVec.ofNat 32 a.su.dRead) := ⟨_, rfl⟩
  rw [← hb] at k2 ⊢
  have eg : b.su.dGate = g := by unfold Dev.su; rw [k2.rest.1]; exact hg
  rw [eg]
  have k3 : Hop p 1 g 0 (g - 1) d (b.gateDeparts (p - BitVec.ofNat 32 g)) := by
    rcases Hop.gateDeparts (p := p) k2.laws (by omega) (by rw [k2.rest.2.2]; exact hp) with x | x
    · exact k2.trans x
    · omega
  obtain ⟨c, hc⟩ : ∃ c, c = b.gateDeparts (p - BitVec.ofNat 32 g) := ⟨_, rfl⟩
  rw [← hc] at k3 ⊢
  have far : ∀ i < 63, ringIx (p - BitVec.ofNat 32 i) ≠ ringIx (p + 1#32) := by
    intro i hi e
    have := congrArg Fin.val e
    simp only [ringIx, BitVec.toNat_sub, BitVec.toNat_add, BitVec.toNat_ofNat] at this
    omega
  have old : (c.entry (p + 1#32)).record = none := by
    by_contra x
    have : c.entry (p + 1#32) = c.entry (p - BitVec.ofNat 32 63) := by
      refine Dev.entry_ix c (Fin.ext ?_)
      simp only [ringIx, BitVec.toNat_sub, BitVec.toNat_add, BitVec.toNat_ofNat]
      omega
    rw [this] at x
    have := k3.laws.pockets 63 (by decide) x
    omega
  have lv : (c.startEntry (p + 1#32)).liveAt (p + 1#32) = c.liveAt p := by
    unfold Dev.startEntry
    rw [Dev.liveAt_setEntry_same _ _ _ (by rw [old]; rfl)]
    obtain ⟨l, e1, e2⟩ := ringFrom_next p
    have x : (c.entry (p - 63#32)).record = none := by
      have : c.entry (p - 63#32) = c.entry (p + 1#32) := by
        refine Dev.entry_ix c (Fin.ext ?_)
        simp only [ringIx, BitVec.toNat_sub, BitVec.toNat_add, BitVec.toNat_ofNat]
        omega
      rw [this]; exact old
    unfold Dev.liveAt
    rw [e1, e2, List.filterMap_append]
    simp [x, old]
  have su : (c.startEntry (p + 1#32)).su.dGate = g := by
    show c.su.dGate = g
    unfold Dev.su; rw [k3.rest.1]; exact hg
  have pc : c.pocket.pos ≠ none := by rw [k3.rest.2.2]; exact hp
  refine ⟨Dev.LawsIn.at ?_, by rw [lv]; exact k3.seqs, k3.rest.1, k3.rest.2.1, k3.rest.2.2⟩
  rw [su]
  refine k3.laws.rest (Rest.moved (Dev.setEntry_moved c _ _)) (by rw [lv]; exact k3.laws.books.congr rfl rfl) ?_ (fun x => absurd x pc)
  intro i hi hr
  unfold Dev.startEntry at hr ⊢
  rw [Dev.entry_setEntry_ite] at hr ⊢
  by_cases x : ringIx (p + 1#32 - BitVec.ofNat 32 i) = ringIx (p + 1#32)
  · rw [if_pos x] at hr; exact absurd rfl hr
  · rw [if_neg x] at hr ⊢
    cases i with
    | zero => exact absurd (by simp) x
    | succ i =>
      have e : p + 1#32 - BitVec.ofNat 32 (i + 1) = p - BitVec.ofNat 32 i := by
        apply BitVec.eq_of_toNat_eq
        simp only [BitVec.toNat_sub, BitVec.toNat_add, BitVec.toNat_ofNat]
        omega
      rw [e] at hr ⊢
      have := k3.laws.pockets i (by omega) hr
      exact ⟨by omega, by omega, this.2.2⟩

/-- The boundaries of an event (R46). -/
theorem Goes.boundaries : ∀ (n : Nat) (first : Bool) (p : Word) (d : Dev), d.LawsAt p → d.pocket.pos ≠ none →
    Goes p (p + BitVec.ofNat 32 n) d (Dev.boundaries n first p d) := by
  intro n
  induction n with
  | zero => intro first p d h _; rw [Dev.boundaries, show p + BitVec.ofNat 32 0 = p by simp]; exact .refl h
  | succ n ih =>
    intro first p d h hp
    have k := Goes.boundary h hp first
    have k2 := ih false (p + 1#32) (d.boundary first p) k.laws (by rw [k.rest.2.2]; exact hp)
    rw [BitVec.add_assoc, ← BitVec.ofNat_add, Nat.add_comm] at k2
    exact k.trans k2

/-! ### Suspect flags -/

/-- Records that differ only in fields the books do not count by. -/
theorem Dev.Books.same {l' : List CanRecord} (h : a.Books l)
    (e : (l'.map fun r => (r.slot, r.recipe)) = l.map fun r => (r.slot, r.recipe)) (sound : ∀ r ∈ l', r.bad = false)
    (e1 : d.track.free = a.track.free) (e2 : d.order.slots = a.order.slots)
    (e3 : d.track.suspects = l'.countP fun r => r.suspect) : d.Books l' := by
  have e4 : (l'.map fun r => r.slot) = l.map fun r => r.slot := by
    have := congrArg (List.map Prod.fst) e
    rw [List.map_map, List.map_map] at this; exact this
  have e5 : ∀ k : Fin 4, ∀ x : List CanRecord, ((x.filter fun r => r.recipe == k).map fun r => r.slot) =
      (((x.map fun r => (r.slot, r.recipe)).filter fun y => y.2 == k).map Prod.fst) := by
    intro k x
    rw [List.filter_map, List.map_map]; rfl
  refine ⟨by rw [e1, e4]; exact h.pool, fun k => ?_, e3, sound⟩
  have : d.slot k = a.slot k := by unfold Dev.slot; rw [e2]
  rw [this, e5, e, ← e5]; exact h.members k

/-- The record of pocket `q` is written anew with another suspect flag (R16, R145). -/
theorem Goes.reflag {r r' : CanRecord} {e : Entry} (h : d.LawsAt p) (hr : (d.entry q).record = some r)
    (he : e.record = some r') (ho : e.occ = .can ∨ e.occ = (d.entry q).occ) (h1 : r'.slot = r.slot) (h2 : r'.recipe = r.recipe)
    (h3 : r'.seq = r.seq) (h4 : r'.bad = false)
    (h5 : n + (if r.suspect then 1 else 0) = d.track.suspects + if r'.suspect then 1 else 0) :
    Goes p p d { d.setEntry q e with track := { d.track with suspects := n } } := by
  obtain ⟨A, B, l1, l2⟩ := d.liveAt_entry p q
  rw [hr] at l1
  have lv : Dev.liveAt p { d.setEntry q e with track := { d.track with suspects := n } } = A ++ [r'] ++ B := by
    exact (Dev.liveAt_congr (a := d.setEntry q e) rfl rfl).trans ((l2 e).trans (by rw [he]; rfl))
  have bk : Dev.Books (A ++ [r'] ++ B) { d.setEntry q e with track := { d.track with suspects := n } } := by
    have b := h.books
    rw [l1] at b
    refine b.same ?_ ?_ rfl rfl ?_
    · simp [h1, h2]
    · intro x hx
      simp only [List.mem_append, List.mem_singleton] at hx
      rcases hx with (hx | rfl) | hx
      · exact b.sound x (by simp [hx])
      · exact h4
      · exact b.sound x (by simp [hx])
    · have := b.suspects
      simp only [List.countP_append, Option.toList_some, List.countP_singleton] at this ⊢
      show n = _
      omega
  have rs : Rest d ({ d.setEntry q e with track := { d.track with suspects := n } } : Dev) :=
    ⟨.same rfl rfl rfl rfl, rfl, rfl, rfl, rfl⟩
  have pk : (d.setEntry q e).Pockets 1 d.su.dGate none p := by
    refine h.pockets.setEntry fun i hi c _ => ?_
    have e' := Dev.entry_ix d c
    have k := h.pockets i hi (by rw [e', hr]; exact Option.some_ne_none r)
    refine ⟨k.1, k.2.1, .inr ?_⟩
    rcases ho with o | o
    · exact o
    · rcases k.2.2 with x | x
      · cases x
      · rw [o, ← e']; exact x
  refine ⟨Dev.LawsIn.at (h.in.rest rs (by rw [lv]; exact bk) (pk.ring rfl) ?_), ?_, rfl, rfl, rfl⟩
  · exact Dev.noRecord_set e h.setup.empty (fun _ => by rw [hr]; exact Option.some_ne_none r)
  · rw [lv, l1]; simp [h3]

theorem CanRecord.sound_parts {r : CanRecord} (h : r.bad = false) : r.failed = false ∧ r.checkOk = true := by
  unfold CanRecord.bad at h
  simpa using h

/-- The marking of one pocket's record. -/
theorem Goes.markPocket (h : d.LawsAt p) (q : Word) : Goes p p d (d.markPocket q) := by
  unfold Dev.markPocket
  dsimp only
  split
  · exact .refl h
  · rename_i r hr
    have s := CanRecord.sound_parts (h.books.sound r (Dev.record_live p hr))
    split
    · exact .refl h
    · rename_i c
      have ns : r.suspect = false := by
        rw [s.1] at c; simpa using c
      rw [if_pos s.2]
      exact Goes.reflag (r' := r.marked) h hr rfl (.inr rfl) rfl rfl rfl (by unfold CanRecord.marked CanRecord.bad; rw [s.1]; rfl)
        (by rw [ns]; rfl)

/-- The marking of the fill list. -/
theorem Dev.markFill_count : ∀ (l kept : List CanRecord) (d : Dev), (∀ r ∈ l, r.bad = false) →
    Dev.markFill l kept d = { d with track := { d.track with
      fill := kept.reverse ++ l.map CanRecord.marked, suspects := d.track.suspects + l.countP fun r => !r.suspect } } := by
  intro l
  induction l with
  | nil => intro kept d _; rw [List.map_nil, List.append_nil]; rfl
  | cons r l ih =>
    intro kept d h
    have hl := fun x hx => h x (List.mem_cons_of_mem r hx)
    have s := CanRecord.sound_parts (h r List.mem_cons_self)
    rw [Dev.markFill]
    by_cases c : r.suspect = true
    · rw [if_pos (.inr c), ih _ _ hl, List.map_cons, List.countP_cons_of_neg (by simp [c])]
      have : r.marked = r := by
        unfold CanRecord.marked
        cases r; simp_all
      rw [this, List.reverse_cons, List.append_assoc]; rfl
    · rw [if_neg (by rw [s.1]; simpa using c), if_pos s.2, ih _ _ hl, List.map_cons, List.countP_cons_of_pos (by simpa using c),
        List.reverse_cons, List.append_assoc]
      show ({ d with track := _ } : Dev) = _
      rw [show d.countSuspect.track.suspects = d.track.suspects + 1 from rfl, Nat.add_assoc, Nat.add_comm 1]
      rfl

/-- A suspect marking (R145, R146). -/
theorem Goes.markSuspects (h : d.LawsAt p) : Goes p p d d.markSuspects := by
  unfold Dev.markSuspects
  dsimp only
  have fold : ∀ (ps : List Word) (d : Dev), d.LawsAt p → Goes p p d (ps.foldl Dev.markPocket d) := by
    intro ps
    induction ps with
    | nil => exact fun d h => .refl h
    | cons q ps ih => exact fun d h => (Goes.markPocket h q).trans (ih _ (Goes.markPocket h q).laws)
  have k := fold d.ringPockets d h
  obtain ⟨a, ha⟩ : ∃ a, a = d.ringPockets.foldl Dev.markPocket d := ⟨_, rfl⟩
  rw [← ha] at k ⊢
  refine k.trans ?_
  clear ha
  have h := k.laws
  have sound : ∀ r ∈ a.track.fill, r.bad = false := fun r hr => h.books.sound r (by unfold Dev.liveAt; exact List.mem_append_right _ hr)
  rw [Dev.markFill_count _ _ _ sound, List.reverse_nil, List.nil_append]
  obtain ⟨b, hb⟩ : ∃ b, b = ({ a with track := { a.track with fill := a.track.fill.map CanRecord.marked,
                                                              suspects := a.track.suspects + a.track.fill.countP fun r => !r.suspect } } : Dev) := ⟨_, rfl⟩
  rw [← hb]
  have lv : b.liveAt p = ((ringFrom p).filterMap fun q => (a.entry q).record) ++ a.track.fill.map CanRecord.marked := by
    rw [hb]; rfl
  have mk : ∀ r : CanRecord, r.bad = false → r.marked.slot = r.slot ∧ r.marked.recipe = r.recipe ∧ r.marked.seq = r.seq ∧ r.marked.bad = false := by
    intro r hr
    have s := CanRecord.sound_parts hr
    refine ⟨rfl, rfl, rfl, ?_⟩
    unfold CanRecord.marked CanRecord.bad; rw [s.1]; rfl
  have bk : b.Books (b.liveAt p) := by
    have bk := h.books
    unfold Dev.liveAt at bk
    rw [lv]
    refine bk.same ?_ ?_ (by rw [hb]) (by rw [hb]) ?_
    · rw [List.map_append, List.map_append, List.map_map]; rfl
    · intro x hx
      rcases List.mem_append.1 hx with hx | hx
      · exact bk.sound x (List.mem_append_left _ hx)
      · obtain ⟨r, hr, rfl⟩ := List.mem_map.1 hx
        exact (mk r (sound r hr)).2.2.2
    · have := bk.suspects
      rw [List.countP_append] at this
      rw [List.countP_append, List.countP_map]
      have e : ((fun r : CanRecord => r.suspect) ∘ CanRecord.marked) = fun _ => true := rfl
      rw [e, List.countP_true, hb]
      show a.track.suspects + _ = _
      rw [this, Nat.add_assoc]
      congr 1
      have := List.length_eq_countP_add_countP (fun r : CanRecord => r.suspect) (l := a.track.fill)
      rw [this]
      congr 2
      funext r
      cases r.suspect <;> rfl
  have g : Goes p p a b := by
    refine ⟨Dev.LawsIn.at ?_, ?_, by rw [hb], by rw [hb], by rw [hb]⟩
    · have su : b.su = a.su := by rw [hb]; rfl
      rw [su]
      refine h.in.rest ?_ bk (h.in.pockets.ring (by rw [hb])) ?_
      · rw [hb]; exact ⟨.same rfl rfl rfl rfl, rfl, rfl, rfl, rfl⟩
      · have : ∀ x, b.entry x = a.entry x := fun x => by rw [hb]; rfl
        intro hp x; rw [this]; exact h.setup.empty hp x
    · rw [lv]
      unfold Dev.liveAt
      rw [List.map_append, List.map_append, List.map_map]
      exact List.Sublist.refl _
  obtain ⟨_, e⟩ := Dev.raise_shape .trackSuspect b
  exact g.same (b.raise_view _) (by rw [e]) (by rw [e])

/-! ### Position events -/

theorem Dev.raise_rest (c : Cause) (d : Dev) : (d.raise c).setup = d.setup ∧ (d.raise c).fill = d.fill := by
  obtain ⟨_, e⟩ := Dev.raise_shape c d
  rw [e]; exact ⟨rfl, rfl⟩

theorem Goes.raise (h : Goes p q a d) (c : Cause) : Goes p q a (d.raise c) := h.same (d.raise_view c) (d.raise_rest c).1 (d.raise_rest c).2

theorem Dev.handPhase_rest (x : Nat) (d : Dev) : (d.handPhase x).setup = d.setup ∧ (d.handPhase x).fill = d.fill := by
  unfold Dev.handPhase
  have h1 : (d.moveGap x).setup = d.setup ∧ (d.moveGap x).fill = d.fill := by
    unfold Dev.moveGap
    split
    · exact ⟨rfl, rfl⟩
    · exact ⟨rfl, rfl⟩
    · exact d.closeGap_rest
  rw [← h1.1, ← h1.2]
  unfold Dev.moveWeigh
  split <;> exact ⟨rfl, rfl⟩

/-- The position is written, one having been held. -/
theorem Goes.position {u : PocketUnit} (h : d.LawsAt p) (hu : u.ring = d.pocket.ring) (hp : d.pocket.pos ≠ none) (hn : u.pos ≠ none) :
    (d.setPocket u).LawsAt p ∧ (d.setPocket u).liveAt p = d.liveAt p := by
  have lv : (d.setPocket u).liveAt p = d.liveAt p := Dev.liveAt_congr hu rfl
  exact ⟨⟨by rw [lv]; exact h.books.congr rfl rfl, h.pockets.ring hu, ⟨h.table.empty, h.table.taught, h.table.one, h.table.loader, h.table.trims, h.table.untaught⟩,
    ⟨h.setup.valid, h.setup.ready, fun _ => h.setup.placed hp, fun x => absurd x hn⟩,
    ⟨h.port.waiting, h.port.idle, h.port.kind, h.port.slots⟩⟩, lv⟩

/-- An advancing event (R46, R49). -/
theorem Keeps.advance {y : Position} (hy : ∃ x, d.pocket.pos = some x ∧ x.high = y.high) :
    Keeps 0 (d.pocketNow.getD 0) ((d.advance y).pocketNow.getD 0) d (d.advance y) := by
  obtain ⟨x, hx, hh⟩ := hy
  intro h
  obtain ⟨old, ho⟩ : ∃ old, old = pocketOf y.high d.su.pitch := ⟨_, rfl⟩
  have now : d.pocketNow.getD 0 = old := by
    unfold Dev.pocketNow; rw [hx, ho, ← hh]; rfl
  rw [now] at h ⊢
  have hp : d.pocket.pos ≠ none := by rw [hx]; exact Option.some_ne_none x
  obtain ⟨a, ha⟩ : ∃ a, a = d.setPocket { d.pocket with pos := some { y with high := y.ext }, reversal := false } := ⟨_, rfl⟩
  have p1 := Goes.position (u := { d.pocket with pos := some { y with high := y.ext }, reversal := false }) h rfl hp (Option.some_ne_none _)
  rw [← ha] at p1
  have pa : a.pocket.pos = some { y with high := y.ext } := by rw [ha]; rfl
  have sa : a.setup = d.setup ∧ a.fill = d.fill := by rw [ha]; exact ⟨rfl, rfl⟩
  have main : Goes old (pocketOf y.ext d.su.pitch) a (d.advance y) := by
    unfold Dev.advance
    dsimp only
    rw [← ho]
    obtain ⟨m, hm⟩ : ∃ m, m = (pocketOf y.ext d.su.pitch - old).toNat := ⟨_, rfl⟩
    rw [← hm, ← ha]
    have k1 := Goes.boundaries m true old a p1.1 (by rw [pa]; exact Option.some_ne_none _)
    have e : old + BitVec.ofNat 32 m = pocketOf y.ext d.su.pitch := by
      rw [hm, BitVec.ofNat_toNat, BitVec.setWidth_eq, BitVec.add_comm, BitVec.sub_add_cancel]
    rw [e] at k1
    obtain ⟨b, hb⟩ : ∃ b, b = Dev.handPhase (phaseOf y.ext a.su.pitch) (Dev.boundaries m true old a) := ⟨_, rfl⟩
    rw [← hb]
    have k2 : Goes old (pocketOf y.ext d.su.pitch) a b := by
      rw [hb]; exact k1.same (Dev.handPhase_view _ _) (Dev.handPhase_rest _ _).1 (Dev.handPhase_rest _ _).2
    obtain ⟨c, hc⟩ : ∃ c, c = if 4 < m then Dev.markSuspects (b.raise .positionFault) else b := ⟨_, rfl⟩
    rw [← hc]
    have k3 : Goes old (pocketOf y.ext d.su.pitch) a c := by
      rw [hc]; split
      · exact (k2.raise _).trans (Goes.markSuspects (k2.raise _).laws)
      · exact k2
    split
    · exact k3.same rfl rfl rfl
    · exact k3.same rfl rfl rfl
  have np : (d.advance y).pocketNow.getD 0 = pocketOf y.ext d.su.pitch := by
    have : (d.advance y).su = d.su := by unfold Dev.su; rw [main.rest.1, sa.1]
    unfold Dev.pocketNow
    rw [main.rest.2.2, pa, this]; rfl
  rw [np]
  exact ⟨main.laws, fun _ _ o => o.thin (by rw [← p1.2]; exact main.seqs)
    (congrArg FillUnit.seq (main.rest.2.1.trans sa.2))⟩

theorem Goes.now (h : d.LawsAt (d.pocketNow.getD 0) → Goes (d.pocketNow.getD 0) (d.pocketNow.getD 0) d a) :
    Keeps 0 (d.pocketNow.getD 0) (a.pocketNow.getD 0) d a := by
  intro k
  have x := h k
  have e : a.pocketNow = d.pocketNow := by unfold Dev.pocketNow Dev.su; rw [x.rest.1, x.rest.2.2]
  rw [e]
  exact Goes.keeps (fun _ => x) k

/-- The device's laws and orders are kept, at most `m` numbers being given out. -/
def Kept (m : Nat) (a d : Dev) : Prop := Keeps m (a.pocketNow.getD 0) (d.pocketNow.getD 0) a d

/-- A non-advancing event (R45). -/
theorem Kept.nonAdvance {y : Position} (hy : ∃ x, d.pocket.pos = some x ∧ x.high = y.high) : Kept 0 d (d.nonAdvance y) := by
  obtain ⟨x, hx, hh⟩ := hy
  have hp : d.pocket.pos ≠ none := by rw [hx]; exact Option.some_ne_none x
  intro h
  obtain ⟨p, hp'⟩ : ∃ p, p = d.pocketNow.getD 0 := ⟨_, rfl⟩
  rw [← hp'] at h ⊢
  have p1 := Goes.position (u := { d.pocket with pos := some y }) h rfl hp (Option.some_ne_none _)
  have main : Goes p p (d.setPocket { d.pocket with pos := some y }) (d.nonAdvance y) := by
    unfold Dev.nonAdvance
    dsimp only
    split
    · have k1 := (Goes.refl p1.1).raise .positionFault
      have k2 := k1.trans (Goes.markSuspects k1.laws)
      obtain ⟨z, hz⟩ : ∃ z, z = (Dev.raise .positionFault (d.setPocket { d.pocket with pos := some y })).markSuspects := ⟨_, rfl⟩
      rw [← hz] at k2 ⊢
      exact k2.same rfl rfl rfl
    · exact .refl p1.1
  have np : (d.nonAdvance y).pocketNow.getD 0 = p := by
    have : (d.nonAdvance y).su = d.su := by unfold Dev.su; rw [main.rest.1]; rfl
    unfold Dev.pocketNow
    rw [main.rest.2.2, this, hp']
    unfold Dev.pocketNow
    rw [hx]
    show pocketOf y.high d.su.pitch = pocketOf x.high d.su.pitch
    rw [hh]
  rw [np]
  have f : (d.nonAdvance y).fill = d.fill := main.rest.2.1
  have sq := main.seqs
  rw [p1.2] at sq
  exact ⟨main.laws, fun _ _ o => o.thin sq (by rw [f])⟩

/-- A position is established (R43). -/
theorem Kept.establish {w : Word} (hp : d.pocket.pos = none) (hr : d.setup.part = .ready) : Kept 0 d (d.establish w) := by
  intro h
  obtain ⟨y, hy⟩ : ∃ y : Position, y = { last := w, ext := w.zeroExtend 48, high := w.zeroExtend 48 } := ⟨_, rfl⟩
  have e : d.establish w = Dev.startEntry (pocketOf y.high d.su.pitch) (d.setPocket { d.pocket with pos := some y }) := by
    rw [hy]; rfl
  have np : (d.establish w).pocketNow.getD 0 = pocketOf y.high d.su.pitch := by rw [e]; rfl
  rw [np, e]
  obtain ⟨q, hq⟩ : ∃ q, q = pocketOf y.high d.su.pitch := ⟨_, rfl⟩
  rw [← hq]
  have none' : ∀ x, ((Dev.startEntry q (d.setPocket { d.pocket with pos := some y })).entry x).record = none := by
    intro x
    unfold Dev.startEntry
    rw [Dev.entry_setEntry_ite]
    split
    · rfl
    · exact h.setup.empty hp x
  have bare : ∀ (z : Word) (t : Dev), (∀ x, (t.entry x).record = none) → t.liveAt z = t.track.fill := by
    intro z t k
    unfold Dev.liveAt
    rw [List.filterMap_eq_nil_iff.2 fun x _ => k x, List.nil_append]
  have l1 := bare q _ none'
  have l2 := bare (d.pocketNow.getD 0) d (h.setup.empty hp)
  have lv : (Dev.startEntry q (d.setPocket { d.pocket with pos := some y })).liveAt q = d.liveAt (d.pocketNow.getD 0) := by
    rw [l1, l2]; rfl
  refine ⟨⟨by rw [lv]; exact h.books.congr rfl rfl, fun i _ hr => absurd (none' _) hr,
    ⟨h.table.empty, h.table.taught, h.table.one, h.table.loader, h.table.trims, h.table.untaught⟩,
    ⟨h.setup.valid, h.setup.ready, fun _ => h.setup.ready (.inl hr), fun _ => none'⟩,
    ⟨h.port.waiting, h.port.idle, h.port.kind, h.port.slots⟩⟩, fun _ _ o => o.thin (by rw [lv]) rfl⟩

/-- A position word is taken (R43, R44). -/
theorem Kept.takePosition (w : Word) (hr : d.setup.part = .ready) : Kept 0 d (d.takePosition w) := by
  unfold Dev.takePosition
  split
  · rename_i hp; exact Kept.establish hp hr
  · rename_i x hx
    dsimp only
    split
    · exact Keeps.advance ⟨x, hx, rfl⟩
    · exact Kept.nonAdvance ⟨x, hx, rfl⟩

theorem Kept.trans {m' : Nat} (h : Kept m a b) (k : Kept m' b d) : Kept (m + m') a d := Keeps.trans h k

theorem Kept.same (e : d.view = a.view) : Kept 0 a d := by
  have : d.pocketNow = a.pocketNow := by
    have e1 : d.pocket.pos = a.pocket.pos := congrArg LawView.pos e
    have e2 : d.setup.setup = a.setup.setup := congrArg LawView.setup e
    unfold Dev.pocketNow Dev.su
    rw [e1, e2]
  unfold Kept
  rw [this]; exact Keeps.same e

theorem Kept.thenSame (h : Kept m a b) (e : d.view = b.view) : Kept m a d := h.trans (Kept.same e)

theorem Kept.goes (h : d.LawsAt (d.pocketNow.getD 0) → Goes (d.pocketNow.getD 0) (d.pocketNow.getD 0) d a) : Kept 0 d a := Goes.now h

/-! ### The gate -/

theorem Goes.entry {e : Entry} (h : d.LawsAt p) (h1 : e.record = (d.entry q).record)
    (h2 : e.record ≠ none → e.occ = (d.entry q).occ) : Goes p p d (d.setEntry q e) := (Hop.entry h.in h1 h2).goes rfl

/-- A gate poll (R100 to R103). -/
theorem Kept.pollGate : Kept 0 d d.pollGate.2 := by
  refine Kept.goes fun h => ?_
  unfold Dev.pollGate
  split
  · exact .refl h
  · split
    · exact .refl h
    · rename_i g _ _
      rw [h.books.testPocket g]
      dsimp only
      split
      · exact .refl h
      · split
        · exact Goes.entry h rfl (fun _ => rfl)
        · exact Goes.entry h rfl (fun _ => rfl)

/-- An inspection of the gate (R104). -/
theorem Kept.inspectGate : Kept 0 d d.inspectGate.2 := by
  refine Kept.goes fun h => ?_
  unfold Dev.inspectGate
  split
  · exact .refl h
  · split
    · exact .refl h
    · rename_i g _ _
      rw [h.books.testPocket g]
      dsimp only
      split <;> exact .refl h

end Sys2Proof.Machine
end

