-- ==== Sys2Proof/Laws/KeptCodes.lean ====
section
/-! SUPPORT. The laws of the device through discards, re-layouts, codes and loads. -/

namespace Sys2Proof.Machine

variable {a b d : Dev} {p q : Word} {l : List CanRecord} {m n : Nat}

/-! ### Discards (R14, R150, R56) -/

theorem Dev.Books.discardRecord {r : CanRecord} (h : d.Books (r :: l)) :
    (d.discardRecord r).Books l ∧ Rest d (d.discardRecord r) ∧ (d.discardRecord r).pocket = d.pocket ∧
    (d.discardRecord r).track.fill = d.track.fill := by
  unfold Dev.discardRecord
  rw [(CanRecord.sound_parts (h.sound r List.mem_cons_self)).2]
  exact h.freeAs _ _

theorem Dev.Books.discardPockets : ∀ (ps : List Word) (d : Dev), (ps.map ringIx).Nodup → d.Books (d.recordsOf ps ++ l) →
    (ps.foldl Dev.discardPocket d).Books l ∧ Rest d (ps.foldl Dev.discardPocket d) ∧
    (ps.foldl Dev.discardPocket d).track.fill = d.track.fill ∧
    (∀ x, (∃ y ∈ ps, ringIx x = ringIx y) → ((ps.foldl Dev.discardPocket d).entry x).record = none) ∧
    KeepsOthers ps d (ps.foldl Dev.discardPocket d) := by
  intro ps
  induction ps with
  | nil => intro d _ h; exact ⟨h, .refl d, rfl, fun x ⟨y, hy, _⟩ => absurd hy List.not_mem_nil, fun _ _ => rfl⟩
  | cons y ps ih =>
    intro d hn h
    have far : ∀ z ∈ ps, ringIx z ≠ ringIx y := fun z hz => ringIx_ne_of_nodup hn hz
    rw [List.foldl_cons]
    obtain ⟨b, hb⟩ : ∃ b, b = d.discardPocket y := ⟨_, rfl⟩
    have key : b.Books (b.recordsOf ps ++ l) ∧ Rest d b ∧ b.track.fill = d.track.fill ∧ (b.entry y).record = none ∧
        ∀ x, ringIx x ≠ ringIx y → b.entry x = d.entry x := by
      rw [hb]
      unfold Dev.discardPocket
      dsimp only
      cases hr : (d.entry y).record with
      | none =>
        dsimp only
        refine ⟨?_, .refl d, rfl, hr, fun _ _ => rfl⟩
        unfold Dev.recordsOf at h
        rw [List.filterMap_cons, hr] at h; exact h
      | some r =>
        dsimp only
        obtain ⟨c, hc⟩ : ∃ c, c = d.setEntry y { d.entry y with record := none } := ⟨_, rfl⟩
        have ce : ∀ x, ringIx x ≠ ringIx y → c.entry x = d.entry x := fun x hx => by rw [hc]; exact Dev.entry_setEntry_ne d _ hx
        have bc : c.Books (r :: (d.recordsOf ps ++ l)) := by
          unfold Dev.recordsOf at h
          rw [List.filterMap_cons, hr] at h
          rw [hc]; exact h.congr rfl rfl
        have k := bc.discardRecord
        rw [← hc]
        have ke : ∀ x, (c.discardRecord r).entry x = c.entry x := fun x => by unfold Dev.entry; rw [k.2.2.1]
        refine ⟨?_, ?_, ?_, ?_, fun x hx => (ke x).trans (ce x hx)⟩
        · rw [Dev.recordsOf_congr (a := d) fun x hx => (ke x).trans (ce x (far x hx))]
          exact k.1
        · exact Rest.trans (by rw [hc]; exact Rest.moved (Dev.setEntry_moved d _ _)) k.2.1
        · rw [k.2.2.2, hc]; rfl
        · rw [ke, hc, Dev.entry_setEntry]
    rw [← hb]
    obtain ⟨k1, k2, k3, k4, k5⟩ := key
    obtain ⟨j1, j2, j3, j4, j5⟩ := ih b (List.nodup_cons.1 hn).2 k1
    refine ⟨j1, k2.trans j2, j3.trans k3, ?_, ?_⟩
    · rintro x ⟨z, hz, e⟩
      by_cases hx : ∃ w ∈ ps, ringIx x = ringIx w
      · exact j4 x hx
      · rw [j5 x fun w hw c => hx ⟨w, hw, c⟩]
        rcases List.mem_cons.1 hz with rfl | hz
        · rw [Dev.entry_ix b e]; exact k4
        · exact absurd ⟨z, hz, e⟩ hx
    · intro x hx
      rw [j5 x fun w hw => hx w (List.mem_cons_of_mem _ hw)]
      exact k5 x (hx y List.mem_cons_self)

theorem Dev.Books.discardFill : ∀ (fs : List CanRecord) (d : Dev), d.Books (fs ++ l) →
    (Dev.discardFill fs d).Books l ∧ Rest d (Dev.discardFill fs d) ∧ (Dev.discardFill fs d).pocket = d.pocket := by
  intro fs
  induction fs with
  | nil => exact fun d h => ⟨h, .refl d, rfl⟩
  | cons r fs ih =>
    intro d h
    have h0 : (d.setFillList fs).Books (r :: (fs ++ l)) :=
      ⟨h.pool, h.members, h.suspects, h.sound⟩
    have k := h0.discardRecord
    have j := ih _ k.1
    exact ⟨j.1, ((Rest.moved (Dev.setFillList_moved d fs)).trans k.2.1).trans j.2.1, j.2.2.trans k.2.2.1⟩

/-- Nothing is left on the track. -/
structure Emptied (a d : Dev) : Prop where
  books : d.Books []
  rest  : Rest a d
  fill  : d.track.fill = []
  ring  : ∀ x, (d.entry x).record = none

theorem Emptied.live (h : Emptied a d) (p : Word) : d.liveAt p = [] := by
  unfold Dev.liveAt
  rw [List.filterMap_eq_nil_iff.2 fun x _ => h.ring x, h.fill]; rfl

theorem Dev.discardTrack_emptied (h : d.LawsAt (d.pocketNow.getD 0)) : Emptied d d.discardTrack := by
  have hb : d.Books (d.recordsOf d.ringPockets ++ d.track.fill) := h.books
  have k := Dev.Books.discardPockets d.ringPockets d (ringFrom_nodup _) hb
  have e := (Dev.discardTrack_freed d).2
  unfold Dev.discardTrack at e ⊢
  dsimp only at e ⊢
  obtain ⟨k1, k2, k3, k4, _⟩ := k
  rw [← k3] at k1
  have j := Dev.Books.discardFill (l := []) _ _ (by rw [List.append_nil]; exact k1)
  refine ⟨j.1, k2.trans j.2.1, e, fun x => ?_⟩
  have : ∀ t : Dev, t.pocket = (d.ringPockets.foldl Dev.discardPocket d).pocket → t.entry x = (d.ringPockets.foldl Dev.discardPocket d).entry x :=
    fun t ht => by unfold Dev.entry; rw [ht]
  rw [this _ j.2.2]
  obtain ⟨w, hw, ew⟩ := ringFrom_all (d.pocketNow.getD 0) x
  exact k4 x ⟨w, hw, ew.symm⟩

theorem Emptied.clear (h : Emptied a d) : Emptied a d.clearRing := by
  obtain ⟨e1, e2⟩ := d.clearRing_entry
  refine ⟨h.books.congr (by rw [e1]) (by rw [e1]), h.rest.trans (Rest.moved ?_), by rw [e1]; exact h.fill, fun x => by rw [e2]; rfl⟩
  unfold Moved; rw [e1]

/-- An emptied track meets the laws, whatever the scale pocket. -/
theorem Dev.LawsAt.emptied (h : a.LawsAt p) (k : Emptied a d) (q : Word) : d.LawsAt q := by
  have lv := k.live q
  have e : d.su = a.su := by unfold Dev.su; rw [k.rest.setup]
  exact ⟨by rw [lv]; exact k.books, fun i _ hr => absurd (k.ring _) hr, h.table.leaves k.rest.leaves,
    h.setup.rest k.rest (fun _ => k.ring), h.port.leaves k.rest.leaves⟩

theorem Goes.emptied (h : a.LawsAt p) (k : Emptied a d) : Goes p q a d :=
  ⟨h.emptied k q, by rw [k.live q]; exact List.nil_sublist _, k.rest.setup, k.rest.fill, k.rest.pos⟩

/-- CLEAR_TRACK's discard (R150). -/
theorem Kept.clearTrack : Kept 0 d (Dev.clearRing d.discardTrack) :=
  Kept.goes fun h => Goes.emptied h (Dev.discardTrack_emptied h).clear

/-! ### The reader's pockets and the fill list as one list (R83) -/

/-- The live records cut at the reader pocket: those gone past it, those of Q, the fill list. A change of Q's entries
alone leaves the first. -/
theorem Dev.LawsAt.cut (h : d.LawsAt p) (hp : d.pocket.pos ≠ none) : ∃ A,
    d.liveAt p = A ++ (d.recordsOf (d.listQ (p - BitVec.ofNat 32 d.su.dRead)) ++ d.track.fill) ∧
    ∀ t : Dev, KeepsOthers (d.listQ (p - BitVec.ofNat 32 d.su.dRead)) d t →
      t.liveAt p = A ++ (t.recordsOf (d.listQ (p - BitVec.ofNat 32 d.su.dRead)) ++ t.track.fill) := by
  obtain ⟨d1, d2, d3, d4⟩ := h.setup.dims hp
  obtain ⟨g, hg⟩ : ∃ g, g = d.su.dRead := ⟨_, rfl⟩
  rw [← hg] at d1 d2 d3 ⊢
  obtain ⟨r, hr⟩ : ∃ r, r = p - BitVec.ofNat 32 g := ⟨_, rfl⟩
  rw [← hr]
  obtain ⟨tail, ht⟩ : ∃ tail, tail = (List.range (g - 1)).map fun i => r + 1#32 + BitVec.ofNat 32 i := ⟨_, rfl⟩
  have hQ : d.listQ r = r :: tail.filter fun x => decide ((d.entry x).occ = .can) := by
    unfold Dev.listQ; rw [Dev.canPockets_eq, ← hg, ht]
  obtain ⟨pre, hpre⟩ : ∃ pre, pre = (List.range (63 - g)).map fun i => p - 63#32 + BitVec.ofNat 32 i := ⟨_, rfl⟩
  have shift : ∀ i : Nat, p - 63#32 + BitVec.ofNat 32 (63 - g + (i + 1)) = r + 1#32 + BitVec.ofNat 32 i := by
    intro i
    apply BitVec.eq_of_toNat_eq
    rw [hr]
    simp only [BitVec.toNat_sub, BitVec.toNat_add, BitVec.toNat_ofNat]
    omega
  have ring : ringFrom p = pre ++ (r :: tail) ++ [p] := by
    unfold ringFrom
    have e64 : List.range 64 = List.range (63 - g) ++ (List.range g).map (63 - g + ·) ++ [63] := by
      rw [← List.range_add, show 63 - g + g = 63 by omega, List.range_succ]
    rw [e64, List.map_append, List.map_append, List.map_map, List.map_singleton, hpre]
    congr 1
    · congr 1
      rw [show g = (g - 1) + 1 by omega, List.range_succ_eq_map, List.map_cons, List.map_map, ht]
      congr 1
      · apply BitVec.eq_of_toNat_eq
        rw [hr]
        simp only [Function.comp, BitVec.toNat_sub, BitVec.toNat_add, BitVec.toNat_ofNat]
        omega
      · refine List.map_congr_left fun i _ => ?_
        have := shift i
        simp only [Function.comp]
        rw [← this]
        congr 2
        omega
    · congr 1
      exact BitVec.sub_add_cancel p 63#32
  have nd := ringFrom_nodup p
  rw [ring] at nd
  have outPre : ∀ x ∈ pre, ∀ y ∈ d.listQ r, ringIx x ≠ ringIx y := by
    intro x hx y hy e
    rw [List.map_append, List.map_append, List.append_assoc] at nd
    refine List.disjoint_of_nodup_append nd (List.mem_map_of_mem hx) ?_
    rw [e]
    refine List.mem_append_left _ (List.mem_map_of_mem ?_)
    rw [hQ] at hy
    rcases List.mem_cons.1 hy with rfl | hy
    · exact List.mem_cons_self
    · exact List.mem_cons_of_mem _ (List.mem_filter.1 hy).1
  have outLast : ∀ y ∈ d.listQ r, ringIx p ≠ ringIx y := by
    intro y hy e
    rw [List.map_append, List.map_singleton] at nd
    refine List.disjoint_of_nodup_append nd (a := ringIx y) ?_ (by rw [e]; exact List.mem_singleton.2 rfl)
    refine List.mem_map_of_mem (List.mem_append_right _ ?_)
    rw [hQ] at hy
    rcases List.mem_cons.1 hy with rfl | hy
    · exact List.mem_cons_self
    · exact List.mem_cons_of_mem _ (List.mem_filter.1 hy).1
  have ndMid : ((r :: tail).map ringIx).Nodup := by
    rw [List.map_append, List.map_append] at nd
    exact (List.nodup_append.1 (List.nodup_append.1 nd).1).2.1
  have outTail : ∀ x ∈ tail, (d.entry x).occ ≠ .can → ∀ y ∈ d.listQ r, ringIx x ≠ ringIx y := by
    intro x hx ho y hy e
    have inj := List.inj_on_of_nodup_map ndMid
    rw [hQ] at hy
    rcases List.mem_cons.1 hy with rfl | hy
    · exact ringIx_ne_of_nodup ndMid hx e
    · obtain ⟨hy1, hy2⟩ := List.mem_filter.1 hy
      have := inj (List.mem_cons_of_mem _ hx) (List.mem_cons_of_mem _ hy1) e
      subst this
      exact ho (of_decide_eq_true hy2)
  have bareTail : ∀ x ∈ tail, (d.entry x).occ ≠ .can → (d.entry x).record = none := by
    intro x hx ho
    by_contra c
    rw [ht] at hx
    obtain ⟨i, hi, rfl⟩ := List.mem_map.1 hx
    rw [List.mem_range] at hi
    have e : r + 1#32 + BitVec.ofNat 32 i = p - BitVec.ofNat 32 (g - 1 - i) := by
      apply BitVec.eq_of_toNat_eq
      rw [hr]
      simp only [BitVec.toNat_sub, BitVec.toNat_add, BitVec.toNat_ofNat]
      omega
    rw [e] at c ho
    rcases (h.pockets _ (by omega) c).2.2 with x | x
    · cases x
    · exact ho x
  have bareLast : (d.entry p).record = none := by
    by_contra c
    have := h.pockets 0 (by decide) (by rw [show p - BitVec.ofNat 32 0 = p by simp]; exact c)
    omega
  have key : ∀ t : Dev, KeepsOthers (d.listQ r) d t →
      t.liveAt p = (pre.filterMap fun x => (d.entry x).record) ++ (t.recordsOf (d.listQ r) ++ t.track.fill) := by
    intro t hk
    unfold Dev.liveAt
    rw [ring, List.filterMap_append, List.filterMap_append]
    have e1 : (pre.filterMap fun x => (t.entry x).record) = pre.filterMap fun x => (d.entry x).record :=
      List.filterMap_congr fun x hx => by rw [hk x (outPre x hx)]
    have e2 : ([p].filterMap fun x => (t.entry x).record) = [] := by
      have : (t.entry p).record = none := by rw [hk p outLast]; exact bareLast
      simp [this]
    have e3 : ((r :: tail).filterMap fun x => (t.entry x).record) = t.recordsOf (d.listQ r) := by
      unfold Dev.recordsOf
      rw [hQ, List.filterMap_cons, List.filterMap_cons, List.filterMap_filter]
      have : (tail.filterMap fun x => (t.entry x).record) =
          tail.filterMap fun x => if decide ((d.entry x).occ = .can) = true then (t.entry x).record else none := by
        refine List.filterMap_congr fun x hx => ?_
        by_cases ho : (d.entry x).occ = .can
        · rw [if_pos (decide_eq_true ho)]
        · rw [if_neg (by simpa using ho), hk x (outTail x hx ho)]
          exact bareTail x hx ho
      rw [this]
    rw [e1, e2, e3, List.append_nil, List.append_assoc]
  exact ⟨_, key d (fun _ _ => rfl), key⟩

/-- The pockets of Q lie from the reader pocket to the one before the scale pocket; those after the reader pocket are
CAN. -/
theorem Dev.listQ_mem {i : Nat} {y : Word} (h1 : 1 ≤ d.su.dRead) (h2 : d.su.dRead ≤ 31)
    (hy : y ∈ d.listQ (p - BitVec.ofNat 32 d.su.dRead)) (hi : i < 64) (e : ringIx (p - BitVec.ofNat 32 i) = ringIx y) :
    1 ≤ i ∧ i ≤ d.su.dRead ∧ p - BitVec.ofNat 32 i = y ∧
    (y = p - BitVec.ofNat 32 d.su.dRead ∨ (d.entry y).occ = .can) := by
  unfold Dev.listQ at hy
  rcases List.mem_cons.1 hy with rfl | hy
  · have := ringIx_back hi (by omega) e
    subst this
    exact ⟨h1, Nat.le_refl _, rfl, .inl rfl⟩
  · rw [Dev.canPockets_eq] at hy
    obtain ⟨hy, ho⟩ := List.mem_filter.1 hy
    obtain ⟨j, hj, rfl⟩ := List.mem_map.1 hy
    rw [List.mem_range] at hj
    have e' : p - BitVec.ofNat 32 d.su.dRead + 1#32 + BitVec.ofNat 32 j = p - BitVec.ofNat 32 (d.su.dRead - 1 - j) := by
      apply BitVec.eq_of_toNat_eq
      simp only [BitVec.toNat_sub, BitVec.toNat_add, BitVec.toNat_ofNat]
      omega
    rw [e'] at e ho ⊢
    have := ringIx_back hi (by omega) e
    subst this
    exact ⟨by omega, by omega, rfl, .inr (of_decide_eq_true ho)⟩

/-! ### Re-layouts (R12, R13, R86, R87) -/

/-- The first `k` records of S leave the books. -/
theorem Dev.Books.freeFront : ∀ (ps : List Word) (k : Nat) (d : Dev), (ps.map ringIx).Nodup →
    (∀ p ∈ ps, ∃ r, (d.entry p).record = some r) → k ≤ (d.recordsOf ps ++ d.track.fill).length →
    d.Books ((d.recordsOf ps ++ d.track.fill) ++ l) →
    (Dev.freeFront ps k d).Books ((d.recordsOf ps ++ d.track.fill).drop k ++ l) ∧ Rest d (Dev.freeFront ps k d) := by
  intro ps
  induction ps with
  | nil =>
    intro k
    induction k with
    | zero => intro d _ _ _ h; exact ⟨h, .refl d⟩
    | succ k ih =>
      intro d hn hr hk h
      cases hf : d.track.fill with
      | nil => rw [hf] at hk; simp [Dev.recordsOf] at hk
      | cons r rest =>
        have e : Dev.freeFront [] (k + 1) d = Dev.freeFront [] k (Dev.freeAs .lost r r.bad (d.setFillList rest)) := by
          rw [Dev.freeFront, hf]
        have h0 : (d.setFillList rest).Books (r :: (rest ++ l)) := by
          rw [hf] at h
          exact ⟨h.pool, h.members, h.suspects, h.sound⟩
        have j := h0.freeAs .lost r.bad
        obtain ⟨b, hb⟩ : ∃ b, b = Dev.freeAs .lost r r.bad (d.setFillList rest) := ⟨_, rfl⟩
        rw [e]
        rw [← hb] at j ⊢
        have fl : b.track.fill = rest := j.2.2.2
        have x := ih b List.nodup_nil (fun p h => absurd h List.not_mem_nil)
          (by rw [fl]; rw [hf] at hk; simpa [Dev.recordsOf] using hk) (by rw [fl]; exact j.1)
        rw [fl] at x
        exact ⟨x.1, ((Rest.moved (Dev.setFillList_moved d rest)).trans j.2.1).trans x.2⟩
  | cons y ps ih =>
    intro k d hn hr hk h
    cases k with
    | zero => exact ⟨h, .refl d⟩
    | succ k =>
      obtain ⟨r, hp⟩ := hr y List.mem_cons_self
      have e : Dev.freeFront (y :: ps) (k + 1) d =
          Dev.freeFront ps k (Dev.freeAs .lost r r.bad (d.setEntry y { d.entry y with record := none })) := by
        rw [Dev.freeFront, hp]
      have rc : d.recordsOf (y :: ps) = r :: d.recordsOf ps := by unfold Dev.recordsOf; rw [List.filterMap_cons, hp]
      rw [rc] at h hk ⊢
      have h0 : (d.setEntry y { d.entry y with record := none }).Books (r :: (d.recordsOf ps ++ d.track.fill ++ l)) :=
        h.congr rfl rfl
      have j := h0.freeAs .lost r.bad
      obtain ⟨b, hb⟩ : ∃ b, b = Dev.freeAs .lost r r.bad (d.setEntry y { d.entry y with record := none }) := ⟨_, rfl⟩
      rw [e]
      rw [← hb] at j ⊢
      have es : ∀ x ∈ ps, b.entry x = d.entry x := by
        intro x hx
        have : b.entry x = (d.setEntry y { d.entry y with record := none }).entry x :=
          congrArg (fun u : PocketUnit => u.ring.get (ringIx x)) j.2.2.1
        rw [this, Dev.entry_setEntry_ne d _ (ringIx_ne_of_nodup hn hx)]
      have ro : b.recordsOf ps = d.recordsOf ps := Dev.recordsOf_congr es
      have fl : b.track.fill = d.track.fill := j.2.2.2
      have x := ih k b (List.nodup_cons.1 hn).2 (fun x hx => by rw [es x hx]; exact hr x (List.mem_cons_of_mem _ hx))
        (by rw [ro, fl]; rw [List.cons_append, List.length_cons] at hk; omega) (by rw [ro, fl]; exact j.1)
      rw [ro, fl] at x
      exact ⟨x.1, ((Rest.moved (Dev.setEntry_moved d y _)).trans j.2.1).trans x.2⟩

theorem Dev.recordsOf_drop {d : Dev} : ∀ (ps : List Word) (k : Nat), (∀ p ∈ ps, ∃ r, (d.entry p).record = some r) →
    d.recordsOf (ps.drop k) = (d.recordsOf ps).drop k ∧ (d.recordsOf ps).length = ps.length := by
  intro ps
  induction ps with
  | nil => intro k _; rw [List.drop_nil]; exact ⟨(List.drop_nil).symm, rfl⟩
  | cons y ps ih =>
    intro k h
    obtain ⟨r, hr⟩ := h y List.mem_cons_self
    have rc : d.recordsOf (y :: ps) = r :: d.recordsOf ps := by unfold Dev.recordsOf; rw [List.filterMap_cons, hr]
    have ih' := fun k => ih k fun x hx => h x (List.mem_cons_of_mem _ hx)
    refine ⟨?_, by rw [rc, List.length_cons, (ih' 0).2]; rfl⟩
    cases k with
    | zero => rfl
    | succ k => rw [rc, List.drop_succ_cons, List.drop_succ_cons]; exact (ih' k).1

/-- The books say which slots the pool holds, not which pocket or list holds a record. -/
theorem Dev.Books.moved (h : a.Books l) (k : Moved a d) : d.Books l := by
  unfold Moved at k
  rw [k]
  exact ⟨h.pool, h.members, h.suspects, h.sound⟩

/-- What a re-layout of the pockets `q` leaves, apart from books and records. -/
structure Relaid (q : List Word) (a d : Dev) : Prop where
  others : KeepsOthers q a d
  occ    : ∀ x, (d.entry x).occ = (a.entry x).occ
  rest   : Rest a d

theorem Dev.reformNet_occ (d : Dev) (e : Entry) : (d.reformNet e).occ = e.occ := by
  unfold Dev.reformNet
  (repeat' split) <;> rfl

theorem Dev.entry_among {d : Dev} {q : List Word} (P : Entry → Prop) (x : Word) (h1 : ∀ y ∈ q, P (d.entry y))
    (h2 : (∀ y ∈ q, ringIx x ≠ ringIx y) → P (d.entry x)) : P (d.entry x) := by
  by_cases c : ∃ y ∈ q, ringIx x = ringIx y
  · obtain ⟨y, hy, e⟩ := c
    rw [Dev.entry_ix d e]; exact h1 y hy
  · exact h2 fun y hy e => c ⟨y, hy, e⟩

/-- The nets of Q formed again (R70): no record and no occupancy changes. -/
theorem Dev.reformMoved_relaid (q : List Word) (old d : Dev) (hn : (q.map ringIx).Nodup) :
    (∀ x, ((Dev.reformMoved q old d).entry x).record = (d.entry x).record ∧
      ((Dev.reformMoved q old d).entry x).occ = (d.entry x).occ) ∧
    Moved d (Dev.reformMoved q old d) ∧ (Dev.reformMoved q old d).track = d.track ∧ KeepsOthers q d (Dev.reformMoved q old d) := by
  have s := Dev.reformMoved_spec old q d hn
  dsimp only at s
  refine ⟨fun x => ?_, s.2.2.1, s.2.2.2, s.2.1⟩
  by_cases c : ∃ y ∈ q, ringIx x = ringIx y
  · obtain ⟨y, hy, e⟩ := c
    rw [Dev.entry_ix _ e, Dev.entry_ix d e, s.1 y hy]
    split
    · exact ⟨rfl, rfl⟩
    · exact ⟨Dev.reformNet_record _ _, Dev.reformNet_occ _ _⟩
  · rw [s.2.1 x fun y hy e => c ⟨y, hy, e⟩]
    exact ⟨rfl, rfl⟩

theorem Dev.recordsOf_records {a d : Dev} {q : List Word} (h : ∀ x, (d.entry x).record = (a.entry x).record) :
    d.recordsOf q = a.recordsOf q := List.filterMap_congr fun x _ => h x

/-- The records of the pockets `q`, given one by one. -/
theorem Dev.recordsOf_given {d : Dev} : ∀ (q : List Word) (rs : List CanRecord),
    (∀ (n : Nat) (y : Word), q[n]? = some y → (d.entry y).record = rs[n]?) → d.recordsOf q = rs.take q.length := by
  intro q
  induction q with
  | nil => intro rs _; rfl
  | cons y q ih =>
    intro rs h
    have h0 := h 0 y rfl
    cases rs with
    | nil =>
      have := ih [] fun n z hz => by have := h (n + 1) z hz; simpa using this
      unfold Dev.recordsOf at this ⊢
      rw [List.filterMap_cons, h0]
      simpa using this
    | cons r rs =>
      have := ih rs fun n z hz => h (n + 1) z hz
      unfold Dev.recordsOf at this ⊢
      rw [List.filterMap_cons, h0]
      simpa using this

/-- A forward re-layout by `k` records, or a close-up: the first `k` of S are freed, the order stands (R12, R86). -/
theorem Dev.LawsAt.moveForward {q : List Word} {k : Nat} (h : d.LawsAt p) (hp : d.pocket.pos ≠ none)
    (hq : q = d.listQ (p - BitVec.ofNat 32 d.su.dRead)) (hk : k ≤ (d.recordsOf q ++ d.track.fill).length) :
    let t := Dev.moveForward q k d
    t.Books (t.liveAt p) ∧ (t.liveAt p).Sublist (d.liveAt p) ∧ Relaid q d t := by
  obtain ⟨d1, d2, d3, d4⟩ := h.setup.dims hp
  obtain ⟨A, hA, hcut⟩ := h.cut hp
  rw [← hq] at hA hcut
  have nd : (q.map ringIx).Nodup := by rw [hq]; exact d.listQ_nodup _ d2
  have subq : (d.holders q).Sublist q := d.holders_sublist q
  have nds : ((d.holders q).map ringIx).Nodup := nd.sublist (subq.map _)
  have held : ∀ x ∈ d.holders q, ∃ r, (d.entry x).record = some r := fun x hx => Dev.mem_holders hx
  have rq := d.recordsOf_holders q
  have hk' : k ≤ (d.recordsOf (d.holders q) ++ d.track.fill).length := by rw [rq]; exact hk
  have bk : d.Books ((d.recordsOf (d.holders q) ++ d.track.fill) ++ A) := by
    rw [rq]
    have := h.books
    rw [hA] at this
    exact this.perm List.perm_append_comm
  have ff := Dev.Books.freeFront (d.holders q) k d nds held hk' bk
  have fs := Dev.freeFront_spec (d.holders q) k [] d d nds held hk' (.refl .lost d)
  dsimp only at fs
  obtain ⟨u, hu⟩ : ∃ u, u = Dev.freeFront (d.holders q) k d := ⟨_, rfl⟩
  rw [← hu] at ff fs
  obtain ⟨f1, f2, f3, _, _⟩ := fs
  -- the pockets not freed keep their records
  have rest : ∀ x ∈ (d.holders q).drop k, u.entry x = d.entry x := by
    intro x hx
    refine f3 x fun y hy e => ?_
    have : ((d.holders q).take k ++ (d.holders q).drop k).map ringIx = (d.holders q).map ringIx := by rw [List.take_append_drop]
    rw [← this, List.map_append] at nds
    exact List.disjoint_of_nodup_append nds (List.mem_map_of_mem hy) (by rw [← e]; exact List.mem_map_of_mem hx)
  have dr := Dev.recordsOf_drop (d.holders q) k held
  have recs : u.recordsOf ((d.holders q).drop k) ++ u.track.fill = (d.recordsOf q ++ d.track.fill).drop k := by
    rw [Dev.recordsOf_congr rest, dr.1, f1, List.drop_append, ← dr.2, rq]
  have uocc : ∀ x, (u.entry x).occ = (d.entry x).occ := by
    intro x
    by_cases c : ∃ y ∈ (d.holders q).take k, ringIx x = ringIx y
    · obtain ⟨y, hy, e⟩ := c
      rw [Dev.entry_ix u e, Dev.entry_ix d e, f2 y hy]
    · rw [f3 x fun y hy e => c ⟨y, hy, e⟩]
  have sub' : ((d.holders q).drop k).Sublist q := (List.drop_sublist _ _).trans subq
  have sound : ∀ r ∈ u.recordsOf ((d.holders q).drop k) ++ u.track.fill, r.bad = false := by
    intro r hr
    rw [recs] at hr
    refine h.books.sound r ?_
    rw [hA]
    exact List.mem_append_right _ (List.mem_of_mem_drop hr)
  have dl := Dev.deal_spec q ((d.holders q).drop k) u nd sub'
    (fun x hx => by rw [rest x hx]; exact held x (List.mem_of_mem_drop hx))
    ⟨fun x hx r hr => sound r (List.mem_append_left _ (List.mem_filterMap.2 ⟨x, hx, hr⟩)),
      fun r hr => sound r (List.mem_append_right _ hr)⟩
  dsimp only at dl
  rw [recs] at dl
  obtain ⟨v, hv⟩ : ∃ v, v = Dev.deal q ((d.holders q).drop k) u := ⟨_, rfl⟩
  rw [← hv] at dl
  obtain ⟨e1, e2, e3, e4⟩ := dl
  have vrec := Dev.recordsOf_given (d := v) q _ fun n y hy => by rw [e2 n y hy]
  have vocc : ∀ x, (v.entry x).occ = (d.entry x).occ := by
    intro x
    rw [← uocc]
    by_cases c : ∃ y ∈ q, ringIx x = ringIx y
    · obtain ⟨y, hy, e⟩ := c
      obtain ⟨n, hn⟩ := List.mem_iff_getElem?.1 hy
      rw [Dev.entry_ix v e, Dev.entry_ix u e, e2 n y hn]
    · rw [e3 x fun y hy e => c ⟨y, hy, e⟩]
  have vk : KeepsOthers q d v := by
    intro x hx
    rw [e3 x hx]
    exact f3 x fun y hy => hx y (subq.subset (List.mem_of_mem_take hy))
  have bv : v.Books ((d.recordsOf q ++ d.track.fill).drop k ++ A) := by
    have := ff.1
    rw [rq] at this
    exact this.moved e4
  have w := Dev.reformMoved_relaid q d v nd
  obtain ⟨z, hz⟩ : ∃ z, z = Dev.reformMoved q d v := ⟨_, rfl⟩
  rw [← hz] at w
  obtain ⟨w1, w2, w3, w4⟩ := w
  have zk : KeepsOthers q d z := fun x hx => (w4 x hx).trans (vk x hx)
  have zl : z.liveAt p = A ++ (d.recordsOf q ++ d.track.fill).drop k := by
    rw [hcut z zk, Dev.recordsOf_records fun x => (w1 x).1, vrec, w3, e1, List.take_append_drop]
  have zb : z.Books (z.liveAt p) := by
    rw [zl]
    exact (bv.perm List.perm_append_comm).moved w2
  intro t
  have te : t = Dev.raise .slip (z.setCode { z.code with forward := z.code.forward + BitVec.ofNat 16 k }) := by
    show Dev.moveForward q k d = _
    unfold Dev.moveForward
    dsimp only
    rw [← hu, ← hv, ← hz]
  have tv : t.view = z.view := by rw [te]; exact Dev.raise_view _ _
  have ts : t.setup = z.setup ∧ t.fill = z.fill := by
    rw [te]; exact Dev.raise_rest _ _
  have tval : t.valve = z.valve := by
    rw [te]
    obtain ⟨_, e⟩ := Dev.raise_shape .slip (z.setCode { z.code with forward := z.code.forward + BitVec.ofNat 16 k })
    rw [e]; rfl
  have ten : ∀ x, t.entry x = z.entry x := fun x => congrArg (fun v : LawView => v.ring.get (ringIx x)) tv
  refine ⟨?_, ?_, ⟨fun x hx => (ten x).trans (zk x hx), fun x => by rw [ten, (w1 x).2, vocc], ?_⟩⟩
  · rw [Dev.liveAt_view tv]; exact zb.view tv
  · rw [Dev.liveAt_view tv, zl, hA]
    exact List.Sublist.append_left (List.drop_sublist _ _) _
  · refine Rest.trans (ff.2.trans ((Rest.moved e4).trans (Rest.moved w2))) ⟨Leaves.view tv tval, ts.1, ts.2, ?_, ?_⟩
    · exact congrArg LawView.memsize tv
    · exact congrArg LawView.pos tv

/-- Records that each go one place on: with what the last place held, they are the records there were. -/
theorem filterMap_pushed {f g : Word → Option CanRecord} : ∀ (q : List Word) (r : Option CanRecord),
    (∀ (n : Nat) (y : Word), q[n]? = some y → g y = if n = 0 then r else (q[n - 1]?).bind f) →
    q.filterMap g ++ (match q.getLast? with | none => r | some y => f y).toList = r.toList ++ q.filterMap f := by
  intro q
  induction q with
  | nil => intro r _; simp
  | cons y q ih =>
    intro r h
    have g0 : g y = r := by have := h 0 y rfl; simpa using this
    have ih := ih (f y) fun n z hz => by
      have := h (n + 1) z hz
      rw [if_neg (Nat.succ_ne_zero n)] at this
      rw [this]
      cases n with
      | zero => simp
      | succ n => simp
    have e1 : (y :: q).filterMap g = r.toList ++ q.filterMap g := by
      rw [List.filterMap_cons, g0]; cases r <;> rfl
    have e2 : (y :: q).filterMap f = (f y).toList ++ q.filterMap f := by
      rw [List.filterMap_cons]; cases f y <;> rfl
    have e3 : (match (y :: q).getLast? with | none => r | some z => f z) = match q.getLast? with | none => f y | some z => f z := by
      rw [List.getLast?_cons]
      cases q.getLast? <;> rfl
    rw [e1, e3, List.append_assoc, ih, e2]

/-- A backward re-layout: every record stands where it stood among the live ones (R13, R87). -/
theorem Dev.LawsAt.moveBackward {q : List Word} (h : d.LawsAt p) (hp : d.pocket.pos ≠ none)
    (hq : q = d.listQ (p - BitVec.ofNat 32 d.su.dRead)) :
    Goes p p d (Dev.moveBackward q d) := by
  obtain ⟨d1, d2, d3, d4⟩ := h.setup.dims hp
  obtain ⟨A, hA, hcut⟩ := h.cut hp
  rw [← hq] at hA hcut
  have nd : (q.map ringIx).Nodup := by rw [hq]; exact d.listQ_nodup _ d2
  have ps := Dev.pushOn_spec q none d nd
  dsimp only at ps
  obtain ⟨t, ht⟩ : ∃ t, t = Dev.pushOn q none d := ⟨_, rfl⟩
  rw [← ht] at ps
  obtain ⟨p1, p2, p3, p4, p5⟩ := ps
  obtain ⟨v, hv⟩ : ∃ v, v = (match t.1 with | none => t.2 | some r => t.2.setFillList (r :: t.2.track.fill)) := ⟨_, rfl⟩
  have vring : ∀ x, v.entry x = t.2.entry x := fun x => by rw [hv]; cases t.1 <;> rfl
  have vfill : v.track.fill = t.1.toList ++ d.track.fill := by
    rw [hv, ← p5]; cases t.1 <;> rfl
  have vmoved : Moved d v := p4.trans (by rw [hv]; cases t.1 <;> rfl)
  have vk : KeepsOthers q d v := fun x hx => (vring x).trans (p3 x hx)
  have vl : v.recordsOf q ++ v.track.fill = d.recordsOf q ++ d.track.fill := by
    rw [vfill, ← List.append_assoc]
    congr 1
    have := filterMap_pushed (f := fun x => (d.entry x).record) (g := fun x => (v.entry x).record) q none
      (fun n y hy => by rw [vring, p2 n y hy])
    rw [Option.toList_none, List.nil_append] at this
    have l1 : (match q.getLast? with | none => none | some y => (d.entry y).record) = t.1 := by
      cases hl : q.getLast? with
      | none =>
        have : q = [] := List.getLast?_eq_none_iff.1 hl
        rw [hq] at this
        unfold Dev.listQ at this
        cases this
      | some y => exact (p1 y hl).symm
    rw [l1] at this
    exact this
  have w := Dev.reformMoved_relaid q d v nd
  obtain ⟨z, hz⟩ : ∃ z, z = Dev.reformMoved q d v := ⟨_, rfl⟩
  rw [← hz] at w
  obtain ⟨w1, w2, w3, w4⟩ := w
  have zk : KeepsOthers q d z := fun x hx => (w4 x hx).trans (vk x hx)
  have zl : z.liveAt p = d.liveAt p := by
    rw [hcut z zk, Dev.recordsOf_records fun x => (w1 x).1, w3, vl, hA]
  have zm : Moved d z := vmoved.trans w2
  have su : z.su = d.su := by unfold Dev.su; rw [(Rest.moved zm).setup]
  have zp : z.Pockets 1 z.su.dGate none p := by
    rw [su]
    intro i hi hr
    by_cases c : ∃ y ∈ q, ringIx (p - BitVec.ofNat 32 i) = ringIx y
    · obtain ⟨y, hy, e⟩ := c
      obtain ⟨i1, i2, i3, i4⟩ := Dev.listQ_mem (d := d) d1 d2 (by rw [← hq]; exact hy) hi e
      refine ⟨i1, by omega, .inr ?_⟩
      rw [(w1 _).1, vring, Dev.entry_ix t.2 e] at hr
      obtain ⟨n, hn⟩ := List.mem_iff_getElem?.1 hy
      have occ : (z.entry (p - BitVec.ofNat 32 i)).occ = (d.entry y).occ := by
        rw [(w1 _).2, vring, Dev.entry_ix t.2 e, p2 n y hn]
      rw [occ]
      rcases i4 with i4 | i4
      · exfalso
        rw [p2 n y hn] at hr
        cases n with
        | zero => exact hr rfl
        | succ n =>
          have h0 : q[0]? = some y := by rw [hq, i4]; rfl
          have inj := List.Nodup.of_map _ nd
          obtain ⟨b1, e1⟩ := List.getElem?_eq_some_iff.1 hn
          obtain ⟨b0, e0⟩ := List.getElem?_eq_some_iff.1 h0
          exact absurd ((List.Nodup.getElem_inj_iff inj).1 (e0.trans e1.symm)) (by omega)
      · exact i4
    · have e := zk (p - BitVec.ofNat 32 i) fun y hy e => c ⟨y, hy, e⟩
      rw [e] at hr ⊢
      exact h.pockets i hi hr
  have hpos : d.pocket.pos = none → ∀ x, (z.entry x).record = none := fun c => absurd c hp
  have g : Goes p p d z := by
    refine ⟨Dev.LawsIn.at (h.in.rest (Rest.moved zm) (by rw [zl]; exact h.books.moved zm) zp hpos), by rw [zl],
      (Rest.moved zm).setup, (Rest.moved zm).fill, (Rest.moved zm).pos⟩
  have te : Dev.moveBackward q d = Dev.raise .slip (z.setCode { z.code with backward := z.code.backward + 1#16 }) := by
    unfold Dev.moveBackward
    dsimp only
    rw [← ht]
    rw [hz, hv]
    all_goals (cases t.1 <;> rfl)
  rw [te]
  exact Goes.raise (d := z.setCode { z.code with backward := z.code.backward + 1#16 }) (g.same rfl rfl rfl) _

/-! ### Codes -/

/-- The pocket's record is confirmed (R16, R85), its pocket being CAN. -/
theorem Goes.confirm (h : d.LawsAt p) (q : Word) (c : CodeRec) : Goes p p d (d.confirm q c) := by
  unfold Dev.confirm
  dsimp only
  split
  · exact .refl h
  · rename_i x hx
    have s := CanRecord.sound_parts (h.books.sound x (Dev.record_live p hx))
    have hs : x.suspect = true → 1 ≤ d.track.suspects := by
      intro c
      rw [h.books.suspects]
      exact List.countP_pos_iff.2 ⟨x, Dev.record_live p hx, c⟩
    obtain ⟨n, hn⟩ : ∃ n, n = if x.suspect = true then d.track.suspects - 1 else d.track.suspects := ⟨_, rfl⟩
    rw [← hn]
    obtain ⟨e, he⟩ : ∃ e, e = ({ d.entry q with
      ident := if d.su.lotCheck = true ∧ c.lot ≠ d.lotOf x.recipe then .lotMismatch else .confirmed,
      record := some { x with suspect := false, checkOk := true } } : Entry) := ⟨_, rfl⟩
    have k := Goes.reflag (n := n) (e := e) (r' := { x with suspect := false, checkOk := true }) h hx (by rw [he])
      (.inr (by rw [he])) rfl rfl rfl (by unfold CanRecord.bad; rw [s.1]; rfl) (by
        rw [hn]
        cases hc : x.suspect with
        | true => have := hs hc; simp; omega
        | false => simp)
    rw [← he]
    exact k.same rfl rfl rfl

/-- The first of a list's first `n` that has a property. -/
theorem first_match {α : Type} (P : α → Prop) : ∀ (l : List α) (n : Nat), (∃ x ∈ l.take n, P x) →
    ∃ lost x rest, l = lost ++ x :: rest ∧ lost.length < n ∧ (∀ y ∈ lost, ¬P y) ∧ P x := by
  intro l
  induction l with
  | nil => intro n ⟨x, hx, _⟩; rw [List.take_nil] at hx; exact absurd hx List.not_mem_nil
  | cons y l ih =>
    intro n ⟨x, hx, hp⟩
    cases n with
    | zero => rw [List.take_zero] at hx; exact absurd hx List.not_mem_nil
    | succ n =>
      by_cases c : P y
      · exact ⟨[], y, l, rfl, Nat.succ_pos n, fun z hz => absurd hz List.not_mem_nil, c⟩
      · rw [List.take_succ_cons] at hx
        rcases List.mem_cons.1 hx with rfl | hx
        · exact absurd hp c
        · obtain ⟨lost, z, rest, e1, e2, e3, e4⟩ := ih n ⟨x, hx, hp⟩
          refine ⟨y :: lost, z, rest, by rw [e1]; rfl, by simpa using e2, fun w hw => ?_, e4⟩
          rcases List.mem_cons.1 hw with rfl | hw
          · exact c
          · exact e3 w hw

/-- A first code with a tag (R83 to R86, R88). -/
theorem Goes.identify (h : d.LawsAt p) (hp : d.pocket.pos ≠ none) (c : CodeRec)
    (ho : (d.entry (p - BitVec.ofNat 32 d.su.dRead)).occ ≠ .none) :
    Goes p p d (d.identify (p - BitVec.ofNat 32 d.su.dRead) c) := by
  obtain ⟨d1, d2, d3, d4⟩ := h.setup.dims hp
  obtain ⟨r, hr⟩ : ∃ r, r = p - BitVec.ofNat 32 d.su.dRead := ⟨_, rfl⟩
  rw [← hr] at ho ⊢
  obtain ⟨q, hq⟩ : ∃ q, q = d.listQ r := ⟨_, rfl⟩
  obtain ⟨A, hA, _⟩ := h.cut hp
  rw [← hr, ← hq] at hA
  have sound : d.SoundOver (d.holders q) d.track.fill := by
    refine ⟨fun x _ r hr => h.books.sound r (Dev.record_live p hr), fun r hr => h.books.sound r ?_⟩
    unfold Dev.liveAt; exact List.mem_append_right _ hr
  have ss := Dev.searchTag_sound c.tag d (d.holders q) 0 sound (fun x hx => Dev.mem_holders hx)
  rw [d.recordsOf_holders q] at ss
  unfold Dev.identify
  dsimp only
  rw [← hq]
  have conf : Goes p p d (d.conflict r) := Goes.entry h rfl (fun _ => rfl)
  by_cases hm : ∃ x ∈ (d.recordsOf q ++ d.track.fill).take 17, x.tag = c.tag
  · obtain ⟨lost, x, rest, e1, e2, e3, e4⟩ := first_match (fun x : CanRecord => x.tag = c.tag) _ 17 hm
    rw [ss.2 lost x rest e1 (by omega) e3 e4]
    dsimp only
    split
    · exact conf
    · split
      · exact Goes.confirm h r c
      · rw [Nat.zero_add]
        have mf := h.moveForward (q := q) (k := lost.length) hp (by rw [hq, hr]) (by rw [e1, List.length_append]; omega)
        dsimp only at mf
        obtain ⟨t, ht⟩ : ∃ t, t = Dev.moveForward q lost.length d := ⟨_, rfl⟩
        rw [← ht] at mf ⊢
        obtain ⟨m1, m2, m3⟩ := mf
        obtain ⟨z, hz⟩ : ∃ z, z = t.setEntry r (t.entry r).madeCan := ⟨_, rfl⟩
        rw [← hz]
        have mrec : (t.entry r).madeCan.record = (t.entry r).record := by unfold Entry.madeCan; split <;> rfl
        have mocc : (t.entry r).madeCan.occ = .can := by
          have o := m3.occ r
          unfold Entry.madeCan
          split
          · rfl
          · rename_i n
            cases hx : (t.entry r).occ with
            | none => exact absurd (o.symm.trans hx) ho
            | can => rfl
            | unseen => exact absurd hx n
        have zl : z.liveAt p = t.liveAt p := by rw [hz]; exact Dev.liveAt_setEntry_same p r t mrec
        have rest : Rest d z := m3.rest.trans (by rw [hz]; exact Rest.moved (Dev.setEntry_moved t r _))
        have su : z.su = d.su := by unfold Dev.su; rw [rest.setup]
        have zp : z.Pockets 1 z.su.dGate none p := by
          rw [su, hz]
          intro i hi hx
          rw [Dev.entry_setEntry_ite] at hx ⊢
          by_cases c1 : ringIx (p - BitVec.ofNat 32 i) = ringIx r
          · rw [if_pos c1]
            have : i = d.su.dRead := by rw [hr] at c1; exact ringIx_back hi (by omega) c1
            exact ⟨by omega, by omega, .inr mocc⟩
          · rw [if_neg c1] at hx ⊢
            by_cases c2 : ∃ y ∈ q, ringIx (p - BitVec.ofNat 32 i) = ringIx y
            · obtain ⟨y, hy, e⟩ := c2
              obtain ⟨i1, i2, i3, i4⟩ := Dev.listQ_mem (d := d) d1 d2 (by rw [← hr, ← hq]; exact hy) hi e
              refine ⟨i1, by omega, .inr ?_⟩
              rw [m3.occ, i3]
              rcases i4 with i4 | i4
              · exact absurd (by rw [e, i4, hr]) c1
              · exact i4
            · have e := m3.others (p - BitVec.ofNat 32 i) fun y hy e => c2 ⟨y, hy, e⟩
              rw [e] at hx ⊢
              exact h.pockets i hi hx
        have zb : z.Books (z.liveAt p) := by rw [zl, hz]; exact m1.congr rfl rfl
        have g : Goes p p d z :=
          ⟨Dev.LawsIn.at (h.in.rest rest zb zp (fun c => absurd c hp)), by rw [zl]; exact m2.map _, rest.setup, rest.fill, rest.pos⟩
        exact g.trans (Goes.confirm g.laws r c)
  · rw [ss.1 fun x hx e => hm ⟨x, hx, e⟩]
    exact conf

theorem Goes.untag (h : d.LawsAt p) (hp : d.pocket.pos ≠ none) :
    Goes p p d (d.untag (p - BitVec.ofNat 32 d.su.dRead)) := by
  unfold Dev.untag
  dsimp only
  obtain ⟨a, ha⟩ : ∃ a, a = if (d.entry (p - BitVec.ofNat 32 d.su.dRead)).record.isSome = true then
    d.moveBackward (d.listQ (p - BitVec.ofNat 32 d.su.dRead)) else d := ⟨_, rfl⟩
  rw [← ha]
  have k : Goes p p d a := by
    rw [ha]; split
    · exact h.moveBackward hp rfl
    · exact .refl h
  exact k.trans (Goes.entry k.laws rfl (fun _ => rfl))

/-- A code that applies to the reader pocket (R78 to R83). -/
theorem Kept.applyCode (c : CodeRec) : Kept 0 d (d.applyCode c) := by
  refine Kept.goes fun h => ?_
  unfold Dev.applyCode
  cases hn : d.pocketNow with
  | none => exact (Goes.refl (hn ▸ h)).same rfl rfl rfl
  | some p =>
    rw [hn] at h
    have hp : d.pocket.pos ≠ none := by
      intro c
      unfold Dev.pocketNow at hn
      rw [c] at hn; cases hn
    dsimp only [Option.getD_some] at h ⊢
    have now := Goes.refl h
    split
    · exact now.same rfl rfl rfl
    · split
      · unfold Dev.firstCode
        dsimp only
        split
        · exact Goes.entry h rfl (fun _ => rfl)
        · split
          · exact now.same rfl rfl rfl
          · rename_i ho
            obtain ⟨r, hr⟩ : ∃ r, r = p - BitVec.ofNat 32 d.su.dRead := ⟨_, rfl⟩
            rw [← hr] at ho ⊢
            obtain ⟨b, hb⟩ : ∃ b, b = d.setEntry r { d.entry r with codes := 1, codeLot := some c.lot } := ⟨_, rfl⟩
            have k : Goes p p d b := by rw [hb]; exact Goes.entry h rfl (fun _ => rfl)
            have pb : b.pocket.pos ≠ none := by rw [k.rest.2.2]; exact hp
            have su : b.su = d.su := by unfold Dev.su; rw [k.rest.1]
            have ob : (b.entry r).occ ≠ .none := by rw [hb, Dev.entry_setEntry]; exact ho
            rw [← hb]
            rw [hr, ← su] at ob ⊢
            split
            · exact k.trans (Goes.untag k.laws pb)
            · exact k.trans (Goes.identify k.laws pb c ob)
      · unfold Dev.laterCode
        dsimp only
        split
        · exact (Goes.entry (q := p - BitVec.ofNat 32 d.su.dRead) (e := { d.entry (p - BitVec.ofNat 32 d.su.dRead) with
            codes := satSucc 255 (d.entry (p - BitVec.ofNat 32 d.su.dRead)).codes }) h rfl (fun _ => rfl)).same rfl rfl rfl
        · exact Goes.entry h rfl (fun _ => rfl)

/-- A slot of the code ring is taken (R75, R76). -/
theorem Kept.takeCode (j : Nat) (c : CodeRec) (s : Word) : Kept 0 d (d.takeCode j c s) := by
  unfold Dev.takeCode
  split
  · exact Kept.same rfl
  · dsimp only
    obtain ⟨a, ha⟩ : ∃ a, a = if j = d.code.expected then d else d.raise .readerFault := ⟨_, rfl⟩
    rw [← ha]
    have ea : a.view = d.view := by rw [ha]; split; rfl; exact d.raise_view _
    exact ((Kept.same (d := a.setCode { a.code with missRun := 0 }) (a := d) ea).trans (Kept.applyCode c)).thenSame rfl

/-! ### Loads (R165, R166, R56) -/

/-- The part state changes, a setup being in effect where the new one needs one. -/
theorem Kept.part {x : PartState} (e : d.view = { a.view with part := x })
    (k : a.SetupLaws → x = .ready ∨ x = .loading true → a.setup.setup ≠ none) : Kept 0 a d := by
  have e1 : d.pocket.pos = a.pocket.pos := congrArg LawView.pos e
  have e2 : d.setup.setup = a.setup.setup := congrArg LawView.setup e
  have np : d.pocketNow = a.pocketNow := by unfold Dev.pocketNow Dev.su; rw [e1, e2]
  unfold Kept
  rw [np]
  obtain ⟨b, hb⟩ : ∃ b : Dev, b = { a with setup := { a.setup with part := x } } := ⟨_, rfl⟩
  have eb : d.view = b.view := by rw [e, hb]; rfl
  intro h
  have hl : b.LawsAt (a.pocketNow.getD 0) := by
    rw [hb]
    exact ⟨⟨h.books.pool, h.books.members, h.books.suspects, h.books.sound⟩, h.pockets,
      ⟨h.table.empty, h.table.taught, h.table.one, h.table.loader, h.table.trims, h.table.untaught⟩,
      ⟨h.setup.valid, k h.setup, h.setup.placed, h.setup.empty⟩, ⟨h.port.waiting, h.port.idle, h.port.kind, h.port.slots⟩⟩
  refine ⟨hl.congr eb, fun n _ o => ?_⟩
  have : b.OrdAt (a.pocketNow.getD 0) n := by rw [hb]; exact o
  exact this.congr eb

/-- A load begins (R165). -/
theorem Kept.beginLoad : Kept 0 d d.beginLoad := by
  unfold Dev.beginLoad
  dsimp only
  obtain ⟨a, ha⟩ : ∃ a, a = if decide (d.setup.part = .ready) = true then d else d.acknowledge (~~~0#21) := ⟨_, rfl⟩
  rw [← ha]
  have ea : a.view = d.view := by rw [ha]; split; rfl; exact d.acknowledge_view _
  refine Kept.part (x := .loading (decide (d.setup.part = .ready))) ?_ ?_
  · rw [Dev.placeBurst_view, ← ea]; rfl
  · rintro h (x | x)
    · cases x
    · injection x with x
      exact h.ready (.inl (of_decide_eq_true x))

/-- A LOAD word is taken (R165). -/
theorem Kept.takeLoad (v : LoadValue) : Kept 0 d (d.takeLoad v) := by
  unfold Dev.takeLoad
  split
  · exact Kept.same rfl
  · split
    · exact Kept.same rfl
    · exact Kept.same rfl
    · exact Kept.beginLoad
    · split
      · exact Kept.beginLoad
      · split
        · exact Kept.same (Dev.raise_view _ _)
        · exact Kept.same rfl

/-- A setup goes into effect: its geometry is the one the records lie by, or there are none. -/
theorem Dev.LawsAt.putSetup {u : Setup} (h : d.LawsAt p) (hu : setupCheck d.size u = none)
    (hg : (∀ x, (d.entry x).record = none) ∨ u.dGate = d.su.dGate) : (d.putSetup u).LawsAt p := by
  have some' : (d.putSetup u).setup.setup = some u := rfl
  refine ⟨⟨h.books.pool, h.books.members, h.books.suspects, h.books.sound⟩, ?_,
    ⟨h.table.empty, h.table.taught, h.table.one, h.table.loader, h.table.trims, h.table.untaught⟩,
    ⟨fun v hv => ?_, fun _ => by rw [some']; exact Option.some_ne_none u, fun _ => by rw [some']; exact Option.some_ne_none u, h.setup.empty⟩,
    ⟨h.port.waiting, h.port.idle, h.port.kind, h.port.slots⟩⟩
  · rcases hg with hg | hg
    · intro i _ hr; exact absurd (hg _) hr
    · have : (d.putSetup u).su.dGate = d.su.dGate := hg
      rw [this]; exact h.pockets
  · rw [some'] at hv
    injection hv with hv
    rw [← hv]; exact hu

theorem Dev.dropGeometry_eq (d : Dev) : d.dropGeometry =
    { Dev.clearRing d.discardTrack with pocket := { (Dev.clearRing d.discardTrack).pocket with pos := none } } := by
  unfold Dev.dropGeometry
  rfl

/-- A load succeeds (R166, R56, R154). -/
theorem Kept.loadSucceeded {u : Setup} (hu : setupCheck d.size u = none) : Kept 0 d (d.loadSucceeded u) := by
  unfold Dev.loadSucceeded
  dsimp only
  cases hc : d.geometryChanges u with
  | true =>
    rw [Bool.not_true, Bool.and_false, if_pos rfl, if_neg Bool.false_ne_true]
    intro h
    have k := (Dev.discardTrack_emptied h).clear
    have dg := d.dropGeometry_eq
    revert k dg
    generalize Dev.clearRing d.discardTrack = a
    generalize d.dropGeometry = g
    intro k dg
    have l0 : g.LawsAt 0 := by
      have l := h.emptied k 0
      rw [dg]
      exact ⟨⟨l.books.pool, l.books.members, l.books.suspects, l.books.sound⟩, fun i _ hr => absurd (k.ring _) hr,
        ⟨l.table.empty, l.table.taught, l.table.one, l.table.loader, l.table.trims, l.table.untaught⟩,
        ⟨l.setup.valid, l.setup.ready, fun c => absurd rfl c, fun _ => k.ring⟩,
        ⟨l.port.waiting, l.port.idle, l.port.kind, l.port.slots⟩⟩
    have nr : ∀ x, ((Dev.loadUnits u g).entry x).record = none := fun x => by
      have : (Dev.loadUnits u g).entry x = a.entry x := by rw [dg]; rfl
      rw [this]; exact k.ring x
    have sz : (Dev.loadUnits u g).size = d.size := by
      have : (Dev.loadUnits u g).path.memsize = d.path.memsize := by
        rw [← k.rest.memsize, dg]; rfl
      unfold Dev.size; rw [this]
    have l1 : (Dev.loadUnits u g).LawsAt 0 := l0.congr rfl
    have l2 := l1.putSetup (u := u) (by rw [sz]; exact hu) (.inl nr)
    obtain ⟨c, hcc⟩ : ∃ c, c = Dev.putSetup u (Dev.loadUnits u g) := ⟨_, rfl⟩
    have pos : c.pocket.pos = none := by rw [hcc]; show g.pocket.pos = none; rw [dg]
    rw [← hcc] at l2 ⊢
    have ev : (Dev.startReporting u (c.raise .loadDone)).view = c.view := by rw [Dev.startReporting_view, Dev.raise_view]
    have np : (Dev.startReporting u (c.raise .loadDone)).pocketNow.getD 0 = 0 := by
      have : (Dev.startReporting u (c.raise .loadDone)).pocket.pos = none := (congrArg LawView.pos ev).trans pos
      unfold Dev.pocketNow; rw [this]; rfl
    rw [np]
    have lv : c.liveAt 0 = [] := by
      have ring : ∀ x, (c.entry x).record = none := fun x => by rw [hcc]; exact nr x
      have fl : c.track.fill = [] := by
        rw [hcc]
        show g.track.fill = []
        have : g.track.fill = a.track.fill := by rw [dg]
        rw [this]; exact k.fill
      unfold Dev.liveAt
      rw [List.filterMap_eq_nil_iff.2 fun x _ => ring x, fl]; rfl
    refine ⟨l2.congr ev, fun n _ _ => ?_⟩
    have : c.OrdAt 0 (n + 0) := by
      unfold Dev.OrdAt
      rw [lv]
      exact ⟨List.Pairwise.nil, fun r hr => absurd hr List.not_mem_nil⟩
    exact this.congr ev
  | false =>
    rw [if_neg Bool.false_ne_true]
    obtain ⟨old, ho, hs⟩ : ∃ old, d.setup.setup = some old ∧ sameGeometry old u = true := by
      unfold Dev.geometryChanges at hc
      cases hd : d.setup.setup with
      | none => rw [hd] at hc; cases hc
      | some old =>
        rw [hd] at hc
        dsimp only at hc
        exact ⟨old, rfl, by simpa using hc⟩
    have su : d.su = old := by unfold Dev.su; rw [ho]; rfl
    have dims : u.pitch = d.su.pitch ∧ u.dGate = d.su.dGate := by
      rw [su]
      unfold sameGeometry at hs
      simp only [Bool.and_eq_true, beq_iff_eq] at hs
      exact ⟨hs.1.1.1.1.1.1.symm, hs.1.1.1.1.2.symm⟩
    intro h
    have l1 : (Dev.loadUnits u d).LawsAt (d.pocketNow.getD 0) := h.congr rfl
    have l2 := l1.putSetup (u := u) hu (.inr dims.2)
    obtain ⟨c, hcc⟩ : ∃ c, c = Dev.putSetup u (Dev.loadUnits u d) := ⟨_, rfl⟩
    have pos : c.pocket.pos = d.pocket.pos := by rw [hcc]; rfl
    have csu : c.su = u := by rw [hcc]; rfl
    have lv : c.liveAt (d.pocketNow.getD 0) = d.liveAt (d.pocketNow.getD 0) := by rw [hcc]; rfl
    have cf : c.fill = d.fill := by rw [hcc]; rfl
    rw [← hcc] at l2 ⊢
    obtain ⟨x, hx⟩ : ∃ x, x = if (d.setup.retained && !false) = true then (c.raise .loadDone).markSuspects else c.raise .loadDone := ⟨_, rfl⟩
    rw [← hx]
    have g1 := (Goes.refl l2).raise .loadDone
    have g : Goes (d.pocketNow.getD 0) (d.pocketNow.getD 0) c x := by
      rw [hx]; split
      · exact g1.trans (Goes.markSuspects g1.laws)
      · exact g1
    have ev := Dev.startReporting_view x u
    have np : (Dev.startReporting u x).pocketNow = d.pocketNow := by
      have e1 : (Dev.startReporting u x).pocket.pos = d.pocket.pos := ((congrArg LawView.pos ev).trans g.rest.2.2).trans pos
      have e2 : (Dev.startReporting u x).su = u := by
        have : (Dev.startReporting u x).setup.setup = c.setup.setup := (congrArg LawView.setup ev).trans (congrArg SetupUnit.setup g.rest.1)
        unfold Dev.su; rw [this]; exact csu
      unfold Dev.pocketNow
      rw [e1, e2, dims.1]
    rw [np]
    refine ⟨g.laws.congr ev, fun n _ o => ?_⟩
    have : x.OrdAt (d.pocketNow.getD 0) n := o.thin (by rw [← lv]; exact g.seqs) (by rw [g.rest.2.1, cf])
    exact this.congr ev

/-- A burst of the setup block is answered (R166, R167). -/
theorem Kept.setupAnswered (ok : Bool) (ws : List Word) : Kept 0 d (d.setupAnswered ok ws) := by
  unfold Dev.setupAnswered
  cases hp : d.setup.part with
  | loading fromReady =>
    have fail : ∀ e, Kept 0 d (d.loadFailed fromReady e) := by
      intro e
      unfold Dev.loadFailed
      refine Kept.part (x := if fromReady then .ready else .unloaded) ((Dev.raise_view _ _).trans rfl) ?_
      intro h _
      cases fromReady with
      | true => exact h.ready (.inr hp)
      | false => rename_i x; rcases x with x | x <;> cases x
    dsimp only
    split
    · exact fail _
    · split
      · exact Kept.same (Dev.placeBurst_view _ _)
      · split
        · exact fail _
        · rename_i hc
          exact Kept.loadSucceeded hc
  | unplaced => exact Kept.same rfl
  | unloaded => exact Kept.same rfl
  | ready => exact Kept.same rfl

/-! ### Timers -/

theorem Kept.lineStops : Kept 0 d d.lineStops := by
  unfold Dev.lineStops
  dsimp only
  obtain ⟨a, ha⟩ : ∃ a, a = Dev.raise .lineStopped
    { d with pocket := { d.pocket with running := false, stall := none, stop := .running 0 },
             weigh := { d.weigh with silence := .idle } } := ⟨_, rfl⟩
  rw [← ha]
  have k : Kept 0 d a := Kept.same (by rw [ha]; exact Dev.raise_view _ _)
  split
  · exact k.trans Kept.beginLoad
  · exact k

theorem Kept.stallExpired : Kept 0 d d.stallExpired := by
  unfold Dev.stallExpired
  split
  · exact Kept.same rfl
  · split
    · exact Kept.lineStops
    · exact Kept.same rfl

theorem Kept.markSuspects : Kept 0 d d.markSuspects := Kept.goes Goes.markSuspects

theorem Kept.stopExpired : Kept 0 d d.stopExpired := by
  unfold Dev.stopExpired
  split
  · split
    · exact (Kept.same (a := d) (d := d.setPocket { d.pocket with stop := .expired }) rfl).trans Kept.markSuspects
    · exact Kept.same rfl
  · exact Kept.same rfl

/-- A millisecond passes (log 4). -/
theorem Kept.tick : Kept 0 d d.tick := by
  have step : ∀ (c : Bool) (x y : Dev), Kept 0 x y → Kept 0 x (if c = true then y else x) := by
    intro c x y h
    cases c
    · exact Kept.same rfl
    · exact h
  unfold Dev.tick
  dsimp only
  refine Kept.thenSame ?_ (Dev.settle_view _)
  refine ((((Kept.same (a := d) (d := d.countTimers) rfl).trans (step _ _ _ Kept.stallExpired)).trans (step _ _ _ Kept.stopExpired)).trans
    (step _ _ _ (Kept.same (Dev.silenceExpired_view _)))).trans (step _ _ _ (Kept.same (Dev.ageExpired_view _))) |>.trans
    (step _ _ _ (Kept.same (Dev.rereadExpired_view _)))

end Sys2Proof.Machine
end

