-- ==== Sys2Proof/Laws/KeptOrders.lean ====
section
/-! SUPPORT. The laws of the device through recipe loads, orders, drains, fills, the switch and valve commands. -/

namespace Sys2Proof.Machine

variable {a b d : Dev} {p q : Word} {l : List CanRecord} {m n : Nat}

/-! ### Changes of the recipe table -/

/-- The laws after a step that changes only the recipe table, the loader and the valve records. -/
theorem Kept.recipes {s : Vector RecipeSlot 4} {lo : Option Loader} {vs : Vector ValveRec 64}
    (e : d.view = { a.view with slots := s, loader := lo, recs := vs })
    (k : a.TableLaws → a.PortLaws → d.TableLaws ∧ d.PortLaws ∧ ∀ j, (d.slot j).members = (a.slot j).members) : Kept 0 a d := by
  have e1 : d.pocket.pos = a.pocket.pos := congrArg LawView.pos e
  have e2 : d.setup.setup = a.setup.setup := congrArg LawView.setup e
  have e3 : d.track = a.track := congrArg LawView.track e
  have e4 : d.pocket.ring = a.pocket.ring := congrArg LawView.ring e
  have e5 : d.setup.part = a.setup.part := congrArg LawView.part e
  have e6 : d.path.memsize = a.path.memsize := congrArg LawView.memsize e
  have e7 : d.fill.seq = a.fill.seq := congrArg LawView.seq e
  have su : d.su = a.su := by unfold Dev.su; rw [e2]
  have np : d.pocketNow = a.pocketNow := by unfold Dev.pocketNow; rw [e1, su]
  have en : ∀ x, d.entry x = a.entry x := fun x => by unfold Dev.entry; rw [e4]
  unfold Kept
  rw [np]
  intro h
  obtain ⟨t, pl, mem⟩ := k h.table h.port
  have lv : d.liveAt (a.pocketNow.getD 0) = a.liveAt (a.pocketNow.getD 0) := Dev.liveAt_congr e4 (by rw [e3])
  refine ⟨⟨⟨?_, fun j => ?_, ?_, ?_⟩, ?_, t, ⟨?_, ?_, ?_, ?_⟩, pl⟩, fun _ _ o => o.thin (by rw [lv]) e7⟩
  · rw [lv, e3]; exact h.books.pool
  · rw [lv, mem]; exact h.books.members j
  · rw [lv, e3]; exact h.books.suspects
  · rw [lv]; exact h.books.sound
  · rw [su]; exact h.pockets.ring e4
  · have : d.size = a.size := by unfold Dev.size; rw [e6]
    rw [e2, this]; exact h.setup.valid
  · rw [e2, e5]; exact h.setup.ready
  · rw [e1, e2]; exact h.setup.placed
  · rw [e1]; exact fun c x => by rw [en]; exact h.setup.empty c x

theorem Dev.PortLaws.slots' (h : a.PortLaws) (e : d.path.upstream = a.path.upstream)
    (k : ∀ j, (a.slot j).st = .current ∨ (a.slot j).st = .draining → (d.slot j).st = .current ∨ (d.slot j).st = .draining) :
    d.PortLaws :=
  ⟨by rw [e]; exact h.waiting, by rw [e]; exact h.idle, by rw [e]; exact h.kind,
    fun x us hu f hf ht => k _ (h.slots x us (e ▸ hu) f hf ht)⟩

/-- A slot still to be switched to changes; the loader with it. -/
theorem Kept.setSlot {k : Fin 4} {s : RecipeSlot} {lo : Option Loader}
    (e : d.view = { a.view with slots := a.order.slots.set k.val s k.isLt, loader := lo })
    (c : a.TableLaws → ((a.slot k).st = .free ∨ (a.slot k).st = .loading ∨ (a.slot k).st = .pending) ∧
      (s.st = .free ∨ s.st = .loading ∨ s.st = .pending) ∧ s.members = [] ∧ (s.st = .pending → s.recipe ≠ none) ∧
      (lo = none ∨ (lo = a.order.loader ∧ (a.slot k).st ≠ .loading) ∨ ∃ l, lo = some l ∧ l.slot = k ∧ s.st = .loading)) :
    Kept 0 a d := by
  refine Kept.recipes e fun t pl => ?_
  obtain ⟨c1, c2, c3, c4, c5⟩ := c t
  have sl : ∀ j, d.slot j = if j = k then s else a.slot j := by
    intro j
    have : d.slot j = (a.setSlot k s).slot j := congrArg (fun v : LawView => v.slots.get j) e
    rw [this, Dev.slot_set]
  have vr : ∀ v, d.valveRec v = a.valveRec v := fun v => congrArg (fun x : LawView => x.recs.get v) e
  have ld : d.order.loader = lo := congrArg LawView.loader e
  have up : d.path.upstream = a.path.upstream := congrArg LawView.upstream e
  have cur : ∀ j, (d.slot j).st = .current → j ≠ k ∧ (a.slot j).st = .current := by
    intro j hj
    rw [sl] at hj
    split at hj
    · rcases c2 with c | c | c <;> rw [c] at hj <;> cases hj
    · exact ⟨‹_›, hj⟩
  have cur' : ∀ j, (a.slot j).st = .current → (d.slot j).st = .current := by
    intro j hj
    rw [sl, if_neg]
    · exact hj
    · intro x; subst x; rcases c1 with c | c | c <;> rw [c] at hj <;> cases hj
  refine ⟨⟨fun j hj => ?_, fun j hj => ?_, fun i j hi hj => t.one i j (cur i hi).2 (cur j hj).2, fun l hl => ?_, fun j c v hj hc => ?_, fun hn v => ?_⟩, ?_, fun j => ?_⟩
  · rw [sl] at hj ⊢
    split
    · exact c3
    · rename_i x; rw [if_neg x] at hj; exact t.empty j hj
  · rw [sl] at hj ⊢
    split
    · rename_i x
      rw [if_pos x] at hj
      rcases hj with hj | hj
      · exact c4 hj
      · rcases c2 with c | c | c <;> rw [c] at hj <;> cases hj
    · rename_i x; rw [if_neg x] at hj; exact t.taught j hj
  · rw [ld] at hl
    rcases c5 with c5 | ⟨c5, c6⟩ | ⟨l', c5, c6, c7⟩
    · rw [c5] at hl; cases hl
    · rw [c5] at hl
      have := t.loader l hl
      rw [sl, if_neg]
      · exact this
      · intro x; rw [x] at this; exact c6 this
    · rw [c5] at hl; injection hl with hl
      rw [← hl, sl, if_pos c6]; exact c7
  · obtain ⟨x, y⟩ := cur j hj
    rw [sl, if_neg x] at hc
    rw [vr]; exact t.trims j c v y hc
  · rw [vr]; exact t.untaught (fun j hj => hn j (cur' j hj)) v
  · refine pl.slots' up fun j hj => ?_
    rw [sl, if_neg]
    · exact hj
    · intro x; subst x
      rcases c1 with c | c | c <;> rw [c] at hj <;> rcases hj with hj | hj <;> cases hj
  · rw [sl]
    split
    · rename_i x; subst x; rw [c3, t.empty j c1]
    · rfl

/-! ### Recipe loads (R131, R138) -/

theorem Dev.loadFails_view (lo : Loader) (c : OrderCode) (x : Nat) (d : Dev) :
    (d.loadFails lo c x).view = { d.view with slots := d.order.slots.set lo.slot.val .empty lo.slot.isLt, loader := none } := by
  unfold Dev.loadFails
  dsimp only
  rw [Dev.completeOrder_view]
  refine (Dev.cancelFrom_view _ _ _).trans ?_
  rw [Dev.raiseAt_view]
  split
  · rw [Dev.updateEntry_view]; rfl
  · unfold Dev.writeOrderStatus
    rw [Dev.pushOrderWrite_view]
    refine (Dev.updateEntry_view _ _ _ _).trans rfl

theorem Kept.loadFails {lo : Loader} (c : OrderCode) (x : Nat) (h : a.TableLaws → (a.slot lo.slot).st = .loading)
    : Kept 0 a (a.loadFails lo c x) :=
  Kept.setSlot (Dev.loadFails_view lo c x a) fun t => ⟨.inr (.inl (h t)), .inl rfl, rfl, fun y => (by cases y), .inl rfl⟩

/-- A recipe load begins (R131). -/
theorem Kept.startLoad : Kept 0 d d.startLoad := by
  unfold Dev.startLoad
  split
  · rename_i p i k hl hn hk
    split
    · exact Kept.same rfl
    · rename_i en _
      split
      · dsimp only
        obtain ⟨s, hs⟩ : ∃ s : RecipeSlot, s = { st := .loading, recipe := none, ref := .entry p i, members := [] } := ⟨_, rfl⟩
        rw [← hs]
        obtain ⟨b, hb⟩ : ∃ b, b = Dev.updateEntry p i (fun e => { e with status := .loading }) (d.setSlot k s) := ⟨_, rfl⟩
        rw [← hb]
        have bv : b.view = { d.view with slots := d.order.slots.set k.val s k.isLt } := by
          rw [hb, Dev.updateEntry_view]; rfl
        have free := Dev.slotIn_some hk
        have bk : b.slot k = s := by
          have : b.slot k = (d.setSlot k s).slot k := congrArg (fun v : LawView => v.slots.get k) bv
          rw [this, Dev.slot_setSlot]
        split
        · refine Kept.setSlot (k := k) (s := s) (lo := some ⟨k, p, i, en.context.toNat, []⟩) ?_ fun t => ?_
          · rw [Dev.placeBurst_view]
            have : ∀ x : Option Loader, Dev.view { b with order := { b.order with loader := x } } = { b.view with loader := x } := fun _ => rfl
            rw [this, bv]
          · rw [hs]; exact ⟨.inl free, .inr (.inl rfl), rfl, fun y => (by cases y), .inr (.inr ⟨_, rfl, rfl, rfl⟩)⟩
        · have k1 : Kept 0 d b := Kept.setSlot (k := k) (s := s) (lo := d.order.loader) bv fun t => by
            rw [hs]; exact ⟨.inl free, .inr (.inl rfl), rfl, fun y => (by cases y), .inl hl⟩
          refine k1.trans (Kept.loadFails _ _ fun _ => ?_)
          show (b.slot k).st = .loading
          rw [bk, hs]
      · exact Kept.same rfl
  · exact Kept.same rfl

/-- A recipe is loaded: its slot is PENDING (R131). -/
theorem Kept.loadSucceeds {lo : Loader} (h : d.TableLaws → (d.slot lo.slot).st = .loading) : Kept 0 d (d.loadSucceeds lo) := by
  have st : ∀ t : Dev, Dev.view { t with fill := { t.fill with switchDue := true } } = t.view := fun _ => rfl
  refine Kept.setSlot (k := lo.slot) (s := { d.slot lo.slot with st := .pending, recipe := some (recipeOfWords lo.got) }) (lo := none) ?_ fun t => ?_
  · unfold Dev.loadSucceeds
    dsimp only
    generalize (match _ with | none => true | some c => CurrentEntry.due c) = due
    split
    · rfl
    · rfl
  · exact ⟨.inr (.inl (h t)), .inr (.inr rfl), t.empty _ (.inr (.inl (h t))), fun _ => Option.some_ne_none _, .inl rfl⟩

/-- A recipe context burst is answered (R131). -/
theorem Kept.recipeAnswered (x : Nat) (ok : Bool) (ws : List Word) : Kept 0 d (d.recipeAnswered x ok ws) := by
  unfold Dev.recipeAnswered
  cases hl : d.order.loader with
  | none => exact Kept.same rfl
  | some lo =>
    have h : d.TableLaws → (d.slot lo.slot).st = .loading := fun t => t.loader lo hl
    dsimp only
    split
    · exact Kept.loadFails _ _ h
    · split
      · exact Kept.loadFails (lo := { lo with got := lo.got ++ ws }) _ _ h
      · split
        · refine Kept.setSlot (k := lo.slot) (s := d.slot lo.slot) (lo := some { lo with got := lo.got ++ ws }) ?_ fun t => ?_
          · rw [Dev.placeBurst_view]
            have : d.order.slots.set lo.slot.val (d.slot lo.slot) lo.slot.isLt = d.order.slots := Vector.set_getElem_self _
            rw [this]; rfl
          · exact ⟨.inr (.inl (h t)), .inr (.inl (h t)), t.empty _ (.inr (.inl (h t))), fun y => (by rw [h t] at y; cases y), .inr (.inr ⟨_, rfl, rfl, h t⟩)⟩
        · split
          · exact Kept.loadFails (lo := { lo with got := lo.got ++ ws }) _ _ h
          · exact Kept.loadSucceeds (lo := { lo with got := lo.got ++ ws }) h

/-! ### Orders (R132, R133) -/

theorem Kept.cancelSlot (k : Fin 4) (p : Fin 2) : Kept 0 d (d.cancelSlot k p) := by
  unfold Dev.cancelSlot
  dsimp only
  split
  · exact Kept.same rfl
  · split
    · exact Kept.same rfl
    · split
      · rename_i hs
        refine Kept.setSlot (k := k) (s := .empty) (lo := none) ?_ fun t => ⟨.inr (.inl hs), .inl rfl, rfl, fun y => (by cases y), .inl rfl⟩
        have : ∀ t : Dev, Dev.view (t.setSlot k .empty) = { t.view with slots := t.order.slots.set k.val .empty k.isLt } := fun _ => rfl
        rw [this, Dev.stopIssued_view, Dev.dropBursts_view]
        have sl : (Dev.stopIssued .recipe (Dev.dropBursts .recipe { d with order := { d.order with loader := none } })).order.slots = d.order.slots :=
          congrArg LawView.slots ((Dev.stopIssued_view _ _).trans (Dev.dropBursts_view _ _))
        rw [sl]; rfl
      · split
        · rename_i _ hs
          exact Kept.setSlot (k := k) (s := .empty) (lo := d.order.loader) rfl fun t =>
            ⟨.inr (.inr hs), .inl rfl, rfl, fun y => (by cases y), .inr (.inl ⟨rfl, by rw [hs]; decide⟩)⟩
        · exact Kept.same rfl

theorem Kept.cancelOrder (p : Fin 2) : Kept 0 d (d.cancelOrder p) := by
  unfold Dev.cancelOrder
  exact ((((Kept.cancelSlot 0 p).trans (Kept.cancelSlot 1 p)).trans (Kept.cancelSlot 2 p)).trans (Kept.cancelSlot 3 p)).thenSame
    (Dev.cancelFrom_view _ _ _)

theorem Kept.acceptOrder (o : LotOrder) (r : Bool) : Kept 0 d (d.acceptOrder o r) := by
  unfold Dev.acceptOrder
  split
  · exact Kept.same (Dev.refuseOrder_view _ _ _)
  · rename_i p _
    dsimp only
    split
    · refine Kept.same ?_
      exact (Dev.writeNewOrder_view (d.setPlace p (some o)) o).trans rfl
    · rename_i q _
      suffices key : ∀ b : Dev, Kept 0 d b → Kept 0 d (Dev.completeOrder q
          { Dev.writeNewOrder o (b.setPlace p (some o)) with
            order := { (Dev.writeNewOrder o (b.setPlace p (some o))).order with running := some p, draining := some q } }) by
        refine key _ ?_
        dsimp only
        split
        · exact Kept.cancelOrder q
        · exact Kept.same rfl
      intro b kb
      refine kb.thenSame ?_
      rw [Dev.completeOrder_view]
      exact (Dev.writeNewOrder_view (b.setPlace p (some o)) o).trans rfl

theorem Kept.decideOrder (x : Nat) (ws : List Word) : Kept 0 d (d.decideOrder x ws) := by
  unfold Dev.decideOrder
  dsimp only
  split
  · exact Kept.same (Dev.refuseOrder_view _ _ _)
  · split
    · exact Kept.acceptOrder _ _
    · exact Kept.same (Dev.refuseOrder_view _ _ _)
    · split
      · split
        · exact Kept.acceptOrder _ _
        · exact Kept.same (Dev.refuseOrder_view _ _ _)
      · exact Kept.acceptOrder _ _

theorem Kept.decideHeld : Kept 0 d d.decideHeld := by
  unfold Dev.decideHeld
  split
  · exact Kept.same rfl
  · split
    · exact (Kept.same (a := d) (d := { d with order := { d.order with fetchA := none } }) rfl).trans (Kept.decideOrder _ _)
    · exact Kept.same rfl

theorem Kept.fetchAAnswered (x : Nat) (ok : Bool) (ws : List Word) : Kept 0 d (d.fetchAAnswered x ok ws) := by
  unfold Dev.fetchAAnswered
  split
  · exact Kept.same rfl
  · dsimp only
    split
    · exact Kept.same ((Dev.raiseAt_view _ _ _).trans rfl)
    · split
      · exact Kept.same ((Dev.refuseOrder_view _ _ _).trans rfl)
      · split
        · exact Kept.same ((Dev.placeBurst_view _ _).trans rfl)
        · split
          · exact Kept.same rfl
          · exact (Kept.same (a := d) (d := { d with order := { d.order with fetchA := none } }) rfl).trans (Kept.decideOrder _ _)

/-! ### Drains (R130, R136) -/

theorem Kept.drainIfEmpty (k : Fin 4) : Kept 0 d (d.drainIfEmpty k) := by
  unfold Dev.drainIfEmpty
  dsimp only
  split
  · rename_i h
    refine Kept.thenSame ?_ (Dev.closeEntry_view _ _)
    refine Kept.recipes (s := d.order.slots.set k.val .empty k.isLt) (lo := d.order.loader) rfl fun t pl => ?_
    have lv : Leaves d (d.setSlot k .empty) := by
      refine ⟨fun j => ?_, rfl, rfl, rfl⟩
      rw [Dev.slot_set]
      split
      · rename_i x; subst x; exact .inr ⟨h.1, h.2.2, rfl, rfl⟩
      · exact .inl ⟨rfl, rfl, id⟩
    refine ⟨t.leaves lv, pl.leaves lv, fun j => ?_⟩
    rw [Dev.slot_set]
    split
    · rename_i x; subst x; exact h.2.1.symm
    · rfl
  · exact Kept.same rfl

theorem Kept.drainAll : Kept 0 d d.drainAll :=
  (((Kept.drainIfEmpty 0).trans (Kept.drainIfEmpty 1)).trans (Kept.drainIfEmpty 2)).trans (Kept.drainIfEmpty 3)

/-! ### Valve commands (R119, R120, R140) -/

theorem Dev.slotIn_absent {st : SlotState} (h : d.slotIn st = none) (j : Fin 4) : (d.slot j).st ≠ st := by
  unfold Dev.slotIn at h
  have : j = 0 ∨ j = 1 ∨ j = 2 ∨ j = 3 := by omega
  rcases this with rfl | rfl | rfl | rfl <;> ((repeat' split at h) <;> first | assumption | cases h)

theorem Kept.valve {v : Fin 64} {r : ValveRec} (k : d.TableLaws → (d.setValve v r).TableLaws) : Kept 0 d (d.setValve v r) := by
  intro h
  exact ⟨⟨h.books.congr rfl rfl, h.pockets, k h.table, ⟨h.setup.valid, h.setup.ready, h.setup.placed, h.setup.empty⟩,
    ⟨h.port.waiting, h.port.idle, h.port.kind, h.port.slots⟩⟩, fun _ _ o => o⟩

theorem Kept.commandValve (v : Fin 64) (c : ValveCommand) (x : Int) : Kept 0 d (d.commandValve v c x) := by
  unfold Dev.commandValve
  refine Kept.valve fun t => ?_
  have lim : ∀ k r, (d.slot k).st = .current → (d.slot k).recipe = some r → d.trimLimit.getD 0 = r.trimLimit := by
    intro k r hk hr
    have e : d.currentSlot = some k := Dev.slotIn_unique hk fun j hj => t.one j k hj hk
    unfold Dev.trimLimit Dev.currentRecipe
    rw [e, Option.map_some, Option.map_some, Option.getD_some]
    unfold Dev.recipeOf
    rw [hr]; rfl
  have zero : (∀ k, (d.slot k).st ≠ .current) → d.trimLimit.getD 0 = 0 := by
    intro hn
    have : d.currentSlot = none := Dev.slotIn_none hn
    unfold Dev.trimLimit Dev.currentRecipe
    rw [this]; rfl
  cases c with
  | zeroTrim => exact t.setValve (fun _ _ _ _ => Nat.zero_le _) (fun _ => rfl)
  | setTrim =>
    refine t.setValve (fun k r hk hr => ?_) (fun hn => ?_)
    · rw [← lim k r hk hr]; exact clampInt_natAbs _ _
    · have := clampInt_natAbs (d.trimLimit.getD 0) x
      rw [zero hn] at this
      show clampInt (-((d.trimLimit.getD 0 : Nat) : Int)) ((d.trimLimit.getD 0 : Nat) : Int) x = 0
      rw [zero hn]
      omega
  | armTest => exact t.setValve_same rfl
  | disarmTest => exact t.setValve_same rfl
  | suspend => exact t.setValve_same rfl
  | resume => exact t.setValve_same rfl
  | clearStats => exact t.setValve_same rfl

theorem Kept.takeCommandWords : ∀ (ws : List WWord) (v : Nat) (d : Dev), Kept 0 d (Dev.takeCommandWords v ws d) := by
  intro ws
  induction ws with
  | nil => exact fun _ _ => Kept.same rfl
  | cons w ws ih =>
    intro v d
    refine Kept.trans (m := 0) (m' := 0) ?_ (ih (v + 1) (d.takeCommandWord v w))
    unfold Dev.takeCommandWord
    split
    · exact Kept.same rfl
    · split
      · exact Kept.same rfl
      · exact Kept.commandValve _ _ _

theorem Kept.valveGroup (x : Nat) (o : ServiceOrder) (e : ServiceEntry) : Kept 0 d (d.valveGroup x o e) := by
  unfold Dev.valveGroup
  split
  · exact Kept.same (Dev.serviceFails_view _ _ _)
  · split
    · exact Kept.same rfl
    · rename_i c _ _
      dsimp only
      have fold : ∀ (vs : List (Fin 64)) (d : Dev), Kept 0 d (vs.foldl (fun d v => d.commandValve v c e.operand) d) := by
        intro vs
        induction vs with
        | nil => exact fun _ => Kept.same rfl
        | cons v vs ih => exact fun d => Kept.trans (m := 0) (m' := 0) (Kept.commandValve v c e.operand) (ih _)
      split
      · exact (fold _ d).thenSame (Dev.serviceDone_view _ _)
      · exact (fold _ d).thenSame (Dev.setService_view _ _)

/-- A service entry that is executed (R139, R140). -/
theorem Kept.service (op : Nat) (f : ServiceOrder → ServiceEntry → Dev → Dev) (k : ∀ o e, Kept 0 d (f o e d)) :
    Kept 0 d (d.service op f) := by
  unfold Dev.service
  split
  · exact Kept.same rfl
  · split
    · exact (k _ _).thenSame (Dev.settle_view _)
    · exact Kept.same rfl

theorem Kept.clearTrackEntry (o : ServiceOrder) (e : ServiceEntry) : Kept 0 d (d.clearTrack o e) := by
  unfold Dev.clearTrack
  split
  · exact Kept.same (Dev.serviceFails_view _ _ _)
  · exact Kept.clearTrack.thenSame (Dev.serviceDone_view _ _)

/-! ### Fills (R9, R23, R28, R29) -/

theorem nextSeq_age (s r : Word) (h : (s - r).toNat < 2 ^ 31) :
    0 < (nextSeq s - r).toNat ∧ (nextSeq s - r).toNat ≤ (s - r).toNat + 2 := by
  have e : ∃ c : Word, nextSeq s - r = s - r + c ∧ (c = 1#32 ∨ c = 2#32) := by
    have shift : ∀ c : Word, s + c - r = s - r + c := fun c => by
      rw [BitVec.sub_eq_add_neg, BitVec.sub_eq_add_neg, BitVec.add_assoc, BitVec.add_comm c, BitVec.add_assoc]
    unfold nextSeq
    split
    · rename_i e
      refine ⟨2#32, ?_, .inr rfl⟩
      rw [← shift, e]; rfl
    · exact ⟨1#32, shift _, .inl rfl⟩
  obtain ⟨c, e, hc⟩ := e
  rw [e]
  have hc' : c.toNat = 1 ∨ c.toNat = 2 := by rcases hc with rfl | rfl <;> simp
  rw [BitVec.toNat_add, Nat.mod_eq_of_lt (by omega)]
  omega

/-- What a tracked fill makes of the part. -/
theorem Dev.fillEffect_tracked {f : FormedFill} {x : Nat} {free : List Nat} (ht : f.tracked = true) (hf : d.track.free = x :: free) :
    d.fillEffect f = Dev.joinMembers f.recipe x
      { d.setValve f.valve ((d.valveRec f.valve).noteFill f d.fill.seq) with
        track := { d.track with free := free, fill := d.track.fill ++ [f.record x d.fill.seq] }
        fill := { d.fill with seq := nextSeq d.fill.seq } } := by
  unfold Dev.fillEffect
  rw [if_pos ht, hf]
  rfl

/-- A fill takes effect (R9, R28, R29). -/
theorem Keeps.fillEffect (f : FormedFill)
    (hs : f.tracked = true → (d.slot f.recipe).st = .current ∨ (d.slot f.recipe).st = .draining) :
    ∃ m, Keeps m p p d (d.fillEffect f) ∧ m + 3 * (d.fillEffect f).track.free.length = 3 * d.track.free.length ∧
      (d.fillEffect f).pocket = d.pocket ∧ (d.fillEffect f).setup = d.setup ∧
      ∀ j, ((d.fillEffect f).slot j).st = (d.slot j).st := by
  have un : Keeps 0 p p d d.fillUntracked ∧ d.fillUntracked.track = d.track ∧ d.fillUntracked.pocket = d.pocket ∧
      d.fillUntracked.setup = d.setup ∧ ∀ j, (d.fillUntracked.slot j).st = (d.slot j).st := by
    refine ⟨Keeps.same d.fillUntracked_view, ?_⟩
    unfold Dev.fillUntracked
    obtain ⟨_, e⟩ := Dev.raise_shape .trackFull { d with fill := { d.fill with untracked := d.fill.untracked + 1#32 } }
    rw [e]
    exact ⟨rfl, rfl, rfl, fun _ => rfl⟩
  by_cases ht : f.tracked = true
  · cases hf : d.track.free with
    | nil =>
      have e : d.fillEffect f = d.fillUntracked := by unfold Dev.fillEffect; rw [if_pos ht, hf]
      rw [e]
      exact ⟨0, un.1, by rw [un.2.1, hf]; rfl, un.2.2.1, un.2.2.2.1, un.2.2.2.2⟩
    | cons x free =>
      have hs := hs ht
      rw [Dev.fillEffect_tracked ht hf]
      obtain ⟨b, hb⟩ : ∃ b, b = Dev.joinMembers f.recipe x
        { d.setValve f.valve ((d.valveRec f.valve).noteFill f d.fill.seq) with
          track := { d.track with free := free, fill := d.track.fill ++ [f.record x d.fill.seq] }
          fill := { d.fill with seq := nextSeq d.fill.seq } } := ⟨_, rfl⟩
      rw [← hb]
      have sl : ∀ j, b.slot j = if j = f.recipe then { d.slot j with members := x :: (d.slot j).members } else d.slot j := by
        intro j
        rw [hb]
        unfold Dev.joinMembers
        rw [Dev.slot_set]
        split
        · rename_i e; subst e; rfl
        · rfl
      have st : ∀ j, (b.slot j).st = (d.slot j).st := fun j => by rw [sl]; split <;> rfl
      have rc : ∀ j, (b.slot j).recipe = (d.slot j).recipe := fun j => by rw [sl]; split <;> rfl
      have tr : b.track = { d.track with free := free, fill := d.track.fill ++ [f.record x d.fill.seq] } := by rw [hb]; rfl
      have vr : ∀ v, (b.valveRec v).trim = (d.valveRec v).trim := by
        intro v
        have : b.valveRec v = (d.setValve f.valve ((d.valveRec f.valve).noteFill f d.fill.seq)).valveRec v := by rw [hb]; rfl
        rw [this, Dev.valveRec_setValve_ite]
        split
        · rename_i e; subst e; rfl
        · rfl
      have sq : b.fill.seq = nextSeq d.fill.seq := by rw [hb]; rfl
      have lv : b.liveAt p = d.liveAt p ++ [f.record x d.fill.seq] := by
        have e : b.pocket = d.pocket := by rw [hb]; rfl
        unfold Dev.liveAt Dev.entry
        rw [e, tr, List.append_assoc]
      refine ⟨3, fun h => ⟨⟨⟨?_, fun k => ?_, ?_, ?_⟩, ?_, ⟨?_, ?_, ?_, ?_, ?_, ?_⟩, ?_, ?_⟩, fun n hn o => ?_⟩, ?_, by rw [hb]; rfl, by rw [hb]; rfl, st⟩
      · rw [lv, tr]
        have := h.books.pool
        rw [hf] at this
        refine List.Perm.trans ?_ this
        rw [List.map_append, List.map_singleton, ← List.append_assoc]
        exact List.perm_append_singleton _ _
      · rw [lv, List.filter_append, List.map_append, sl]
        have := h.books.members k
        by_cases e : k = f.recipe
        · rw [if_pos e]
          have e2 : [f.record x d.fill.seq].filter (fun r => r.recipe == k) = [f.record x d.fill.seq] := by
            rw [List.filter_cons, if_pos (by rw [e]; exact beq_self_eq_true _)]; rfl
          rw [e2]
          exact (this.cons x).trans (List.perm_append_singleton _ _).symm
        · rw [if_neg e]
          have e2 : [f.record x d.fill.seq].filter (fun r => r.recipe == k) = [] := by
            rw [List.filter_cons, if_neg]; rfl
            exact fun c => e (beq_iff_eq.1 c).symm
          rw [e2]
          simpa using this
      · rw [lv, tr, List.countP_append]
        exact h.books.suspects
      · rw [lv]
        intro r hr
        rcases List.mem_append.1 hr with hr | hr
        · exact h.books.sound r hr
        · rw [List.mem_singleton.1 hr]; rfl
      · have e1 : b.su = d.su := by rw [hb]; rfl
        rw [e1]
        exact h.pockets.ring (by rw [hb]; rfl)
      · intro j hj
        rw [st] at hj
        rw [sl, if_neg]
        · exact h.table.empty j hj
        · intro e; subst e
          rcases hs with c | c <;> rw [c] at hj <;> rcases hj with hj | hj | hj <;> cases hj
      · intro j hj; rw [st] at hj; rw [rc]; exact h.table.taught j hj
      · intro i j hi hj; rw [st] at hi hj; exact h.table.one i j hi hj
      · intro l hl; rw [st]; exact h.table.loader l (by rw [← hl, hb]; rfl)
      · intro j c v hj hc; rw [st] at hj; rw [rc] at hc; rw [vr]; exact h.table.trims j c v hj hc
      · intro hj v; rw [vr]; exact h.table.untaught (fun k => by rw [← st]; exact hj k) v
      · have e1 : b.setup = d.setup ∧ b.pocket = d.pocket ∧ b.path = d.path := by rw [hb]; exact ⟨rfl, rfl, rfl⟩
        refine ⟨?_, by rw [e1.1]; exact h.setup.ready, by rw [e1.1, e1.2.1]; exact h.setup.placed, ?_⟩
        · have : b.size = d.size := by unfold Dev.size; rw [e1.2.2]
          rw [e1.1, this]; exact h.setup.valid
        · unfold Dev.entry; rw [e1.2.1]; exact h.setup.empty
      · refine h.port.slots' (by rw [hb]; rfl) fun j hj => by rw [st]; exact hj
      · have age : ∀ r ∈ d.liveAt p, 0 < (d.fill.seq - r.seq).toNat ∧ (d.fill.seq - r.seq).toNat < n := o.2
        refine ⟨?_, ?_⟩
        · rw [lv, List.pairwise_append]
          refine ⟨o.1, List.pairwise_singleton _ _, fun r hr y hy => ?_⟩
          rw [List.mem_singleton.1 hy]
          have := age r hr
          show 0 < (d.fill.seq - r.seq).toInt
          rw [BitVec.toInt_eq_toNat_cond, if_pos (by omega)]
          omega
        · intro r hr
          rw [sq]
          rw [lv] at hr
          rcases List.mem_append.1 hr with hr | hr
          · have := age r hr
            have := nextSeq_age d.fill.seq r.seq (by omega)
            omega
          · rw [List.mem_singleton.1 hr]
            have e : (f.record x d.fill.seq).seq = d.fill.seq := rfl
            rw [e]
            have := nextSeq_age d.fill.seq d.fill.seq (by simp)
            simp only [BitVec.sub_self, BitVec.toNat_ofNat] at this
            omega
      · rw [tr, List.length_cons]; dsimp only; omega
  · have e : d.fillEffect f = d.fillUntracked := by unfold Dev.fillEffect; rw [if_neg ht]
    rw [e]
    exact ⟨0, un.1, by rw [un.2.1]; omega, un.2.2.1, un.2.2.2.1, un.2.2.2.2⟩

/-- The fills of a read take effect one after another (R23). -/
theorem Keeps.fillEffects : ∀ (fs : List FormedFill) (d : Dev),
    (∀ f ∈ fs, f.tracked = true → (d.slot f.recipe).st = .current ∨ (d.slot f.recipe).st = .draining) →
    ∃ m, Keeps m p p d (fs.foldl (fun d f => d.fillEffect f) d) ∧ m ≤ 3 * d.track.free.length ∧
      (fs.foldl (fun d f => d.fillEffect f) d).pocket = d.pocket ∧ (fs.foldl (fun d f => d.fillEffect f) d).setup = d.setup := by
  intro fs
  induction fs with
  | nil => intro d _; exact ⟨0, Keeps.refl, Nat.zero_le _, rfl, rfl⟩
  | cons f fs ih =>
    intro d h
    obtain ⟨m1, k1, e1, p1, s1, t1⟩ := Keeps.fillEffect (p := p) f (h f List.mem_cons_self)
    obtain ⟨m2, k2, e2, p2, s2⟩ := ih (d.fillEffect f) fun g hg ht => by rw [t1]; exact h g (List.mem_cons_of_mem _ hg) ht
    exact ⟨m1 + m2, k1.trans k2, by omega, p2.trans p1, s2.trans s1⟩

/-- The numbers one fill read can give out, doubled and more: at most one for each slot of the pool. -/
def readNumbers : Nat := 1536

/-- The fills of a read take effect, with what they count and raise (R23, R134, R135). -/
theorem Kept.takeFills (c : Ctx) (hs : ∀ f ∈ c.formed, f.tracked = true →
    (d.slot f.recipe).st = .current ∨ (d.slot f.recipe).st = .draining) : Kept readNumbers d (d.takeFills c) := by
  intro h
  refine Kept.trans (m := readNumbers) (m' := 0) (b := c.formed.foldl (fun d f => d.fillEffect f) (d.countFills c)) ?_ ?_ h
  · intro h
    have ev := d.countFills_view c
    have pn : (d.countFills c).pocket = d.pocket ∧ (d.countFills c).setup = d.setup ∧ (d.countFills c).track = d.track ∧
        (d.countFills c).order.slots = d.order.slots := ⟨rfl, rfl, rfl, rfl⟩
    obtain ⟨m, k, e, p1, s1⟩ := Keeps.fillEffects (p := d.pocketNow.getD 0) c.formed (d.countFills c)
      (fun f hf ht => by unfold Dev.slot; rw [pn.2.2.2]; exact hs f hf ht)
    have np : (c.formed.foldl (fun d f => d.fillEffect f) (d.countFills c)).pocketNow = d.pocketNow := by
      unfold Dev.pocketNow Dev.su
      rw [p1, s1, pn.1, pn.2.1]
    rw [np]
    have len : d.track.free.length ≤ 512 := by
      have := h.books.pool.length_eq
      rw [List.length_append, List.length_range] at this
      omega
    rw [pn.2.2.1] at e
    exact Keeps.mono ((Keeps.same ev).trans k) (by unfold readNumbers; omega) h
  · unfold Dev.takeFills
    dsimp only
    refine Kept.trans (m := 0) (m' := 0) ?_ Kept.drainAll
    exact Kept.same (by split; exact Dev.raise_view _ _; rfl)

/-! ### The switch (R32 to R34, R136) -/

theorem Goes.reformBare (h : d.LawsAt p) : Goes p p d d.reformBare := by
  unfold Dev.reformBare
  generalize List.range 64 = l
  revert h
  revert d
  induction l with
  | nil => exact fun h => .refl h
  | cons x l ih =>
    intro d h
    rw [List.foldl_cons]
    dsimp only
    split
    · have k : Goes p p d (d.setEntry (BitVec.ofNat 32 x) (d.reformNet (d.entry (BitVec.ofNat 32 x)))) :=
        Goes.entry h (Dev.reformNet_record _ _) (fun _ => Dev.reformNet_occ _ _)
      exact k.trans (ih k.laws)
    · exact ih h

theorem ValveRec.switched_trim (r : ValveRec) (c : Recipe) : (r.switched c).trim.natAbs ≤ c.trimLimit := by
  unfold ValveRec.switched
  dsimp only
  split
  · exact clampInt_natAbs _ _
  · exact Nat.zero_le _

/-- The switch to the PENDING slot (R33, R136). -/
theorem Kept.switchTo {k : Fin 4} (c : Ctx) (hk : d.slotIn .pending = some k) : Kept 0 d (d.switchTo k c) := by
  have pk := Dev.slotIn_some hk
  unfold Dev.switchTo
  dsimp only
  obtain ⟨b, hb⟩ : ∃ b, b = Dev.fillOldEntry c (d.switchValves (d.recipeOf k)) := ⟨_, rfl⟩
  have bv : b.view = { d.view with recs := (d.switchValves (d.recipeOf k)).valve.recs } := by
    rw [hb, Dev.fillOldEntry_view]
    obtain ⟨u, e⟩ := d.switchValves_shape (d.recipeOf k)
    rw [e]; rfl
  have bsl : ∀ j, b.slot j = d.slot j := fun j => congrArg (fun v : LawView => v.slots.get j) bv
  have brec : ∀ v, b.valveRec v = (d.valveRec v).switched (d.recipeOf k) := fun v =>
    (congrArg (fun x : LawView => x.recs.get v) bv).trans (Dev.valveRec_switchValves _ d v)
  rw [← hb]
  clear hb
  -- the new CURRENT slot, the old one being DRAINING
  have main : ∀ (t : Dev), (∀ j, t.slot j = if j = k then { d.slot k with st := .current }
        else if d.currentSlot = some j then { d.slot j with st := .draining } else d.slot j) →
      t.view = { b.view with slots := t.order.slots } → Kept 0 d t := by
    intro t ts tv
    refine Kept.recipes (s := t.order.slots) (lo := d.order.loader) (vs := b.valve.recs) ?_ fun tl pl => ?_
    · rw [tv, bv]
      have : b.valve.recs = (d.switchValves (d.recipeOf k)).valve.recs := congrArg LawView.recs bv
      rw [this]; rfl
    have only : ∀ j, (t.slot j).st = .current → j = k := by
      intro j hj
      rw [ts] at hj
      by_cases c1 : j = k
      · exact c1
      · rw [if_neg c1] at hj
        by_cases c2 : d.currentSlot = some j
        · rw [if_pos c2] at hj; cases hj
        · rw [if_neg c2] at hj
          exact absurd (Dev.slotIn_unique hj fun i hi => tl.one i j hi hj) c2
    have cur : t.slot k = { d.slot k with st := .current } := by rw [ts, if_pos rfl]
    have vr : ∀ v, t.valveRec v = (d.valveRec v).switched (d.recipeOf k) := fun v =>
      (congrArg (fun x : LawView => x.recs.get v) tv).trans (brec v)
    refine ⟨⟨fun j hj => ?_, fun j hj => ?_, fun i j hi hj => (only i hi).trans (only j hj).symm, fun l hl => ?_, fun j c v hj hc => ?_, fun hn v => ?_⟩,
      pl.slots' ((congrArg LawView.upstream tv).trans (congrArg LawView.upstream bv)) fun j hj => ?_, fun j => ?_⟩
    · rw [ts] at hj ⊢
      by_cases c1 : j = k
      · rw [if_pos c1] at hj; rcases hj with x | x | x <;> cases x
      · rw [if_neg c1] at hj ⊢
        by_cases c2 : d.currentSlot = some j
        · rw [if_pos c2] at hj; rcases hj with x | x | x <;> cases x
        · rw [if_neg c2] at hj ⊢; exact tl.empty j hj
    · rw [ts] at hj ⊢
      by_cases c1 : j = k
      · rw [if_pos c1]; exact tl.taught k (.inl pk)
      · rw [if_neg c1] at hj ⊢
        by_cases c2 : d.currentSlot = some j
        · rw [if_pos c2] at hj; rcases hj with x | x <;> cases x
        · rw [if_neg c2] at hj ⊢; exact tl.taught j hj
    · have el : t.order.loader = b.order.loader := congrArg LawView.loader tv
      have eb : b.order.loader = d.order.loader := congrArg LawView.loader bv
      have this := tl.loader l (eb ▸ el ▸ hl)
      rw [ts, if_neg, if_neg]
      · exact this
      · intro c
        have c' := Dev.slotIn_some c
        rw [this] at c'; cases c'
      · intro c; rw [c, pk] at this; cases this
    · rw [vr]
      have := only j hj
      subst this
      rw [cur] at hc
      have e : d.recipeOf j = c := by
        unfold Dev.recipeOf
        have hc : (d.slot j).recipe = some c := hc
        rw [hc]; rfl
      rw [e]; exact ValveRec.switched_trim _ _
    · exact absurd (by rw [cur]) (hn k)
    · rw [ts]
      by_cases c1 : j = k
      · rw [if_pos c1]; exact .inl rfl
      · rw [if_neg c1]
        by_cases c2 : d.currentSlot = some j
        · rw [if_pos c2]; exact .inr rfl
        · rw [if_neg c2]; exact hj
    · rw [ts]
      by_cases c1 : j = k
      · rw [if_pos c1, c1]
      · rw [if_neg c1]
        by_cases c2 : d.currentSlot = some j
        · rw [if_pos c2]
        · rw [if_neg c2]
  have ends : ∀ t : Dev, Kept 0 d t →
      Kept 0 d (Dev.raise .lotSwitch (Dev.reformBare { t with fill := { t.fill with switchDue := false } })) := by
    intro t ht
    exact ((ht.thenSame (d := { t with fill := { t.fill with switchDue := false } }) rfl).trans (Kept.goes Goes.reformBare)).thenSame (Dev.raise_view _ _)
  cases ho : d.currentSlot with
  | none =>
    dsimp only
    refine ends _ (Kept.thenSame (main (b.setSlot k { b.slot k with st := .current }) ?_ rfl) (Dev.startNewEntry_view _ _))
    intro j
    rw [Dev.slot_set, bsl, bsl, ho]
    split
    · rfl
    · rw [if_neg (by simp)]
  | some i =>
    dsimp only
    have ci := Dev.slotIn_some ho
    have ik : i ≠ k := by intro c; rw [c, pk] at ci; cases ci
    refine ends _ (Kept.trans (m := 0) (m' := 0) (Kept.thenSame (main (Dev.setSlot (b.setSlot i { b.slot i with st := .draining }) k
      { (b.setSlot i { b.slot i with st := .draining }).slot k with st := .current }) ?_ rfl) (Dev.startNewEntry_view _ _)) (Kept.drainIfEmpty i))
    intro j
    rw [Dev.slot_set, Dev.slot_set, Dev.slot_set, if_neg (Ne.symm ik), bsl, bsl, bsl, ho]
    split
    · rfl
    · by_cases c : j = i
      · rw [if_pos c, if_pos (by rw [c]), c]
      · rw [if_neg c, if_neg (fun x => c (Option.some.inj x).symm)]

end Sys2Proof.Machine
end

