-- ==== Sys2Proof/Laws/Orders.lean ====
section
/-! SUPPORT. The order unit's operations, each said once: an order word's write, a change of an entry, the closing of
an entry (R137), and the cancellations of a replacing order (R133). -/

namespace Sys2Proof.Machine

variable {a d : Dev}

/-! ### Places -/

theorem Dev.place_setPlace_ne {p q : Fin 2} (o : Option LotOrder) (d : Dev) (h : q ≠ p) :
    (d.setPlace p o).place q = d.place q := by
  show (d.order.places.set p.val o p.isLt).get q = d.order.places.get q
  rw [Vector.get_eq_getElem, Vector.get_eq_getElem, Vector.getElem_set_ne]
  exact fun x => h (Fin.ext x.symm)

/-- The later change of a place stands. -/
theorem Dev.setPlace_setPlace (p : Fin 2) (o o' : Option LotOrder) (d : Dev) :
    (d.setPlace p o).setPlace p o' = d.setPlace p o' := by
  unfold Dev.setPlace; dsimp only; rw [Vector.set_set]

/-! ### An order word's write -/

/-- Only the order words waiting and the bursts placed for them differ. -/
structure Wrote (a d : Dev) : Prop where
  shape  : d = { a with path := { a.path with bursts := d.path.bursts },
                        order := { a.order with writes := d.order.writes } }
  bursts : ∀ b ∈ d.path.bursts, b ∈ a.path.bursts ∨ b.op = .orderWord

theorem Wrote.refl (d : Dev) : Wrote d d := ⟨rfl, fun _ h => .inl h⟩

theorem Wrote.trans {a b c : Dev} (h : Wrote a b) (k : Wrote b c) : Wrote a c := by
  refine ⟨?_, fun x hx => ?_⟩
  · rw [k.shape, h.shape]
  · rcases k.bursts x hx with g | g
    · exact h.bursts x g
    · exact .inr g

theorem Wrote.place (h : Wrote a d) (p : Fin 2) : d.place p = a.place p := by rw [h.shape]; rfl

theorem Wrote.runs (h : Wrote a d) : d.order.running = a.order.running ∧ d.order.draining = a.order.draining := by
  rw [h.shape]; exact ⟨rfl, rfl⟩

/-- A burst placed for an order word. -/
theorem Dev.placeBurst_wrote (b : Burst) (d : Dev) (h : b.op = .orderWord) : Wrote d (d.placeBurst b) := by
  unfold Dev.placeBurst
  split
  · exact .refl d
  · refine ⟨rfl, fun x hx => ?_⟩
    rcases List.mem_append.1 hx with g | g
    · exact .inl g
    · rw [List.mem_singleton] at g; subst g; exact .inr h

theorem Dev.pushOrderWrite_wrote (x : Nat) (v : Word) (d : Dev) : Wrote d (d.pushOrderWrite x v) := by
  unfold Dev.pushOrderWrite
  dsimp only
  split
  · exact Wrote.trans (b := { d with order := { d.order with writes := d.order.writes ++ [(x, v)] } })
      ⟨rfl, fun _ h => .inl h⟩ (Dev.placeBurst_wrote _ _ rfl)
  · exact ⟨rfl, fun _ h => .inl h⟩

/-- The word joins those waiting. -/
@[simp] theorem Dev.pushOrderWrite_writes (x : Nat) (v : Word) (d : Dev) :
    (d.pushOrderWrite x v).order.writes = d.order.writes ++ [(x, v)] := by
  unfold Dev.pushOrderWrite
  dsimp only
  split
  · unfold Dev.placeBurst; split <;> rfl
  · rfl

/-- A change of a place and an order word's write do not meet. -/
theorem Dev.pushOrderWrite_setPlace (x : Nat) (v : Word) (p : Fin 2) (o : Option LotOrder) (d : Dev) :
    (d.pushOrderWrite x v).setPlace p o = (d.setPlace p o).pushOrderWrite x v := by
  have hp : ∀ (b : Burst) (d : Dev), (d.placeBurst b).setPlace p o = (d.setPlace p o).placeBurst b := by
    intro b d
    unfold Dev.placeBurst
    rw [show (d.setPlace p o).setup.part = d.setup.part from rfl, show (d.setPlace p o).path.lrst = d.path.lrst from rfl]
    split <;> rfl
  unfold Dev.pushOrderWrite
  rw [show (d.setPlace p o).order.writes = d.order.writes from rfl]
  dsimp only
  split
  · rw [hp]; rfl
  · rfl

/-- A status word's fields (12.5). -/
theorem orderStatusWord_eq (done : Bool) (e : Option OrderCode) (n : Nat) : orderStatusWord done e n =
    BitVec.ofNat 32 ((if done then 1 else 0) + (match e with | none => 0 | some c => 2 + 256 * c.code) + 65536 * (n % 16)) := by
  cases e with
  | none => cases done <;> (unfold orderStatusWord putBit put; simp)
  | some c =>
    unfold orderStatusWord putBit put
    have : c.code % 2 ^ 8 = c.code := by cases c <;> rfl
    dsimp only
    rw [this]
    cases done <;> (congr 1; simp; try omega)

/-! ### A change of an entry -/

/-- An entry of an order held is changed and its two words wait: its status, then its fills made. -/
theorem Dev.updateEntry_eq {d : Dev} {p : Fin 2} {i : Nat} {o : LotOrder} {e : LotEntry} (f : LotEntry → LotEntry)
    (h : d.place p = some o) (g : o.entries[i]? = some e) : d.updateEntry p i f =
      Dev.pushOrderWrite (o.addr + 20 + 16 * i) (BitVec.ofNat 32 (f e).made)
        (Dev.pushOrderWrite (o.addr + 16 + 16 * i) (BitVec.ofNat 32 (f e).status.code)
          (d.setPlace p (some { o with entries := o.entries.set i (f e) }))) := by
  unfold Dev.updateEntry
  rw [h]; dsimp only; rw [g]
  rfl

/-! ### Completion and closing (R137) -/

theorem EntryStatus.over_iff (x : EntryStatus) : x.over = true ↔ x = .closed ∨ x = .cancelled ∨ x = .error := by
  cases x <;> simp [EntryStatus.over]

/-- An order with an entry still open is not complete. -/
theorem Dev.completeOrder_open {d : Dev} {p : Fin 2} {o : LotOrder} {x : LotEntry} (h : d.place p = some o)
    (m : x ∈ o.entries) (n : x.status.over = false) : d.completeOrder p = d := by
  unfold Dev.completeOrder
  rw [h]
  dsimp only
  rw [if_neg]
  intro g
  rw [List.all_eq_true] at g
  rw [g x m] at n; cases n

/-- A complete order's status word is written, ORDER_A_DONE raised when no entry is ERROR and the notify flag is set,
and the order released. -/
theorem Dev.completeOrder_complete {d : Dev} {p : Fin 2} {o : LotOrder} (h : d.place p = some o)
    (m : ∀ x ∈ o.entries, x.status.over = true) : d.completeOrder p =
      Dev.releasePlace p (if ∃ x ∈ o.entries, x.status = .error then d.writeOrderStatus false o
        else if o.notify then Dev.raise .orderADone (d.writeOrderStatus true o) else d.writeOrderStatus true o) := by
  unfold Dev.completeOrder
  rw [h]
  dsimp only
  rw [if_pos (List.all_eq_true.2 m)]
  by_cases g : ∃ x ∈ o.entries, x.status = .error
  · rw [if_pos g, if_pos (by obtain ⟨x, hx, e⟩ := g; exact List.any_eq_true.2 ⟨x, hx, by rw [e]; rfl⟩)]
  · rw [if_neg g, if_neg]
    intro k
    obtain ⟨x, hx, e⟩ := List.any_eq_true.1 k
    exact g ⟨x, hx, by simpa using e⟩

/-- The order unit after a place is released: a draining order runs again when the released one ran (R138). -/
theorem Dev.releasePlace_eq (p : Fin 2) (d : Dev) : d.releasePlace p =
    { d.setPlace p none with order := { (d.setPlace p none).order with
      running := if d.order.running = some p then d.order.draining else d.order.running
      draining := if d.order.running = some p ∨ d.order.draining = some p then none else d.order.draining } } := by
  unfold Dev.releasePlace
  dsimp only
  by_cases h1 : d.order.running = some p
  · rw [if_pos h1]; simp [h1]
  · rw [if_neg h1]
    by_cases h2 : d.order.draining = some p
    · rw [if_pos h2]; simp [h1, h2]; rfl
    · rw [if_neg h2]; simp [h1, h2]; rfl

/-- Closing an entry of an order held: its words, the order's status word, and completion. -/
theorem Dev.closeEntry_eq {d : Dev} {p : Fin 2} {i : Nat} {o : LotOrder} {y : LotEntry} (h : d.place p = some o)
    (g : o.entries[i]? = some y) :
    let o' : LotOrder := { o with entries := o.entries.set i { y with status := .closed }, closed := o.closed + 1 }
    d.closeEntry (.entry p i) = Dev.completeOrder p (Dev.writeOrderStatus false o'
      (Dev.pushOrderWrite (o.addr + 20 + 16 * i) (BitVec.ofNat 32 y.made)
        (Dev.pushOrderWrite (o.addr + 16 + 16 * i) 5 (d.setPlace p (some o'))))) := by
  intro o'
  unfold Dev.closeEntry
  dsimp only
  rw [Dev.updateEntry_eq _ h g, (Dev.pushOrderWrite_wrote _ _ _).place, (Dev.pushOrderWrite_wrote _ _ _).place,
    Dev.place_setPlace]
  dsimp only
  rw [Dev.pushOrderWrite_setPlace, Dev.pushOrderWrite_setPlace, Dev.setPlace_setPlace]
  rfl

/-! ### Cancellation (R133) -/

/-- The entry cancelled if it is WAITING or LOADING. -/
def LotEntry.cancelled (y : LotEntry) : LotEntry := if y.status.unstarted then { y with status := .cancelled } else y

/-- One entry of the order in place `p` is cancelled. -/
def Dev.cancelOne (p : Fin 2) (d : Dev) (j : Nat) : Dev :=
  if d.unstartedAt (p, j) then d.updateEntry p j fun e => { e with status := .cancelled } else d

/-- The order unit before and after cancellations in place `p`: its order, the words that wait, and all else. -/
structure Cancels (p : Fin 2) (o : LotOrder) (P : Nat → Prop) [DecidablePred P] (a d : Dev) : Prop where
  place : d.place p = some { o with entries := o.entries.zipIdx.map fun y => if P y.2 then y.1.cancelled else y.1 }
  words : ∃ ws, d.order.writes = a.order.writes ++ ws ∧ ∀ (i : Nat) (y : LotEntry), P i → o.entries[i]? = some y →
    y.status.unstarted = true → (o.addr + 16 + 16 * i, 6#32) ∈ ws
  rest  : ∃ pl, Wrote { a with order := { a.order with places := pl } } d
  other : ∀ q, q ≠ p → d.place q = a.place q

theorem Dev.unstartedAt_eq {d : Dev} {p : Fin 2} {o : LotOrder} {y : LotEntry} {i : Nat} (h : d.place p = some o)
    (g : o.entries[i]? = some y) : d.unstartedAt (p, i) = y.status.unstarted := by
  unfold Dev.unstartedAt Dev.entryAt; dsimp only; rw [h]; dsimp only; rw [g]

theorem Dev.unstartedAt_beyond {d : Dev} {p : Fin 2} {o : LotOrder} {i : Nat} (h : d.place p = some o)
    (g : o.entries[i]? = none) : d.unstartedAt (p, i) = false := by
  unfold Dev.unstartedAt Dev.entryAt; dsimp only; rw [h]; dsimp only; rw [g]

/-- One entry cancelled. -/
theorem Dev.cancelOne_cancels {d : Dev} {p : Fin 2} {o : LotOrder} (h : d.place p = some o) (j : Nat) :
    Cancels p o (fun i => i = j) d (d.cancelOne p j) := by
  have same : (∀ y, o.entries[j]? = some y → y.status.unstarted = false) →
      (o.entries.zipIdx.map fun y => if y.2 = j then y.1.cancelled else y.1) = o.entries := by
    intro n
    apply List.ext_getElem?
    intro i
    rw [List.getElem?_map, List.getElem?_zipIdx]
    cases e : o.entries[i]? with
    | none => rfl
    | some y =>
      simp only [Option.map_some, Nat.zero_add]
      split
      · rename_i k; subst k; unfold LotEntry.cancelled; rw [if_neg (by rw [n y e]; decide)]
      · rfl
  unfold Dev.cancelOne
  cases e : o.entries[j]? with
  | none =>
    rw [if_neg (by rw [Dev.unstartedAt_beyond h e]; decide)]
    refine ⟨by rw [same (fun y k => by rw [e] at k; cases k)]; exact h, ⟨[], (List.append_nil _).symm, ?_⟩, ⟨_, .refl d⟩, fun _ _ => rfl⟩
    intro i y k g; subst k; rw [e] at g; cases g
  | some y =>
    rw [Dev.unstartedAt_eq h e]
    by_cases u : y.status.unstarted = true
    · rw [if_pos u, Dev.updateEntry_eq _ h e]
      refine ⟨?_, ?_, ?_, ?_⟩
      · rw [(Dev.pushOrderWrite_wrote _ _ _).place, (Dev.pushOrderWrite_wrote _ _ _).place, Dev.place_setPlace]
        congr 2
        apply List.ext_getElem?
        intro i
        rw [List.getElem?_map, List.getElem?_zipIdx, List.getElem?_set]
        by_cases k : j = i
        · subst k
          rw [if_pos rfl, e]
          obtain ⟨l, -⟩ := List.getElem?_eq_some_iff.1 e
          rw [if_pos l]
          simp only [Option.map_some, Nat.zero_add, if_true]
          unfold LotEntry.cancelled
          rw [if_pos u]
        · rw [if_neg k]
          cases o.entries[i]? with
          | none => rfl
          | some z => simp only [Option.map_some, Nat.zero_add]; rw [if_neg (fun x => k x.symm)]
      · refine ⟨_, by rw [Dev.pushOrderWrite_writes, Dev.pushOrderWrite_writes, List.append_assoc]; rfl, ?_⟩
        intro i z k _ _
        subst k
        exact List.mem_append_left _ (List.mem_singleton.2 rfl)
      · exact ⟨_, (Dev.pushOrderWrite_wrote _ _ (d.setPlace p _)).trans (Dev.pushOrderWrite_wrote _ _ _)⟩
      · intro q hq
        rw [(Dev.pushOrderWrite_wrote _ _ _).place, (Dev.pushOrderWrite_wrote _ _ _).place, Dev.place_setPlace_ne _ _ hq]
    · rw [if_neg u]
      refine ⟨by rw [same (fun z k => by rw [e] at k; injection k with k; subst k; simpa using u)]; exact h, ⟨[], (List.append_nil _).symm, ?_⟩, ⟨_, .refl d⟩, fun _ _ => rfl⟩
      intro i z k g w; subst k; rw [e] at g; injection g with g; subst g; exact absurd w u

theorem LotEntry.cancelled_cancelled (y : LotEntry) : y.cancelled.cancelled = y.cancelled := by
  unfold LotEntry.cancelled
  split <;> simp_all [EntryStatus.unstarted]

/-- Cancellations one after another. -/
theorem Dev.foldl_cancelOne (p : Fin 2) : ∀ (js : List Nat) (d : Dev) (o : LotOrder), d.place p = some o →
    Cancels p o (fun i => i ∈ js) d (js.foldl (Dev.cancelOne p) d) := by
  intro js
  induction js with
  | nil =>
    intro d o h
    refine ⟨?_, ⟨[], (List.append_nil _).symm, fun i y k => absurd k List.not_mem_nil⟩, ⟨_, .refl d⟩, fun _ _ => rfl⟩
    rw [List.foldl_nil, h]
    simp
  | cons j js ih =>
    intro d o h
    have one := Dev.cancelOne_cancels h j
    have k := ih _ _ one.place
    rw [List.foldl_cons]
    obtain ⟨ws, e1, m1⟩ := one.words
    obtain ⟨vs, e2, m2⟩ := k.words
    refine ⟨?_, ⟨ws ++ vs, by rw [e2, e1, List.append_assoc], ?_⟩, ?_, fun q hq => (k.other q hq).trans (one.other q hq)⟩
    · rw [k.place]
      congr 2
      apply List.ext_getElem?
      intro i
      rw [List.getElem?_map, List.getElem?_zipIdx, List.getElem?_map, List.getElem?_zipIdx, List.getElem?_map, List.getElem?_zipIdx]
      cases o.entries[i]? with
      | none => rfl
      | some y =>
        simp only [Option.map_some, Nat.zero_add, List.mem_cons]
        by_cases a : i = j <;> by_cases b : i ∈ js <;> simp [a, b, LotEntry.cancelled_cancelled]
    · intro i y hi g u
      by_cases a : i = j
      · exact List.mem_append_left _ (m1 i y a g u)
      · refine List.mem_append_right _ (m2 i y (by simpa [a] using hi) ?_ u)
        simp only []
        rw [List.getElem?_map, List.getElem?_zipIdx, g]
        simp [a]
    · obtain ⟨pl, w1⟩ := one.rest
      obtain ⟨pl', w2⟩ := k.rest
      refine ⟨pl', Wrote.trans (b := { d.cancelOne p j with order := { (d.cancelOne p j).order with places := pl' } }) ⟨?_, w1.bursts⟩ w2⟩
      rw [w1.shape]

/-- The entries of the order in place `p` from `n` on that are not started are cancelled and their words wait; the
others stand. -/
theorem Dev.cancelFrom_cancels {d : Dev} {p : Fin 2} {o : LotOrder} (h : d.place p = some o) (n : Nat) :
    Cancels p o (fun i => n ≤ i) d (d.cancelFrom p n) := by
  have e : d.cancelFrom p n = (((List.range o.entries.length).filter fun j => decide (n ≤ j))).foldl (Dev.cancelOne p) d := by
    unfold Dev.cancelFrom Dev.entryRefs
    rw [h]
    dsimp only
    rw [List.foldl_map]
    rfl
  have k := Dev.foldl_cancelOne p ((List.range o.entries.length).filter fun j => decide (n ≤ j)) d o h
  rw [e]
  have mem : ∀ i, i < o.entries.length → (i ∈ ((List.range o.entries.length).filter fun j => decide (n ≤ j)) ↔ n ≤ i) := by
    intro i hi; simp [hi]
  refine ⟨?_, ?_, k.rest, k.other⟩
  · rw [k.place]
    congr 2
    apply List.ext_getElem?
    intro i
    rw [List.getElem?_map, List.getElem?_zipIdx, List.getElem?_map, List.getElem?_zipIdx]
    cases g : o.entries[i]? with
    | none => rfl
    | some y =>
      obtain ⟨l, -⟩ := List.getElem?_eq_some_iff.1 g
      simp only [Option.map_some, Nat.zero_add, mem i l]
  · obtain ⟨ws, e1, m⟩ := k.words
    refine ⟨ws, e1, fun i y hi g u => m i y ?_ g u⟩
    obtain ⟨l, -⟩ := List.getElem?_eq_some_iff.1 g
    exact (mem i l).2 hi

/-- Recipe slot `k` names an entry of the order in place `p`. -/
def Dev.slotOf (d : Dev) (p : Fin 2) (k : Fin 4) : Prop := ∃ i, (d.slot k).ref = .entry p i

/-- The recipe slots `S` cancelled for the order in place `p` (R131, R133): its LOADING slot's load is stopped and its
bursts dropped, its PENDING slot clears the flag of R32, and both go FREE. -/
structure CancelsSlots (p : Fin 2) (S : Fin 4 → Prop) (a d : Dev) : Prop where
  freed   : ∀ k, S k → a.slotOf p k → (a.slot k).st = .loading ∨ (a.slot k).st = .pending → d.slot k = RecipeSlot.empty
  kept    : ∀ k, ¬S k ∨ ¬a.slotOf p k ∨ ((a.slot k).st ≠ .loading ∧ (a.slot k).st ≠ .pending) → d.slot k = a.slot k
  stopped : ∀ k, S k → a.slotOf p k → (a.slot k).st = .loading →
    d.order.loader = none ∧ ∀ b ∈ d.path.bursts, b.op ≠ .recipe
  flag    : ∀ k, S k → a.slotOf p k → (a.slot k).st = .pending → d.fill.switchDue = false
  unflag  : (∀ k, S k → a.slotOf p k → (a.slot k).st ≠ .pending) → d.fill = a.fill
  bursts  : ∀ b ∈ d.path.bursts, b ∈ a.path.bursts
  loader  : d.order.loader = a.order.loader ∨ d.order.loader = none
  due     : d.fill.switchDue = a.fill.switchDue ∨ d.fill.switchDue = false
  rest    : ∃ port, d = { a with
    path := { a.path with bursts := d.path.bursts, port := port }
    fill := { a.fill with switchDue := d.fill.switchDue }
    order := { a.order with slots := d.order.slots, loader := d.order.loader } }

theorem Dev.cancelSlot_cancels (p : Fin 2) (k : Fin 4) (d : Dev) : CancelsSlots p (fun j => j = k) d (d.cancelSlot k p) := by
  have idle : (¬d.slotOf p k ∨ ((d.slot k).st ≠ .loading ∧ (d.slot k).st ≠ .pending)) →
      CancelsSlots p (fun j => j = k) d d := by
    intro h
    have no : ∀ j, j = k → d.slotOf p j → ((d.slot j).st = .loading ∨ (d.slot j).st = .pending) → False := by
      intro j e o q
      subst e
      rcases h with h | h
      · exact h o
      · rcases q with q | q
        · exact h.1 q
        · exact h.2 q
    exact ⟨fun j e o q => (no j e o q).elim, fun _ _ => rfl, fun j e o q => (no j e o (.inl q)).elim,
      fun j e o q => (no j e o (.inr q)).elim, fun _ => rfl, fun _ h => h, .inl rfl, .inl rfl, ⟨_, rfl⟩⟩
  unfold Dev.cancelSlot
  dsimp only
  split
  · rename_i e; exact idle (.inl (by rintro ⟨i, h⟩; rw [e] at h; cases h))
  · rename_i q i e
    by_cases hq : q = p
    · subst hq
      rw [if_neg (by simp)]
      by_cases l : (d.slot k).st = .loading
      · rw [if_pos l]
        have sh : ∃ port, Dev.stopIssued .recipe (Dev.dropBursts .recipe { d with order := { d.order with loader := none } }) =
            { d with path := { d.path with bursts := d.path.bursts.filter fun b => decide (b.op ≠ .recipe), port := port }
                     order := { d.order with loader := none } } := by
          unfold Dev.stopIssued Dev.dropBursts
          dsimp only
          split
          · exact ⟨_, rfl⟩
          · split <;> exact ⟨_, rfl⟩
        obtain ⟨port, sh⟩ := sh
        rw [sh]
        refine ⟨?_, ?_, ?_, ?_, fun _ => rfl, ?_, .inr rfl, .inl rfl, ⟨port, rfl⟩⟩
        · intro j hj _ _; subst hj; exact Dev.slot_setSlot _ _ _
        · intro j h
          have : j ≠ k := by
            rintro rfl
            rcases h with h | h | h
            · exact h rfl
            · exact h ⟨i, e⟩
            · exact h.1 l
          exact Dev.slot_setSlot_ne _ _ this
        · intro _ _ _ _
          refine ⟨rfl, fun b hb => ?_⟩
          have := (List.mem_filter.1 hb).2
          simpa using this
        · intro j hj _ h; subst hj; rw [l] at h; cases h
        · intro b hb; exact (List.mem_filter.1 hb).1
      · rw [if_neg l]
        by_cases g : (d.slot k).st = .pending
        · rw [if_pos g]
          refine ⟨?_, ?_, ?_, ?_, ?_, fun _ h => h, .inl rfl, .inr rfl, ⟨_, rfl⟩⟩
          · intro j hj _ _; subst hj; exact Dev.slot_setSlot _ _ _
          · intro j h
            have : j ≠ k := by
              rintro rfl
              rcases h with h | h | h
              · exact h rfl
              · exact h ⟨i, e⟩
              · exact h.2 g
            exact Dev.slot_setSlot_ne _ _ this
          · intro j hj _ h; subst hj; exact absurd h l
          · intro _ _ _ _; rfl
          · intro h; exact absurd g (h k rfl ⟨i, e⟩)
        · rw [if_neg g]; exact idle (.inr ⟨l, g⟩)
    · rw [if_pos hq]
      exact idle (.inl (by rintro ⟨j, h⟩; rw [e] at h; injection h with h; exact hq h))

theorem CancelsSlots.trans {p : Fin 2} {S T : Fin 4 → Prop} {b : Dev} (h : CancelsSlots p S a b) (k : CancelsSlots p T b d)
    (hd : ∀ j, S j → ¬T j) : CancelsSlots p (fun j => S j ∨ T j) a d := by
  have eq : ∀ j, T j → b.slot j = a.slot j := fun j t => h.kept j (.inl fun s => hd j s t)
  have of : ∀ j, T j → (b.slotOf p j ↔ a.slotOf p j) := fun j t => by unfold Dev.slotOf; rw [eq j t]
  refine ⟨?_, ?_, ?_, ?_, ?_, fun x hx => h.bursts x (k.bursts x hx), ?_, ?_, ?_⟩
  · intro j hj o q
    rcases hj with s | t
    · rw [k.kept j (.inl (hd j s))]; exact h.freed j s o q
    · exact k.freed j t ((of j t).2 o) (by rw [eq j t]; exact q)
  · intro j hj
    by_cases t : T j
    · rw [k.kept j (by
        rcases hj with hj | hj | hj
        · exact absurd (.inr t) hj
        · exact .inr (.inl fun o => hj ((of j t).1 o))
        · exact .inr (.inr (by rw [eq j t]; exact hj))), eq j t]
    · rw [k.kept j (.inl t), h.kept j (by
        rcases hj with hj | hj
        · exact .inl fun s => hj (.inl s)
        · exact .inr hj)]
  · intro j hj o q
    rcases hj with s | t
    · have := h.stopped j s o q
      exact ⟨by rcases k.loader with l | l <;> rw [l]; exact this.1, fun x hx => this.2 x (k.bursts x hx)⟩
    · exact k.stopped j t ((of j t).2 o) (by rw [eq j t]; exact q)
  · intro j hj o q
    rcases hj with s | t
    · have := h.flag j s o q
      rcases k.due with l | l
      · rw [l]; exact this
      · exact l
    · exact k.flag j t ((of j t).2 o) (by rw [eq j t]; exact q)
  · intro n
    rw [k.unflag fun j t o => by rw [eq j t]; exact n j (.inr t) ((of j t).1 o)]
    exact h.unflag fun j s o => n j (.inl s) o
  · rcases k.loader with l | l
    · rw [l]; exact h.loader
    · exact .inr l
  · rcases k.due with l | l
    · rw [l]; exact h.due
    · exact .inr l
  · obtain ⟨x, e⟩ := h.rest
    obtain ⟨y, f⟩ := k.rest
    exact ⟨y, by rw [f, e]⟩

/-- The four recipe slots cancelled for a replacing order. -/
theorem Dev.cancelSlots_cancels (p : Fin 2) (d : Dev) :
    CancelsSlots p (fun _ => True) d (Dev.cancelSlot 3 p (Dev.cancelSlot 2 p (Dev.cancelSlot 1 p (d.cancelSlot 0 p)))) := by
  have h := (((Dev.cancelSlot_cancels p 0 d).trans (Dev.cancelSlot_cancels p 1 _) (by rintro j rfl; decide)).trans
    (Dev.cancelSlot_cancels p 2 _) (by rintro j (rfl | rfl) <;> decide)).trans (Dev.cancelSlot_cancels p 3 _)
    (by rintro j ((rfl | rfl) | rfl) <;> decide)
  have e : (fun j : Fin 4 => ((j = 0 ∨ j = 1) ∨ j = 2) ∨ j = 3) = fun _ => True := by
    funext j; apply propext; constructor
    · intro _; trivial
    · intro _
      match j with
      | 0 => exact .inl (.inl (.inl rfl))
      | 1 => exact .inl (.inl (.inr rfl))
      | 2 => exact .inl (.inr rfl)
      | 3 => exact .inr rfl
  rw [e] at h
  exact h

/-! ### Acceptance (R133) -/

theorem Wrote.appends {a d : Dev} (h : Wrote a d) (e : ∃ ws, d.order.writes = a.order.writes ++ ws) {b : Dev} (k : Wrote d b)
    (f : ∃ ws, b.order.writes = d.order.writes ++ ws) : Wrote a b ∧ ∃ ws, b.order.writes = a.order.writes ++ ws := by
  obtain ⟨ws, e⟩ := e
  obtain ⟨vs, f⟩ := f
  exact ⟨h.trans k, ws ++ vs, by rw [f, e, List.append_assoc]⟩

theorem Dev.pushOrderWrite_appends (x : Nat) (v : Word) (d : Dev) :
    Wrote d (d.pushOrderWrite x v) ∧ ∃ ws, (d.pushOrderWrite x v).order.writes = d.order.writes ++ ws :=
  ⟨Dev.pushOrderWrite_wrote _ _ _, _, Dev.pushOrderWrite_writes _ _ _⟩

/-- The words of a new order join those waiting, and nothing else changes. -/
theorem Dev.writeNewOrder_appends (o : LotOrder) (d : Dev) :
    Wrote d (d.writeNewOrder o) ∧ ∃ ws, (d.writeNewOrder o).order.writes = d.order.writes ++ ws := by
  unfold Dev.writeNewOrder
  generalize List.range o.entries.length = l
  have h : Wrote d (d.writeOrderStatus false o) ∧ ∃ ws, (d.writeOrderStatus false o).order.writes = d.order.writes ++ ws :=
    Dev.pushOrderWrite_appends _ _ d
  generalize d.writeOrderStatus false o = t at h
  induction l generalizing t with
  | nil => exact h
  | cons i l ih =>
    rw [List.foldl_cons]
    refine ih _ ?_
    split
    · exact h
    · unfold Dev.writeEntry
      have k := Dev.pushOrderWrite_appends (o.addr + 16 + 16 * i) (BitVec.ofNat 32 ‹LotEntry›.status.code) t
      have k' := Dev.pushOrderWrite_appends (o.addr + 20 + 16 * i) (BitVec.ofNat 32 ‹LotEntry›.made)
        (t.pushOrderWrite (o.addr + 16 + 16 * i) (BitVec.ofNat 32 ‹LotEntry›.status.code))
      have m := h.1.appends h.2 k.1 k.2
      exact m.1.appends m.2 k'.1 k'.2

/-- Completion changes only the places, who runs, the words that wait and the causes. -/
theorem Dev.completeOrder_rest (p : Fin 2) (d : Dev) : ∃ rep pl r dr,
    Wrote { d with report := rep, order := { d.order with places := pl, running := r, draining := dr } } (d.completeOrder p) ∧
    (∃ ws, (d.completeOrder p).order.writes = d.order.writes ++ ws) ∧ ∀ q, q ≠ p → (d.completeOrder p).place q = d.place q := by
  have rel : ∀ t rep, Wrote { d with report := rep } t → (∃ ws, t.order.writes = d.order.writes ++ ws) → ∃ rep pl r dr,
      Wrote { d with report := rep, order := { d.order with places := pl, running := r, draining := dr } } (t.releasePlace p) ∧
      (∃ ws, (t.releasePlace p).order.writes = d.order.writes ++ ws) ∧ ∀ q, q ≠ p → (t.releasePlace p).place q = d.place q := by
    intro t rep w a
    rw [Dev.releasePlace_eq]
    generalize (if t.order.running = some p then t.order.draining else t.order.running) = x
    generalize (if t.order.running = some p ∨ t.order.draining = some p then none else t.order.draining) = y
    refine ⟨rep, (t.setPlace p none).order.places, x, y, ⟨?_, w.bursts⟩, a, fun q hq => ?_⟩
    · refine (congrArg (fun z : Dev => { z with order := { z.order with
        places := (t.setPlace p none).order.places, running := x, draining := y } }) w.shape).trans ?_
      rfl
    · exact (Dev.place_setPlace_ne none t hq).trans (w.place q)
  unfold Dev.completeOrder
  split
  · exact ⟨_, _, _, _, .refl d, ⟨[], (List.append_nil _).symm⟩, fun _ _ => rfl⟩
  · rename_i o _
    have h : ∀ b, Wrote d (d.writeOrderStatus b o) ∧ ∃ ws, (d.writeOrderStatus b o).order.writes = d.order.writes ++ ws :=
      fun b => Dev.pushOrderWrite_appends _ _ d
    split
    · split
      · exact rel _ d.report (h _).1 (h _).2
      · dsimp only
        split
        · obtain ⟨rq, e⟩ := Dev.raise_shape .orderADone (d.writeOrderStatus true o)
          have e' : ∃ R : ReportUnit, Dev.raise .orderADone (d.writeOrderStatus true o) =
              { d.writeOrderStatus true o with report := R } := ⟨_, e⟩
          obtain ⟨R, e'⟩ := e'
          rw [e']
          refine rel _ R ⟨?_, (h true).1.bursts⟩ (h true).2
          exact congrArg (fun z : Dev => { z with report := R }) (h true).1.shape
        · exact rel _ d.report (h _).1 (h _).2
    · exact ⟨_, _, _, _, .refl d, ⟨[], (List.append_nil _).symm⟩, fun _ _ => rfl⟩

/-! ### The words of cancellations, acceptance and completion, exactly -/

/-- The words of entry `j` of an order cancelled: its status and its fills made, when it is not started. -/
def LotOrder.cancelWords (o : LotOrder) (j : Nat) : List (Nat × Word) :=
  match o.entries[j]? with
  | none => []
  | some y =>
    if y.status.unstarted then [(o.addr + 16 + 16 * j, 6), (o.addr + 20 + 16 * j, BitVec.ofNat 32 y.made)] else []

/-- One entry cancelled: its words join those waiting, and the others' stay as they are. -/
theorem Dev.cancelOne_writes {d : Dev} {p : Fin 2} {o : LotOrder} (h : d.place p = some o) (j : Nat) :
    (d.cancelOne p j).order.writes = d.order.writes ++ o.cancelWords j := by
  unfold Dev.cancelOne LotOrder.cancelWords
  cases e : o.entries[j]? with
  | none => rw [if_neg (by rw [Dev.unstartedAt_beyond h e]; decide), List.append_nil]
  | some y =>
    rw [Dev.unstartedAt_eq h e]
    dsimp only
    by_cases u : y.status.unstarted = true
    · rw [if_pos u, if_pos u, Dev.updateEntry_eq _ h e, Dev.pushOrderWrite_writes, Dev.pushOrderWrite_writes,
        List.append_assoc]
      rfl
    · rw [if_neg u, if_neg u, List.append_nil]

/-- Entries cancelled one after another, each once. -/
theorem Dev.foldl_cancelOne_writes (p : Fin 2) : ∀ (js : List Nat) (d : Dev) (o : LotOrder), js.Nodup →
    d.place p = some o → (js.foldl (Dev.cancelOne p) d).order.writes = d.order.writes ++ js.flatMap o.cancelWords := by
  intro js
  induction js with
  | nil => intro d o _ _; simp
  | cons j js ih =>
    intro d o nd h
    obtain ⟨nj, nd⟩ := List.nodup_cons.1 nd
    rw [List.foldl_cons, ih _ _ nd (Dev.cancelOne_cancels h j).place, Dev.cancelOne_writes h, List.flatMap_cons,
      List.append_assoc]
    congr 2
    apply List.flatMap_congr
    intro k hk
    have kj : k ≠ j := fun x => nj (x ▸ hk)
    unfold LotOrder.cancelWords
    dsimp only
    rw [List.getElem?_map, List.getElem?_zipIdx]
    cases o.entries[k]? with
    | none => rfl
    | some y => simp only [Option.map_some, Nat.zero_add, if_neg kj]

/-- A list built from the indices of another, and from its elements with their indices. -/
theorem flatMap_range_eq_zipIdx {α β : Type} (l : List α) (f : α → Nat → List β) (n : Nat) :
    (((List.range l.length).filter fun j => decide (n ≤ j)).flatMap fun j =>
      match l[j]? with | none => [] | some y => f y j) =
    l.zipIdx.flatMap fun y => if n ≤ y.2 then f y.1 y.2 else [] := by
  rw [List.zipIdx_eq_zip_range', ← List.range_eq_range']
  induction l using List.reverseRecOn with
  | nil => rfl
  | append_singleton l x ih =>
    rw [List.length_append, List.length_singleton, List.range_succ, List.zip_append (by simp), List.flatMap_append, ← ih,
      List.filter_append, List.flatMap_append]
    congr 1
    · apply List.flatMap_congr
      intro j hj
      have : j < l.length := by simpa using (List.mem_filter.1 hj).1
      rw [List.getElem?_append_left this]
    · by_cases h : n ≤ l.length <;> simp [h]

/-- The words of the entries from `n` on that are cancelled, in entry order. -/
theorem Dev.cancelFrom_writes {d : Dev} {p : Fin 2} {o : LotOrder} (h : d.place p = some o) (n : Nat) :
    (d.cancelFrom p n).order.writes = d.order.writes ++ o.entries.zipIdx.flatMap fun y =>
      if n ≤ y.2 ∧ (y.1.status = .waiting ∨ y.1.status = .loading) then
        [(o.addr + 16 + 16 * y.2, 6), (o.addr + 20 + 16 * y.2, BitVec.ofNat 32 y.1.made)] else [] := by
  have e : d.cancelFrom p n = (((List.range o.entries.length).filter fun j => decide (n ≤ j))).foldl (Dev.cancelOne p) d := by
    unfold Dev.cancelFrom Dev.entryRefs
    rw [h]
    dsimp only
    rw [List.foldl_map]
    rfl
  rw [e, Dev.foldl_cancelOne_writes p _ d o (List.Nodup.filter _ List.nodup_range) h]
  congr 1
  have key := flatMap_range_eq_zipIdx o.entries (fun y j => if y.status.unstarted then
    [(o.addr + 16 + 16 * j, (6 : Word)), (o.addr + 20 + 16 * j, BitVec.ofNat 32 y.made)] else []) n
  refine Eq.trans (List.flatMap_congr fun j _ => ?_) (key.trans ?_)
  · unfold LotOrder.cancelWords; cases o.entries[j]? <;> rfl
  apply List.flatMap_congr
  intro y _
  have u : y.1.status.unstarted = true ↔ y.1.status = .waiting ∨ y.1.status = .loading := by
    cases y.1.status <;> simp [EntryStatus.unstarted]
  by_cases a : n ≤ y.2
  · rw [if_pos a]
    by_cases b : y.1.status.unstarted = true
    · rw [if_pos b, if_pos ⟨a, u.1 b⟩]
    · rw [if_neg b, if_neg (fun k => b (u.2 k.2))]
  · rw [if_neg a, if_neg (fun k => a k.1)]

/-- The words written at acceptance: the status word, then each entry's status and fills made. -/
theorem Dev.writeNewOrder_writes (o : LotOrder) (d : Dev) :
    (d.writeNewOrder o).order.writes = d.order.writes ++ (o.addr + 4, orderStatusWord false o.error o.closed) ::
      (List.range o.entries.length).flatMap fun i => match o.entries[i]? with
        | none => []
        | some e => [(o.addr + 16 + 16 * i, BitVec.ofNat 32 e.status.code), (o.addr + 20 + 16 * i, BitVec.ofNat 32 e.made)] := by
  have h : ∀ (l : List Nat) (t : Dev), (l.foldl (fun d i => match o.entries[i]? with
      | none => d | some e => d.writeEntry o i e) t).order.writes = t.order.writes ++ l.flatMap fun i =>
        match o.entries[i]? with
        | none => []
        | some e => [(o.addr + 16 + 16 * i, BitVec.ofNat 32 e.status.code), (o.addr + 20 + 16 * i, BitVec.ofNat 32 e.made)] := by
    intro l
    induction l with
    | nil => intro t; simp
    | cons i l ih =>
      intro t
      rw [List.foldl_cons, ih, List.flatMap_cons]
      cases o.entries[i]? with
      | none => rfl
      | some e =>
        dsimp only
        unfold Dev.writeEntry
        rw [Dev.pushOrderWrite_writes, Dev.pushOrderWrite_writes]
        simp
  refine (h (List.range o.entries.length) (d.writeOrderStatus false o)).trans ?_
  unfold Dev.writeOrderStatus
  rw [Dev.pushOrderWrite_writes, List.append_assoc]
  rfl

/-- The final word of a complete order, the place released, and who runs then. -/
theorem Dev.completeOrder_final {d : Dev} {p : Fin 2} {o : LotOrder} (h : d.place p = some o)
    (m : ∀ x ∈ o.entries, x.status.over = true) :
    (d.completeOrder p).order.writes = d.order.writes ++
      [(o.addr + 4, orderStatusWord (decide (∀ x ∈ o.entries, x.status ≠ .error)) o.error o.closed)] ∧
    (d.completeOrder p).place p = none ∧
    (d.completeOrder p).order.running = (if d.order.running = some p then d.order.draining else d.order.running) ∧
    (d.completeOrder p).order.draining =
      (if d.order.running = some p ∨ d.order.draining = some p then none else d.order.draining) ∧
    ((∀ x ∈ o.entries, x.status ≠ .error) → o.notify = true → d.setup.part ≠ .unplaced →
      (d.completeOrder p).report.pending.getLsbD 2 = true) := by
  have w : ∀ b, (d.writeOrderStatus b o).order.writes = d.order.writes ++ [(o.addr + 4, orderStatusWord b o.error o.closed)] ∧
      (d.writeOrderStatus b o).order.running = d.order.running ∧ (d.writeOrderStatus b o).order.draining = d.order.draining ∧
      (d.writeOrderStatus b o).setup = d.setup := by
    intro b
    have s := Dev.pushOrderWrite_wrote (o.addr + 4) (orderStatusWord b o.error o.closed) d
    exact ⟨Dev.pushOrderWrite_writes _ _ _, s.runs.1, s.runs.2, by
      show (d.pushOrderWrite _ _).setup = _; rw [s.shape]⟩
  rw [Dev.completeOrder_complete h m, Dev.releasePlace_eq]
  by_cases a : ∃ x ∈ o.entries, x.status = .error
  · rw [if_pos a]
    have n : ¬∀ x ∈ o.entries, x.status ≠ .error := fun k => by obtain ⟨x, hx, e⟩ := a; exact k x hx e
    refine ⟨?_, Dev.place_setPlace _ p none, ?_, ?_, fun k => absurd k n⟩
    · rw [decide_eq_false n]; exact (w false).1
    · dsimp only; rw [(w false).2.1, (w false).2.2.1]
    · dsimp only; rw [(w false).2.1, (w false).2.2.1]
  · rw [if_neg a]
    have n : ∀ x ∈ o.entries, x.status ≠ .error := fun x hx e => a ⟨x, hx, e⟩
    rw [decide_eq_true n]
    by_cases k : o.notify = true
    · rw [if_pos k]
      obtain ⟨rq, e⟩ := Dev.raise_shape .orderADone (d.writeOrderStatus true o)
      rw [e]
      refine ⟨(w true).1, Dev.place_setPlace _ p none, ?_, ?_, fun _ _ hu => ?_⟩
      · dsimp only; rw [(w true).2.1, (w true).2.2.1]
      · dsimp only; rw [(w true).2.1, (w true).2.2.1]
      · dsimp only [Dev.setPlace]
        rw [if_neg (by rw [(w true).2.2.2]; exact hu), BitVec.getLsbD_or,
          show Cause.orderADone.mask.getLsbD 2 = true from by decide, Bool.or_true]
    · rw [if_neg k]
      refine ⟨(w true).1, Dev.place_setPlace _ p none, ?_, ?_, fun _ c => absurd c k⟩
      · dsimp only; rw [(w true).2.1, (w true).2.2.1]
      · dsimp only; rw [(w true).2.1, (w true).2.2.1]

/-- The order words of a failed recipe load, its order's entries, and who runs then. -/
theorem Dev.loadFails_order (d : Dev) (l : Loader) (code : OrderCode) (x : Nat) :
    let t := d.loadFails l code x
    (∀ p, p ≠ l.place → t.place p = d.place p) ∧
    ∀ o e, d.place l.place = some o → o.entries[l.idx]? = some e →
      let later (y : LotEntry × Nat) : Prop := l.idx < y.2 ∧ (y.1.status = .waiting ∨ y.1.status = .loading)
      let es : List LotEntry := o.entries.zipIdx.map fun y =>
        if y.2 = l.idx then { y.1 with status := .error }
        else if later y then { y.1 with status := .cancelled } else y.1
      let words (y : LotEntry × Nat) (status : Nat) : List (Nat × Word) :=
        [(o.addr + 16 + 16 * y.2, BitVec.ofNat 32 status), (o.addr + 20 + 16 * y.2, BitVec.ofNat 32 y.1.made)]
      let final : Nat × Word := (o.addr + 4, BitVec.ofNat 32 (2 + 256 * code.code + 65536 * (o.closed % 16)))
      let ws := d.order.writes ++ words (e, l.idx) 7 ++ final ::
        o.entries.zipIdx.flatMap fun y => if later y then words y 6 else []
      let finished (y : LotEntry) : Prop := y.status = .closed ∨ y.status = .cancelled ∨ y.status = .error
      ((∃ y ∈ es, ¬finished y) → t.order.writes = ws ∧ t.order.running = d.order.running ∧
        t.order.draining = d.order.draining ∧
        t.place l.place = some { o with entries := es, error := some code }) ∧
      ((∀ y ∈ es, finished y) → t.order.writes = ws ++ [final] ∧ t.place l.place = none ∧
        t.order.running = (if d.order.running = some l.place then d.order.draining else d.order.running) ∧
        t.order.draining = (if d.order.running = some l.place ∨ d.order.draining = some l.place then none
          else d.order.draining)) := by
  intro t
  let b : Dev := { d.setSlot l.slot .empty with order := { (d.setSlot l.slot .empty).order with loader := none } }
  let b1 : Dev := b.updateEntry l.place l.idx fun e => { e with status := .error }
  let c1 : Dev := match b1.place l.place with
    | none => b1
    | some o => Dev.writeOrderStatus false { o with error := some code } (b1.setPlace l.place (some { o with error := some code }))
  let c1' := c1.raiseAt .orderError x
  let c2 := c1'.cancelFrom l.place (l.idx + 1)
  let c3 : Dev := { c2 with order := { c2.order with cur := openEnded c2.order.cur } }
  have et : t = c3.completeOrder l.place := rfl
  have ra : ∃ rp, c1' = { c1 with report := rp } := by
    obtain ⟨rq, e⟩ := Dev.raise_shape .orderError { c1 with report := { c1.report with errAddr := BitVec.ofNat 32 x } }
    exact ⟨_, e⟩
  obtain ⟨rp, ra⟩ := ra
  have bp : ∀ p, b.place p = d.place p := fun _ => rfl
  have other : ∀ p, p ≠ l.place → t.place p = d.place p := by
    intro p hp
    have h1 : b1.place p = d.place p := by
      show (b.updateEntry l.place l.idx _).place p = _
      cases ho : b.place l.place with
      | none => unfold Dev.updateEntry; rw [ho]; exact bp p
      | some o =>
        cases he : o.entries[l.idx]? with
        | none => unfold Dev.updateEntry; rw [ho]; dsimp only; rw [he]; exact bp p
        | some e =>
          rw [Dev.updateEntry_eq _ ho he, (Dev.pushOrderWrite_wrote _ _ _).place, (Dev.pushOrderWrite_wrote _ _ _).place,
            Dev.place_setPlace_ne _ _ hp]
          exact bp p
    have h2 : c1.place p = d.place p := by
      show (match b1.place l.place with | none => b1 | some o => _).place p = _
      cases b1.place l.place with
      | none => exact h1
      | some o =>
        show (Dev.pushOrderWrite _ _ _).place p = _
        rw [(Dev.pushOrderWrite_wrote _ _ _).place, Dev.place_setPlace_ne _ _ hp]; exact h1
    have h3 : c1'.place p = d.place p := by rw [ra]; exact h2
    have h4 : c2.place p = d.place p := by
      cases ho : c1'.place l.place with
      | none =>
        have : c2 = c1' := by show c1'.cancelFrom _ _ = _; unfold Dev.cancelFrom Dev.entryRefs; rw [ho]; rfl
        rw [this]; exact h3
      | some o => exact ((Dev.cancelFrom_cancels ho _).other p hp).trans h3
    obtain ⟨_, _, _, _, -, -, q⟩ := Dev.completeOrder_rest l.place c3
    exact (q p hp).trans h4
  refine ⟨other, ?_⟩
  intro o e ho he later es words final ws finished
  have e1 : b1 = _ := Dev.updateEntry_eq (fun e => { e with status := .error }) (show b.place l.place = some o from ho) he
  let o1 : LotOrder := { o with entries := o.entries.set l.idx { e with status := .error } }
  let o2 : LotOrder := { o1 with error := some code }
  have p1 : b1.place l.place = some o1 := by
    rw [e1, (Dev.pushOrderWrite_wrote _ _ _).place, (Dev.pushOrderWrite_wrote _ _ _).place, Dev.place_setPlace]
  have w1 : b1.order.writes = d.order.writes ++ words (e, l.idx) 7 := by
    rw [e1, Dev.pushOrderWrite_writes, Dev.pushOrderWrite_writes, List.append_assoc]; rfl
  have r1 : b1.order.running = d.order.running ∧ b1.order.draining = d.order.draining := by
    rw [e1]
    have h := (Dev.pushOrderWrite_wrote (o.addr + 20 + 16 * l.idx) (BitVec.ofNat 32 e.made) (Dev.pushOrderWrite (o.addr + 16 + 16 * l.idx) (BitVec.ofNat 32 EntryStatus.error.code) (b.setPlace l.place (some o1)))).runs
    have h' := (Dev.pushOrderWrite_wrote (o.addr + 16 + 16 * l.idx) (BitVec.ofNat 32 EntryStatus.error.code) (b.setPlace l.place (some o1))).runs
    exact ⟨h.1.trans h'.1, h.2.trans h'.2⟩
  have ec1 : c1 = Dev.writeOrderStatus false o2 (b1.setPlace l.place (some o2)) := by
    show (match b1.place l.place with | none => b1 | some o => _) = _
    rw [p1]
  have p2 : c1'.place l.place = some o2 := by
    rw [ra]
    show c1.place l.place = _
    rw [ec1]
    exact ((Dev.pushOrderWrite_wrote _ _ _).place _).trans (Dev.place_setPlace _ _ _)
  have w2 : c1'.order.writes = d.order.writes ++ words (e, l.idx) 7 ++ [final] := by
    rw [ra]
    show c1.order.writes = _
    rw [ec1]
    unfold Dev.writeOrderStatus
    rw [Dev.pushOrderWrite_writes, orderStatusWord_error]
    show b1.order.writes ++ [final] = _
    rw [w1]
  have r2 : c1'.order.running = d.order.running ∧ c1'.order.draining = d.order.draining := by
    rw [ra]
    show c1.order.running = _ ∧ c1.order.draining = _
    rw [ec1]
    have h := (Dev.pushOrderWrite_wrote (o2.addr + 4) (orderStatusWord false o2.error o2.closed) (b1.setPlace l.place (some o2))).runs
    exact ⟨h.1.trans r1.1, h.2.trans r1.2⟩
  have K := Dev.cancelFrom_cancels p2 (l.idx + 1)
  have W := Dev.cancelFrom_writes p2 (l.idx + 1)
  obtain ⟨l1, -⟩ := List.getElem?_eq_some_iff.1 he
  have hes : (o2.entries.zipIdx.map fun y => if l.idx + 1 ≤ y.2 then y.1.cancelled else y.1) = es := by
    apply List.ext_getElem?
    intro i
    show ((o.entries.set l.idx _).zipIdx.map _)[i]? = (o.entries.zipIdx.map _)[i]?
    rw [List.getElem?_map, List.getElem?_zipIdx, List.getElem?_map, List.getElem?_zipIdx, List.getElem?_set]
    by_cases k : l.idx = i
    · subst k
      rw [if_pos rfl, if_pos l1, he]
      simp only [Option.map_some, Nat.zero_add]
      rw [if_neg (by omega)]; simp only [if_true]
    · rw [if_neg k]
      cases o.entries[i]? with
      | none => rfl
      | some y =>
        simp only [Option.map_some, Nat.zero_add]
        rw [if_neg (show ¬i = l.idx from fun h => k h.symm)]
        have u : y.status.unstarted = true ↔ y.status = .waiting ∨ y.status = .loading := by
          cases y.status <;> simp [EntryStatus.unstarted]
        unfold LotEntry.cancelled
        by_cases a : l.idx + 1 ≤ i <;> by_cases b : y.status.unstarted = true
        · rw [if_pos a, if_pos b, if_pos ⟨a, u.1 b⟩]
        · rw [if_pos a, if_neg b, if_neg (fun k => b (u.2 k.2))]
        · rw [if_neg a, if_neg (fun k => a k.1)]
        · rw [if_neg a, if_neg (fun k => a k.1)]
  have hcw : (o2.entries.zipIdx.flatMap fun y => if l.idx + 1 ≤ y.2 ∧ (y.1.status = .waiting ∨ y.1.status = .loading) then
      [(o2.addr + 16 + 16 * y.2, (6 : Word)), (o2.addr + 20 + 16 * y.2, BitVec.ofNat 32 y.1.made)] else []) =
      o.entries.zipIdx.flatMap fun y => if later y then words y 6 else [] := by
    rw [List.flatMap_def, List.flatMap_def]
    congr 1
    apply List.ext_getElem?
    intro i
    show ((o.entries.set l.idx _).zipIdx.map _)[i]? = (o.entries.zipIdx.map _)[i]?
    rw [List.getElem?_map, List.getElem?_zipIdx, List.getElem?_map, List.getElem?_zipIdx, List.getElem?_set]
    by_cases k : l.idx = i
    · subst k
      rw [if_pos rfl, if_pos l1, he]
      simp only [Option.map_some, Nat.zero_add]
      rw [if_neg (by omega), if_neg (fun h => by have := h.1; omega)]
    · rw [if_neg k]
      cases o.entries[i]? with
      | none => rfl
      | some y => simp only [Option.map_some, Nat.zero_add]; rfl
  have p3 : c3.place l.place = some { o with entries := es, error := some code } := by
    show c2.place l.place = _
    rw [show c2.place l.place = _ from K.place, hes]
  have w3 : c3.order.writes = ws := by
    show c2.order.writes = _
    rw [show c2.order.writes = _ from W, hcw, w2]
    show _ = _ ++ _ ++ _ :: _
    rw [List.append_assoc, List.append_assoc, List.append_assoc]; rfl
  have r3 : c3.order.running = d.order.running ∧ c3.order.draining = d.order.draining := by
    obtain ⟨pl, w⟩ := K.rest
    exact ⟨w.runs.1.trans r2.1, w.runs.2.trans r2.2⟩
  have fin : ∀ y : LotEntry, y.status.over = true ↔ finished y := fun y => EntryStatus.over_iff y.status
  constructor
  · rintro ⟨y, hy, nf⟩
    have : t = c3 := by
      rw [et]
      refine Dev.completeOrder_open p3 (x := y) hy ?_
      cases hov : y.status.over with
      | false => rfl
      | true => exact absurd ((fin y).1 hov) nf
    rw [this]
    exact ⟨w3, r3.1, r3.2, p3⟩
  · intro ha
    obtain ⟨f1, f2, f3, f4, -⟩ := Dev.completeOrder_final p3 (fun y hy => (fin y).2 (ha y hy))
    rw [et]
    refine ⟨?_, f2, by rw [f3, r3.1, r3.2], by rw [f4, r3.1, r3.2]⟩
    rw [f1, w3]
    have : ¬∀ y ∈ es, y.status ≠ .error := by
      intro k
      refine k { e with status := .error } ?_ rfl
      refine List.mem_map.2 ⟨(e, l.idx), ?_, by simp⟩
      rw [List.mem_iff_getElem?]
      exact ⟨l.idx, by rw [List.getElem?_zipIdx, he]; simp⟩
    show ws ++ [(_, orderStatusWord (decide (∀ y ∈ es, y.status ≠ .error)) (some code) o.closed)] = _
    rw [decide_eq_false this, orderStatusWord_error]

end Sys2Proof.Machine
end

