-- ==== Sys2Proof/Laws/KeptServe.lean ====
section
/-! SUPPORT. The laws of the device through the serving of the upstream port. -/

namespace Sys2Proof.Machine

variable {a b d e : Dev} {p q : Word} {m n : Nat} {h h' : Held} {us : List Held} {s : State}

theorem Kept.mono (h : Kept m a d) (k : m ≤ n) : Kept n a d := Keeps.mono h k

/-! ### The transactions presented -/

theorem Dev.LawsAt.withUp {u : List Held} (h : d.LawsAt p) (k : (d.withUp u).PortLaws) : (d.withUp u).LawsAt p :=
  ⟨⟨h.books.pool, h.books.members, h.books.suspects, h.books.sound⟩, h.pockets,
    ⟨h.table.empty, h.table.taught, h.table.one, h.table.loader, h.table.trims, h.table.untaught⟩,
    ⟨h.setup.valid, h.setup.ready, h.setup.placed, h.setup.empty⟩, k⟩

theorem Kept.withUp {u : List Held} (k : d.LawsAt (d.pocketNow.getD 0) → (d.withUp u).PortLaws) : Kept 0 d (d.withUp u) :=
  fun h => ⟨h.withUp (k h), fun _ _ o => o⟩

/-- A transaction none of whose pieces of work is done. -/
def Held.unserved (h : Held) : Prop := h.work = none ∧ h.ctx.formed = []

theorem Dev.PortLaws.unserved {u : List Held} (k : ∀ x ∈ u, x.unserved) (d : Dev) : (d.withUp u).PortLaws := by
  have k' : ∀ x us, (d.withUp u).path.upstream = x :: us → x.unserved := fun x us e => k x (by
    have : u = x :: us := e
    rw [this]; exact List.mem_cons_self)
  refine ⟨fun x hx => k x (List.mem_of_mem_drop hx), fun x us e _ => (k' x us e).2, fun x us w e hw => ?_, fun x us e f hf => ?_⟩
  · rw [(k' x us e).1] at hw; cases hw
  · rw [(k' x us e).2] at hf; cases hf

theorem Dev.PortLaws.cons (w : ∀ x ∈ us, x.unserved) (i : h.work = none → h.ctx.formed = [])
    (k : ∀ w, h.work = some w → (∀ mi ∈ w, mi.filling = true) ∨ (h.ctx.formed = [] ∧ ∀ mi ∈ w, mi.filling = false))
    (s : ∀ f ∈ h.ctx.formed, f.tracked = true → (d.slot f.recipe).st = .current ∨ (d.slot f.recipe).st = .draining) :
    (d.withUp (h :: us)).PortLaws := by
  have inj : ∀ x xs, (d.withUp (h :: us)).path.upstream = x :: xs → x = h := fun x xs e => by
    have e' : h :: us = x :: xs := e
    injection e' with e' _
    exact e'.symm
  refine ⟨w, fun x xs e => ?_, fun x xs v e => ?_, fun x xs e => ?_⟩
  · rw [inj x xs e]; exact i
  · rw [inj x xs e]; exact k v
  · rw [inj x xs e]; exact s

theorem Dev.PortLaws.behind (l : d.PortLaws) (hu : d.path.upstream = h :: us) : ∀ x ∈ us, x.unserved := by
  have := l.waiting
  rw [hu] at this; exact this

theorem Kept.freePort : Kept 0 d d.freePort :=
  Kept.withUp fun l => Dev.PortLaws.unserved l.port.waiting d

/-- A transaction joins those presented. -/
theorem Kept.queueUp (k : h.unserved) : Kept 0 d (d.withUp (d.path.upstream ++ [h])) := by
  refine Kept.withUp fun l => ?_
  cases hu : d.path.upstream with
  | nil => exact Dev.PortLaws.unserved (by simpa using k) d
  | cons x us =>
    rw [List.cons_append]
    refine Dev.PortLaws.cons (fun y hy => ?_) (l.port.idle x us hu) (fun w => l.port.kind x us w hu) (l.port.slots x us hu)
    rcases List.mem_append.1 hy with hy | hy
    · exact l.port.behind hu y hy
    · rw [List.mem_singleton.1 hy]; exact k

/-! ### What a decision of an order leaves -/

/-- The recipe slots in use by fills stay as they are. -/
def InUse (a d : Dev) : Prop := ∀ j, (a.slot j).st = .current ∨ (a.slot j).st = .draining → (d.slot j).st = (a.slot j).st

theorem InUse.refl (d : Dev) : InUse d d := fun _ _ => rfl

theorem InUse.trans (h : InUse a b) (k : InUse b d) : InUse a d := fun j hj => by
  have e := h j hj
  rw [← e]
  exact k j (by rw [e]; exact hj)

theorem InUse.view (e : d.view = a.view) : InUse a d := fun j _ => congrArg (fun v : LawView => (v.slots.get j).st) e

theorem CancelsSlots.inUse {p : Fin 2} {S : Fin 4 → Prop} (h : CancelsSlots p S a d) : InUse a d := by
  intro j hj
  rw [h.kept j (.inr (.inr ⟨by rcases hj with x | x <;> rw [x] <;> decide, by rcases hj with x | x <;> rw [x] <;> decide⟩))]

theorem InUse.cancelOrder (p : Fin 2) : InUse d (d.cancelOrder p) :=
  (Dev.cancelSlots_cancels p d).inUse.trans (InUse.view (Dev.cancelFrom_view _ _ _))

theorem InUse.acceptOrder (o : LotOrder) (r : Bool) : InUse d (d.acceptOrder o r) := by
  unfold Dev.acceptOrder
  split
  · exact InUse.view (Dev.refuseOrder_view _ _ _)
  · rename_i p _
    dsimp only
    split
    · exact InUse.view ((Dev.writeNewOrder_view (d.setPlace p (some o)) o).trans rfl)
    · rename_i q _
      have k : InUse d (if r then d.cancelOrder q else d) := by
        split
        · exact InUse.cancelOrder q
        · exact InUse.refl d
      refine k.trans (InUse.view ?_)
      rw [Dev.completeOrder_view]
      exact (Dev.writeNewOrder_view ((if r then d.cancelOrder q else d).setPlace p (some o)) o).trans rfl

theorem InUse.decideOrder (x : Nat) (ws : List Word) : InUse d (d.decideOrder x ws) := by
  unfold Dev.decideOrder
  dsimp only
  split
  · exact InUse.view (Dev.refuseOrder_view _ _ _)
  · split
    · exact InUse.acceptOrder _ _
    · exact InUse.view (Dev.refuseOrder_view _ _ _)
    · split
      · split
        · exact InUse.acceptOrder _ _
        · exact InUse.view (Dev.refuseOrder_view _ _ _)
      · exact InUse.acceptOrder _ _

theorem InUse.decideHeld : InUse d d.decideHeld := by
  unfold Dev.decideHeld
  split
  · exact InUse.refl d
  · split
    · exact InUse.trans (b := { d with order := { d.order with fetchA := none } }) (InUse.view rfl) (InUse.decideOrder _ _)
    · exact InUse.refl d

/-! ### What the blocks take from a stored write -/

theorem Kept.takeControl (k : Window) (w : Word) : Kept 0 d (d.takeControl k w).2 := by
  unfold Dev.takeControl
  split
  · split
    · exact Kept.same rfl
    · exact Kept.takeLoad _
  · exact Kept.same rfl
  · exact Kept.same (d.orderAWritten_view _)
  · exact Kept.same (d.orderBWritten_view _)
  · exact Kept.same (d.acknowledge_view _)
  · exact Kept.same rfl
  · exact Kept.same rfl
  · exact Kept.same rfl
  · exact Kept.same rfl
  · exact Kept.same rfl
  · exact Kept.same rfl
  · exact Kept.same rfl

theorem Kept.takeReady (m : Master) (k : Window) (i : Nat) (ws : List WWord) (hr : k = .position → d.setup.part = .ready) :
    Kept 0 d (Dev.takeReady m k i ws d).2 := by
  unfold Dev.takeReady
  split
  · exact Kept.takeCommandWords _ _ _
  · split
    · exact Kept.same (Dev.takeSamples_view _ _ _)
    · exact Kept.same rfl
  · split <;> exact Kept.same rfl
  · split
    · exact Kept.takePosition _ (hr rfl)
    · exact Kept.same rfl
  · split
    · exact Kept.takeControl _ _
    · exact Kept.same rfl
  · exact Kept.same rfl

theorem Kept.takeStore (m : Master) (x : Nat) (ws : List WWord) : Kept 0 d (Dev.takeStore m x ws d).2 := by
  unfold Dev.takeStore
  split
  · exact Kept.same rfl
  · rename_i r _
    dsimp only
    split
    · rename_i hp; exact Kept.takeReady _ _ _ _ fun _ => hp
    · split
      · rename_i hk
        exact Kept.takeReady _ _ _ _ fun c => by rw [hk] at c; cases c
      · exact Kept.same rfl
    · exact Kept.same rfl
    · exact Kept.same rfl

/-- The accesses that a taking adds are no fill's. -/
theorem setBursts_plain (w : Word) : ∀ (vs : List Nat) (first len : Nat), ∀ mi ∈ setBursts w first len vs, mi.filling = false := by
  intro vs
  induction vs with
  | nil =>
    intro first len mi hm
    unfold setBursts at hm
    split at hm
    · exact absurd hm List.not_mem_nil
    · rw [List.mem_singleton.1 hm]; rfl
  | cons v vs ih =>
    intro first len mi hm
    unfold setBursts at hm
    split at hm
    · exact ih _ _ mi hm
    · split at hm
      · exact ih _ _ mi hm
      · rcases List.mem_cons.1 hm with rfl | hm
        · rfl
        · exact ih _ _ mi hm

theorem Dev.takeStore_plain (m : Master) (x : Nat) (ws : List WWord) (d : Dev) : ∀ mi ∈ (Dev.takeStore m x ws d).1, mi.filling = false := by
  have codes : ∀ i ws, ∀ mi ∈ codeSlots i ws, mi.filling = false := by
    intro i ws mi hm
    unfold codeSlots at hm
    obtain ⟨j, _, hj⟩ := List.mem_filterMap.1 hm
    dsimp only at hj
    split at hj
    · injection hj with hj; rw [← hj]; rfl
    · cases hj
  have control : ∀ k w, ∀ mi ∈ (d.takeControl k w).1, mi.filling = false := by
    intro k w mi hm
    unfold Dev.takeControl at hm
    split at hm
    all_goals first
      | exact absurd hm List.not_mem_nil
      | exact setBursts_plain _ _ _ _ _ hm
      | (obtain ⟨v, _, rfl⟩ := List.mem_map.1 hm; rfl)
  have ready : ∀ k i ws, ∀ mi ∈ (Dev.takeReady m k i ws d).1, mi.filling = false := by
    intro k i ws mi hm
    unfold Dev.takeReady at hm
    split at hm
    · exact absurd hm List.not_mem_nil
    · split at hm <;> exact absurd hm List.not_mem_nil
    · split at hm
      · exact codes _ _ _ hm
      · exact absurd hm List.not_mem_nil
    · split at hm <;> exact absurd hm List.not_mem_nil
    · split at hm
      · exact control _ _ _ hm
      · exact absurd hm List.not_mem_nil
    · exact absurd hm List.not_mem_nil
  intro mi hm
  unfold Dev.takeStore at hm
  split at hm
  · exact absurd hm List.not_mem_nil
  · dsimp only at hm
    split at hm
    · exact ready _ _ _ _ hm
    · split at hm
      · exact ready _ _ _ _ hm
      · exact absurd hm List.not_mem_nil
    · exact absurd hm List.not_mem_nil
    · exact absurd hm List.not_mem_nil

/-! ### Formed fills -/

theorem Dev.stallTest_formed (c : Ctx) : (d.stallTest c).formed = c.formed := by
  unfold Dev.stallTest
  split
  · rfl
  · split <;> rfl

/-- A fill is formed for the CURRENT recipe (R26). -/
theorem Dev.formFill_formed (v : Fin 64) (x : Word) (c : Ctx) :
    ∀ f ∈ (d.formFill v x c).formed, f ∈ c.formed ∨ (d.slot f.recipe).st = .current := by
  intro f hf
  unfold Dev.formFill at hf
  split at hf
  · exact .inl hf
  · exact .inl hf
  · rename_i k n t hd
    rw [Dev.stallTest_formed] at hf
    have cur : d.currentSlot = some k := by
      unfold Dev.doseFor at hd
      split at hd
      · cases hd
      · split at hd
        · cases hd
        · rename_i j hj
          injection hd with e _ _
          rw [← e]; exact hj
    unfold Dev.formDosed at hf
    dsimp only at hf
    split at hf
    all_goals
      rcases List.mem_append.1 hf with hf | hf
      · exact .inl hf
      · rw [List.mem_singleton.1 hf]
        exact .inr (Dev.slotIn_some cur)

/-! ### A piece of work -/

/-- The pieces of work that a piece adds are of its kind. -/
theorem Dev.workDone_more (ws : List Word) (mi : Micro) : ∀ x ∈ (d.workDone h ws mi).1, x.filling = mi.filling := by
  cases mi with
  | store a xs => exact fun x hx => Dev.takeStore_plain _ _ _ _ x hx
  | nomMerge v w => intro x hx; rw [List.mem_singleton.1 hx]; rfl
  | nomAdd v w => intro x hx; rw [List.mem_singleton.1 hx]; rfl
  | fill v =>
    intro x hx
    unfold Dev.workDone at hx
    dsimp only at hx
    split at hx
    · exact absurd hx List.not_mem_nil
    · unfold Dev.fillWork at hx
      rcases List.mem_append.1 hx with hx | hx
      · split at hx
        · obtain ⟨k, _, rfl⟩ := List.mem_map.1 hx; rfl
        · exact absurd hx List.not_mem_nil
      · simp only [List.mem_cons, List.not_mem_nil, or_false] at hx
        rcases hx with rfl | rfl <;> rfl
  | switchCommit =>
    intro x hx
    unfold Dev.workDone at hx
    dsimp only at hx
    split at hx <;> exact absurd hx List.not_mem_nil
  | codeSlot j known =>
    intro x hx
    have hx : x ∈ d.codeWork j known := hx
    unfold Dev.codeWork at hx
    split at hx
    · exact absurd hx List.not_mem_nil
    · rcases List.mem_append.1 hx with hx | hx
      · obtain ⟨k, _, rfl⟩ := List.mem_map.1 hx; rfl
      · rw [List.mem_singleton.1 hx]; rfl
  | _ => exact fun x hx => absurd hx List.not_mem_nil

/-- A piece of work whose block acts with the port set aside, or not at all. -/
theorem Kept.work {mi : Micro} {rest more : List Micro} {c : Ctx} (hu : d.path.upstream = h :: us)
    (hw : h.work = some (mi :: rest)) (hk : Kept m (d.withUp []) e) (hm : ∀ x ∈ more, x.filling = mi.filling)
    (hf : mi.filling = false → c.formed = h.ctx.formed)
    (hs : mi.filling = true → d.LawsAt (d.pocketNow.getD 0) → ∀ f ∈ c.formed, f.tracked = true →
      (e.slot f.recipe).st = .current ∨ (e.slot f.recipe).st = .draining)
    (h1 : h'.work = some (more ++ rest)) (h2 : h'.ctx = c) : Kept m d (e.withUp (h' :: us)) := by
  intro l
  have k := ((Kept.withUp (u := []) fun _ => Dev.PortLaws.unserved (by simp) d).trans hk).trans
    (Kept.withUp (d := e) (u := h' :: us) fun _ => ?_)
  · rw [Nat.zero_add] at k; exact k l
  · have kind := l.port.kind h us _ hu hw
    refine Dev.PortLaws.cons (l.port.behind hu) (fun c => by rw [h1] at c; cases c) (fun w hw' => ?_) ?_
    · rw [h1] at hw'
      injection hw' with hw'
      subst hw'
      cases fl : mi.filling with
      | true =>
        refine .inl fun x hx => ?_
        rcases List.mem_append.1 hx with hx | hx
        · rw [hm x hx, fl]
        · rcases kind with kd | ⟨_, kd⟩
          · exact kd x (List.mem_cons_of_mem _ hx)
          · have := kd mi List.mem_cons_self
            rw [fl] at this; cases this
      | false =>
        rcases kind with kd | ⟨k0, kd⟩
        · have := kd mi List.mem_cons_self
          rw [fl] at this; cases this
        · refine .inr ⟨by rw [h2, hf fl]; exact k0, fun x hx => ?_⟩
          rcases List.mem_append.1 hx with hx | hx
          · rw [hm x hx, fl]
          · exact kd x (List.mem_cons_of_mem _ hx)
    · rw [h2]
      cases fl : mi.filling with
      | true => exact hs fl l
      | false =>
        rcases kind with kd | ⟨k0, _⟩
        · have := kd mi List.mem_cons_self
          rw [fl] at this; cases this
        · rw [hf fl, k0]; exact fun f hf => absurd hf List.not_mem_nil

theorem Dev.setHead_eq (hu : d.path.upstream = h :: us) (x : Held) (e : Dev) :
    Dev.setHead x (e.withUp d.path.upstream) = e.withUp (x :: us) := by
  rw [hu]; rfl

theorem Kept.codeTaken (j : Nat) (known : List (Nat × Word)) (c : Ctx) : Kept 0 d (d.codeTaken j known c) := Kept.takeCode _ _ _

/-- A piece of work is done, and the head of the port goes on. -/
theorem Kept.workDone {mi : Micro} {rest : List Micro} {k : Held} (ws : List Word) (hu : d.path.upstream = h :: us)
    (hw : h.work = some (mi :: rest)) (hc : k.ctx = h.ctx) :
    Kept readNumbers d (Dev.setHead { k with work := some ((d.workDone k ws mi).1 ++ rest), ctx := (d.workDone k ws mi).2.1 }
      (d.workDone k ws mi).2.2) := by
  have more := Dev.workDone_more (d := d) (h := k) ws mi
  -- what is formed by a piece that leaves the part as it is, or acts with the port set aside
  have act : ∀ (e : Dev) (n : Nat), n ≤ readNumbers → (d.workDone k ws mi).2.2 = e.withUp d.path.upstream → Kept n (d.withUp []) e →
      (mi.filling = false → (d.workDone k ws mi).2.1.formed = h.ctx.formed) →
      (mi.filling = true → d.LawsAt (d.pocketNow.getD 0) → ∀ f ∈ (d.workDone k ws mi).2.1.formed, f.tracked = true →
        (e.slot f.recipe).st = .current ∨ (e.slot f.recipe).st = .draining) →
      Kept readNumbers d (Dev.setHead { k with work := some ((d.workDone k ws mi).1 ++ rest), ctx := (d.workDone k ws mi).2.1 }
        (d.workDone k ws mi).2.2) := by
    intro e n hn h1 h2 h3 h4
    rw [h1, Dev.setHead_eq hu]
    exact (Kept.work hu hw h2 more h3 h4 rfl rfl).mono hn
  have still : (d.workDone k ws mi).2.2 = d → (d.workDone k ws mi).2.1.formed = h.ctx.formed →
      Kept readNumbers d (Dev.setHead { k with work := some ((d.workDone k ws mi).1 ++ rest), ctx := (d.workDone k ws mi).2.1 }
        (d.workDone k ws mi).2.2) := fun h1 h2 =>
    act (d.withUp []) 0 (Nat.zero_le _) h1 (Kept.same rfl) (fun _ => h2) fun _ l f hf ht => l.port.slots h us hu f (by rwa [h2] at hf) ht
  have own : k.ctx.formed = h.ctx.formed := by rw [hc]
  have plain : ∀ e : Dev, mi.filling = false → (d.workDone k ws mi).2.2 = e.withUp d.path.upstream → Kept 0 (d.withUp []) e →
      (d.workDone k ws mi).2.1.formed = k.ctx.formed →
      Kept readNumbers d (Dev.setHead { k with work := some ((d.workDone k ws mi).1 ++ rest), ctx := (d.workDone k ws mi).2.1 }
        (d.workDone k ws mi).2.2) := fun e h0 h1 h2 h3 =>
    act e 0 (Nat.zero_le _) h1 h2 (fun _ => h3.trans own) fun c => by rw [h0] at c; cases c
  have forms : ∀ (v : Fin 64) (x : Word) (e : Dev), InUse d e → d.LawsAt (d.pocketNow.getD 0) → ∀ f ∈ (d.formFill v x k.ctx).formed,
      f.tracked = true → (e.slot f.recipe).st = .current ∨ (e.slot f.recipe).st = .draining := by
    intro v x e i l f hf ht
    have : (d.slot f.recipe).st = .current ∨ (d.slot f.recipe).st = .draining := by
      rcases Dev.formFill_formed v x k.ctx f hf with hf | hf
      · exact l.port.slots h us hu f (by rwa [own] at hf) ht
      · exact .inl hf
    rw [i _ this]; exact this
  cases mi with
  | store x xs => exact plain _ rfl rfl (Kept.takeStore _ _ _) rfl
  | codeTake j known => exact plain _ rfl rfl (Kept.codeTaken j known k.ctx) rfl
  | gatePoll => exact plain _ rfl rfl Kept.pollGate rfl
  | gateInspect => exact plain _ rfl rfl Kept.inspectGate rfl
  | viewEnd i n => exact plain _ rfl rfl (Kept.same (Dev.viewRead_view _ _ _ _ _)) rfl
  | fill v =>
    cases hv : d.switchAt (Fin.ofNat 64 v) k.ctx with
    | none =>
      refine act (d.withUp []) 0 (Nat.zero_le _) ?_ (Kept.same rfl) (fun c => by cases c) fun _ l f hf ht => ?_
      · simp only [Dev.workDone, hv]; rfl
      · refine forms (Fin.ofNat 64 v) (wordAt ws 0) (d.withUp []) (fun _ _ => rfl) l f ?_ ht
        simpa only [Dev.workDone, hv] using hf
    | some j => exact still (by simp only [Dev.workDone, hv]) (by simp only [Dev.workDone, hv]; exact own)
  | fillFetch v =>
    refine act (Dev.decideHeld (d.withUp [])) 0 (Nat.zero_le _) rfl Kept.decideHeld (fun c => by cases c) fun _ l f hf ht => ?_
    exact forms (Fin.ofNat 64 v) (wordAt ws 0) _ (InUse.decideHeld (d := d.withUp [])) l f hf ht
  | fillEnd =>
    intro l
    have e1 : d.workDone k ws .fillEnd =
        ([], { k.ctx with formed := [] }, (Dev.takeFills k.ctx (d.withUp [])).withUp d.path.upstream) := by
      dsimp only [Dev.workDone, Dev.apart]
    have tk : Kept readNumbers (d.withUp []) (Dev.takeFills k.ctx (d.withUp [])) :=
      Kept.takeFills k.ctx fun f hf ht => l.port.slots h us hu f (by rwa [own] at hf) ht
    generalize Dev.takeFills k.ctx (d.withUp []) = e at e1 tk
    exact act e readNumbers (Nat.le_refl _) (by rw [e1]) tk (fun c => by cases c) (fun _ _ f hf => by rw [e1] at hf; cases hf) l
  | switchCommit =>
    cases hp : d.slotIn .pending with
    | none => exact still (by simp only [Dev.workDone, hp]) (by simp only [Dev.workDone, hp]; exact own)
    | some j =>
      have e1 : (d.workDone k ws .switchCommit) = ([], k.ctx.switched, d.switchTo j k.ctx) := by simp only [Dev.workDone, hp]
      rw [e1]
      have up : (d.switchTo j k.ctx).path.upstream = h :: us := ((Dev.switchTo_block (.refl d) j k.ctx).upstream).trans hu
      have sw := Kept.switchTo k.ctx hp
      intro l
      have kind := l.port.kind h us _ hu hw
      have sh : Dev.setHead { k with work := some ([] ++ rest), ctx := k.ctx.switched } (d.switchTo j k.ctx) =
          (d.switchTo j k.ctx).withUp ({ k with work := some ([] ++ rest), ctx := k.ctx.switched } :: us) := by
        unfold Dev.setHead; rw [up]; rfl
      rw [sh]
      refine (sw.trans (Kept.withUp fun l' => ?_)).mono (Nat.zero_le _) l
      refine Dev.PortLaws.cons (l'.port.behind up) (fun c => by cases c) (fun w hw' => ?_) ?_
      · injection hw' with hw'
        subst hw'
        refine .inl fun x hx => ?_
        rcases kind with kd | ⟨_, kd⟩
        · exact kd x (List.mem_cons_of_mem _ hx)
        · have := kd .switchCommit List.mem_cons_self
          cases this
      · intro f hf ht
        exact l'.port.slots h us up f (by rw [← own]; exact hf) ht
  | _ => exact still rfl own

theorem Kept.progress {mi : Micro} {rest : List Micro} {k : Held} (ws : List Word) (hu : d.path.upstream = h :: us)
    (hw : h.work = some (mi :: rest)) (hc : k.ctx = h.ctx) : Kept readNumbers d (d.progress k mi rest ws) :=
  (Kept.workDone ws hu hw hc).thenSame (Dev.settle_view _)

/-! ### The work of an accepted transaction -/

theorem Dev.forward_plain (t : Txn) : ∀ mi ∈ t.forward, mi.filling = false := by
  intro mi hm
  cases t <;> (rw [List.mem_singleton.1 hm]; rfl)

theorem nominalRuns_plain : ∀ (ws : List WWord) (start : Nat) (run : List Word) (i : Nat), ∀ mi ∈ nominalRuns start run i ws, mi.filling = false := by
  intro ws
  have put : ∀ (start : Nat) (run : List Word), ∀ mi ∈ (if run = [] then [] else [Micro.nomPut start run.reverse]), mi.filling = false := by
    intro start run mi hm
    split at hm
    · exact absurd hm List.not_mem_nil
    · rw [List.mem_singleton.1 hm]; rfl
  induction ws with
  | nil => exact fun start run _ => put start run
  | cons w ws ih =>
    intro start run i mi hm
    unfold nominalRuns at hm
    split at hm
    · exact ih _ _ _ mi hm
    · rcases List.mem_append.1 hm with hm | hm
      · rcases List.mem_append.1 hm with hm | hm
        · exact put _ _ mi hm
        · split at hm
          · exact absurd hm List.not_mem_nil
          · rw [List.mem_singleton.1 hm]; rfl
      · exact ih _ _ _ mi hm

theorem addWords_plain : ∀ (ws : List WWord) (i : Nat), ∀ mi ∈ addWords i ws, mi.filling = false := by
  intro ws
  induction ws with
  | nil => exact fun _ _ hm => absurd hm List.not_mem_nil
  | cons w ws ih =>
    intro i mi hm
    unfold addWords at hm
    rcases List.mem_append.1 hm with hm | hm
    · split at hm
      · rw [List.mem_singleton.1 hm]; rfl
      · exact absurd hm List.not_mem_nil
    · exact ih _ mi hm

/-- The work of a transaction is all of one kind (R23, R158). -/
theorem Dev.workOf_kind (t : Txn) : (∀ mi ∈ d.workOf t, mi.filling = true) ∨ ∀ mi ∈ d.workOf t, mi.filling = false := by
  have fwd := Dev.forward_plain t
  unfold Dev.workOf
  split
  · split
    · exact .inr fwd
    · rename_i r _
      dsimp only
      split
      · unfold Dev.readWork
        split
        · split
          · refine .inl fun mi hm => ?_
            rcases List.mem_append.1 hm with hm | hm
            · obtain ⟨v, _, rfl⟩ := List.mem_map.1 hm; rfl
            · rw [List.mem_singleton.1 hm]; rfl
          · refine .inr fun mi hm => ?_
            obtain ⟨v, _, rfl⟩ := List.mem_map.1 hm; rfl
        · exact .inr fun mi hm => by rw [List.mem_singleton.1 hm]; rfl
        · refine .inr fun mi hm => ?_
          rcases List.mem_append.1 hm with hm | hm
          · obtain ⟨v, _, rfl⟩ := List.mem_map.1 hm; rfl
          · rw [List.mem_singleton.1 hm]; rfl
        · split
          · exact .inr fun mi hm => by rw [List.mem_singleton.1 hm]; rfl
          · exact .inr fun mi hm => by rw [List.mem_singleton.1 hm]; rfl
        · refine .inr fun mi hm => ?_
          unfold Dev.queryWork at hm
          rcases List.mem_append.1 hm with hm | hm
          · obtain ⟨v, _, rfl⟩ := List.mem_map.1 hm; rfl
          · rw [List.mem_singleton.1 hm]; rfl
        · exact .inr fun mi hm => by rw [List.mem_singleton.1 hm]; rfl
      · unfold writeWork
        split
        · exact .inr (nominalRuns_plain _ _ _ _)
        · exact .inr (addWords_plain _ _)
        · exact .inr fun mi hm => by rw [List.mem_singleton.1 hm]; rfl
  · exact .inr fwd

/-! ### Serving the port -/

theorem Kept.accept (hu : s.dev.path.upstream = h :: us) : Kept 0 s.dev (s.accept h).dev := by
  unfold State.accept
  split
  · show Kept 0 s.dev s.dev.pathRefusal
    unfold Dev.pathRefusal
    refine Kept.thenSame ?_ ((Dev.settle_view _).trans (Dev.raise_view _ _))
    exact (Kept.same (a := s.dev) (d := { s.dev with path := { s.dev.path with faults := s.dev.path.faults + 1#32 } }) rfl).trans Kept.freePort
  · show Kept 0 s.dev (Dev.setHead _ (s.dev.withUp s.dev.path.upstream))
    rw [Dev.setHead_eq hu]
    refine Kept.withUp fun l => Dev.PortLaws.cons (l.port.behind hu) (fun c => by cases c) (fun w hw' => ?_) fun f hf => absurd hf List.not_mem_nil
    injection hw' with hw'
    subst hw'
    rcases Dev.workOf_kind (d := s.dev) h.txn with k | k
    · exact .inl k
    · exact .inr ⟨rfl, k⟩

theorem Kept.faultEnds (mi : Micro) : Kept 0 d (d.faultEnds mi) := by
  unfold Dev.faultEnds
  dsimp only
  refine Kept.thenSame ?_ (Dev.settle_view _)
  have k : Kept 0 d (Dev.drainAll d.freePort) := Kept.freePort.trans Kept.drainAll
  split
  · exact k.trans Kept.decideHeld
  · exact k

theorem Kept.grantAccess {mi : Micro} {rest : List Micro} {k : Held} (x : Access) (hu : s.dev.path.upstream = h :: us)
    (hw : h.work = some (mi :: rest)) (hc : k.ctx = h.ctx) : Kept readNumbers s.dev (s.grantAccess k mi rest x).dev := by
  have g : Kept 0 s.dev s.dev.countGrant := Kept.same s.dev.countGrant_view
  have gu : s.dev.countGrant.path.upstream = h :: us := s.dev.countGrant_keeps.2.2.2.trans hu
  unfold State.grantAccess
  dsimp only
  split
  · exact (g.trans (Kept.faultEnds mi)).mono (Nat.zero_le _)
  · rename_i j _
    have e := g.trans (Kept.progress (k := { k with faultAt := some j }) (x.words s.mem) gu hw hc)
    rw [Nat.zero_add] at e; exact e
  · have e := g.trans (Kept.progress (k := k) (x.words s.mem) gu hw hc)
    rw [Nat.zero_add] at e; exact e

/-- Serving the port: at most a read's numbers for each piece of work. -/
theorem Kept.serve : ∀ (n b : Nat) (s : State), Kept (n * readNumbers) s.dev (State.serve n b s).dev := by
  intro n
  induction n with
  | zero => exact fun b s => (Kept.same rfl).mono (Nat.zero_le _)
  | succ n ih =>
    intro b s
    have same : Kept ((n + 1) * readNumbers) s.dev s.dev := (Kept.same rfl).mono (Nat.zero_le _)
    have on : ∀ (m b' : Nat) (t : State), m ≤ readNumbers → Kept m s.dev t.dev →
        Kept ((n + 1) * readNumbers) s.dev (State.serve n b' t).dev := fun m b' t hm k =>
      (k.trans (ih b' t)).mono (by rw [Nat.succ_mul]; omega)
    rw [State.serve]
    split
    · exact same
    · rename_i h us hu
      split
      · exact on 0 _ _ (Nat.zero_le _) (Kept.accept hu)
      · exact on 0 _ _ (Nat.zero_le _) (Kept.freePort (d := s.dev))
      · rename_i mi rest hw
        split
        · exact on _ _ _ (Nat.le_refl _) (Kept.progress [] hu hw rfl)
        · split
          · exact same
          · split
            · exact on _ _ _ (Nat.le_refl _) (Kept.grantAccess _ hu hw rfl)
            · exact same

/-- The most numbers one step can give out (R3, R9). -/
def stepNumbers : Nat := serveFuel * readNumbers

theorem Kept.present (t : Txn) (x : MemAns) : Kept stepNumbers s.dev (s.present t x).dev := by
  have q : Kept 0 s.dev (s.dev.withUp (s.dev.path.upstream ++ [{ txn := t, faultAt := x.faultAt, work := none, ctx := Ctx.init 0 }])) :=
    Kept.queueUp ⟨rfl, rfl⟩
  unfold State.present
  dsimp only
  split
  · have k := q.trans (Kept.serve serveFuel (x.pauseAt.getD serveFuel) (s.portsClear.queueUp
      { txn := t, faultAt := x.faultAt, work := none, ctx := Ctx.init 0 }))
    rw [Nat.zero_add] at k; exact k
  · exact q.mono (Nat.zero_le _)

theorem Kept.arbiterGrant : Kept stepNumbers s.dev s.arbiterGrant.dev := by
  unfold State.arbiterGrant
  split
  · exact (Kept.same rfl).mono (Nat.zero_le _)
  · split
    · exact Kept.serve serveFuel 1 s.portsClear
    · refine Kept.mono (m := 0) ?_ (Nat.zero_le _)
      unfold State.grantBurst
      split
      · exact Kept.same rfl
      · exact Kept.same s.dev.issueBurst_view

/-! ### Answers of internal bursts -/

theorem State.takeAnswer_view (op : InternalOp) (ok : Bool) (s : State) : (s.takeAnswer op ok).2.dev.view = s.dev.view := by
  have o : (s.outsideAnswer op).2.dev.view = s.dev.view := by
    unfold State.outsideAnswer
    split <;> rfl
  unfold State.takeAnswer
  split
  · exact o
  · split
    · rfl
    · exact o

theorem Kept.answered (op : InternalOp) (ok : Bool) (f : BurstAnswer → Dev → Dev) (k : ∀ x d, Kept 0 d (f x d)) :
    Kept 0 s.dev (s.answered op ok f).dev := by
  have v := State.takeAnswer_view op ok s
  unfold State.answered
  dsimp only
  split
  · exact Kept.same v
  · exact ((Kept.same v).trans (k _ _)).thenSame (Dev.settle_view _)

/-! ### Resets -/

theorem ringEntry_fresh (c m : Nat) (l : Bool) (u : List Held) (x : Word) : (Dev.powerOn c m l u).entry x = Entry.fresh 0 := by
  unfold Dev.entry Dev.powerOn
  simp

/-- The part after a power-on reset meets the laws, whatever the scale pocket. -/
theorem Dev.LawsAt.powerOn {u : List Held} (k : ∀ x ∈ u, x.unserved) (c m : Nat) (l : Bool) (q : Word) :
    (Dev.powerOn c m l u).LawsAt q ∧ (Dev.powerOn c m l u).liveAt q = [] := by
  obtain ⟨d, hd⟩ : ∃ d, d = Dev.powerOn c m l u := ⟨_, rfl⟩
  have en : ∀ x, d.entry x = Entry.fresh 0 := fun x => by rw [hd]; exact ringEntry_fresh c m l u x
  have sl : ∀ j, d.slot j = .empty := fun j => by rw [hd]; unfold Dev.slot Dev.powerOn; simp
  have vr : ∀ v, d.valveRec v = ValveRec.reset := fun v => by rw [hd]; unfold Dev.valveRec Dev.powerOn; simp
  have tr : d.track = { free := List.range 512, fill := [], suspects := 0 } := by rw [hd]; rfl
  have lo : d.order.loader = none := by rw [hd]; rfl
  have su : d.setup.setup = none := by rw [hd]; rfl
  have pa : d.setup.part = .unloaded ∨ d.setup.part = .unplaced := by
    rw [hd]
    show (if placed c m = true then PartState.unloaded else .unplaced) = _ ∨ (if placed c m = true then PartState.unloaded else .unplaced) = _
    split
    · exact .inl rfl
    · exact .inr rfl
  have po : d.pocket.pos = none := by rw [hd]; rfl
  have up : d = d.withUp u := by rw [hd]; rfl
  have nr : ∀ x, (d.entry x).record = none := fun x => by rw [en]; rfl
  have lv : d.liveAt q = [] := by
    unfold Dev.liveAt
    rw [List.filterMap_eq_nil_iff.2 fun x _ => nr x, tr]; rfl
  rw [← hd]
  clear hd
  refine ⟨⟨?_, fun i _ h => absurd (nr _) h, ?_, ?_, by rw [up]; exact Dev.PortLaws.unserved k d⟩, lv⟩
  · rw [lv]
    refine ⟨?_, fun j => ?_, ?_, fun r hr => absurd hr List.not_mem_nil⟩
    · rw [tr, List.map_nil, List.append_nil]
    · rw [sl]; exact List.Perm.refl _
    · rw [tr]; rfl
  · refine ⟨fun j _ => by rw [sl]; rfl, fun j hj => ?_, fun i j hi => ?_, fun l hl => ?_, fun j c v hj => ?_, fun _ v => by rw [vr]; rfl⟩
    · rw [sl] at hj; rcases hj with x | x <;> cases x
    · rw [sl] at hi; cases hi
    · rw [lo] at hl; cases hl
    · rw [sl] at hj; cases hj
  · refine ⟨fun v hv => ?_, fun h => ?_, fun h => absurd po h, fun _ => nr⟩
    · rw [su] at hv; cases hv
    · rcases pa with x | x <;> rw [x] at h <;> rcases h with h | h <;> cases h

theorem Kept.powerOn (c m : Nat) (l : Bool) (z : Nat) :
    Kept 0 d { Dev.powerOn c m l (d.path.upstream.drop 1) with draws := z } := by
  intro h
  obtain ⟨k1, k2⟩ := Dev.LawsAt.powerOn h.port.waiting c m l 0
  refine ⟨k1.congr rfl, fun n _ _ => ?_⟩
  have lv : ({ Dev.powerOn c m l (d.path.upstream.drop 1) with draws := z } : Dev).liveAt 0 = [] := k2
  refine ⟨?_, ?_⟩
  · show List.Pairwise _ (Dev.liveAt 0 _)
    rw [lv]; exact List.Pairwise.nil
  · show ∀ r ∈ Dev.liveAt 0 _, _
    rw [lv]; exact fun r hr => absurd hr List.not_mem_nil

/-- The work done before a line reset takes effect: at most a read's numbers for each piece. -/
theorem Kept.workOn : ∀ (n : Nat) (d : Dev), Kept (n * readNumbers) d (d.workOn n) := by
  intro n
  induction n with
  | zero => exact fun d => (Kept.same rfl).mono (Nat.zero_le _)
  | succ n ih =>
    intro d
    have same : Kept ((n + 1) * readNumbers) d d := (Kept.same rfl).mono (Nat.zero_le _)
    unfold Dev.workOn
    split
    · exact same
    · rename_i h us hu
      split
      · exact same
      · exact same
      · rename_i mi rest hw
        split
        · exact same
        · exact ((Kept.progress [] hu hw rfl).trans (ih _)).mono (by rw [Nat.succ_mul]; omega)

/-- What a line reset finds is kept as a step's work is (R57, R75). -/
theorem Kept.resetFinds (up : UpAccess) (ok : Bool) : Kept stepNumbers s.dev (s.resetFinds up ok) := by
  have same : Kept stepNumbers s.dev s.dev := (Kept.same rfl).mono (Nat.zero_le _)
  unfold State.resetFinds
  split
  · unfold State.resetTakes
    split
    · exact same
    · rename_i h us hu
      split
      · exact same
      · exact same
      · rename_i mi rest hw
        split
        · exact same
        · rename_i x _
          split
          · exact ((Kept.grantAccess (k := { h with faultAt := none }) x hu hw rfl).trans
              (Kept.workOn resetFuel _)).mono (by decide)
          · exact same
  · exact same

theorem Dev.lineReset_slot (d : Dev) (j : Fin 4) : d.lineReset.slot j = (d.slot j).lineReset := by
  have k4 : j = 0 ∨ j = 1 ∨ j = 2 ∨ j = 3 := by omega
  rcases k4 with rfl | rfl | rfl | rfl <;> rfl

/-- The line reset (R152). -/
theorem Kept.lineReset : Kept 0 d (Dev.drainAll d.lineReset) := by
  refine Kept.trans (m := 0) (m' := 0) ?_ Kept.drainAll
  intro h
  have lv : ∀ p, d.lineReset.liveAt p = d.liveAt p := fun p => Dev.liveAt_congr rfl rfl
  have sl := d.lineReset_slot
  have mem : ∀ j, (d.lineReset.slot j).members = (d.slot j).members := by
    intro j
    rw [sl]
    have e := h.table.empty j
    unfold RecipeSlot.lineReset
    split
    · rename_i x; rw [e (.inl x)]; rfl
    · rename_i x; rw [e (.inr (.inl x))]; rfl
    · rename_i x; rw [e (.inr (.inr x))]; rfl
    · rfl
    · rfl
  have st : ∀ j, (d.lineReset.slot j).st = .current ↔ (d.slot j).st = .current := by
    intro j
    rw [sl]
    unfold RecipeSlot.lineReset
    split <;> rename_i x <;> rw [x] <;> simp [RecipeSlot.empty]
  have rc : ∀ j, (d.slot j).st = .current → (d.lineReset.slot j).recipe = (d.slot j).recipe := by
    intro j hj
    rw [sl]
    unfold RecipeSlot.lineReset
    rw [hj]
  have pend : ∀ j, (d.lineReset.slot j).st ≠ .pending ∧ (d.lineReset.slot j).st ≠ .loading := by
    intro j
    rw [sl]
    unfold RecipeSlot.lineReset
    split <;> rename_i x <;> simp [RecipeSlot.empty, x]
  refine ⟨⟨?_, h.pockets, ⟨fun j hj => ?_, fun j hj => ?_, fun i j hi hj => ?_, fun l hl => ?_, fun j c v hj hc => ?_, fun hn v => ?_⟩,
    ⟨h.setup.valid, fun k => ?_, h.setup.placed, h.setup.empty⟩, ?_⟩, fun n _ o => o⟩
  · have b := h.books
    show Dev.Books (d.lineReset.liveAt (d.pocketNow.getD 0)) _
    rw [lv]
    exact ⟨b.pool, fun j => by rw [mem]; exact b.members j, b.suspects, b.sound⟩
  · rcases hj with x | x | x
    · rw [mem]
      by_cases c : (d.slot j).st = .draining ∨ (d.slot j).st = .current
      · rw [sl] at x
        unfold RecipeSlot.lineReset at x
        rcases c with c | c <;> rw [c] at x <;> cases x
      · apply h.table.empty
        cases hs : (d.slot j).st <;> rw [hs] at c <;> simp at c ⊢
    · exact absurd x (pend j).2
    · exact absurd x (pend j).1
  · rcases hj with x | x
    · exact absurd x (pend j).1
    · rw [rc j ((st j).1 x)]; exact h.table.taught j (.inr ((st j).1 x))
  · exact h.table.one i j ((st i).1 hi) ((st j).1 hj)
  · cases hl
  · exact h.table.trims j c v ((st j).1 hj) (by rw [← rc j ((st j).1 hj)]; exact hc)
  · exact h.table.untaught (fun k c => hn k ((st k).2 c)) v
  · rcases k with k | k <;> cases k
  · exact Dev.PortLaws.unserved h.port.waiting d.lineReset

end Sys2Proof.Machine
end

