-- ==== Sys2Proof/Laws/PerInstr.lean ====
section
/-! SUPPORT. What holds of every command as syntax: a well-formed command carries at most the 8 words of a
transaction (00_scope.md 1.7). -/

namespace Sys2Proof.Laws.Sizes

/-- The words of the transaction a command is; 0 for a command that is no transaction. -/
def transactionWords : Instr → Nat
  | .powerOnReset _ _ _ => 0
  | .lineReset _ _ => 0
  | .lineResetRelease => 0
  | .fillEvent _ _ n _ => n
  | .inspectionRead _ _ n _ => n
  | .nominalWrite _ _ ws _ => ws.length
  | .addViewWrite _ _ ws _ => ws.length
  | .addViewRead _ _ n _ => n
  | .bcastMaskWrite _ _ _ _ => 1
  | .bcastSet _ _ _ => 1
  | .bcastAdd _ _ _ => 1
  | .positionEvent _ _ _ => 1
  | .sampleEvent _ _ ws _ => ws.length
  | .codeEvent _ _ ws _ => ws.length
  | .gatePoll _ _ => 1
  | .gateInspectionRead _ _ => 1
  | .armTest _ _ _ _ _ => 1
  | .disarmTest _ _ _ _ _ => 1
  | .suspend _ _ _ _ _ => 1
  | .resume _ _ _ _ _ => 1
  | .zeroTrim _ _ _ _ _ => 1
  | .setTrim _ _ _ _ _ => 1
  | .clearStats _ _ _ _ _ => 1
  | .valveViewRead _ _ n _ => n
  | .queryRefWrite _ _ _ => 1
  | .queryCareWrite _ _ _ => 1
  | .queryRead _ _ n _ => n
  | .modeWrite _ _ _ => 1
  | .ackWrite _ _ _ => 1
  | .loadNow _ _ _ => 1
  | .loadAtStop _ _ _ => 1
  | .loadCompletion _ => 0
  | .orderAWrite _ _ _ => 1
  | .orderAFetchDone _ => 0
  | .recipeLoadStart => 0
  | .recipeLoadDone _ => 0
  | .orderWordWriteDone _ => 0
  | .orderBWrite _ _ _ => 1
  | .orderBFetchDone _ => 0
  | .setSpan => 0
  | .zeroCapture => 0
  | .clearTrack => 0
  | .valveGroup _ => 0
  | .reportFlush => 0
  | .reportRestart => 0
  | .unknownOp => 0
  | .stallTimerExpiry => 0
  | .stopTimerExpiry => 0
  | .scaleSilenceExpiry => 0
  | .ageTimerExpiry => 0
  | .rereadTimerExpiry => 0
  | .resultWrite => 0
  | .resultWriteDone _ => 0
  | .closeWriteDone _ => 0
  | .descriptorOpen _ => 0
  | .nextFieldRead _ => 0
  | .statusBurstDone _ => 0
  | .arbiterGrant => 0
  | .plainWrite _ _ ws _ => ws.length
  | .pathRefusedRead _ _ n _ => n

/-- A well-formed command carries at most 8 words. -/
def Statement (i : Instr) : Prop := i.wellFormed = true → transactionWords i ≤ 8

theorem le_of_length {n : Nat} (h : lengthOk n = true) : n ≤ 8 := of_decide_eq_true (Bool.and_eq_true _ _ ▸ h).2

theorem le_of_range {size word n : Nat} (h : rangeOk size word n = true) : n ≤ 8 :=
  le_of_length (Bool.and_eq_true _ _ ▸ h).2

theorem le_of_aligned {p : Bool} {n : Nat} (h : (p && lengthOk n) = true) : n ≤ 8 :=
  le_of_length (Bool.and_eq_true _ _ ▸ h).2

theorem powerOnReset (cabase memsize : Nat) (portOk : Bool) : Statement (.powerOnReset cabase memsize portOk) := fun _ => Nat.le_of_ble_eq_true rfl

theorem lineReset (up : UpAccess) (portOk : Bool) : Statement (.lineReset up portOk) := fun _ => Nat.le_of_ble_eq_true rfl

theorem lineResetRelease : Statement (.lineResetRelease) := fun _ => Nat.le_of_ble_eq_true rfl

theorem fillEvent (m : Master) (word n : Nat) (a : MemAns) : Statement (.fillEvent m word n a) := fun h => le_of_range h

theorem inspectionRead (m : Master) (word n : Nat) (a : MemAns) : Statement (.inspectionRead m word n a) := fun h => le_of_range h

theorem nominalWrite (m : Master) (word : Nat) (ws : List WWord) (a : MemAns) : Statement (.nominalWrite m word ws a) := fun h => le_of_range h

theorem addViewWrite (m : Master) (word : Nat) (ws : List WWord) (a : MemAns) : Statement (.addViewWrite m word ws a) := fun h => le_of_range h

theorem addViewRead (m : Master) (word n : Nat) (a : MemAns) : Statement (.addViewRead m word n a) := fun h => le_of_range h

theorem bcastMaskWrite (m : Master) (hi : Bool) (w : WWord) (a : MemAns) : Statement (.bcastMaskWrite m hi w a) := fun _ => Nat.le_of_ble_eq_true rfl

theorem bcastSet (m : Master) (w : WWord) (a : MemAns) : Statement (.bcastSet m w a) := fun _ => Nat.le_of_ble_eq_true rfl

theorem bcastAdd (m : Master) (w : WWord) (a : MemAns) : Statement (.bcastAdd m w a) := fun _ => Nat.le_of_ble_eq_true rfl

theorem positionEvent (m : Master) (w : WWord) (a : MemAns) : Statement (.positionEvent m w a) := fun _ => Nat.le_of_ble_eq_true rfl

theorem sampleEvent (m : Master) (index : Nat) (ws : List WWord) (a : MemAns) : Statement (.sampleEvent m index ws a) := fun h => le_of_range h

theorem codeEvent (m : Master) (word : Nat) (ws : List WWord) (a : MemAns) : Statement (.codeEvent m word ws a) := fun h => le_of_range h

theorem gatePoll (m : Master) (a : MemAns) : Statement (.gatePoll m a) := fun _ => Nat.le_of_ble_eq_true rfl

theorem gateInspectionRead (m : Master) (a : MemAns) : Statement (.gateInspectionRead m a) := fun _ => Nat.le_of_ble_eq_true rfl

theorem armTest (m : Master) (v : Fin 64) (operand : BitVec 16) (be : BitVec 4) (a : MemAns) : Statement (.armTest m v operand be a) := fun _ => Nat.le_of_ble_eq_true rfl

theorem disarmTest (m : Master) (v : Fin 64) (operand : BitVec 16) (be : BitVec 4) (a : MemAns) : Statement (.disarmTest m v operand be a) := fun _ => Nat.le_of_ble_eq_true rfl

theorem suspend (m : Master) (v : Fin 64) (operand : BitVec 16) (be : BitVec 4) (a : MemAns) : Statement (.suspend m v operand be a) := fun _ => Nat.le_of_ble_eq_true rfl

theorem resume (m : Master) (v : Fin 64) (operand : BitVec 16) (be : BitVec 4) (a : MemAns) : Statement (.resume m v operand be a) := fun _ => Nat.le_of_ble_eq_true rfl

theorem zeroTrim (m : Master) (v : Fin 64) (operand : BitVec 16) (be : BitVec 4) (a : MemAns) : Statement (.zeroTrim m v operand be a) := fun _ => Nat.le_of_ble_eq_true rfl

theorem setTrim (m : Master) (v : Fin 64) (operand : BitVec 16) (be : BitVec 4) (a : MemAns) : Statement (.setTrim m v operand be a) := fun _ => Nat.le_of_ble_eq_true rfl

theorem clearStats (m : Master) (v : Fin 64) (operand : BitVec 16) (be : BitVec 4) (a : MemAns) : Statement (.clearStats m v operand be a) := fun _ => Nat.le_of_ble_eq_true rfl

theorem valveViewRead (m : Master) (word n : Nat) (a : MemAns) : Statement (.valveViewRead m word n a) := fun h => le_of_range h

theorem queryRefWrite (m : Master) (w : WWord) (a : MemAns) : Statement (.queryRefWrite m w a) := fun _ => Nat.le_of_ble_eq_true rfl

theorem queryCareWrite (m : Master) (w : WWord) (a : MemAns) : Statement (.queryCareWrite m w a) := fun _ => Nat.le_of_ble_eq_true rfl

theorem queryRead (m : Master) (hi : Bool) (n : Nat) (a : MemAns) : Statement (.queryRead m hi n a) := fun h => le_of_length h

theorem modeWrite (m : Master) (w : WWord) (a : MemAns) : Statement (.modeWrite m w a) := fun _ => Nat.le_of_ble_eq_true rfl

theorem ackWrite (m : Master) (w : WWord) (a : MemAns) : Statement (.ackWrite m w a) := fun _ => Nat.le_of_ble_eq_true rfl

theorem loadNow (m : Master) (be : BitVec 4) (a : MemAns) : Statement (.loadNow m be a) := fun _ => Nat.le_of_ble_eq_true rfl

theorem loadAtStop (m : Master) (be : BitVec 4) (a : MemAns) : Statement (.loadAtStop m be a) := fun _ => Nat.le_of_ble_eq_true rfl

theorem loadCompletion (ok : Bool) : Statement (.loadCompletion ok) := fun _ => Nat.le_of_ble_eq_true rfl

theorem orderAWrite (m : Master) (w : WWord) (a : MemAns) : Statement (.orderAWrite m w a) := fun _ => Nat.le_of_ble_eq_true rfl

theorem orderAFetchDone (ok : Bool) : Statement (.orderAFetchDone ok) := fun _ => Nat.le_of_ble_eq_true rfl

theorem recipeLoadStart : Statement (.recipeLoadStart) := fun _ => Nat.le_of_ble_eq_true rfl

theorem recipeLoadDone (ok : Bool) : Statement (.recipeLoadDone ok) := fun _ => Nat.le_of_ble_eq_true rfl

theorem orderWordWriteDone (ok : Bool) : Statement (.orderWordWriteDone ok) := fun _ => Nat.le_of_ble_eq_true rfl

theorem orderBWrite (m : Master) (w : WWord) (a : MemAns) : Statement (.orderBWrite m w a) := fun _ => Nat.le_of_ble_eq_true rfl

theorem orderBFetchDone (ok : Bool) : Statement (.orderBFetchDone ok) := fun _ => Nat.le_of_ble_eq_true rfl

theorem setSpan : Statement (.setSpan) := fun _ => Nat.le_of_ble_eq_true rfl

theorem zeroCapture : Statement (.zeroCapture) := fun _ => Nat.le_of_ble_eq_true rfl

theorem clearTrack : Statement (.clearTrack) := fun _ => Nat.le_of_ble_eq_true rfl

theorem valveGroup (upTo : Nat) : Statement (.valveGroup upTo) := fun _ => Nat.le_of_ble_eq_true rfl

theorem reportFlush : Statement (.reportFlush) := fun _ => Nat.le_of_ble_eq_true rfl

theorem reportRestart : Statement (.reportRestart) := fun _ => Nat.le_of_ble_eq_true rfl

theorem unknownOp : Statement (.unknownOp) := fun _ => Nat.le_of_ble_eq_true rfl

theorem stallTimerExpiry : Statement (.stallTimerExpiry) := fun _ => Nat.le_of_ble_eq_true rfl

theorem stopTimerExpiry : Statement (.stopTimerExpiry) := fun _ => Nat.le_of_ble_eq_true rfl

theorem scaleSilenceExpiry : Statement (.scaleSilenceExpiry) := fun _ => Nat.le_of_ble_eq_true rfl

theorem ageTimerExpiry : Statement (.ageTimerExpiry) := fun _ => Nat.le_of_ble_eq_true rfl

theorem rereadTimerExpiry : Statement (.rereadTimerExpiry) := fun _ => Nat.le_of_ble_eq_true rfl

theorem resultWrite : Statement (.resultWrite) := fun _ => Nat.le_of_ble_eq_true rfl

theorem resultWriteDone (ok : Bool) : Statement (.resultWriteDone ok) := fun _ => Nat.le_of_ble_eq_true rfl

theorem closeWriteDone (ok : Bool) : Statement (.closeWriteDone ok) := fun _ => Nat.le_of_ble_eq_true rfl

theorem descriptorOpen (ok : Bool) : Statement (.descriptorOpen ok) := fun _ => Nat.le_of_ble_eq_true rfl

theorem nextFieldRead (ok : Bool) : Statement (.nextFieldRead ok) := fun _ => Nat.le_of_ble_eq_true rfl

theorem statusBurstDone (ok : Bool) : Statement (.statusBurstDone ok) := fun _ => Nat.le_of_ble_eq_true rfl

theorem arbiterGrant : Statement (.arbiterGrant) := fun _ => Nat.le_of_ble_eq_true rfl

theorem plainWrite (m : Master) (addr : Word) (ws : List WWord) (a : MemAns) : Statement (.plainWrite m addr ws a) := fun h => le_of_aligned h

theorem pathRefusedRead (m : Master) (addr : Word) (n : Nat) (a : MemAns) : Statement (.pathRefusedRead m addr n a) := fun h => le_of_aligned h

end Sys2Proof.Laws.Sizes
end

