-- ==== Sys2Proof/Laws/Views.lean ====
section
/-! SUPPORT. View reads and query reads, word by word. -/

namespace Sys2Proof.Machine

variable {s : State} {t : Txn} {mi : Micro} {rest more : List Micro} {c c' : Ctx} {a d d' : Dev} {x : Nat}

/-- The part with another latch. -/
def Dev.withLatch (l : Option Latch) (d : Dev) : Dev := { d with path := { d.path with latch := l } }

/-- Word `x` of a view read that begins at word `i`. -/
def Dev.viewWordAt (d : Dev) (m : Master) (noms : List (Nat × Word)) (l : Option Latch) (i x : Nat) : Word :=
  let live := d.viewWords (Fin.ofNat 64 (x / 16)) (d.fetchedNominal noms (x / 16))
  if i ≤ 16 * (x / 16) then wordAt live (x % 16) else (latched l m (x / 16) (x % 16)).getD (wordAt live (x % 16))

/-- The words of a view read. -/
theorem Dev.viewRead_words (m : Master) (noms : List (Nat × Word)) : ∀ (n i : Nat) (d : Dev), i + n ≤ 1024 →
    (Dev.viewRead m noms i n d).1 = (List.range n).map fun k => Dev.viewWordAt d m noms d.path.latch i (i + k) := by
  intro n
  induction n with
  | zero => intro i d _; rfl
  | succ n ih =>
    intro i d hi
    rw [List.range_succ_eq_map, List.map_cons, List.map_map]
    unfold Dev.viewRead
    dsimp only
    rw [List.cons.injEq]
    constructor
    · unfold Dev.viewWordAt
      dsimp only
      rw [Nat.add_zero]
      by_cases h : i ≤ 16 * (i / 16)
      · rw [if_pos h]
        have : i % 16 = 0 := by omega
        unfold latched
        rw [this]
        cases d.path.latch <;> rfl
      · rw [if_neg h]
    · rw [ih _ _ (by omega)]
      apply List.map_congr_left
      intro k hk
      rw [List.mem_range] at hk
      show Dev.viewWordAt _ m noms _ (i + 1) (i + 1 + k) = Dev.viewWordAt d m noms d.path.latch i (i + (k + 1))
      rw [show i + (k + 1) = i + 1 + k by omega]
      have hx : ∃ x, x = i + 1 + k := ⟨_, rfl⟩
      obtain ⟨x, hx⟩ := hx
      rw [← hx]
      by_cases h0 : i % 16 = 0
      · rw [if_pos h0]
        unfold Dev.viewWordAt
        show (let live := d.viewWords (Fin.ofNat 64 (x / 16)) (d.fetchedNominal noms (x / 16)); if i + 1 ≤ 16 * (x / 16) then wordAt live (x % 16) else (latched (some _) m (x / 16) (x % 16)).getD (wordAt live (x % 16))) = _
        dsimp only
        rw [if_pos (show i ≤ 16 * (x / 16) by omega)]
        split
        · rfl
        · rename_i g
          have e : x / 16 = i / 16 := by omega
          unfold latched
          dsimp only
          rw [if_pos ⟨by omega, rfl, by rw [e]; show i / 16 % 64 = i / 16; omega⟩, e]
          rfl
      · rw [if_neg h0]
        unfold Dev.viewWordAt
        dsimp only
        by_cases g : i + 1 ≤ 16 * (x / 16)
        · rw [if_pos g, if_pos (by omega)]
        · rw [if_neg g, if_neg (by omega)]

/-- The latch after a view read. -/
theorem Dev.viewRead_latch (m : Master) (noms : List (Nat × Word)) : ∀ (n i : Nat) (d : Dev), n ≤ 16 →
    (Dev.viewRead m noms i n d).2 = if 16 * ((i + 15) / 16) < i + n then
      Dev.withLatch (some { master := m, valve := Fin.ofNat 64 ((i + 15) / 16), words := d.viewWords (Fin.ofNat 64 ((i + 15) / 16)) (d.fetchedNominal noms ((i + 15) / 16)) }) d else d := by
  intro n
  induction n with
  | zero =>
    intro i d _
    rw [if_neg (by omega)]; rfl
  | succ n ih =>
    intro i d hn
    unfold Dev.viewRead
    dsimp only
    rw [ih _ _ (by omega)]
    by_cases h0 : i % 16 = 0
    · rw [if_pos h0, if_neg (by omega), if_pos (by omega), show (i + 15) / 16 = i / 16 by omega]
      rfl
    · rw [if_neg h0, show (i + 1 + 15) / 16 = (i + 15) / 16 by omega, show i + 1 + n = i + (n + 1) by omega]

/-- A view read fetches no more nominals than it has words. -/
theorem Dev.viewNeeds_length (d : Dev) (m : Master) : ∀ (n i : Nat) (l), (d.viewNeeds m l i n).length ≤ n := by
  intro n
  induction n with
  | zero => intro i l; exact Nat.le_refl _
  | succ n ih =>
    intro i l
    unfold Dev.viewNeeds
    dsimp only
    have : ∀ (L : List Nat) (v : Nat) (c : Prop) [Decidable c], L.length ≤ n → (if c then v :: L else L).length ≤ n + 1 := by
      intro L v c _ h
      split
      · exact Nat.succ_le_succ h
      · exact Nat.le_succ_of_le h
    exact this _ _ _ (ih _ _)

/-- A view read fetches the nominals of its live words. -/
theorem Dev.viewNeeds_mem (d : Dev) (m : Master) : ∀ (n i : Nat) (l : Option (Master × Nat)) (x : Nat), i ≤ x → x < i + n → x / 16 < d.su.valves →
    x % 16 = 0 ∨ x % 16 = 15 ∧ (l ≠ some (m, x / 16) ∨ i ≤ 16 * (x / 16)) → x / 16 ∈ d.viewNeeds m l i n := by
  intro n
  induction n with
  | zero => intro i l x h1 h2; omega
  | succ n ih =>
    intro i l x h1 h2 hv h
    unfold Dev.viewNeeds
    dsimp only
    have inn : ∀ (l' : Option (Master × Nat)), x / 16 ∈ d.viewNeeds m l' (i + 1) n → ∀ c : Prop, ∀ [Decidable c], x / 16 ∈ (if c then i / 16 :: d.viewNeeds m l' (i + 1) n else d.viewNeeds m l' (i + 1) n) := by
      intro l' k c _
      split
      · exact List.mem_cons_of_mem _ k
      · exact k
    have now : ∀ (rest : List Nat), x / 16 = i / 16 → (i % 16 = 0 ∨ i % 16 = 15 ∧ l ≠ some (m, i / 16)) → x / 16 ∈ (if (i % 16 = 0 ∨ i % 16 = 15 ∧ l ≠ some (m, i / 16)) ∧ i / 16 < d.su.valves ∧ i / 16 ∉ rest then i / 16 :: rest else rest) := by
      intro rest e c
      rw [e]
      by_cases q : i / 16 ∈ rest
      · split
        · exact List.mem_cons_self
        · exact q
      · rw [if_pos ⟨c, by omega, q⟩]; exact List.mem_cons_self
    by_cases e : x = i
    · subst e
      refine now _ rfl ?_
      rcases h with h | ⟨h, k | k⟩
      · exact .inl h
      · exact .inr ⟨h, k⟩
      · omega
    · by_cases h0 : i % 16 = 0
      · by_cases s : x / 16 = i / 16
        · exact now _ s (.inl h0)
        · refine inn _ (ih _ _ x (by omega) (by omega) hv ?_) _
          rcases h with h | ⟨h, _⟩
          · exact .inl h
          · exact .inr ⟨h, .inr (by omega)⟩
      · rw [if_neg h0]
        refine inn _ (ih _ _ x (by omega) (by omega) hv ?_) _
        rcases h with h | ⟨h, k | k⟩
        · exact .inl h
        · exact .inr ⟨h, .inl k⟩
        · exact .inr ⟨h, .inr (by omega)⟩

/-- Gathered nominals. -/
theorem foldl_gather_noms (l : List Nat) (f : Nat → List Word) : ∀ c : Ctx, l.foldl (fun c k => { c with noms := c.noms ++ [(k, wordAt (f k) 0)] }) c =
    { c with noms := c.noms ++ l.map fun k => (k, wordAt (f k) 0) } := by
  induction l with
  | nil => intro c; simp
  | cons x l ih => intro c; rw [List.foldl_cons, ih]; simp

/-- Words 0 and 15 of a record alone show the nominal. -/
theorem Dev.viewWords_nominal (d : Dev) (v : Fin 64) (a b : Word) (k : Nat) (h : k ≠ 0) (h' : k ≠ 15) : wordAt (d.viewWords v a) k = wordAt (d.viewWords v b) k := by
  unfold Dev.viewWords wordAt
  rcases k with _ | _ | _ | _ | _ | _ | _ | _ | _ | _ | _ | _ | _ | _ | _ | _ | k
  · exact absurd rfl h
  all_goals first | rfl | exact absurd rfl h'

/-- One bit of a query word. -/
theorem Dev.queryWord_bit (d : Dev) (noms : List (Nat × Word)) (v b : Nat) (hb : b < 32) : (d.queryWord noms v).getLsbD b = d.queryMatches noms (v + b) := by
  unfold Dev.queryWord
  rw [BitVec.getLsbD_ofNat, (testBit_sum_putBit (fun i => d.queryMatches noms (v + i)) 32).2]
  simp [hb]

/-- Gathered nominals, burst by burst. -/
theorem foldl_gather_bursts (l : List (Nat × Nat)) (F : Nat → Word) (R : Nat × Nat → List Word) (hR : ∀ b k, k < b.2 → wordAt (R b) k = F (b.1 + k)) :
    ∀ c : Ctx, l.foldl (fun c b => { c with noms := c.noms ++ (List.range b.2).map fun k => (b.1 + k, wordAt (R b) k) }) c =
    { c with noms := c.noms ++ (l.flatMap fun b => (List.range b.2).map fun k => b.1 + k).map fun v => (v, F v) } := by
  induction l with
  | nil => intro c; simp
  | cons x l ih =>
    intro c
    rw [List.foldl_cons, ih, List.flatMap_cons, List.map_append, List.map_map]
    dsimp only
    rw [← List.append_assoc]
    congr 3
    apply List.map_congr_left
    intro k hk
    rw [List.mem_range] at hk
    rw [hR x k hk]; rfl

/-- The bursts of a query read reach every valve. -/
theorem nominalBursts_cover : ∀ (f v0 last v : Nat), v0 ≤ v → v < last → last ≤ v0 + 8 * f → v ∈ (nominalBursts f v0 last).flatMap fun b => (List.range b.2).map fun k => b.1 + k := by
  intro f
  induction f with
  | zero => intro v0 last v h1 h2 h3; omega
  | succ f ih =>
    intro v0 last v h1 h2 h3
    unfold nominalBursts
    rw [if_pos (by omega), List.flatMap_cons, List.mem_append]
    by_cases g : v < v0 + 8
    · left
      rw [List.mem_map]
      exact ⟨v - v0, by rw [List.mem_range]; show v - v0 < min 8 (last - v0); omega, by show v0 + (v - v0) = v; omega⟩
    · right
      exact ih _ _ _ (by omega) h2 (by omega)

theorem nominalBursts_length : ∀ (f v0 last : Nat), (nominalBursts f v0 last).length ≤ f := by
  intro f
  induction f with
  | zero => intro _ _; exact Nat.le_refl _
  | succ f ih =>
    intro v0 last
    unfold nominalBursts
    split
    · exact Nat.succ_le_succ (ih _ _)
    · exact Nat.zero_le _

end Sys2Proof.Machine
end

