-- ==== Sys2Proof/Tests/Slice0.lean ====
section
/-! SUPPORT. The model's own tests: commands that the well-formedness check refuses, values of the spec's examples,
and for each statement with premises a state and operands that meet them. -/

namespace Sys2Proof.Tests

open Sys2Proof.Machine

/-! ### Well-formedness -/

def clean : MemAns := { faultAt := none, pauseAt := none }
def word : WWord := { data := 7, be := 15 }

theorem test_cabase_beyond_its_lines : (Instr.powerOnReset 16 0 true).wellFormed = false := by decide
theorem test_memsize_beyond_its_lines : (Instr.powerOnReset 0 8 true).wellFormed = false := by decide
theorem test_read_of_no_words : (Instr.fillEvent 1 0 0 clean).wellFormed = false := by decide
theorem test_read_of_nine_words : (Instr.queryRead 1 false 9 clean).wellFormed = false := by decide
theorem test_write_of_no_words : (Instr.nominalWrite 1 0 [] clean).wellFormed = false := by decide
theorem test_view_word_beyond_its_window : (Instr.inspectionRead 1 64 1 clean).wellFormed = false := by decide
theorem test_sample_beyond_its_ring : (Instr.sampleEvent 2 4096 [word] clean).wellFormed = false := by decide
theorem test_code_word_beyond_its_ring : (Instr.codeEvent 3 512 [word] clean).wellFormed = false := by decide
theorem test_view_record_beyond_its_window : (Instr.valveViewRead 3 1024 1 clean).wellFormed = false := by decide
theorem test_unaligned_write : (Instr.plainWrite 1 2 [word] clean).wellFormed = false := by decide
theorem test_unaligned_read : (Instr.pathRefusedRead 1 6 1 clean).wellFormed = false := by decide
theorem test_no_word_spells_a_command : decodeTableWord 32 0 = none := rfl

/-! ### States -/

/-- A setup within its ranges. -/
def line : Setup :=
  { sequencer := 1, scale := 2, reader := 3, motion := 4, gate := 5, valves := 8, pitch := 1000, dRead := 1,
    dGate := 2, gOpen := 100, gClose := 300, wOpen := 400, wClose := 900, gapMin := 8, weighMin := 20,
    presence := 500, maxGross := 500000, zeroBand := 400, zeroShift := 2, staleLimit := 50, spanMul := 3000,
    spanShift := 4, stallMs := 100, stopMs := 1000, silentMs := 50, readerSilent := 3, ageMs := 100, enable := 0,
    lotCheck := true, bareMask := 128, firstDesc := 0x20000 }

/-- The recipe of the example of 7.8, with dose limits and limits of its own. -/
def recipe : Recipe :=
  { lot := 2207, keepTrims := false, autoSuspend := true, target := 33000, lowLimit := 32400, highLimit := 34200,
    outlierBand := 600, tare := 4500, gain := 8, trimLimit := 500, watchCount := 3, suspendCount := 5, mask := 3,
    doseFloor := 30000, doseCeiling := 40000, nominals := none }

/-- The part after reset, in part state `p` with the setup `line`, and nothing of its own on its way to memory. -/
def part (p : PartState) : Dev :=
  let d := State.reset.dev
  { d with
    path := { d.path with bursts := [] }
    setup := { d.setup with part := p, setup := some line }
    report := { d.report with status := .idle } }

def inState (p : PartState) : State := { State.reset with dev := part p }

/-- READY. -/
def ready : State := inState .ready

/-- READY with recipe slot 1 CURRENT and nominals of 33,000. -/
def taught : State :=
  let d := (part .ready).setSlot 1 { st := .current, recipe := some recipe, ref := .detached, members := [] }
  { ready with
    mem := [(0x300, 0xE8), (0x301, 0x80)]
    dev := { d with setup := { d.setup with trimApply := true } } }

/-- `taught` with slot 2 PENDING, its recipe listing `nominals`, and the flag of R32. -/
def changing (nominals : Option (List Word)) (due : Bool) : State :=
  let d := taught.dev.setSlot 2
    { st := .pending, recipe := some { recipe with nominals := nominals }, ref := .detached, members := [] }
  { taught with dev := { d with fill := { d.fill with switchDue := due } } }

/-- READY with a position held and the scale pocket 502. -/
def placedAt (d : Dev) : Dev :=
  { d with pocket := { d.pocket with pos := some { last := 502100, ext := 502100, high := 502100 } } }

def record : CanRecord :=
  { slot := 9, seq := 7001, tag := 2907, valve := 5, recipe := 1, lot := .detached, dose := 33040, trim := 40,
    epoch := 5, test := false, suspect := true, checkOk := true, failed := false }

/-- `placedAt` with the reader two pockets behind the scale and slot 1 CURRENT. -/
def lane2 : Dev :=
  let d := (placedAt (part .ready)).setSlot 1 { st := .current, recipe := some recipe, ref := .detached, members := [9, 10] }
  { d with setup := { d.setup with setup := some { line with dRead := 2, dGate := 3 } } }

/-- A pocket with a can and `record`. -/
def can (p : Word) : Entry :=
  { Entry.fresh p with occ := .can, record := some record, weighing := some { gross := 0, net := 32250, flags := 0 } }

/-- An internal burst of `op` on the port. -/
def onPort (op : InternalOp) (x : Nat) (k : BurstKind) (d : Dev) : Dev :=
  { d with path := { d.path with port := some { burst := { op := op, addr := x, kind := k }, stopped := false } } }

def at' (d : Dev) : State := { State.reset with dev := d }

def lotOrder : LotOrder :=
  { addr := 0x30000, notify := true, closed := 0, error := none
    entries := [{ context := 0x50000, canCount := 0, status := .waiting, made := 0 }] }

/-- A running order of two entries, the first STARTED. -/
def twoEntries : LotOrder :=
  { lotOrder with entries := [{ context := 0x50000, canCount := 3, status := .started, made := 0 },
                              { context := 0x50100, canCount := 0, status := .loading, made := 0 }] }

/-! ### Values of the spec's examples -/

/-- 01, the example: tags equal numbers below 4096; 2.9: number 9,001 has tag 811. -/
theorem test_tags : tagOf 41 = 41 ∧ tagOf 9001 = 811 ∧ tagOf 4096 = 1 := by decide

/-- 7.8: fill A is dosed 33,040 under trim +40. -/
theorem test_dose_with_trim :
    (taught.dev.setValve 5 { ValveRec.reset with trim := 40 }).doseFor 5 33000 = .dosed 1 33040 40 := by decide +kernel

/-- 7.8: A is judged CONFIRMED with net 33,200: trim -60, good run 5. -/
theorem test_hand_over_moves_the_trim :
    let d := taught.dev.setValve 5 { ValveRec.reset with trim := 40, epoch := 5, good := 4 }
    let r := (d.handOver 5 { ident := .confirmed, weighFault := false, test := false, net := 33200, deviation := 200,
                             recipe := 1, trim := 40, epoch := 5, reject := false }).valveRec 5
    r.trim = -60 ∧ r.good = 5 ∧ r.epoch = 5 ∧ r.confirmed = 1 := by decide +kernel

/-- 4.9: the gap window closes with 10 samples that sum to 12,600: the zero goes from 1,200 to 1,215. -/
theorem test_gap_close :
    let w := { ready.dev.weigh with
      capture := false, zero := 1200, zeroAge := 3, gapWin := .opened
      gapAcc := { sum := 12600, count := 10, gap := false, overload := false } }
    let t := ({ ready.dev with weigh := w } : Dev).closeGap
    t.weigh.zero = 1215 ∧ t.weigh.zeroAge = 0 := by decide +kernel

/-- 3.7: from word 4,294,967,000 to 2,554 the position moves by 2,850. -/
theorem test_position_wraps :
    (Position.follow { last := 4294967000, ext := 500250, high := 500250 } 2554).ext = 503100 := by decide

/-- 6.5: the third poll of pocket 900 shows REJECT, the low 8 bits 132 and tag 0. -/
theorem test_gate_word : gateWord true false 900 0 = 0x8401#32 := by decide

/-! ### Premises that are met: steps, resets, the path -/

theorem test_met_EmptyQueueIsOneMillisecond :
    let d : Dev := { part .ready with
      pocket := { (part .ready).pocket with running := true, stall := some 98 }
      weigh := { (part .ready).weigh with silence := .running 48 } }
    (at' d).pending = [] ∧ d.report.request = false ∧
    (∀ n, d.pocket.stall = some n → d.setup.part = .ready → n + 1 < d.su.stallMs) ∧
    (∀ n, d.pocket.stop = .running n → n + 1 < d.su.stopMs) ∧
    (∀ n, d.weigh.silence = .running n → n + 1 < d.su.silentMs) ∧
    (∀ b n, d.report.reporting = .running b → b.age = some n → n + 1 < d.su.ageMs) ∧
    (d.setup.part ≠ .ready → d.pocket.stall = none) ∧ d.report.reread = none :=
  ⟨rfl, rfl, fun n h _ => by injection h with h; subst h; decide, fun _ h => (nomatch h),
    fun n h => by injection h with h; subst h; decide, fun _ _ h => (nomatch h), fun h => absurd rfl h, rfl⟩

theorem test_met_EveryStepKeepsTheInvariant : ready.Inv ∧ ∃ t, step ready = .next t :=
  ⟨⟨by decide, by decide, by decide, by decide, by decide, fun h => (nomatch h)⟩, _, rfl⟩

/-- The track slots but for slot 0. -/
def otherSlots : List Nat := (List.range 511).map Nat.succ

theorem otherSlots_all : List.range 512 = 0 :: otherSlots := by
  unfold otherSlots
  exact List.range_succ_eq_map (n := 511)

/-- `taught` with one live record, in the fill list. -/
def living : State :=
  let d := taught.dev.setSlot 1 { st := .current, recipe := some recipe, ref := .detached, members := [0] }
  { taught with dev := { d with
    track := { free := otherSlots, fill := [{ record with slot := 0 }], suspects := 1 }
    fill := { d.fill with seq := 7002 } } }

theorem living_live (p : Word) : living.dev.liveAt p = [{ record with slot := 0 }] := by
  have e : ∀ x, (living.dev.entry x).record = none := fun x => by
    show ((Vector.replicate 64 (Entry.fresh 0)).get _).record = none
    simp [Entry.fresh]
  unfold Dev.liveAt
  rw [List.filterMap_eq_nil_iff.2 fun x _ => e x]; rfl

/-- The laws of the device, the orders of R10 and the premise on the records' age are met together. -/
theorem test_met_EveryStepKeepsTheInvariant_laws : living.dev.Laws ∧ living.dev.Ordered ∧
    living.dev.Recent (2 ^ 31 - 2 ^ 21) ∧ ∃ t, step living = .next t := by
  have none' : ∀ x, (living.dev.entry x).record = none := fun x => by
    show ((Vector.replicate 64 (Entry.fresh 0)).get _).record = none
    simp [Entry.fresh]
  have trim : ∀ v, (living.dev.valveRec v).trim = 0 := fun v => by
    show ((Vector.replicate 64 ValveRec.reset).get v).trim = 0
    simp [ValveRec.reset]
  have lv : living.dev.live = [{ record with slot := 0 }] := living_live _
  refine ⟨⟨?_, fun a _ h => absurd (none' _) h, ?_, ?_, ?_⟩, ⟨?_, ?_⟩, ?_, _, rfl⟩
  · rw [living_live]
    refine ⟨?_, by decide +kernel, by decide +kernel, by decide +kernel⟩
    rw [show living.dev.track.free = otherSlots by unfold living; dsimp only, otherSlots_all]
    generalize otherSlots = l
    exact List.perm_append_singleton 0 l
  · exact ⟨by decide +kernel, by decide +kernel, by decide +kernel, fun l h => (nomatch h),
      fun k c v _ _ => by rw [trim v]; exact Nat.zero_le _, fun h => absurd (by decide +kernel) (h 1)⟩
  · exact ⟨fun u h => by injection h with h; subst h; decide +kernel, fun _ h => (nomatch h), fun h => absurd rfl h, fun _ => none'⟩
  · exact ⟨fun h m => (nomatch m), fun h us e => (nomatch e), fun h us w e => (nomatch e), fun h us e => (nomatch e)⟩
  · rw [lv]; exact List.pairwise_singleton _ _
  · rw [lv]; decide +kernel
  · unfold Dev.Recent; rw [lv]; decide +kernel

theorem test_met_OnlyMalformedCommandsStop : (Instr.queryRead 1 false 9 clean).wellFormed = false ∧
    (Instr.queryRead 1 false 2 clean).wellFormed = true := by decide

theorem test_met_PowerOnResetResets : (15 < 16 ∧ 7 < 8) ∧ ready.dev.path.port = none := by decide

theorem test_met_LineResetKeepsTheTrack : taught.dev.path.lrst = false ∧ taught.dev.setup.part ≠ .unplaced ∧
    (taught.dev.slot 1).st = .current ∧
    ((part .ready).setSlot 0 { RecipeSlot.empty with st := .pending }).slot 0 = { RecipeSlot.empty with st := .pending } ∧
    ((part .ready).setSlot 0 { RecipeSlot.empty with st := .loading }).slot 0 = { RecipeSlot.empty with st := .loading } := by
  decide +kernel

/-- The state that a command leaves. -/
def after (c : Instr) (s : State) : State := match exec c s with | .next t => t | _ => s

/-- A write presented at an idle port, its store not issued yet. -/
def stored (write : MemAns → Instr) (s : State) : State := after (write { faultAt := none, pauseAt := some 0 }) s

def fullWords (n : Nat) : List WWord := List.replicate n { data := 1, be := 15 }

theorem test_met_LineResetKeepsTheTrack_answered : (ready.PortFree ∧ ready.Ready ∧ ready.dev.path.lrst = false) ∧
    (127 < 128 ∧ (fullWords 4).length = 4 ∧ ∀ w ∈ fullWords 4, w.be = 15#4) ∧
    UpAccess.issued ≠ .waiting ∧ UpAccess.answered ≠ .waiting :=
  ⟨⟨⟨rfl, rfl⟩, ⟨rfl, by decide⟩, rfl⟩, by decide, by decide, by decide⟩

/-- R57: a POSITION write abandoned by a line reset has been taken if memory answered its store before it; one answered
after it, or FAULT, has not; one not issued is not even stored. -/
theorem test_abandoned_position :
    let s := stored (.positionEvent 4 word) ready
    let reset (up : UpAccess) (ok : Bool) : State := after (.lineReset up ok) s
    let pos (x : State) := x.dev.pocket.pos.map fun q => q.last
    s.mem = [] ∧ pos (reset .answered true) = some 7 ∧ (reset .answered true).mem = [(0x140, 7)] ∧
    (reset .answered true).answers = [] ∧ (reset .answered true).dev.path.upstream = [] ∧
    (reset .answered true).dev.setup.part = .unloaded ∧ pos (reset .issued true) = none ∧
    (reset .issued true).mem = [(0x140, 7)] ∧ pos (reset .answered false) = none ∧ (reset .answered false).mem = [] ∧
    (reset .waiting true).downstream = [] ∧ (reset .waiting true).mem = [] := by decide +kernel

/-- R75: a code event of two slots, the words of the first carried and those of the second not: at a line reset after
memory's answer of the store the first has been taken and the second has not. -/
theorem test_abandoned_code_event :
    let two : List WWord := fullWords 4 ++ [{ data := 1, be := 0 }, { data := 1, be := 0 }, { data := 1, be := 0 }] ++ fullWords 1
    let s := stored (.codeEvent 3 0 two) ready
    let u := (s.resetFinds .answered true).code
    u.expected = 1 ∧ u.last = some 1 ∧ (s.resetFinds .issued true).code.last = none := by decide +kernel

/-- R30: a switch whose last list write memory answered before a line reset stands; one write short of it, it does
not. -/
theorem test_abandoned_switch :
    let s (n : Nat) := after (.fillEvent 1 0 1 { faultAt := none, pauseAt := some n }) (changing (some (List.replicate 64 33000)) true)
    ((s 7).resetFinds .answered true).slotIn .current = some 2 ∧
    ((s 6).resetFinds .answered true).slotIn .current = some 1 := by decide +kernel

theorem test_met_ResetLevelAndRelease :
    let asserted (p : PartState) (rq : Bool) : Dev := { part p with
      path := { (part p).path with lrst := true }, report := { (part p).report with request := rq } }
    (asserted .unloaded false).path.lrst = true ∧
    ((inState .unplaced).dev.path.lrst = false ∧ (inState .unplaced).dev.setup.part = .unplaced) ∧
    (asserted .unloaded false).report.request = false ∧
    ((asserted .unloaded true).report.request = true ∧ (asserted .unloaded true).setup.part ≠ .unplaced ∧
      (asserted .unloaded true).report.status = .idle) :=
  ⟨rfl, ⟨rfl, rfl⟩, rfl, rfl, fun h => (nomatch h), rfl⟩

/-- 12.7: READY with trim apply on, a position in pocket 502, slot 1 CURRENT for lot 2207, a detached entry of 12 cans
whose stall is shown, one live record, suspect, and zero -3. -/
theorem test_status_words :
    let d := placedAt living.dev
    let d : Dev := { d with weigh := { d.weigh with zero := -3, zeroAge := 4 }
                            order := { d.order with cur := some { ref := .detached, canCount := 12, made := 12, stalled := true } } }
    d.statusWords = [0x3942, 0, 502, 7002, 0, 0x1FF0001, 2207, 0x410, 0, 0xFF00, 0, 0, 0, 0, 0xFFFFFFFD, 4] := by
  decide +kernel

theorem test_met_BusCommandsAreTransactions : ready.dev.path.cabase < 16 ∧ (1 ≤ 8 ∧ 8 ≤ 8) ∧
    (1 ≤ (List.replicate 8 word).length ∧ (List.replicate 8 word).length ≤ 8) ∧ 63 < 64 ∧ 4095 < 4096 ∧ 511 < 512 ∧
    1023 < 1024 := by decide

theorem test_met_PathRefusals_outside : ready.dev.path.upstream = [] ∧ (0xFFFFC#32).toNat % 4 = 0 ∧
    ready.dev.size < (0xFFFFC#32).toNat + 4 * 2 := by decide

theorem test_met_PathRefusals_crosses : ready.dev.setup.part ≠ .unplaced ∧
    (ready.dev.base < 0x3FC + 4 * 2 ∧ 0x3FC < ready.dev.base + 65536) ∧
    ∀ r ∈ windowMap, ¬(ready.dev.base + r.off ≤ 0x3FC ∧ 0x3FC + 4 * 2 ≤ ready.dev.base + r.off + 4 * r.words) := by
  decide

theorem test_met_PathRefusals_answered : ready.dev.setup.part = .ready ∧ ∃ r ∈ windowMap,
    (ready.dev.base + r.off ≤ 0x4FC ∧ 0x4FC + 4 * 1 ≤ ready.dev.base + r.off + 4 * r.words) ∧ r.kind = .issued := by
  decide

theorem portFree (p : PartState) : (inState p).PortFree := ⟨rfl, rfl⟩
theorem quiet : ready.Quiet := ⟨rfl, rfl, rfl, rfl⟩
theorem isReady : ready.Ready := ⟨rfl, by decide⟩
theorem taughtQuiet : taught.Quiet := ⟨rfl, rfl, rfl, rfl⟩
theorem taughtReady : taught.Ready := ⟨rfl, by decide⟩
theorem isClean : clean.clean := ⟨rfl, rfl⟩

theorem test_met_PlainTransactionsAreForwarded : ready.PortFree ∧ clean.clean ∧
    ((0x10000#32).toNat % 4 = 0 ∧ (0x10000#32).toNat + 4 * 8 ≤ ready.dev.size ∧
      ready.dev.base + 65536 ≤ (0x10000#32).toNat) ∧
    (inState .unplaced).PortFree ∧ (inState .unplaced).dev.setup.part = .unplaced ∧
    (0x0FFFFC#32).toNat + 4 * 1 ≤ (at' (Dev.powerOn 1 1 false [])).dev.base :=
  ⟨portFree _, isClean, by decide, portFree _, rfl, by decide⟩

theorem test_met_ControlAreaIsPlainOutsideReady :
    ((inState (.loading true)).PortFree ∧ ∃ b, (inState (.loading true)).dev.setup.part = .loading b) ∧
    ((inState .unloaded).PortFree ∧ (inState .unloaded).dev.setup.part = .unloaded ∧
      (inState .unloaded).dev.base < (inState .unloaded).dev.size ∧
      ∃ r ∈ windowMap, r.kind ≠ .load ∧ (inState .unloaded).dev.base + r.off ≤ (0x104#32).toNat ∧
        (0x104#32).toNat + 4 * 1 ≤ (inState .unloaded).dev.base + r.off + 4 * r.words) :=
  ⟨⟨portFree _, true, rfl⟩, portFree _, rfl, by decide, ⟨0x0104, 1, .mode⟩, by decide⟩

theorem test_met_FaultedStoreIsNotTaken : ready.PortFree ∧ (MemAns.mk (some 0) none).faultAt = some 0 ∧
    ready.dev.base < ready.dev.size ∧ (∀ k : Fin 4, (ready.dev.slot k).st ≠ .draining) ∧
    ∃ r ∈ windowMap, ready.dev.base + r.off ≤ (0x140#32).toNat ∧
      (0x140#32).toNat + 4 * 1 ≤ ready.dev.base + r.off + 4 * r.words ∧ r.kind = .position :=
  ⟨portFree _, rfl, by decide, by decide +kernel, ⟨0x0140, 1, .position⟩, by decide⟩

/-- A write held at the port with one access to make. -/
def held : Held :=
  { txn := .write 1 0x20000 [word], faultAt := none, work := some [.store 0x20000 [word]], ctx := Ctx.init 1 }

def waiting (n : Nat) (us : List Held) (bs : List Burst) : Dev :=
  { part .ready with path := { (part .ready).path with upstream := us, waitCount := n, bursts := bs } }

def statusBurst : Burst := { op := .status, addr := 0x200, kind := .write [0] }

theorem test_met_PortServesOneAndTheArbiterGrants :
    (waiting 0 [held] []).path.upstream = held :: [] ∧
    (onPort .status 0x200 (.write [0]) (part .ready)).path.port ≠ none ∧
    ((waiting 4 [held] [statusBurst]).path.port = none ∧ (waiting 4 [held] [statusBurst]).path.waitCount = 4 ∧
      ((waiting 4 [held] [statusBurst]).path.bursts.filter fun b =>
        decide (b.addr + 4 * b.words ≤ (waiting 4 [held] [statusBurst]).size)) = statusBurst :: []) ∧
    ((waiting 0 [] []).path.upstream = [] ∧ (waiting 0 [] []).path.bursts = []) ∧
    ((waiting 3 [held] [statusBurst]).path.waitCount < 4 ∧ (waiting 3 [held] [statusBurst]).report.request = false ∧
      (waiting 3 [held] [statusBurst]).base + 65536 ≤ 0x20000) :=
  ⟨rfl, fun h => (nomatch h), ⟨rfl, rfl, by decide⟩, ⟨rfl, rfl⟩, by decide, rfl, by decide⟩

/-- R160: at wait count 4 with an internal burst waiting, a line reset finds no upstream access issued; at 3 it may. -/
theorem test_reset_and_the_wait_count :
    let s (n : Nat) : State := { ready with dev := waiting n [held] [statusBurst] }
    (s 4).dev.grantable = false ∧ (s 4).resetIssued .issued = [] ∧ (s 4).resetIssued .answered = [] ∧
    (s 3).resetIssued .issued = issuedFor 1 [.write 0x20000 [word]] := by decide

/-! ### Control words, fills and nominals -/

/-- The part in state `p`, its setup enabling PATH_FAULT alone. -/
def enabling (p : PartState) : Dev :=
  { part p with setup := { (part p).setup with setup := some { line with enable := 0x100000 } } }

/-- R169, R170: a cause joins the pending set and requests a status write once; ATTN follows the enable set of each part
state. -/
theorem test_met_AckWriteRemovesTheNamedCauses_raised :
    (part .unplaced).setup.part = .unplaced ∧ (part .unloaded).setup.part ≠ .unplaced ∧
    ((part .unloaded).raise .slip).report.pending = 0x40000 ∧ ((part .unloaded).raise .slip).report.request = true ∧
    ((part .unloaded).raise .slip).raise .slip = (part .unloaded).raise .slip ∧
    ((part .ready).raiseAt .orderError 0x30008).report.errAddr = 0x30008 ∧
    (∀ p ∈ [PartState.ready, .loading true], (enabling p).setup.setup = some { line with enable := 0x100000 } ∧
      ((enabling p).raise .pathFault).attn = true ∧ ((enabling p).raise .loadError).attn = false) ∧
    (∀ p ∈ [PartState.unloaded, .loading false], ((enabling p).raise .loadError).attn = true ∧
      ((enabling p).raise .pathFault).attn = true ∧ ((enabling p).raise .slip).attn = false) ∧
    ((enabling .unplaced).raise .pathFault).attn = false := by decide +kernel

/-- ModeWriteSetsTheCopies, AckWriteRemovesTheNamedCauses, SelectionWritesTakeTheirHalf, OrderWritesBeginTheFetch,
AddViewReadAnswersTheNominals, PositionAndSampleWordsAreTaken, ValveCommandsChangeTheirRecord. -/
theorem test_met_ready_and_port_free : ready.PortFree ∧ ready.Ready ∧ clean.clean ∧ ready.dev.path.lrst = false ∧
    (1 ≤ 8 ∧ 8 ≤ 8 ∧ 56 + 8 ≤ 64) ∧ 4095 + [word].length ≤ 4096 := ⟨portFree _, isReady, isClean, rfl, by decide⟩

theorem test_met_LoadWordBeginsALoad :
    ((inState .unloaded).PortFree ∧ (inState .unloaded).dev.base < (inState .unloaded).dev.size ∧
      (inState .unloaded).dev.path.lrst = false ∧ (inState .unloaded).dev.setup.part = .unloaded) ∧
    (ready.PortFree ∧ ready.dev.setup.part = .ready ∧ ready.dev.pocket.running = false) ∧
    (({ part .ready with pocket := { (part .ready).pocket with running := true } } : Dev).pocket.running = true) :=
  ⟨⟨portFree _, by decide, rfl, rfl⟩, ⟨portFree _, rfl, rfl⟩, rfl⟩

theorem test_met_DoseFollowsNominalAndTrim :
    (ready.dev.su.valves ≤ (8 : Fin 64).val) ∧
    ((7 : Fin 64).val < ready.dev.su.valves ∧ (33000 : Word) ≠ 0 ∧ (ready.dev.valveRec 7).st ≠ .suspended ∧
      ready.dev.slotIn .current = none) ∧
    ((7 : Fin 64).val < taught.dev.su.valves ∧ (taught.dev.valveRec 7).st ≠ .suspended ∧
      taught.dev.slotIn .current = some 1 ∧
      (taught.dev.recipeOf 1).doseFloor ≤ (taught.dev.recipeOf 1).doseCeiling) := by decide +kernel

/-- InspectionReadShowsTheDoses, NominalWriteStoresShapedWords, AddViewWriteAddsToTheNominals,
BroadcastWritesReachTheSelectedValves, ValveViewReadShowsTheRecords, QueryReadShowsTheMatches. -/
theorem test_met_ready_and_quiet : ready.Quiet ∧ ready.Ready ∧ clean.clean ∧ (1 ≤ 8 ∧ 8 ≤ 8 ∧ 56 + 8 ≤ 64) ∧
    (6#4).toNat ≠ ready.dev.su.sequencer ∧ 1016 + 8 ≤ 1024 ∧ 1 ≤ 2 :=
  ⟨quiet, isReady, isClean, by decide, by decide, by decide⟩

theorem test_met_FillReadTakesItsFills : taught.Quiet ∧ taught.Ready ∧ (1#4).toNat = taught.dev.su.sequencer ∧
    taught.dev.slotIn .pending = none ∧
    ((changing none false).dev.slotIn .pending = some 2 ∧ (changing none false).dev.fill.switchDue = false ∧
      ∀ e, (changing none false).dev.order.cur = some e → e.canCount = 0 ∨ e.made + 8 ≤ e.canCount) ∧
    taught.dev.su.valves ≤ 8 :=
  ⟨taughtQuiet, taughtReady, by decide, by decide +kernel, ⟨by decide +kernel, rfl, fun _ h => (nomatch h)⟩, by decide⟩

/-- The switching fill: eight listed writes, a FAULT on the last of them, and no list. -/
theorem test_met_FillReadTakesItsFills_switching :
    let s := changing (some (List.replicate 64 33000)) true
    (s.Quiet ∧ s.Ready ∧ clean.clean ∧ s.dev.path.waitCount < 4) ∧
    (7 < s.dev.su.valves ∧ (1#4).toNat = s.dev.su.sequencer ∧
      (s.dev.valveRec (Fin.ofNat 64 7)).st ≠ .suspended ∧ s.dev.fill.switchDue = true ∧
      s.dev.slotIn .pending = some 2 ∧ (s.dev.recipeOf 2).nominals.isSome = true ∧
      (changing none true).dev.slotIn .pending = some 2 ∧
      ((changing none true).dev.recipeOf 2).nominals.isSome = false) ∧
    (MemAns.mk (some 7) none).faultAt = some 7 ∧ (∀ u : Fin 4, (s.dev.slot u).st ≠ .draining) ∧
    s.dev.order.fetchA = none :=
  ⟨⟨⟨rfl, rfl, rfl, rfl⟩, ⟨rfl, by decide⟩, isClean, by decide⟩, by decide +kernel, rfl, by decide +kernel, rfl⟩

/-- A FAULT on the last fetch of eight, and on the fetch after the switch, with a list and without. -/
theorem test_met_FillReadTakesItsFills_fault :
    (MemAns.mk (some 7) none).faultAt = some 7 ∧ 7 < 8 ∧ (MemAns.mk (some 8) none).faultAt = some 8 ∧
    (MemAns.mk (some 0) none).faultAt = some 0 ∧ (∀ u : Fin 4, (taught.dev.slot u).st ≠ .draining) := by decide +kernel

/-- R24: the second fetch of a read of two is answered FAULT: neither fill is made. -/
theorem test_fill_fault :
    let r := taught.present (.read 1 0x400 2) { faultAt := some 1, pauseAt := none }
    r.answers = [.fault] ∧ r.downstream = issuedFor 1 [.read 0x300 1, .read 0x304 1] ∧ r.dev = taught.dev ∧
    (taught.present (.read 1 0x400 2) clean).dev.fill.seq = 2 := by decide +kernel

/-- R33: a switching fill without a list makes slot 2 CURRENT, answers tag 1, and drops the trim of 40. -/
theorem test_switching_fill :
    let s := changing none true
    let r := { s with dev := s.dev.setValve 5 { ValveRec.reset with trim := 40 } }.present (.read 1 0x400 1) clean
    r.answers = [.okay [0x1080E8]] ∧ r.downstream = issuedFor 1 [.read 0x300 1] ∧
    r.dev.slotIn .current = some 2 ∧ (r.dev.valveRec 5).trim = 0 ∧ (r.dev.valveRec 5).epoch = 1 := by decide +kernel

theorem test_met_TrackedFillMakesARecord :
    (∀ j : Fin 4, (taught.dev.slot j).st ≠ .pending ∧ (taught.dev.slot j).st ≠ .draining) ∧
    taught.dev.doseFor (Fin.ofNat 64 0) (Memory.readWord taught.mem (taught.dev.base + 0x300 + 4 * 0)) =
      .dosed 1 33000 0 ∧ taught.dev.track.free = 0 :: taught.dev.track.free.tail :=
  ⟨by decide +kernel, by decide +kernel, by decide +kernel⟩

/-- READY with an entry of one can, no fill of it made, and slot 2 PENDING or none. -/
def counting (pending : Bool) (made : Nat) : State :=
  let s := if pending then changing none false else taught
  { s with dev := { s.dev with order := { s.dev.order with
    cur := some { ref := .detached, canCount := 1, made := made, stalled := false } } } }

/-- A PENDING slot with the flag clear and the can count not reached, and none PENDING. -/
theorem test_met_TrackedFillMakesARecord_counting : ∀ pending : Bool,
    (counting pending 0).dev.slotIn .pending = (if pending then some 2 else none) ∧
    (counting pending 0).dev.fill.switchDue = false ∧
    (∀ e ∈ (counting pending 0).dev.order.cur, e.made < e.canCount) ∧
    (∀ j : Fin 4, ((counting pending 0).dev.slot j).st ≠ .draining) := by decide +kernel

/-- R134, R135: the fill that makes the can count sets the flag of R32 with a slot PENDING, else CHANGEOVER_STALLED. -/
theorem test_can_count_reached :
    let fill (pending : Bool) := ((counting pending 0).present (.read 1 0x400 1) clean).dev
    (fill true).fill.switchDue = true ∧ (fill true).report.pending = 0 ∧
    (fill false).fill.switchDue = false ∧ (fill false).report.pending = 32 ∧
    (fill false).order.cur = some { ref := .detached, canCount := 1, made := 1, stalled := true } := by decide +kernel

/-- With the can count made and no slot PENDING an untracked fill shows the stall too (log 22). -/
theorem test_met_FillWithoutARecordIsUntracked_stalls :
    let s := counting false 1
    let s : State := { s with dev := { s.dev with track := { free := [], fill := [], suspects := 0 } } }
    s.dev.slotIn .pending = none ∧ s.dev.doseFor 0 33000 = .dosed 1 33000 0 ∧
    (s.present (.read 1 0x400 1) clean).dev.report.pending = 160 := by decide +kernel

theorem test_met_FillWithoutARecordIsUntracked :
    let s : State := { taught with dev := { taught.dev with track := { free := [], fill := [], suspects := 0 } } }
    s.Quiet ∧ s.Ready ∧ s.dev.track.free = [] ∧
    s.dev.doseFor (Fin.ofNat 64 0) (Memory.readWord s.mem (s.dev.base + 0x300 + 4 * 0)) = .dosed 1 33000 0 :=
  ⟨⟨rfl, rfl, rfl, rfl⟩, ⟨rfl, by decide⟩, rfl, by decide +kernel⟩

theorem test_met_TagsRepeatAfter4095Numbers : 0 < (1#32).toNat ∧ (1#32).toNat < (4095#32).toNat ∧
    (4095#32).toNat < (1#32).toNat + 4095 := by decide

theorem test_met_SwitchTakesTheNewRecipe :
    let d (ms : List Nat) : Dev :=
      let t := (part .ready).setPlace 0 (some twoEntries)
      let t : Dev := { t with order := { t.order with
        running := some 0, cur := some { ref := .entry 0 0, canCount := 3, made := 3, stalled := false } } }
      (t.setSlot 1 { st := .current, recipe := some recipe, ref := .entry 0 0, members := ms }).setSlot 2
        { st := .pending, recipe := some recipe, ref := .entry 0 1, members := [] }
    ∀ ms : Bool, let x := d (if ms then [9] else [])
      x.setup.part = .ready ∧ (x.slot 2).st = .pending ∧ x.slotIn .current = some 1 ∧
      x.order.cur.map (fun c => c.ref) = some (.entry 0 0) ∧ (x.slot 2).ref = .entry 0 1 ∧
      x.place 0 = some twoEntries ∧ twoEntries.entries.length = 2 ∧ x.tentative 1 = false ∧
      (x.slot 1).ref = .entry 0 0 ∧ ((x.slot 1).members = [] ↔ ms = false) := by decide +kernel

/-- R70, R71: at the switch the net of a bare pocket not yet judged is formed again; one UNSEEN, one judged and one with
a record stand. -/
theorem test_met_SwitchTakesTheNewRecipe_nets :
    let bare : Entry := { Entry.fresh 3 with occ := .can, weighing := some { gross := 40000, net := 1, flags := 0 } }
    let s (e : Entry) : Dev := (changing none true).dev.setEntry 3 e
    let net (e : Entry) : Option Int := (((s e).switchTo 2 (Ctx.init 1)).entry 3).weighing.map fun w => w.net
    (∀ u v : Fin 4, ((s bare).slot u).st = .current → ((s bare).slot v).st = .current → u = v) ∧
    net bare = some 35500 ∧ net { bare with weighing := some { gross := 40000, net := 1, flags := 32 } } = some 1 ∧
    net { bare with verdict := some { reject := false, reasons := 0 } } = some 1 ∧
    net { bare with record := some record } = some 1 := by decide +kernel

theorem test_met_NominalsStayWithinTheDoseLimits : ready.dev.slotIn .current = none ∧
    taught.dev.slotIn .current = some 1 ∧ (1 : Word) ≠ 0 ∧
    (taught.dev.recipeOf 1).doseFloor ≤ (taught.dev.recipeOf 1).doseCeiling ∧
    (taught.dev.recipeOf 1).doseCeiling < 2 ^ 32 := by decide +kernel

theorem test_met_BroadcastWritesReachTheSelectedValves : word.be = 15#4 ∧ ({ word with be := 7 } : WWord).be ≠ 15#4 := by
  decide

/-- `ready` with valves 1 and 3 in the broadcast mask. -/
def masked : State := { ready with dev := { ready.dev with fill := { ready.dev.fill with mask := 10 } } }

/-- The FAULTs of NominalWriteStoresShapedWords, AddViewWriteAddsToTheNominals (access 3 of two additions) and
BroadcastWritesReachTheSelectedValves (access 4 of an addition to two valves). -/
theorem test_met_nominal_faults : masked.Quiet ∧ masked.Ready ∧
    ((fullWords 2).zipIdx.filter fun x => decide (x.1.be = 15#4)).length = 2 ∧ 3 < 2 * 2 ∧
    ((List.range 64).filter fun v => decide (v < masked.dev.su.valves) && masked.dev.fill.mask.getLsbD v) = [1, 3] ∧
    (MemAns.mk (some 4) none).faultAt = some (3 + 1) ∧ (MemAns.mk (some 3) none).pauseAt = none ∧
    (∀ k : Fin 4, (masked.dev.slot k).st ≠ .draining) :=
  ⟨⟨rfl, rfl, rfl, rfl⟩, ⟨rfl, by decide⟩, by decide, by decide, by decide +kernel, rfl, rfl, by decide +kernel⟩

/-- R36, R37, R39: what stands after a FAULT part-way. The nominal write makes a write of word 0, a read and a write of
word 1, and a write of word 2; the additions a read and a write each, after the broadcast's own word. -/
theorem test_nominal_faults :
    let three : List WWord := [{ data := 9, be := 15 }, { data := 8, be := 1 }, { data := 7, be := 15 }]
    let run (c : MemAns → Instr) (f : Nat) : State := after (c { faultAt := some f, pauseAt := none }) masked
    let from5 (c : MemAns → Instr) (f : Nat) : List Host.Cell :=
      (after (c { faultAt := some f, pauseAt := none }) { masked with mem := [(0x300, 5), (0x304, 5)] }).mem
    (∀ c ∈ [Instr.nominalWrite 6 0 three, .addViewWrite 6 0 (fullWords 2), .bcastSet 6 word, .bcastAdd 6 word],
      (run c 0).mem = [] ∧ (run c 0).answers = [.fault] ∧ (run c 0).dev = masked.dev) ∧
    (run (.nominalWrite 6 0 three) 2).mem = [(0x300, 9)] ∧ (run (.nominalWrite 6 0 three) 3).mem = [(0x300, 9), (0x304, 8)] ∧
    from5 (.addViewWrite 6 0 (fullWords 2)) 1 = [(0x300, 5), (0x304, 5)] ∧
    from5 (.addViewWrite 6 0 (fullWords 2)) 3 = [(0x300, 6), (0x304, 5)] ∧
    (run (.bcastSet 6 word) 2).mem = [(0x124, 7), (0x304, 7)] ∧
    from5 (.bcastAdd 6 word) 2 = [(0x128, 7), (0x300, 5), (0x304, 5)] ∧
    from5 (.bcastAdd 6 word) 4 = [(0x128, 7), (0x300, 5), (0x304, 12)] := by
  decide +kernel

/-! ### The line partners -/

theorem test_met_FirstPositionEstablishes : (part .ready).pocket.pos = none := rfl

theorem test_met_BoundaryDepartsThreeStations :
    let d (c : ClosedWeighing) (fill : List CanRecord) : Dev :=
      let t := (part .ready).setFillList fill
      { t with weigh := { t.weigh with gapWin := .closed, weighWin := .closed, closed := some c } }
    let can' : ClosedWeighing := .weighed 1 2 0 true
    let read (st : Occupancy) (miss : Nat) : Dev :=
      let t := (part .ready).setEntry 3 { Entry.fresh 3 with occ := st }
      { t with code := { t.code with missRun := miss } }
    (d .unknown []).weigh.closed = some .unknown ∧ (d can' []).weigh.closed = some can' ∧
    (d can' []).track.fill = [] ∧ (d can' [record]).track.fill = record :: [] ∧
    (record.failed = false ∧ record.checkOk = true) ∧
    ((d can' [{ record with checkOk := false }]).track.fill = { record with checkOk := false } :: [] ∧
      (d can' []).setup.part = .ready ∧ (d can' []).report.queue.length < 16) ∧
    ((read .none 0).entry 3).occ ≠ .can ∧
    (((read .can 2).entry 3).occ = .can ∧ ((read .can 2).entry 3).ident = .unchecked ∧
      (read .can 2).code.missRun < (read .can 2).su.readerSilent ∧ min 63 ((read .can 2).code.missRun + 1) = 3) := by
  decide +kernel

theorem test_met_PositionsFollowTheHighWaterMark :
    let lead (w : Word) : Int :=
      ((502100 : BitVec 48) + (w - 502100).signExtend 48 - 502100).toInt
    (placedAt (part .ready)).pocket.pos = some { last := 502100, ext := 502100, high := 502100 } ∧
    (lead 501100 ≤ 0 ∧ -((part .ready).su.pitch : Int) ≤ lead 501100) ∧
    (lead 501099 < -((part .ready).su.pitch : Int) ∧ (part .ready).pocket.reversal = false) ∧
    0 < lead 502101 := by decide +kernel

/-- R63: what a phase does to the two windows, at the phases where they open and close. -/
theorem test_phase_moves_the_windows :
    let wins (g w : WindowState) (phase : Nat) : WindowState × WindowState :=
      let d := part .ready
      let t := Dev.handPhase phase { d with weigh := { d.weigh with gapWin := g, weighWin := w } }
      (t.weigh.gapWin, t.weigh.weighWin)
    wins .notOpened .notOpened 99 = (.notOpened, .notOpened) ∧ wins .notOpened .notOpened 100 = (.opened, .notOpened) ∧
    wins .notOpened .notOpened 300 = (.closed, .notOpened) ∧ wins .opened .notOpened 299 = (.opened, .notOpened) ∧
    wins .opened .notOpened 400 = (.closed, .opened) ∧ wins .closed .opened 899 = (.closed, .opened) ∧
    wins .closed .opened 900 = (.closed, .closed) ∧ wins .notOpened .notOpened 900 = (.closed, .closed) := by
  decide +kernel

theorem carriedWhole : ∀ j', j' ≠ 0 →
    (if 0 ≤ 4 * j' + 3 then
      match (List.replicate 4 word)[4 * j' + 3 - 0]? with
      | none => none
      | some w => if w.be = 15#4 then some w.data else none
    else none) = none := by
  intro j' h
  rw [if_pos (Nat.zero_le _), List.getElem?_eq_none (by simp; omega)]

/-- One slot written whole; the other slots of the ring carry nothing. -/
theorem test_met_CodeEventTakesItsSlots : ready.Quiet ∧ ready.Ready ∧ (3#4).toNat = ready.dev.su.reader ∧
    (1#4).toNat ≠ ready.dev.su.reader ∧
    (List.replicate 4 word)[4 * 0 + 3 - 0]? = some word ∧ word.be = 15#4 ∧
    (List.replicate 8 word).length = 8 ∧ 4 * 126 + 8 ≤ 512 := ⟨quiet, isReady, by decide⟩

theorem test_met_CodeRecordIsTakenInOrder : 127 < 128 ∧
    ¬((127 + 1) % 128 = (part .ready).code.expected ∧ (part .ready).code.last = some 5) := by decide +kernel

theorem test_met_GateReadsAnswerOncePerPocket :
    let d := placedAt (part .ready)
    let full := d.setEntry 500 (can 500)
    (ready.dev.path.upstream = [] ∧ ready.Ready ∧ (5#4).toNat = ready.dev.su.gate ∧ (1#4).toNat ≠ ready.dev.su.gate ∧
      ready.dev.pocket.pos = none) ∧
    ((BitVec.ofNat 32 (502100 / d.su.pitch) : Word) - BitVec.ofNat 32 d.su.dGate = 500) ∧
    (d.entry 500).pocket ≠ 500 ∧
    ((d.setEntry 500 (Entry.fresh 500)).entry 500).occ = .none ∧
    ((full.entry 500).pocket = 500 ∧ (full.entry 500).occ ≠ .none ∧ ((full.testPocket 500).entry 500).gate = none) ∧
    (let polled := d.setEntry 500 { can 500 with gate := some true }
     ((polled.testPocket 500).entry 500).gate = some true) :=
  ⟨⟨rfl, isReady, by decide, by decide, rfl⟩, by decide +kernel⟩

theorem test_met_WindowsCloseIntoZeroAndWeighing :
    let fit (a : Accumulator) : Prop := line.gapMin ≤ a.count ∧ a.gap = false ∧ a.overload = false
    fit { sum := 12600, count := 8, gap := false, overload := false } ∧ (part .ready).weigh.capture = true ∧
    ((12600 : Int).tdiv 8 - 1175).natAbs ≤ line.zeroBand ∧ ¬((12600 : Int).tdiv 8 - 1174).natAbs ≤ line.zeroBand ∧
    ¬fit .empty ∧ line.staleLimit < 51 ∧ (part .ready).weigh.weighAcc.count = 0 := by decide +kernel

/-- R65, R66: the flag is cleared by a close that sets the age back to 0 and stands at one that does not leave the zero
stale. -/
theorem test_met_WindowsCloseIntoZeroAndWeighing_reported :
    let d (count age : Nat) : Dev := { part .ready with weigh := { (part .ready).weigh with
      gapWin := .opened, gapAcc := { sum := 12600, count := count, gap := false, overload := false }
      zeroAge := age, stale := true } }
    (d 8 51).weigh.capture = true ∧ ((d 8 51).closeGap.weigh.stale = false ∧ (d 8 51).closeGap.weigh.zeroAge = 0) ∧
    ¬line.gapMin ≤ 7 ∧ ¬line.staleLimit < 50 ∧
    ((d 7 49).closeGap.weigh.stale = true ∧ (d 7 49).closeGap.weigh.zeroAge = 50) := by decide +kernel

theorem test_met_CodesDecideTheIdentity :
    let d := placedAt (part .ready)
    let full (e : Entry) : Dev := d.setEntry 501 e
    ((part .ready).pocket.pos = none) ∧
    ((BitVec.ofNat 32 (502100 / d.su.pitch) : Word) - BitVec.ofNat 32 d.su.dRead = 501) ∧
    (d.entry 501).pocket ≠ 501 ∧
    ((full (Entry.fresh 501)).entry 501 = Entry.fresh 501 ∧ (Entry.fresh 501).codes = 0) ∧
    ((full (can 501)).entry 501 = can 501 ∧ (can 501).occ ≠ .none ∧ record.tag ≠ 0 ∧ record.failed = false ∧
      record.checkOk = true ∧ record.valve.val = 5) ∧
    ({ can 501 with record := none } : Entry).record = none ∧
    ({ can 501 with codes := 1, ident := .confirmed } : Entry).ident ≠ .unchecked := by decide +kernel

/-- A forward re-layout with one record lost, the close-up, a record of another valve, no record of the tag, and a
backward re-layout: reader pocket 500, scale pocket 502, pocket 501 between them. -/
theorem test_met_CodesDecideTheIdentity_moves :
    let later : CanRecord := { record with slot := 10, seq := 7002, tag := 2908, valve := 6, suspect := false }
    let code (tag : BitVec 12) (v : Nat) : CodeRec := { good := true, tag := tag, valve := v, lot := 2207 }
    let at500 (e : Entry) (fill : List CanRecord) : Dev :=
      ((lane2.setEntry 500 e).setEntry 501 { can 501 with record := some later }).setFillList fill
    let held := at500 (can 500) []
    let bare := at500 { can 500 with record := none } []
    let unseen := at500 { Entry.fresh 500 with occ := .unseen } []
    let back := at500 (can 500) [{ later with slot := 11, seq := 7003, tag := 2909 }]
    (held.setup.part = .ready ∧ held.su.dRead = 2 ∧ (held.entry 500).pocket = 500 ∧ (held.entry 500).codes = 0 ∧
      (BitVec.ofNat 32 (502100 / held.su.pitch) : Word) - BitVec.ofNat 32 held.su.dRead = 500 ∧
      (held.entry 501).occ = .can ∧ [record, later] = [record] ++ later :: [] ∧ record.tag ≠ later.tag) ∧
    -- forward: the record of 500 is lost, 501's goes to 500, and its net is formed again
    (let t := held.applyCode (code 2908 6)
     (t.entry 500).record = some later ∧ (t.entry 501).record = none ∧ (t.slot 1).recipe = some recipe ∧
     (t.entry 500).ident = .confirmed ∧ t.code.forward = 1 ∧ t.track.free.head? = some 9 ∧
     t.slotIn .current = some 1 ∧ ((t.entry 500).weighing.map fun w => w.net) = some (-4500) ∧
     ((t.entry 501).weighing.map fun w => w.net) = some (-4500)) ∧
    (can 500).verdict = none ∧ (record.slot ≠ later.slot) ∧
    -- close-up
    (let t := bare.applyCode (code 2908 6)
     (bare.entry 500).record = none ∧ (t.entry 500).record = some later ∧ t.code.forward = 0) ∧
    -- an UNSEEN pocket takes a record
    (let t := unseen.applyCode (code 2908 6)
     (t.entry 500).occ = .can ∧ (t.entry 500).weighing = some { gross := 0, net := 0, flags := 32 }) ∧
    -- another valve, no match
    ((held.applyCode (code 2908 7)).entry 500).ident = .conflict ∧
    ((held.applyCode (code 7 6)).entry 500).ident = .conflict ∧
    -- backward
    (let t := back.applyCode (code 0 0)
     (back.entry 500).record ≠ none ∧ (t.entry 500).record = none ∧ (t.entry 501).record = some record ∧
     t.track.fill.map (fun r => r.slot) = [10, 11] ∧ t.code.backward = 1 ∧ t.slotIn .current = some 1 ∧
     ((t.entry 500).weighing.map fun w => w.net) = some (-4500) ∧
     ((t.entry 501).weighing.map fun w => w.net) = some (-4500)) := by decide +kernel

/-! ### Judgement, the gate, valves -/

theorem test_met_JudgementFormsTheVerdict : ((part .ready).entry 3).occ = .none ∧
    (((part .ready).setEntry 3 (can 3)).entry 3).occ ≠ .none := by decide +kernel

/-- R6, R7: a pocket without a record, a sound one, one that fails its check now, and one marked before. -/
theorem test_met_JudgementFormsTheVerdict_test :
    let d (o : Option CanRecord) : Dev := (part .ready).setEntry 3
      { can 3 with record := o, verdict := some { reject := false, reasons := 1 }, gate := some true, repeats := 2 }
    let t (o : Option CanRecord) : Dev := (d o).testPocket 3
    ((d none).entry 3).record = none ∧ ((d (some record)).entry 3).record = some record ∧
    (record.failed = false ∧ record.checkOk = true) ∧
    ((t (some { record with checkOk := false })).report.pending = Cause.trackCheck.mask ∧
      ((t (some { record with checkOk := false })).entry 3).verdict = some { reject := false, reasons := 1025 } ∧
      ((t (some { record with checkOk := false })).entry 3).gate = some true ∧
      ((t (some { record with checkOk := false })).entry 3).checkFail = true) ∧
    ((t (some { record with failed := true })).report.pending = 0 ∧
      ((t (some { record with failed := true })).entry 3).checkFail = true) := by decide +kernel

theorem test_met_GateDepartureComposesTheResult : ((part .ready).entry 3).occ = .none ∧
    (((part .ready).setEntry 3 (can 3)).entry 3).occ ≠ .none ∧ (part .ready).report.queue.length < 16 := by
  decide +kernel

theorem test_met_TrackIsClearedOrFlagged :
    let d := (part .ready).setFillList [record]
    let full := (placedAt d).setEntry 500 { can 500 with record := some { record with slot := 8, failed := true } }
    (d.report.queue.length ≤ 16 ∧ (full.clearRing.discardTrack).report.queue.length = 1) ∧
    (full.discardTrack.report.queue.map (fun z => z.reasons) = [1024, 0] ∧
      full.discardTrack.track.free.take 2 = [9, 8]) ∧
    d.setup.part ≠ .unplaced ∧ (∀ r ∈ d.track.fill, r.checkOk = true) ∧
    ∀ i : Fin 64, (d.entry (BitVec.ofNat 32 i.val)).record = none := by decide +kernel

/-- R146: the count of one suspect record goes to 0 when the track is discarded, and is 1 again after a marking. -/
theorem test_suspect_count :
    let d := living.dev
    let sound := { d with track := { d.track with fill := [{ record with slot := 0, suspect := false }], suspects := 0 } }
    d.track.suspects = (d.track.fill.countP fun r => r.suspect) ∧ (d.discardTrack).track.suspects = 0 ∧
    sound.markSuspects.track.suspects = 1 ∧ d.markSuspects.track.suspects = 1 := by decide +kernel

theorem test_met_ValveCommandsChangeTheirRecord : (7 : Fin 64).val < ready.dev.su.valves ∧
    ready.dev.su.valves ≤ (8 : Fin 64).val := by decide

theorem test_met_HandOverTakesFourSteps : Identity.noRead ≠ .confirmed ∧ taught.dev.slotIn .current = some 1 ∧
    taught.dev.setup.trimApply = true := by decide +kernel

/-- 12.4: a valve's words with recent deviations 3 and -4, their mean truncated toward zero. -/
theorem test_view_words :
    let d := taught.dev.setValve 5 { ValveRec.reset with trim := -60, epoch := 5, recent := [3, -4], lastSeq := some 7001 }
    (d.viewWords 5 33000).drop 1 = [0x500, 0xFFFFFFC4, 0, 0x1F40000, 0, 0, 0, 0, 7001, 2, 0, 7, 0xFFFFFFFC, 3, 33000] ∧
    (taught.dev.viewWords 5 0).drop 11 = [0, 0, 0, 0, 0] := by decide +kernel

/-! ### Service orders and timers -/

def oneEntry (op : Word) : ServiceOrder :=
  { addr := 0x30000, notify := true, entries := [{ op := op, op1 := 0x20000, op2 := 31 }], idx := 0, closed := 0,
    nextValve := 0 }

def serving (op : Word) : Dev :=
  { part .ready with order := { (part .ready).order with service := some (oneEntry op) } }

/-- ServiceEntriesAreExecuted, ValveGroupCommandsTheSelectedValves, ReportOperationsAreHandedOver: every operation
code, and the two codes beside them. -/
theorem test_met_service_operations : ∀ op : Fin 8,
    (serving (BitVec.ofNat 32 op.val)).setup.part = .ready ∧ (serving (BitVec.ofNat 32 op.val)).report.act = none ∧
    ∃ o e, (serving (BitVec.ofNat 32 op.val)).order.service = some o ∧ o.entries[o.idx]? = some e ∧
      e.op.toNat % 256 = op.val :=
  fun op => ⟨rfl, rfl, oneEntry (BitVec.ofNat 32 op.val), { op := BitVec.ofNat 32 op.val, op1 := 0x20000, op2 := 31 },
    rfl, rfl, by revert op; decide⟩

theorem test_met_ValveGroupCommandsTheSelectedValves :
    let mid : Dev := (serving 0x704).withUp
      [{ txn := .read 1 0x400 1, faultAt := none, work := some [.switchPut 3], ctx := Ctx.init 1 }]
    (0x004 : Word).toNat / 256 % 256 < 1 ∧ 7 < (0x804 : Word).toNat / 256 % 256 ∧
    ValveCommand.clearStats.code = (0x704 : Word).toNat / 256 % 256 ∧ (part .ready).su.valves ≤ 8 ∧
    mid.midSwitch = true ∧ (serving 0x704).midSwitch = false := by decide +kernel

/-- A LOST result of `record`. -/
def lost : Result :=
  { seq := 7001, record := some record.resultFields, ident := .lost, pocket := none, lot := none, reasons := 0,
    verdict := none, gate := none, weighing := none }

/-- 12.8: the words of a LOST result, and of a pocket with no record that was weighed and gated. -/
theorem test_result_words :
    lost.words = [7001, 0x1745B5B, 0, 0, 0, 0, 33040, 40] ∧
    ({ lost with record := none, ident := .pocket .noRead, pocket := some 900, lot := some 2207, reasons := 8
                 verdict := some true, gate := some (.gated true 3)
                 weighing := some { gross := 5, net := -1, flags := 2 } } : Result).words =
      [7001, 0x3C200000, 900, 0xF008089F, 5, 0xFFFFFFFF, 0x200000, 0] := by decide +kernel

def buffer : Buffer := { desc := 0x20000, addr := 0x40000, len := 64, next := 0, count := 1, age := some 3 }

def reporting (r : Reporting) (a : Option ReportAct) (d : Dev) : Dev :=
  { d with report := { d.report with reporting := r, act := a, reread := some 4 } }

theorem test_met_ReportOperationsAreHandedOver :
    (reporting (.running buffer) none (serving 5)).report.reporting = .running buffer ∧ 1 ≤ buffer.count ∧
    (∀ b, (serving 6).report.reporting = .running b → b.count = 0) ∧
    ((0x20000 : Word).toNat % 4 = 0 ∧ (0x20000 : Word).toNat < (serving 6).size) ∧
    (serving 6).size ≤ (0x100000 : Word).toNat := ⟨rfl, by decide, fun _ h => (nomatch h), by decide, by decide⟩

theorem test_met_LineTimersExpire :
    let run (deferred : Bool) : Dev := { part .ready with
      setup := { (part .ready).setup with deferred := deferred }
      pocket := { (part .ready).pocket with running := true, stall := some 100 }
      weigh := { (part .ready).weigh with silence := .running 50 } }
    let stopped : Dev := { part .ready with pocket := { (part .ready).pocket with stall := some 0, stop := .running 5 } }
    ((run true).pocket.stall ≠ none ∧ (run true).pocket.running = true ∧ (run true).setup.deferred = true ∧
      (run false).setup.deferred = false) ∧
    (stopped.pocket.running = false ∧ stopped.pocket.stall ≠ none ∧ stopped.pocket.stop = .running 5) ∧
    (run false).weigh.silence = .running 50 ∧ (∀ n, (part .ready).weigh.silence ≠ .running n) ∧
    (part .unloaded).setup.part ≠ .ready :=
  ⟨by decide, by decide, rfl, fun _ h => (nomatch h), by decide⟩

theorem test_met_ReportTimersExpire :
    let d (a : Option ReportAct) (bs : List Burst) : Dev :=
      let d := reporting (.running buffer) a (part .ready)
      { d with path := { d.path with bursts := bs } }
    let queued (w : WaitOn) : Dev :=
      let d := reporting (.waiting w) none (part .ready)
      { d with report := { d.report with queue := [lost] } }
    let result : Burst := { op := .report, addr := 0x40020, kind := .write [0] }
    ((d none []).report.reporting = .running buffer ∧ buffer.age = some 3 ∧ (d none []).report.act = none) ∧
    ((d (some .writing) []).report.act = some .writing ∧ ∀ x ∈ (d (some .writing) []).path.bursts, x.op ≠ .report) ∧
    (∃ x ∈ (d (some .writing) [result]).path.bursts, x.op = .report) ∧
    (∀ b, (part .ready).report.reporting = .running b → b.age = none) ∧
    ((part .ready).report.reread = none ∧ (d none []).report.queue = [] ∧ (d none []).report.reread = some 4) ∧
    ((queued (.descriptor 8)).report.queue ≠ [] ∧ (queued (.descriptor 8)).report.act = none ∧
      (queued (.descriptor 8)).report.reporting = .waiting (.descriptor 8) ∧
      (queued (.nextField 8)).report.reporting = .waiting (.nextField 8) ∧
      (queued (.nextField 8)).report.reread = some 4) :=
  ⟨⟨rfl, rfl, rfl⟩, ⟨rfl, fun _ h => (nomatch h)⟩, ⟨_, List.mem_cons_self, rfl⟩, fun _ h => (nomatch h),
    ⟨rfl, rfl, rfl⟩, fun h => (nomatch h), rfl, rfl, rfl, rfl⟩

/-- R173: the expiry first, then the answer of the result write on the port: the buffer is closed with its count as
it stood, and the result stays at the head of the queue. -/
theorem test_lapsed_result :
    let d := reporting (.running buffer) (some .writing) (part .ready)
    let d : Dev := { d with report := { d.report with queue := [lost] } }
    let t := d.ageExpired.lapsedAnswered true
    d.ageExpired.report.act = some .lapsing ∧ t.report.queue = d.report.queue ∧
    t.path.bursts = [{ op := .report, addr := 0x2000C, kind := .write [0x10030] }] := by decide +kernel

theorem test_met_ResultChainIsFollowed :
    let d (a : ReportAct) := reporting (.running buffer) (some a) (part .ready)
    let idle : Dev := reporting (.running buffer) none (part .ready)
    let wrote (a : ReportAct) := at' (onPort .report 0x40020 (.write [0]) (d a))
    let opens := at' (onPort .report 0x20000 (.read 4) (reporting (.waiting .nothing) (some (.opening 0x20000))
      (part .ready)))
    let reads := at' (onPort .report 0x20008 (.read 1) (reporting (.waiting .nothing) (some (.reading 0x20000))
      (part .ready)))
    (({ idle with report := { idle.report with queue := [lost] } } : Dev).report.queue =
      lost :: [] ∧ idle.report.act = none) ∧
    ((wrote .writing).Answering .report 0x40020 (.write [0]) ∧ (d .writing).report.act = some .writing ∧
      buffer.len ≤ 32 * (buffer.count + 1) ∧ ({ buffer with len := 96 } : Buffer).len > 32 * (buffer.count + 1)) ∧
    ((wrote .lapsing).Answering .report 0x40020 (.write [0]) ∧ (d .lapsing).report.act = some .lapsing ∧
      (d .lapsing).report.reporting = .running buffer) ∧
    (∀ after, (wrote (.closing 0x20000 after)).Answering .report 0x40020 (.write [0]) ∧
      (d (.closing 0x20000 after)).report.act = some (.closing 0x20000 after)) ∧
    opens.Answering .report 0x20000 (.read 4) ∧
    (reads.Answering .report 0x20008 (.read 1) ∧ reads.dev.report.act = some (.reading 0x20000)) :=
  ⟨⟨rfl, rfl⟩, ⟨rfl, rfl, by decide, by decide⟩, ⟨rfl, rfl, rfl⟩, fun _ => ⟨rfl, rfl⟩, rfl, rfl, rfl⟩

/-- A HOST descriptor, a sound PART one at its longest, one of 65,568 bytes, and the three next fields. -/
theorem test_met_ResultChainIsFollowed_words :
    let w (m : List Host.Cell) (i : Nat) : Nat := (Memory.readWord m (0x20000 + 4 * i)).toNat
    let desc (len : List Host.Cell) : List Host.Cell := [(0x20002, 4)] ++ len ++ [(0x2000C, 1)]
    let long := desc [(0x20006, 1)]
    let beyond := desc [(0x20004, 0x20), (0x20006, 1)]
    w [] 3 % 2 = 0 ∧ (w long 3 % 2 = 1 ∧ w long 0 % 4 = 0 ∧ w long 1 = 65536 ∧ w long 0 + w long 1 ≤ 0x100000) ∧
    (w beyond 3 % 2 = 1 ∧ 65536 < w beyond 1) ∧ w [] 2 = 0 ∧ (w [(0x2000A, 2)] 2 = 0x20000 ∧ w [(0x20008, 2)] 2 % 4 ≠ 0) := by
  decide +kernel

/-! ### Loads, orders and recipes -/

/-- The setup `line` as the words of the setup block. -/
def lineWords : List Word :=
  ([1, 2, 3, 4, 5, 8, 1000, 1, 2, 100, 300, 400, 900, 8, 20, 500, 500000, 400, 2, 50, 3000, 4, 100, 1000, 50, 3] ++
    [100, 0, 1, 128, 0x20000]) ++ List.replicate 33 0

theorem test_line_is_read_back : setupOfWords lineWords = line ∧ lineWords.length = 64 := by decide +kernel

theorem test_met_LoadCompletionEndsTheLoad :
    let d (ws : List Word) : Dev := { part (.loading true) with
      setup := { (part (.loading true)).setup with loadWords := ws } }
    (at' (onPort .setup 0 (.read 8) (d []))).Answering .setup 0 (.read 8) ∧ (d []).setup.part = .loading true ∧
    (56 + 8 < 64 + 1 ∧ (lineWords.take 56).length = 56) ∧
    setupCheck (part .ready).size line = none ∧
    setupCheck (part .ready).size { line with valves := 65 } = some { code := .range, field := 5 } ∧
    setupCheck (part .ready).size { line with dGate := 2, dRead := 2 } = some { code := .order, field := 8 } :=
  ⟨rfl, rfl, by decide, by decide +kernel, by decide +kernel, by decide +kernel⟩

def fetch : Fetch := { addr := 0x30000, got := [1] }

/-- READY with `lotOrder` the running order in place 0. -/
def ordered : Dev :=
  let d := (part .ready).setPlace 0 (some lotOrder)
  { d with order := { d.order with running := some 0 } }

theorem test_met_OrderFetchesEnd :
    let d : Dev := { part .ready with order := { (part .ready).order with fetchA := some fetch, fetchB := some fetch } }
    ((at' (onPort .fetchA 0x30004 (.read 5) d)).Answering .fetchA 0x30004 (.read 5) ∧ d.order.fetchA = some fetch) ∧
    ((at' (onPort .fetchB 0x30004 (.read 5) d)).Answering .fetchB 0x30004 (.read 5) ∧ d.order.fetchB = some fetch) ∧
    (d.order.running = none ∧ d.place 0 = none ∧ d.midSwitch = false) ∧
    (2 + 4 * 1 ≤ (fetch.got ++ Memory.readWords [] 0x30004 5).length ∧ ¬∃ i, i + 1 < 1) ∧
    (fetch.got ++ Memory.readWords [] 0x30004 4).length < 2 + 4 * 1 ∧
    (d.withUp [{ txn := .read 1 0x400 1, faultAt := none, work := some [.switchCommit], ctx := Ctx.init 1 }]).midSwitch =
      true ∧
    ({ fetch with got := [1, 0, 0, 0, 0, 0] } : Fetch).whole = true :=
  ⟨⟨rfl, rfl⟩, ⟨rfl, rfl⟩, ⟨rfl, rfl, rfl⟩, ⟨by decide, by rintro ⟨i, h⟩; omega⟩, by decide, rfl, by decide⟩

/-- Acceptance over a running order: an entry still WAITING, with and without the replace flag, a LOADING and a PENDING
slot of it, an order that ends with the cancellation and one that stays, no later entry, and two orders held. -/
theorem test_met_OrderFetchesEnd_running :
    (ordered.order.running = some 0 ∧ ordered.order.draining = none ∧ ordered.order.cur = none ∧
      ordered.place 0 = some lotOrder ∧ ordered.place 1 = none ∧ ordered.setup.part = .ready) ∧
    ((lotOrder.entries[0]?).map (fun y => y.status) = some .waiting ∧
      lotOrder.entries.all (fun y => y.status == .waiting) = true) ∧
    ((0x201#32).getLsbD 9 = true ∧ (0x1#32).getLsbD 9 = false) ∧
    ((ordered.setSlot 0 { RecipeSlot.empty with st := .loading, ref := .entry 0 0 }).slot 0).ref = .entry 0 0 ∧
    ((ordered.setSlot 3 { RecipeSlot.empty with st := .pending, ref := .entry 0 0 }).slot 3).st = .pending ∧
    twoEntries.entries.any (fun y => y.status == .started) = true ∧
    ((ordered.setPlace 0 (some { lotOrder with entries := [{ context := 0, canCount := 0, status := .started, made := 0 }] })).laterOpen
      0 = false) ∧
    ({ ordered with order := { ordered.order with draining := some 1 } } : Dev).order.draining = some 1 := by
  decide +kernel

/-- R133, R138: an order with the replace flag over `ordered`: the waiting entry is cancelled, the old order is
released DONE, and the new one runs. -/
theorem test_replacing_order :
    let t := ordered.decideOrder 0x38000 [0x201, 0, 0x50000, 0, 0, 0]
    t.order.running = some 1 ∧ t.order.draining = none ∧ t.place 0 = none ∧
    t.order.writes = [(0x30010, 6), (0x30014, 0), (0x38004, 0), (0x38010, 1), (0x38014, 0), (0x30004, 1)] ∧
    t.report.pending = Cause.orderADone.mask := by decide +kernel

/-- R133, R166: an acceptance over an order whose second entry is LOADING: the load is given up, the first entry goes
on draining. -/
theorem test_replacing_order_while_loading :
    let d := (ordered.setPlace 0 (some twoEntries)).setSlot 2
      { st := .loading, recipe := none, ref := .entry 0 1, members := [] }
    let d : Dev := { d with order := { d.order with
      cur := some { ref := .entry 0 0, canCount := 3, made := 0, stalled := false }
      loader := some { slot := 2, place := 0, idx := 1, addr := 0x50100, got := [] } } }
    let t := d.decideOrder 0x38000 [0x201, 0, 0x50000, 0, 0, 0]
    t.order.loader = none ∧ t.slot 2 = .empty ∧ t.order.running = some 1 ∧ t.order.draining = some 0 ∧
    t.order.writes = [(0x30020, 6), (0x30024, 0), (0x38004, 0), (0x38010, 1), (0x38014, 0)] := by decide +kernel

theorem test_met_PartsOwnWritesGoOn :
    let d (st : StatusWrite) : Dev := { part .ready with
      order := { (part .ready).order with writes := [(0x30004, 0)] }
      report := { (part .ready).report with status := st } }
    ((at' (onPort .orderWord 0x30004 (.write [0]) (d .idle))).Answering .orderWord 0x30004 (.write [0]) ∧
      (d .idle).order.writes = (0x30004, 0) :: []) ∧
    ((at' (onPort .status 0x200 (.write [0]) (d (.first [])))).Answering .status 0x200 (.write [0]) ∧
      (d (.first [])).report.status = .first [] ∧ (d .second).report.status = .second) :=
  ⟨⟨rfl, rfl⟩, rfl, rfl, rfl⟩

/-- A record leaves: a slot with a member left, a drained slot of its own entry and of another; entries that close with
one left open, with all over, and with an ERROR among them. -/
theorem test_met_PartsOwnWritesGoOn_closing :
    let d (ms : List Nat) (o : LotOrder) : Dev := (ordered.setPlace 0 (some o)).setSlot 1
      { st := .draining, recipe := some recipe, ref := .entry 0 0, members := ms }
    let filled (other : EntryStatus) : LotOrder := { twoEntries with entries :=
      [{ context := 0, canCount := 3, status := .filled, made := 3 }, { context := 0, canCount := 0, status := other, made := 0 }] }
    ((d [9, 8] twoEntries).memberSlot 9 = some 1 ∧ [9, 8].erase 9 ≠ ([] : List Nat) ∧ [9].erase 9 = ([] : List Nat) ∧
      ((d [9] twoEntries).slot 1).st = .draining ∧ (d [9] twoEntries).tentative 1 = false ∧
      ((d [9] twoEntries).slot 1).ref = .entry 0 0 ∧ ((d [9] twoEntries).slot 1).ref ≠ .entry 1 0 ∧
      ∀ k : Fin 4, 7 ∉ ((d [9] twoEntries).slot k).members) ∧
    ordered.place 1 = none ∧ (d [9] (filled .started)).place 0 = some (filled .started) ∧
    (let t := (d [9] (filled .started)).recordLeaves 9 (.entry 0 0)
     t.order.writes = [(0x30010, 5), (0x30014, 3), (0x30004, 0x10000)] ∧ t.order.running = some 0) ∧
    (let t := (d [9] (filled .cancelled)).recordLeaves 9 (.entry 0 0)
     t.order.writes.drop 3 = [(0x30004, 0x10001)] ∧ t.order.running = none ∧ t.place 0 = none) ∧
    (let t := (d [9] (filled .error)).recordLeaves 9 (.entry 0 0)
     t.order.writes.drop 3 = [(0x30004, 0x10000)] ∧ t.place 0 = none) := by decide +kernel

theorem test_met_RecipeLoadsRun :
    (ordered.order.loader = none ∧ ordered.nextEntry = some (0, 0) ∧ ordered.slotIn .free = some 0 ∧
      ordered.place 0 = some lotOrder ∧ (lotOrder.entries[0]?).map (fun e => e.status) = some .waiting) ∧
    ((0x50000 : Nat) % 4 = 0 ∧ 0x50000 < ordered.size ∧ ordered.size ≤ 0x100000) ∧
    (part .ready).nextEntry = none ∧ ordered.setup.part ≠ .unplaced := by decide +kernel

/-- R134: the next entry without a current entry, after the current one, over from a draining order, and none left. -/
theorem test_met_RecipeLoadsRun_next :
    let two : LotOrder := { lotOrder with entries := lotOrder.entries ++ lotOrder.entries }
    let at' (running : Option (Fin 2)) (cur : Option LotRef) : Dev :=
      let d := ((part .ready).setPlace 0 (some two)).setPlace 1 (some lotOrder)
      { d with order := { d.order with
        running := running, cur := cur.map fun r => { ref := r, canCount := 1, made := 0, stalled := false } } }
    (at' none none).nextEntry = none ∧ (at' (some 0) none).nextEntry = some (0, 0) ∧
    (at' (some 0) (some .detached)).nextEntry = some (0, 0) ∧
    (at' (some 0) (some (.entry 0 0))).nextEntry = some (0, 1) ∧ (at' (some 0) (some (.entry 0 1))).nextEntry = none ∧
    (at' (some 1) (some (.entry 0 0))).nextEntry = some (0, 1) ∧
    (at' (some 1) (some (.entry 0 1))).nextEntry = some (1, 0) := by decide +kernel

/-- R138: a load fails in the last entry, whose order is then over and released, and in the first of two, the other
being STARTED. -/
theorem test_met_RecipeLoadsRun_fails :
    let l : Loader := { slot := 0, place := 0, idx := 0, addr := 0x50000, got := [] }
    let two : LotOrder := { lotOrder with entries := lotOrder.entries ++
      [{ context := 0, canCount := 0, status := .started, made := 2 }, { context := 0, canCount := 0, status := .waiting, made := 0 }] }
    let t := ordered.loadFails l .badLength 0x50000
    let u := (ordered.setPlace 0 (some two)).loadFails l .fetchFault 0x50004
    (ordered.place 0 = some lotOrder ∧ lotOrder.entries.length = 1) ∧
    (t.place 0 = none ∧ t.order.running = none ∧ t.report.errAddr = 0x50000 ∧
      t.order.writes = [(0x30010, 7), (0x30014, 0), (0x30004, 0x502), (0x30004, 0x502)]) ∧
    (u.order.running = some 0 ∧ (u.place 0).isSome = true ∧
      u.order.writes = [(0x30010, 7), (0x30014, 0), (0x30004, 0x402), (0x30030, 6), (0x30034, 0)]) := by decide +kernel

/-- The context of `recipe` with another gain, but for its last word. -/
def contextWords (gain : Word) : List Word := [0x40D, 2207, 33000, 32400, 34200, 600, 4500, gain, 500, 0x503, 3, 30000]

/-- `ordered` with the load of its entry under way, the words `got` read so far, and the next read on the port. -/
def loadingAt (got : List Word) : State :=
  let l : Loader := { slot := 0, place := 0, idx := 0, addr := 0x50000, got := got }
  let d : Dev := { ordered with order := { ordered.order with loader := some l } }
  { at' (onPort .recipe (0x50000 + 4 * got.length) (.read 1) (d.setSlot 0
      { st := .loading, recipe := none, ref := .entry 0 0, members := [] })) with
    mem := [(0x50030, 0x40), (0x50031, 0x9C)] }

theorem test_met_RecipeLoadsRun_answers :
    let next (g : List Word) : List Word := g ++ Memory.readWords (loadingAt g).mem (0x50000 + 4 * g.length) 1
    (∀ g : List Word, (loadingAt g).Answering .recipe (0x50000 + 4 * g.length) (.read 1) ∧
      (loadingAt g).dev.order.loader = some { slot := 0, place := 0, idx := 0, addr := 0x50000, got := g }) ∧
    ((next []).getD 0 0).toNat % 256 = 0 ∧
    (((next [0x40D]).getD 0 0).toNat % 256 = 13 ∧ (next [0x40D]).length < 13) ∧
    ((next (contextWords 8)).length = 13 ∧ recipeCheck (next (contextWords 8)) = none ∧
      recipeOfWords (next (contextWords 8)) = recipe) ∧
    recipeCheck (next (contextWords 17)) = some (.recipeField, 7) :=
  ⟨fun _ => ⟨rfl, rfl⟩, by decide, by decide, by decide +kernel, by decide +kernel⟩

/-- R128: the context of `recipe` with word `i` replaced fails at `i` just beyond each bound, and only there. -/
theorem test_recipe_bounds :
    let check (i : Nat) (w : Word) := recipeCheck ((contextWords 8 ++ [40000]).set i w)
    (check 0 0x20D = none ∧ check 0 0x50D = some (.badLength, 0) ∧ check 0 0x44D = some (.badLength, 0)) ∧
    (check 3 33000 = some (.recipeField, 2) ∧ check 3 32999 = none ∧ check 4 33000 = some (.recipeField, 2)) ∧
    (check 5 0x7FFFFFFF = none ∧ check 5 0x80000000 = some (.recipeField, 5)) ∧ check 7 16 = none ∧
    (check 8 65535 = none ∧ check 8 65536 = some (.recipeField, 8)) ∧
    (check 9 0xF0F = none ∧ check 9 0x1003 = some (.recipeField, 9) ∧ check 9 0x500 = some (.recipeField, 9)) ∧
    check 11 39999 = none ∧ (check 12 1048575 = none ∧ check 12 1048576 = some (.recipeField, 12)) := by decide +kernel

/-- R131, R134: the load of an order's first entry succeeds; its slot is PENDING and the flag of R32 set. -/
theorem test_recipe_load_succeeds :
    let s := loadingAt (contextWords 8)
    let t := s.dev.recipeAnswered 0x50030 true (Memory.readWords s.mem 0x50030 1)
    (t.slot 0).st = .pending ∧ (t.slot 0).recipe = some recipe ∧ t.fill.switchDue = true ∧ t.order.loader = none := by
  decide +kernel

end Sys2Proof.Tests
end

section
/-! Position events after the first (R44 to R46, R49), and what a phase does to the two windows of the Weigh unit
(R63): the case each event falls into, as an equation for the device. -/

namespace Sys2Proof.Machine

/-! ### A phase and a window (R63) -/

/-- What stands after a move of a window: one of three outcomes. -/
def WindowMove.pick {α : Type} (stays opens closes : α) : WindowMove → α
  | .stay => stays
  | .openIt => opens
  | .closeIt => closes

/-- The table of R63, for any three outcomes of a window that opens at phase `o` and closes at phase `c`. -/
theorem WindowMove.pick_windowMove {α : Type} (st : WindowState) (x o c : Nat) (stays opens closes : α) :
    (windowMove st x o c).pick stays opens closes = match st with
      | .notOpened => if x < o then stays else if x < c then opens else closes
      | .opened => if x < c then stays else closes
      | .closed => stays := by
  cases st with
  | notOpened =>
    show WindowMove.pick _ _ _ (if x < o then _ else if x < c then _ else _) = _
    rw [apply_ite (WindowMove.pick _ _ _), apply_ite (WindowMove.pick _ _ _)]
    rfl
  | opened => exact apply_ite (WindowMove.pick _ _ _) ..
  | closed => rfl

theorem Dev.moveGap_eq_pick (x : Nat) (d : Dev) : d.moveGap x =
    (windowMove d.weigh.gapWin x d.su.gOpen d.su.gClose).pick
      d (d.setWeigh { d.weigh with gapWin := .opened }) d.closeGap := by
  unfold Dev.moveGap
  cases windowMove d.weigh.gapWin x d.su.gOpen d.su.gClose <;> rfl

theorem Dev.moveWeigh_eq_pick (x : Nat) (d : Dev) : d.moveWeigh x =
    (windowMove d.weigh.weighWin x d.su.wOpen d.su.wClose).pick
      d (d.setWeigh { d.weigh with weighWin := .opened }) d.closeWeigh := by
  unfold Dev.moveWeigh
  cases windowMove d.weigh.weighWin x d.su.wOpen d.su.wClose <;> rfl

/-- The gap window's move reads the setup and leaves it alone. -/
theorem Dev.moveGap_su (x : Nat) (d : Dev) : (d.moveGap x).su = d.su := by
  unfold Dev.moveGap
  split
  · rfl
  · rfl
  · exact congrArg (·.setup.getD default) d.closeGap_rest.1

/-! ### Advancing or not (R44) -/

theorem Dev.takePosition_of_ahead {d : Dev} {q : Position} (hq : d.pocket.pos = some q) (w : Word)
    (h : 0 < (q.follow w).lead) : d.takePosition w = d.advance (q.follow w) := by
  unfold Dev.takePosition
  rw [hq]
  exact if_pos h

theorem Dev.takePosition_of_not_ahead {d : Dev} {q : Position} (hq : d.pocket.pos = some q) (w : Word)
    (h : (q.follow w).lead ≤ 0) : d.takePosition w = d.nonAdvance (q.follow w) := by
  unfold Dev.takePosition
  rw [hq]
  exact if_neg h.not_gt

/-! ### At or behind the high-water mark (R45) -/

/-- No more than a pitch length behind, or in an excursion reported before. -/
theorem Dev.nonAdvance_of_tolerated {d : Dev} {q : Position}
    (h : -(d.su.pitch : Int) ≤ q.lead ∨ d.pocket.reversal = true) :
    d.nonAdvance q = d.setPocket { d.pocket with pos := some q } := by
  have within : ¬(q.lead < -(d.su.pitch : Int) ∧ d.pocket.reversal = false) := by
    rintro ⟨behind, clear⟩
    cases h with
    | inl near => exact absurd behind near.not_gt
    | inr reported => exact Bool.false_ne_true (clear.symm.trans reported)
  exact if_neg within

/-- More than a pitch length behind for the first time: the excursion is reported. -/
theorem Dev.nonAdvance_of_excursion {d : Dev} {q : Position} (behind : q.lead < -(d.su.pitch : Int))
    (clear : d.pocket.reversal = false) :
    let t := Dev.markSuspects (Dev.raise .positionFault (d.setPocket { d.pocket with pos := some q }))
    d.nonAdvance q = t.setPocket { t.pocket with reversal := true } := by
  unfold Dev.nonAdvance
  dsimp only
  rw [if_pos ⟨behind, clear⟩]

end Sys2Proof.Machine

namespace Sys2Proof

open Sys2Proof.Machine

/-- Settles O35, by the case the event falls into. The windows follow the table of R63 one after the other, the weigh
window with the setup the gap window's move leaves alone; an advancing event is `Dev.advance`, whose steps are those
of R46 and R49. -/
theorem positionsFollowTheHighWaterMark : Obligations.PositionsFollowTheHighWaterMark := by
  unfold Obligations.PositionsFollowTheHighWaterMark
  refine ⟨fun d phase => ?_, fun d w q hq => ⟨fun behind tolerated => ?_, fun behind clear => ?_, fun ahead => ?_⟩⟩
  · intro gap
    have gapMoved : d.moveGap phase = gap := (d.moveGap_eq_pick phase).trans (WindowMove.pick_windowMove ..)
    have sameSetup : gap.su = d.su := gapMoved ▸ d.moveGap_su phase
    rw [← sameSetup]
    calc d.handPhase phase
      _ = gap.moveWeigh phase := congrArg (Dev.moveWeigh phase) gapMoved
      _ = _ := (gap.moveWeigh_eq_pick phase).trans (WindowMove.pick_windowMove ..)
  · exact (Dev.takePosition_of_not_ahead hq w behind).trans (Dev.nonAdvance_of_tolerated tolerated)
  · have notAhead : (q.follow w).lead ≤ 0 := behind.le.trans (by omega)
    exact ⟨_, (Dev.takePosition_of_not_ahead hq w notAhead).trans (Dev.nonAdvance_of_excursion behind clear), rfl⟩
  · exact Dev.takePosition_of_ahead hq w ahead

end Sys2Proof
end

section
/-! One sample (R60, R61, R64): the two fields of its word, and what it makes of an open window's accumulator, full
or not. -/

namespace Sys2Proof.Machine

/-- The raw count is the signed low 24 bits of the word (R60). -/
theorem rawCount_eq_toInt_setWidth (w : Word) : rawCount w = (w.setWidth 24).toInt := by
  have lowBits : BitVec.ofNat 24 (bits w 0 24) = w.setWidth 24 := by
    apply BitVec.eq_of_toNat_eq
    simp [bits]
  exact congrArg BitVec.toInt lowBits

/-- The overload flag is bit 24 of the word (R60). -/
theorem overloadFlag_eq_getLsbD (w : Word) : overloadFlag w = w.getLsbD 24 := bit_eq_getLsbD w 24

/-- A sample leaves its marks on every accumulator, and its raw count on one that is not full (R64). -/
theorem Accumulator.take_eq (x : Accumulator) (gap : Bool) (w : Word) : x.take gap w =
    { sum := if x.count < 65535 then x.sum + rawCount w else x.sum
      count := if x.count < 65535 then x.count + 1 else x.count
      gap := x.gap || gap, overload := x.overload || overloadFlag w } := by
  unfold Accumulator.take
  by_cases room : x.count < 65535
  case pos => simp only [if_pos room]
  case neg => simp only [if_neg room]

end Sys2Proof.Machine

namespace Sys2Proof

open Sys2Proof.Machine

/-- Settles O37. `Dev.takeSample` chooses between each window's accumulator and what `Accumulator.take` makes of it;
with that written out, and the two fields of the word read as bits, nothing is left to compare. -/
theorem sampleEntersTheOpenWindows : Obligations.SampleEntersTheOpenWindows := by
  unfold Obligations.SampleEntersTheOpenWindows
  intro d i w raw gap enter
  have entered (st : WindowState) (x : Accumulator) : (if st = .opened then x.take gap w else x) = enter st x := by
    rw [Accumulator.take_eq, rawCount_eq_toInt_setWidth, overloadFlag_eq_getLsbD]
  rw [← entered d.weigh.gapWin, ← entered d.weigh.weighWin]
  rfl

end Sys2Proof
end

section
/-! The two reads of GATE (R100 to R104): what a poll and an inspection read find at the gate pocket, the words they
are answered with, and what each records. -/

namespace Sys2Proof.Machine

/-! ### The words (12.2) -/

/-- The word of a gate pocket without a can: PASS, no can, tag 0. -/
theorem gateWord_noCan (g : Word) : gateWord false true g 0 = BitVec.ofNat 32 (2 + 256 * (g.toNat % 256)) := by
  simp [gateWord_eq]

/-- The word of a gate pocket with a can: the answer and the tag. -/
theorem gateWord_can (reject : Bool) (g : Word) (tag : BitVec 12) : gateWord reject false g tag =
    BitVec.ofNat 32 ((if reject then 1 else 0) + 256 * (g.toNat % 256) + 65536 * tag.toNat) := by
  simp [gateWord_eq]

theorem Entry.toNat_tag (e : Entry) :
    e.tag.toNat = match e.record with | none => 0 | some r => r.tag.toNat := by
  unfold Entry.tag
  cases e.record <;> rfl

/-- A first poll answers REJECT exactly when the verdict is REJECT and gate enforcement is on (R101). -/
theorem Dev.firstAnswer_eq (d : Dev) (e : Entry) :
    d.firstAnswer e = ((match e.verdict with | none => false | some v => v.reject) && d.setup.enforce) := by
  unfold Dev.firstAnswer
  cases e.verdict <;> rfl

/-! ### No can at the gate pocket (R101) -/

section
variable {d : Dev} {g : Word}

theorem Dev.gatePocket_unheld (unheld : d.pocket.pos = none) : d.gatePocket = none := by
  unfold Dev.gatePocket Dev.pocketNow
  rw [unheld]
  rfl

/-- With no position held both reads of GATE find no pocket, and change nothing. -/
theorem Dev.gateReads_unheld (unheld : d.pocket.pos = none) :
    d.pollGate = (2, d) ∧ d.inspectGate = (2, d) := by
  unfold Dev.pollGate Dev.inspectGate
  rw [Dev.gatePocket_unheld unheld]
  exact ⟨rfl, rfl⟩

/-- With no entry of the gate pocket, or no can and no record in it, both reads of GATE find no can, and change
nothing. -/
theorem Dev.gateReads_noCan (gate : d.gatePocket = some g)
    (empty : (d.entry g).pocket ≠ g ∨ (d.entry g).occ = .none ∧ (d.entry g).record = none) :
    d.pollGate = (gateWord false true g 0, d) ∧ d.inspectGate = (gateWord false true g 0, d) := by
  unfold Dev.pollGate Dev.inspectGate
  rw [gate]
  dsimp only
  by_cases other : (d.entry g).pocket ≠ g
  case pos => exact ⟨if_pos other, if_pos other⟩
  case neg =>
    obtain ⟨noCan, bare⟩ := empty.resolve_left other
    rw [Dev.testPocket_bare bare, if_neg other, if_neg other]
    exact ⟨if_pos noCan, if_pos noCan⟩

/-! ### A can at the gate pocket (R101 to R104) -/

/-- The first poll is answered as the tested pocket's verdict says, and its answer is recorded. -/
theorem Dev.pollGate_first (gate : d.gatePocket = some g) (here : (d.entry g).pocket = g)
    (can : (d.entry g).occ ≠ .none) (unpolled : ((d.testPocket g).entry g).gate = none) :
    let t := d.testPocket g
    let e := t.entry g
    d.pollGate = (gateWord (t.firstAnswer e) false g e.tag, t.setEntry g { e with gate := some (t.firstAnswer e) }) := by
  have canTested : ((d.testPocket g).entry g).occ ≠ .none := d.testPocket_occ g ▸ can
  unfold Dev.pollGate
  rw [gate]
  dsimp only
  rw [if_neg (not_not.2 here), if_neg canTested, unpolled]

/-- A repeat poll is answered as recorded, and counted up to 15. -/
theorem Dev.pollGate_repeat (gate : d.gatePocket = some g) (here : (d.entry g).pocket = g)
    (can : (d.entry g).occ ≠ .none) {x : Bool} (polled : ((d.testPocket g).entry g).gate = some x) :
    let t := d.testPocket g
    let e := t.entry g
    d.pollGate = (gateWord x false g e.tag, t.setEntry g { e with repeats := satSucc 15 e.repeats }) := by
  have canTested : ((d.testPocket g).entry g).occ ≠ .none := d.testPocket_occ g ▸ can
  unfold Dev.pollGate
  rw [gate]
  dsimp only
  rw [if_neg (not_not.2 here), if_neg canTested, polled]

/-- An inspection read is answered with a first poll's word; only the test of the record may change the part. -/
theorem Dev.inspectGate_can (gate : d.gatePocket = some g) (here : (d.entry g).pocket = g)
    (can : (d.entry g).occ ≠ .none) :
    let t := d.testPocket g
    d.inspectGate = (gateWord (t.firstAnswer (t.entry g)) false g (t.entry g).tag, t) := by
  have canTested : ((d.testPocket g).entry g).occ ≠ .none := d.testPocket_occ g ▸ can
  unfold Dev.inspectGate
  rw [gate]
  dsimp only
  rw [if_neg (not_not.2 here), if_neg canTested]

end

/-! ### The two commands in READY -/

section
variable {s : State} {m : Master} {a : MemAns} {word : Word} {d : Dev}

/-- GATE_POLL by the gate master in READY takes a poll. -/
theorem State.exec_gatePoll (idle : s.dev.path.upstream = []) (ready : s.Ready) (clean : a.clean)
    (master : m.toNat = s.dev.su.gate) (poll : s.dev.pollGate = (word, d)) :
    exec (.gatePoll m a) s = .next (State.served m [] (.okay [word]) { s with dev := d.settle }) := by
  have free : s.dev.pollGate.2.path.upstream = [] := (Dev.pollGate_block (.refl _)).upstream.trans idle
  have read := State.gate_read (m := m) idle ready clean (if_pos master) (.inl ⟨rfl, rfl⟩) free
  rw [poll] at read
  exact congrArg Host.Outcome.next read

/-- GATE_INSPECTION_READ by any other master in READY takes an inspection read. -/
theorem State.exec_gateInspectionRead (idle : s.dev.path.upstream = []) (ready : s.Ready) (clean : a.clean)
    (other : m.toNat ≠ s.dev.su.gate) (inspection : s.dev.inspectGate = (word, d)) :
    exec (.gateInspectionRead m a) s = .next (State.served m [] (.okay [word]) { s with dev := d.settle }) := by
  have free : s.dev.inspectGate.2.path.upstream = [] := (Dev.inspectGate_block (.refl _)).upstream.trans idle
  have read := State.gate_read (m := m) idle ready clean (if_neg other) (.inr ⟨rfl, rfl⟩) free
  rw [inspection] at read
  exact congrArg Host.Outcome.next read

end

end Sys2Proof.Machine

namespace Sys2Proof

open Sys2Proof.Machine

/-- Settles O40: each command is the read of GATE it takes (`State.exec_gatePoll`, `State.exec_gateInspectionRead`),
and the clauses are the cases of that read. -/
theorem gateReadsAnswerOncePerPocket : Obligations.GateReadsAnswerOncePerPocket := by
  unfold Obligations.GateReadsAnswerOncePerPocket
  constructor
  case left =>
    intro s m a idle ready clean master answered
    have taken {word : Word} {d : Dev} := State.exec_gatePoll (word := word) (d := d) idle ready clean master
    refine ⟨fun unheld => taken (Dev.gateReads_unheld unheld).1, fun q held => ?_⟩
    intro g low
    have gate : s.dev.gatePocket = some g := Dev.gatePocket_held held
    refine ⟨fun empty => ?_, fun here can => ?_⟩
    · rw [taken (Dev.gateReads_noCan gate empty).1, gateWord_noCan]
    · intro d e tag
      have tagged : e.tag.toNat = tag := e.toNat_tag
      refine ⟨fun unpolled => ?_, fun x polled => ?_⟩
      · intro reject
        have answer : d.firstAnswer e = reject := d.firstAnswer_eq e
        rw [taken (Dev.pollGate_first gate here can unpolled), gateWord_can, tagged, answer]
      · rw [taken (Dev.pollGate_repeat gate here can polled), gateWord_can, tagged]
        rfl
  case right =>
    intro s m a idle ready clean other answered
    have taken {word : Word} {d : Dev} := State.exec_gateInspectionRead (word := word) (d := d) idle ready clean other
    refine ⟨fun unheld => taken (Dev.gateReads_unheld unheld).2, fun q held => ?_⟩
    intro g low
    have gate : s.dev.gatePocket = some g := Dev.gatePocket_held held
    refine ⟨fun empty => ?_, fun here can => ?_⟩
    · rw [taken (Dev.gateReads_noCan gate empty).2, gateWord_noCan]
    · intro d e tag reject
      have tagged : e.tag.toNat = tag := e.toNat_tag
      have answer : d.firstAnswer e = reject := d.firstAnswer_eq e
      rw [taken (Dev.inspectGate_can gate here can), gateWord_can, tagged, answer]

end Sys2Proof
end

section
/-! Gate departure (R106, R107) and the report queue (R18, R171): the raise of REJECT_MISSED, the composed result, the
departure of an empty and of an occupied pocket, and what becomes of a result at a queue with room and at a full one. -/

namespace Sys2Proof.Machine

/-! ### REJECT_MISSED (R106) -/

/-- An entry's verdict is REJECT and no poll has asked for it. -/
def Entry.RejectUnpolled (e : Entry) : Prop := e.gate = none ∧ ∃ v, e.verdict = some v ∧ v.reject = true

/-- The part as it composes the departing entry's result: with REJECT_MISSED raised for an unpolled REJECT. -/
def Dev.raiseMissed (e : Entry) (d : Dev) : Dev :=
  match e.gate, e.verdict with
  | none, some v => if v.reject then d.raise .rejectMissed else d
  | _, _ => d

theorem Dev.raiseMissed_of_unpolled {e : Entry} (d : Dev) (h : e.RejectUnpolled) :
    d.raiseMissed e = d.raise .rejectMissed := by
  obtain ⟨unpolled, v, judged, reject⟩ := h
  unfold Dev.raiseMissed
  rw [unpolled, judged]
  exact if_pos reject

theorem Dev.raiseMissed_of_not_unpolled {e : Entry} (d : Dev) (h : ¬e.RejectUnpolled) : d.raiseMissed e = d := by
  unfold Dev.raiseMissed
  split
  next v unpolled judged => exact if_neg fun reject => h ⟨unpolled, v, judged, reject⟩
  next => rfl

/-- Raising a cause leaves what a departing entry's result is composed from. -/
theorem Dev.gateResult_raiseMissed (d : Dev) (e e' : Entry) : (d.raiseMissed e').gateResult e = d.gateResult e := by
  by_cases missed : e'.RejectUnpolled
  case pos =>
    obtain ⟨_, raised⟩ := d.raise_shape .rejectMissed
    rw [d.raiseMissed_of_unpolled missed, raised]
    rfl
  case neg => rw [d.raiseMissed_of_not_unpolled missed]

/-! ### The departure (R106) -/

theorem Dev.gateDeparts_empty {d : Dev} {p : Word} (empty : (d.entry p).occ = .none) :
    d.gateDeparts p = d.setEntry p (Entry.fresh (d.entry p).pocket) := if_pos empty

/-- An occupied pocket: the test, REJECT_MISSED, the result, the cleared entry, the freed record, in this order. -/
theorem Dev.gateDeparts_occupied {d : Dev} {p : Word} (occupied : (d.entry p).occ ≠ .none) :
    let t := d.testPocket p
    let e := t.entry p
    let composed := ((t.raiseMissed e).compose (t.gateResult e)).setEntry p (Entry.fresh e.pocket)
    d.gateDeparts p = match e.record with
      | none => composed
      | some r => composed.releaseRecord r := by
  intro t e
  rw [← t.gateResult_raiseMissed e e]
  exact if_neg occupied

/-! ### A full queue (R171) -/

theorem Dev.compose_full_pending (r : Result) {d : Dev} (full : 16 ≤ d.report.queue.length)
    (placed : d.setup.part ≠ .unplaced) : (d.compose r).report.pending.getLsbD Cause.resultsDropped.bit = true := by
  unfold Dev.compose
  dsimp only
  rw [if_neg (show ¬d.drawn.report.queue.length < 16 from full.not_gt)]
  exact Dev.raise_pending _ .resultsDropped placed

end Sys2Proof.Machine

namespace Sys2Proof

open Sys2Proof.Machine

/-- Settles O60: the departure by the two cases of the pocket (`Dev.gateDeparts_empty`, `Dev.gateDeparts_occupied`),
the queue by what `Dev.compose` does at one with room and at a full one (`Dev.compose_pool`). -/
theorem gateDepartureComposesTheResult : Obligations.GateDepartureComposesTheResult := by
  unfold Obligations.GateDepartureComposesTheResult
  refine ⟨fun d p empty => Dev.gateDeparts_empty empty, fun d p occupied => ?_, fun d r => ⟨?_, ?_⟩⟩
  · intro t e missed t'
    have raised : t.raiseMissed e = t' := by
      by_cases h : missed
      case pos => exact (t.raiseMissed_of_unpolled h).trans (if_pos h).symm
      case neg => exact (t.raiseMissed_of_not_unpolled h).trans (if_neg h).symm
    rw [← raised]
    exact Dev.gateDeparts_occupied occupied
  · exact (Dev.compose_pool r d).2.1
  · intro full placed
    obtain ⟨stands, counted⟩ := (Dev.compose_pool r d).2.2 full
    exact ⟨stands, counted, Dev.compose_full_pending r full placed⟩

end Sys2Proof
end

section
/-! The seven valve commands (R119, R120): the command word's decoding, its whole or partial write, and the current
recipe's limit that SET_TRIM clamps to. -/

namespace Sys2Proof.Machine

/-! ### The command word (R119) -/

/-- A valve's command word changes its record when written whole for a valve below V, and does nothing otherwise. -/
theorem Dev.takeCommandWord_eq (d : Dev) (v : Fin 64) (c : ValveCommand) (x : BitVec 16) (be : BitVec 4) :
    d.takeCommandWord v.val { data := commandWord c x, be := be } =
      if be = 15#4 ∧ v.val < d.su.valves then d.commandValve v c x.toInt else d := by
  unfold Dev.takeCommandWord
  by_cases taken : be = 15#4 ∧ v.val < d.su.valves
  case pos =>
    have whole : isFull { data := commandWord c x, be := be } = true := (isFull_iff _).2 taken.1
    obtain ⟨code, operand⟩ := commandCode_word x c.code (by cases c <;> decide)
    rw [if_pos taken, if_neg (by rw [whole]; simp [taken.2]), commandWord_eq, code, operand, valveCommandOf_code,
      Fin.ofNat_val_eq_self]
  case neg =>
    have refused : isFull { data := commandWord c x, be := be } = false ∨ d.su.valves ≤ v.val := by
      rw [← Bool.not_eq_true, isFull_iff, ← not_lt]
      exact not_and_or.1 taken
    rw [if_neg taken, if_pos refused]

/-- Counting a grant leaves what a valve command reads besides the record. -/
theorem Dev.countGrant_limits (d : Dev) : d.countGrant.su = d.su ∧ d.countGrant.trimLimit = d.trimLimit := by
  unfold Dev.countGrant
  split <;> exact ⟨rfl, rfl⟩

/-- A valve command in READY whose effect on a record is `f`. -/
theorem State.presentCommand_eq {s : State} {m : Master} {v : Fin 64} {x : BitVec 16} {be : BitVec 4} {a : MemAns}
    {c : ValveCommand} {f : ValveRec → ValveRec} (free : s.PortFree) (ready : s.Ready) (clean : a.clean)
    (effect : ∀ r : ValveRec, r.command c x.toInt (s.dev.trimLimit.getD 0) = f r) :
    s.presentCommand c m v x be a =
      s.stored m (s.dev.base + 0x600 + 4 * v.val) [{ data := BitVec.ofNat 32 (x.toNat + 65536 * c.code), be := be }]
        fun d => if be = 15#4 ∧ v.val < s.dev.su.valves then d.setValve v (f (d.valveRec v)) else d := by
  have inWindow : 0x600 + 4 * v.val < 0x700 := by omega
  have atValve : (0x600 + 4 * v.val - 0x600) / 4 = v.val := by omega
  obtain ⟨sameSetup, sameLimit⟩ := s.dev.countGrant_limits
  rw [← commandWord_eq]
  refine State.present_store (off := 0x600 + 4 * v.val) (r := ⟨0x600, 64, .command⟩) free ready clean (Nat.add_assoc ..)
    ((rowAt_window _).2.2.2.1 ⟨by omega, inWindow⟩) (by simp; omega) Nat.one_pos rfl rfl ?_ ?_
  · show (([] : List Micro), s.dev.countGrant.takeCommandWord ((0x600 + 4 * v.val - 0x600) / 4) _) = _
    rw [atValve, Dev.takeCommandWord_eq, sameSetup, Dev.commandValve, sameLimit, effect]
  · split
    · exact free.grant_up
    · exact free.grant_up

/-! ### SET_TRIM (R120) -/

/-- The limit that SET_TRIM clamps to is the current recipe's, and 0 while none is CURRENT. -/
theorem Dev.cast_trimLimit (d : Dev) : ((d.trimLimit.getD 0 : Nat) : Int) = match d.slotIn .current with
    | none => 0
    | some k => (d.recipeOf k).trimLimit := by
  unfold Dev.trimLimit Dev.currentRecipe Dev.currentSlot
  cases d.slotIn .current <;> rfl

theorem ValveRec.command_setTrim (r : ValveRec) (operand : Int) (limit : Nat) : r.command .setTrim operand limit =
    { r with trim := max (-(limit : Int)) (min limit operand), epoch := r.epoch + 1, atLimit := 0 } := by
  rw [← clampInt_eq_max_min (by omega)]
  rfl

end Sys2Proof.Machine

namespace Sys2Proof

open Sys2Proof.Machine

/-- Settles O43: the seven commands are one transaction (`State.presentCommand_eq`), each with its row of the table of
R120. -/
theorem valveCommandsChangeTheirRecord : Obligations.ValveCommandsChangeTheirRecord := by
  unfold Obligations.ValveCommandsChangeTheirRecord
  intro s m v x be a free ready clean done limit
  have command (c : ValveCommand) {f : ValveRec → ValveRec}
      (effect : ∀ r : ValveRec, r.command c x.toInt (s.dev.trimLimit.getD 0) = f r) :
      (Host.Outcome.next (s.presentCommand c m v x be a) : Host.Outcome State Fault Refusal) =
        .next (done c.code f) :=
    congrArg Host.Outcome.next (State.presentCommand_eq free ready clean effect)
  have limited : ((s.dev.trimLimit.getD 0 : Nat) : Int) = limit := s.dev.cast_trimLimit
  have clamped (r : ValveRec) : r.command .setTrim x.toInt (s.dev.trimLimit.getD 0) =
      { r with trim := max (-limit) (min limit x.toInt), epoch := r.epoch + 1, atLimit := 0 } := by
    rw [ValveRec.command_setTrim, limited]
  refine ⟨command .armTest fun _ => rfl, command .disarmTest fun _ => rfl, command .suspend fun _ => rfl,
    command .resume fun _ => rfl, command .zeroTrim fun _ => rfl, command .setTrim clamped,
    command .clearStats fun _ => rfl⟩

end Sys2Proof
end

section
/-! Hand-overs from judgement (R111 to R117): the four steps in their own terms. -/

namespace Sys2Proof.Machine

/-! ### Statistics and runs (R112 to R114) -/

theorem joinRecent_eq (xs : List Int) (x : Int) : joinRecent xs x =
    (if xs.length < 16 then xs else xs.drop 1) ++ [max (-2147483648) (min 2147483647 x)] := by
  rw [← clampInt_eq_max_min (by omega)]
  rfl

/-- The statistics, and the runs by the side of the band the deviation falls on. -/
theorem ValveRec.noteWeight_eq (r : ValveRec) (net deviation : Int) (band : Nat) : r.noteWeight net deviation band =
    { r with
      confirmed := r.confirmed + 1
      lastNet := some net
      recent := (if r.recent.length < 16 then r.recent else r.recent.drop 1) ++
        [max (-2147483648) (min 2147483647 deviation)]
      outlier := if band < deviation.natAbs then min 65535 (r.outlier + 1) else 0
      good := if band < deviation.natAbs then 0 else min 65535 (r.good + 1) } := by
  rw [← joinRecent_eq, ← satSucc_eq_min, ← satSucc_eq_min]
  unfold ValveRec.noteWeight
  by_cases far : band < deviation.natAbs
  case pos => simp only [if_pos far]; rfl
  case neg => simp only [if_neg far]; rfl

/-! ### The trim update (R115, R116) -/

theorem endsAtLimit_iff (computed : Int) (limit : Nat) :
    endsAtLimit computed limit = true ↔ computed ≠ 0 ∧ ((limit : Int) ≤ computed ∨ computed ≤ -(limit : Int)) := by
  simp [endsAtLimit]

theorem ValveRec.updateTrim_eq (r : ValveRec) (computed : Int) (limit : Nat) : r.updateTrim computed limit =
    { r with
      trim := max (-(limit : Int)) (min limit computed)
      atLimit := if computed ≠ 0 ∧ ((limit : Int) ≤ computed ∨ computed ≤ -(limit : Int)) then
        min 65535 (r.atLimit + 1) else 0 } := by
  have counted : (if endsAtLimit computed limit then satSucc 65535 r.atLimit else 0) = _ :=
    if_congr (endsAtLimit_iff computed limit) rfl rfl
  rw [← clampInt_eq_max_min (by omega), ← satSucc_eq_min, ← counted]
  rfl

/-- The conditions of R115 for a hand-over that has come to its third step. -/
theorem Dev.trimAllowed_iff {d : Dev} {r : ValveRec} {h : HandOver} (confirmed : h.ident = .confirmed)
    (sound : h.weighFault = false) : d.trimAllowed r h = true ↔
      h.test = false ∧ d.slotIn .current = some h.recipe ∧ d.setup.trimApply = true ∧ r.st ≠ .suspended ∧
        h.epoch = r.epoch := by
  simp [Dev.trimAllowed, Dev.currentSlot, confirmed, sound, and_assoc]

/-! ### The state test (R117) -/

theorem ValveRec.sameRuns_iff (a b : ValveRec) :
    a.sameRuns b = true ↔ b.outlier = a.outlier ∧ b.good = a.good ∧ b.atLimit = a.atLimit := by
  unfold ValveRec.sameRuns
  rw [Bool.and_eq_true, Bool.and_eq_true, beq_iff_eq, beq_iff_eq, beq_iff_eq, and_assoc, eq_comm (a := a.outlier),
    eq_comm (a := a.good), eq_comm (a := a.atLimit)]

theorem ValveRec.testState_of_suspended {r : ValveRec} (c : Recipe) (suspended : r.st = .suspended) :
    r.testState c = (r, none) := by
  unfold ValveRec.testState
  rw [suspended]

theorem ValveRec.testState_of_not_suspended {r : ValveRec} (c : Recipe) (available : r.st ≠ .suspended) :
    r.testState c =
      if c.autoSuspend = true ∧ c.suspendCount ≤ r.outlier then
        ({ r with st := .suspended, cause := some .auto }, some .valveSuspended)
      else if r.st = .inService ∧ (c.watchCount ≤ r.outlier ∨ 8 ≤ r.atLimit) then
        ({ r with st := .watch }, some .valveWatch)
      else if r.st = .watch ∧ c.watchCount ≤ r.good then
        ({ r with st := .inService, good := 0, atLimit := 0 }, none)
      else (r, none) := by
  unfold ValveRec.testState
  split
  next suspended => exact absurd suspended available
  next => rfl

/-- A record put in place with the cause, if any, that its state test raises. -/
def Dev.setTested (v : Fin 64) (x : ValveRec × Option Cause) (d : Dev) : Dev :=
  match x.2 with
  | none => d.setValve v x.1
  | some c => (d.setValve v x.1).raise c

/-- The state test of R117, case by case. -/
theorem Dev.setTested_testState (v : Fin 64) (r : ValveRec) (c : Recipe) (d : Dev) :
    d.setTested v (r.testState c) =
      if r.st = .suspended then d.setValve v r
      else if c.autoSuspend = true ∧ c.suspendCount ≤ r.outlier then
        Dev.raise .valveSuspended (d.setValve v { r with st := .suspended, cause := some .auto })
      else if r.st = .inService ∧ (c.watchCount ≤ r.outlier ∨ 8 ≤ r.atLimit) then
        Dev.raise .valveWatch (d.setValve v { r with st := .watch })
      else if r.st = .watch ∧ c.watchCount ≤ r.good then
        d.setValve v { r with st := .inService, good := 0, atLimit := 0 }
      else d.setValve v r := by
  by_cases suspended : r.st = .suspended
  case pos =>
    rw [if_pos suspended, ValveRec.testState_of_suspended c suspended]
    rfl
  case neg =>
    rw [if_neg suspended, ValveRec.testState_of_not_suspended c suspended, apply_ite (Dev.setTested v · d),
      apply_ite (Dev.setTested v · d), apply_ite (Dev.setTested v · d)]
    rfl

/-! ### The hand-over (R111) -/

/-- The record after the third step: the weighed record, trimmed under the conditions of R115. -/
def Dev.trimmed (v : Fin 64) (h : HandOver) (d : Dev) : ValveRec :=
  let c := d.recipeOf h.recipe
  let r := ((d.valveRec v).noteVerdict h.reject).noteWeight h.net h.deviation c.outlierBand
  if d.trimAllowed r h then r.updateTrim (computedTrim h.trim h.deviation c.gain) c.trimLimit else r

theorem Dev.handOver_unweighed {d : Dev} {h : HandOver} (v : Fin 64)
    (out : h.ident ≠ .confirmed ∨ h.weighFault = true) :
    d.handOver v h = d.setValve v ((d.valveRec v).noteVerdict h.reject) := by
  refine if_neg ?_
  rintro ⟨confirmed, sound⟩
  cases out with
  | inl other => exact other confirmed
  | inr fault => exact Bool.false_ne_true (sound.symm.trans fault)

/-- The fourth step: the state is tested if a run changed. -/
theorem Dev.handOver_weighed {d : Dev} {h : HandOver} (v : Fin 64) (confirmed : h.ident = .confirmed)
    (sound : h.weighFault = false) : d.handOver v h =
      if (d.valveRec v).sameRuns (d.trimmed v h) then d.setValve v (d.trimmed v h)
      else d.setTested v ((d.trimmed v h).testState (d.recipeOf h.recipe)) := by
  have taken : d.handOver v h =
      d.setTested v (if (d.valveRec v).sameRuns (d.trimmed v h) then (d.trimmed v h, none)
        else (d.trimmed v h).testState (d.recipeOf h.recipe)) := if_pos ⟨confirmed, sound⟩
  rw [taken, apply_ite (Dev.setTested v · d)]
  rfl

end Sys2Proof.Machine

namespace Sys2Proof

open Sys2Proof.Machine

/-- Settles O44, step by step: the record of the first three steps is `Dev.trimmed`, and its state is the old one, so
that the fourth is `Dev.setTested_testState` at the old state. -/
theorem handOverTakesFourSteps : Obligations.HandOverTakesFourSteps := by
  unfold Obligations.HandOverTakesFourSteps
  intro d v h c old noted
  refine ⟨Dev.handOver_unweighed v, fun confirmed sound => ?_⟩
  intro far weighed limit computed r
  have weighing : (old.noteVerdict h.reject).noteWeight h.net h.deviation c.outlierBand = weighed :=
    ValveRec.noteWeight_eq ..
  have trimming : d.trimmed v h = r := by
    unfold Dev.trimmed
    dsimp only
    rw [weighing, ValveRec.updateTrim_eq]
    exact if_congr (Dev.trimAllowed_iff confirmed sound) rfl rfl
  have sameState : r.st = old.st := by
    show (if _ then _ else _ : ValveRec).st = _
    split <;> rfl
  rw [Dev.handOver_weighed v confirmed sound, trimming, Dev.setTested_testState, sameState]
  exact if_congr (ValveRec.sameRuns_iff ..) rfl rfl

end Sys2Proof
end

section
/-! QUERY_READ (R126): the transaction served, the words it is answered with, and the condition word (R122) bit by
bit. -/

namespace Sys2Proof.Machine

/-! ### The condition word (R122) -/

theorem ValveState.code_lt (st : ValveState) : st.code < 3 := by cases st <;> decide

/-- The two bits of a trim at the limit, as tests of the limit if a recipe is CURRENT. -/
theorem conditionWord_eq (r : ValveRec) (limit : Option Nat) (idle : Bool) : conditionWord r limit idle =
    BitVec.ofNat 16 (r.st.code + putBit r.arm 2 +
      putBit (limit.any fun l : Nat => decide (0 < l ∧ r.trim = (l : Int))) 3 +
      putBit (limit.any fun l : Nat => decide (0 < l ∧ r.trim = -(l : Int))) 4 +
      putBit (decide (1 ≤ r.outlier)) 5 + putBit (r.lastVerdict == some true) 6 + putBit (r.recent.length == 16) 7 +
      putBit (r.st == .suspended && r.cause == some .auto) 8 + putBit idle 9) := by
  cases limit <;> rfl

/-- A condition word bit by bit. -/
theorem conditionWord_bits (r : ValveRec) (limit : Option Nat) (idle : Bool) :
    let w := conditionWord r limit idle
    (w.getLsbD 0 = true ↔ r.st = .watch) ∧ (w.getLsbD 1 = true ↔ r.st = .suspended) ∧ w.getLsbD 2 = r.arm ∧
    (w.getLsbD 3 = true ↔ ∃ l, limit = some l ∧ 0 < l ∧ r.trim = l) ∧
    (w.getLsbD 4 = true ↔ ∃ l, limit = some l ∧ 0 < l ∧ r.trim = -l) ∧
    (w.getLsbD 5 = true ↔ 1 ≤ r.outlier) ∧ (w.getLsbD 6 = true ↔ r.lastVerdict = some true) ∧
    (w.getLsbD 7 = true ↔ r.recent.length = 16) ∧ (w.getLsbD 8 = true ↔ r.st = .suspended ∧ r.cause = some .auto) ∧
    w.getLsbD 9 = idle ∧ ∀ b, 10 ≤ b → w.getLsbD b = false := by
  intro w
  have bits := condition_bits ⟨r.st.code, r.st.code_lt⟩ r.arm
    (limit.any fun l : Nat => decide (0 < l ∧ r.trim = (l : Int)))
    (limit.any fun l : Nat => decide (0 < l ∧ r.trim = -(l : Int)))
    (decide (1 ≤ r.outlier)) (r.lastVerdict == some true) (r.recent.length == 16)
    (r.st == .suspended && r.cause == some .auto) idle
  rw [← conditionWord_eq r limit idle] at bits
  obtain ⟨watch, suspended, arm, atHigh, atLow, outlier, verdict, full, auto, idleBit, above⟩ := bits
  refine ⟨?_, ?_, arm, ?_, ?_, ?_, ?_, ?_, ?_, idleBit, fun b high => ?_⟩
  · rw [watch]; cases r.st <;> decide
  · rw [suspended]; cases r.st <;> decide
  · rw [atHigh]; cases limit <;> simp
  · rw [atLow]; cases limit <;> simp
  · rw [outlier, decide_eq_true_eq]
  · rw [verdict, beq_iff_eq]
  · rw [full, beq_iff_eq]
  · rw [auto, Bool.and_eq_true, beq_iff_eq, beq_iff_eq]
  · by_cases inWord : b < 16
    case pos =>
      have bit := above ⟨b - 10, by omega⟩
      rwa [show 10 + (b - 10) = b by omega] at bit
    case neg => exact BitVec.getLsbD_of_ge _ _ (by omega)

theorem Dev.trimLimit_eq (d : Dev) : d.trimLimit = (d.slotIn .current).map fun k => (d.recipeOf k).trimLimit :=
  Option.map_map ..

theorem Dev.idleValve_iff (d : Dev) (v : Nat) (nominal : Word) :
    d.idleValve v nominal = true ↔ d.su.valves ≤ v ∨ nominal = 0 := by
  simp [Dev.idleValve]

/-! ### The words of a query (R126) -/

/-- The fetched nominals are memory's, for the valves from `first` up to `last`. -/
def State.Fetched (noms : List (Nat × Word)) (first last : Nat) (s : State) : Prop :=
  ∀ v, first ≤ v → v < last → noms.lookup v = some (Memory.readWord s.mem (s.dev.nomAddr v))

/-- Valve `v` is below V, and its condition word, with its nominal in memory, agrees with QUERY_REF wherever
QUERY_CARE is 1. -/
def State.Agrees (s : State) (v : Nat) : Prop :=
  v < s.dev.su.valves ∧ ∀ b < 16, s.dev.valve.queryCare.getLsbD b = true →
    (s.dev.conditionOf (Fin.ofNat 64 v) (Memory.readWord s.mem (s.dev.nomAddr v))).getLsbD b =
      s.dev.valve.queryRef.getLsbD b

section
variable {s : State} {noms : List (Nat × Word)} {first last : Nat}

/-- A valve matches exactly when it agrees, its nominal being fetched if it is below V. -/
theorem State.Fetched.queryMatches_iff (fetched : s.Fetched noms first (min s.dev.su.valves last)) {v : Nat}
    (start : first ≤ v) (stop : v < last) : s.dev.queryMatches noms v = true ↔ s.Agrees v := by
  unfold Dev.queryMatches State.Agrees
  rw [Bool.and_eq_true, decide_eq_true_eq, decide_eq_true_eq]
  refine and_congr_right fun below => ?_
  have nominal : s.dev.fetchedNominal noms v = Memory.readWord s.mem (s.dev.nomAddr v) := by
    unfold Dev.fetchedNominal
    rw [if_neg below.not_ge, fetched v start (lt_min below stop)]
    rfl
  rw [masked_eq_zero_iff, nominal]

theorem Dev.queryWords_length (d : Dev) (noms : List (Nat × Word)) (hi : Bool) (n : Nat) :
    (d.queryWords noms hi n).length = n := by
  simp [Dev.queryWords]

theorem Dev.queryWords_getD (d : Dev) (noms : List (Nat × Word)) (hi : Bool) {n k : Nat} (h : k < n) :
    (d.queryWords noms hi n).getD k 0 = d.queryWord noms (if hi then 32 else 32 * k) := by
  simp [Dev.queryWords, h]

/-- Bit by bit, a query word from valve `v` on shows the valves that agree. -/
theorem State.Fetched.queryWord_iff (fetched : s.Fetched noms first (min s.dev.su.valves last)) {v b : Nat}
    (start : first ≤ v) (stop : v + 32 ≤ last) (inWord : b < 32) :
    (s.dev.queryWord noms v).getLsbD b = true ↔ s.Agrees (v + b) := by
  rw [Dev.queryWord_bit _ _ _ _ inWord]
  exact fetched.queryMatches_iff (by omega) (by omega)

end

/-! ### The transaction -/

/-- The nominals that bursts, each a first valve and a number of words, bring from memory. -/
def State.burstNominals (s : State) (bursts : List (Nat × Nat)) : List (Nat × Word) :=
  (bursts.flatMap fun b => (List.range b.2).map fun k => b.1 + k).map fun v =>
    (v, Memory.readWord s.mem (s.dev.nomAddr v))

section
variable {s : State}

theorem State.fetched_burstNominals (s : State) {first last : Nat} (reach : last ≤ first + 8 * 8) :
    s.Fetched (s.burstNominals (nominalBursts 8 first last)) first last := fun v start stop =>
  lookup_map_mem _ _ v (nominalBursts_cover 8 first last v start stop reach)

/-- Nominals gathered burst by burst. -/
theorem State.foldl_burstNominals (s : State) (bursts : List (Nat × Nat)) (c : Ctx) :
    bursts.foldl (fun c b => { c with noms := c.noms ++ (List.range b.2).map fun k =>
        (b.1 + k, wordAt (Memory.readWords s.mem (s.dev.nomAddr b.1) b.2) k) }) c =
      { c with noms := c.noms ++ s.burstNominals bursts } := by
  refine foldl_gather_bursts bursts (fun v => Memory.readWord s.mem (s.dev.nomAddr v)) _ (fun b k inBurst => ?_) c
  rw [wordAt_readWords _ _ _ _ inBurst]
  unfold Dev.nomAddr
  rw [Nat.mul_add, Nat.add_assoc]

/-- The work of a query read: the fetches one after another, then the answer. -/
theorem State.serve_queryFetches (quiet : s.Quiet) (t : Txn) (hi : Bool) (n : Nat) {bursts : List (Nat × Nat)}
    (few : bursts.length ≤ 8) (seq : Word) :
    State.serve 1023 1024 (s.portsClear.holding t
        (some (bursts.map (fun b => Micro.queryFetch b.1 b.2) ++ [.queryEnd hi n])) (Ctx.init seq)) =
      State.served t.master (bursts.map fun b => .read (s.dev.nomAddr b.1) b.2)
        (.okay (s.dev.queryWords (s.burstNominals bursts) hi n)) s := by
  obtain ⟨pieces, enough⟩ : ∃ k, 1023 = k + 2 + bursts.length := ⟨1021 - bursts.length, by omega⟩
  obtain ⟨grants, granted⟩ : ∃ k, 1024 = k + bursts.length := ⟨1024 - bursts.length, by omega⟩
  have idle : s.portsClear.Quiet := ⟨quiet.upstream, quiet.port, quiet.bursts, quiet.request⟩
  have fetches := State.serve_reads t [.queryEnd hi n] (fun b : Nat × Nat => Micro.queryFetch b.1 b.2)
    (fun b => s.dev.nomAddr b.1) (fun b => b.2)
    (fun c b ws => { c with noms := c.noms ++ (List.range b.2).map fun k => (b.1 + k, wordAt ws k) })
    s.dev (fun _ _ => rfl) (fun _ _ _ _ => rfl) bursts (Ctx.init seq) (pieces + 2) grants s.portsClear rfl idle
  rw [enough, granted, fetches, State.portsClear_mem, s.foldl_burstNominals]
  rw [State.serve_last (d' := s.dev) _ _ rfl rfl quiet.upstream, Dev.settle_quiet quiet.request]
  rfl

/-- A read of the query window in READY, from its word `i` on. -/
theorem State.present_query {m : Master} {a : MemAns} {hi : Bool} {i n : Nat} (quiet : s.Quiet) (ready : s.Ready)
    (clean : a.clean) (half : decide (i = 1) = hi) (nonempty : 1 ≤ n) (inside : i + n ≤ 2) :
    s.presentRead m 0x148 i n a =
      State.serve 1023 1024 (s.portsClear.holding (.read m (s.dev.windowAddr 0x148 i) n)
        (some (s.dev.queryWork hi n)) (Ctx.init s.dev.fill.seq)) := by
  have row : rowAt (0x148 + 4 * i) = some ⟨0x148, 2, .queryMatch⟩ :=
    rowAt_of_mem (by decide) (by simp) (by simp; omega)
  have fits : 0x148 + 4 * i + 4 * n ≤ 0x148 + 4 * 2 := by omega
  have address : s.dev.windowAddr 0x148 i = s.dev.base + (0x148 + 4 * i) := Nat.add_assoc ..
  have accepted : s.dev.refuses (.read m (s.dev.windowAddr 0x148 i) n) = false :=
    Dev.accepted (t := .read m _ n) ready.2 address row fits rfl
  have work : s.dev.workOf (.read m (s.dev.windowAddr 0x148 i) n) = s.dev.queryWork hi n := by
    rw [Dev.workOf_read ready.1 address row fits nonempty, ← half]
    show s.dev.queryWork (decide ((0x148 + 4 * i - 0x148) / 4 = 1)) n = _
    rw [show (0x148 + 4 * i - 0x148) / 4 = i by omega]
  rw [← work]
  exact State.present_accepted quiet.upstream clean accepted

/-- QUERY_READ in READY, of words that lie in the window. -/
theorem State.exec_queryRead {m : Master} {a : MemAns} {hi : Bool} {n : Nat} (quiet : s.Quiet) (ready : s.Ready)
    (clean : a.clean) (nonempty : 1 ≤ n) (inside : (if hi then 1 else 0) + n ≤ 2) :
    ∃ xs noms, exec (.queryRead m hi n a) s = .next (State.served m xs (.okay (s.dev.queryWords noms hi n)) s) ∧
      s.Fetched noms (if hi then 32 else 0) (min s.dev.su.valves ((if hi then 32 else 0) + 32 * n)) := by
  have presented : exec (.queryRead m hi n a) s = .next (s.presentRead m 0x148 (if hi then 1 else 0) n a) :=
    if_pos (lengthOk_of_le nonempty (by omega))
  have worked := State.present_query (m := m) (hi := hi) quiet ready clean (by cases hi <;> rfl) nonempty inside
  have answered := State.serve_queryFetches quiet (.read m (s.dev.windowAddr 0x148 (if hi then 1 else 0)) n) hi n
    (nominalBursts_length 8 (if hi then 32 else 0) (min s.dev.su.valves ((if hi then 32 else 0) + 32 * n)))
    s.dev.fill.seq
  exact ⟨_, _, presented.trans (congrArg Host.Outcome.next (worked.trans answered)), s.fetched_burstNominals (by omega)⟩

end

end Sys2Proof.Machine

namespace Sys2Proof

open Sys2Proof.Machine

/-- Settles O46: QUERY_READ's answer is `State.exec_queryRead`, each of its words `State.Fetched.queryWord_iff`, and
the condition word `conditionWord_bits`. -/
theorem queryReadShowsTheMatches : Obligations.QueryReadShowsTheMatches := by
  unfold Obligations.QueryReadShowsTheMatches
  constructor
  case left =>
    intro s m n a quiet ready clean nonempty two agrees
    constructor
    · obtain ⟨xs, noms, read, fetched⟩ :=
        State.exec_queryRead (m := m) (hi := false) quiet ready clean nonempty (by simpa)
      refine ⟨xs, _, read, Dev.queryWords_length .., fun k inRead b inWord => ?_⟩
      rw [Dev.queryWords_getD _ _ _ inRead]
      exact fetched.queryWord_iff (Nat.zero_le _) (by simp; omega) inWord
    · obtain ⟨xs, noms, read, fetched⟩ := State.exec_queryRead (m := m) (hi := true) quiet ready clean le_rfl le_rfl
      exact ⟨xs, _, read, fun b inWord => fetched.queryWord_iff le_rfl le_rfl inWord⟩
  case right =>
    intro d v nominal r w limit
    obtain ⟨watch, suspended, arm, high, low, outlier, verdict, full, auto, idle, rest⟩ :=
      conditionWord_bits r d.trimLimit (d.idleValve v.val nominal)
    rw [show limit = d.trimLimit from d.trimLimit_eq.symm]
    refine ⟨watch, suspended, arm, high, low, outlier, verdict, full, auto, ?_, rest⟩
    rw [← Dev.idleValve_iff, ← idle]
    rfl

end Sys2Proof
end

section
/-! What every command can do, said once: a malformed one is refused and every other answers a next state, and that state
keeps the invariant, the laws of the device and the orders of the track. -/

namespace Sys2Proof.Machine

/-! ### Refused or answered (log 29) -/

/-- Whatever a command answers, it is refused exactly when it is malformed. -/
theorem exec_eq_whenOk (c : Instr) (s : State) : ∃ t, exec c s = whenOk c.wellFormed t := by
  cases c with
  | lineReset up ok =>
    by_cases asserted : s.dev.path.lrst = true
    · exact ⟨s, if_pos asserted⟩
    · by_cases unplaced : s.dev.setup.part = .unplaced
      · exact ⟨_, (if_neg asserted).trans (if_pos unplaced)⟩
      · exact ⟨_, (if_neg asserted).trans (if_neg unplaced)⟩
  | _ => exact ⟨_, rfl⟩

/-! ### What a next state keeps -/

/-- What every next state keeps: the invariant, and the laws of the device with the orders of the track, the records
growing older by at most one step's numbers. -/
structure StepKeeps (s t : State) : Prop where
  inv  : s.Inv → t.Inv
  laws : Kept stepNumbers s.dev t.dev

section
variable {s : State}

theorem StepKeeps.refl (s : State) : StepKeeps s s := ⟨id, (Kept.same rfl).mono (Nat.zero_le _)⟩

/-- What the ports gave out is no part of what is kept. -/
theorem StepKeeps.ports {d : Dev} {m : List Host.Cell} {xs : List Answer} {ys : List OwnedAccess}
    (wf : Memory.wf s.mem = true → Memory.wf m = true) (inv : s.Inv → ({ s with dev := d } : State).Inv)
    (l : Kept stepNumbers s.dev d) : StepKeeps s { s with mem := m, answers := xs, downstream := ys, dev := d } :=
  ⟨fun h => ((inv h).withMem (wf h.memory)).ports xs ys, l⟩

/-- A block's operation on the part. -/
theorem StepKeeps.block {d : Dev} (k : BlockStep s.dev d) (l : Kept 0 s.dev d) : StepKeeps s { s with dev := d } :=
  ⟨fun h => h.block k, l.mono (Nat.zero_le _)⟩

/-- A block's operation, after which the status writes it requested are met. -/
theorem StepKeeps.settled {d : Dev} (k : BlockStep s.dev d) (l : Kept 0 s.dev d) :
    StepKeeps s { s with dev := d.settle } :=
  .block (Dev.settle_block k) (l.thenSame d.settle_view)

/-- A service command. -/
theorem StepKeeps.service (op : Nat) (f : ServiceOrder → ServiceEntry → Dev → Dev)
    (k : ∀ (a d : Dev) o e, BlockStep a d → BlockStep a (f o e d)) (l : ∀ o e, Kept 0 s.dev (f o e s.dev)) :
    StepKeeps s { s with dev := s.dev.service op f } :=
  .block (Dev.service_block (.refl _) op f fun o e _ h => k _ _ o e h) (Kept.service op f l)

theorem StepKeeps.present (t : Txn) (a : MemAns) : StepKeeps s (s.present t a) :=
  ⟨fun h => h.present t a, Kept.present t a⟩

theorem StepKeeps.answered (op : InternalOp) (ok : Bool) (f : BurstAnswer → Dev → Dev)
    (k : ∀ (a d : Dev) x, BlockStep a d → BlockStep a (f x d)) (l : ∀ x d, Kept 0 d (f x d)) :
    StepKeeps s (s.answered op ok f) :=
  ⟨fun h => h.answered op ok f fun x _ => k _ _ x (.refl _), (Kept.answered op ok f l).mono (Nat.zero_le _)⟩

theorem StepKeeps.powerOnReset {cabase memsize : Nat} (ok : Bool) (cabaseOk : cabase < 16) (memsizeOk : memsize < 8) :
    StepKeeps s { s with
      mem := s.portLands ok, answers := [], downstream := []
      dev := { Dev.powerOn cabase memsize s.dev.path.lrst (s.dev.path.upstream.drop 1) with draws := s.dev.draws } } := by
  have part : (if placed cabase memsize = true then PartState.unloaded else .unplaced) = .unplaced ↔
      placed cabase memsize = false := by
    cases placed cabase memsize <;> simp
  refine ⟨fun h => ⟨?_, ⟨cabaseOk, memsizeOk⟩, Nat.zero_le _, Nat.zero_le _, part, fun unplaced => ⟨rfl, ?_, rfl⟩⟩,
    (Kept.powerOn cabase memsize s.dev.path.lrst s.dev.draws).mono (Nat.zero_le _)⟩
  · show Memory.wf (s.portLands ok) = true
    unfold State.portLands
    split
    · exact h.memory
    · exact Burst.land_wf h.memory _ ok
  · exact if_neg (by simp [part.1 unplaced])

/-- Memory after a line reset: the access on the port, if any, has landed. -/
theorem State.resetLands_wf {up : UpAccess} {ok : Bool} (h : Memory.wf s.mem = true) :
    Memory.wf (s.resetLands up ok) = true := by
  have land : ∀ (xs : List OwnedAccess) (m : List Host.Cell), Memory.wf m = true →
      Memory.wf (xs.foldl (fun m x => x.access.land m) m) = true := by
    intro xs
    induction xs with
    | nil => exact fun _ hm => hm
    | cons x xs ih => exact fun m hm => ih _ (Access.land_wf hm x.access)
  unfold State.resetLands State.portLands
  split
  · split
    · exact h
    · exact Burst.land_wf h _ ok
  · split
    · exact land _ _ h
    · exact h

/-- Nothing of an UNPLACED part's own is on its way after a line reset, for the part has become UNLOADED. -/
theorem State.Inv.lineReset (h : s.Inv) (placed : s.dev.setup.part ≠ .unplaced) :
    ({ s with dev := s.dev.lineReset } : State).Inv :=
  have unloaded : s.dev.lineReset.setup.part ≠ .unplaced := fun c => nomatch c
  ⟨h.memory, h.straps, Nat.zero_le _, h.queue,
    ⟨fun c => absurd c unloaded, fun c => absurd (h.placed.2 c) placed⟩, fun c => absurd c unloaded⟩

/-- The part as the reset found it, reset, keeps the invariant. -/
theorem State.Inv.reset {up : UpAccess} {ok : Bool} (placed : s.dev.setup.part ≠ .unplaced) (h : s.Inv) :
    ({ s with dev := Dev.drainAll (s.resetFinds up ok).lineReset } : State).Inv := by
  have found : (s.resetFinds up ok).setup.part ≠ .unplaced := fun c => placed ((s.resetFinds_held up ok).placed.1 c)
  exact State.Inv.block (s := { s with dev := (s.resetFinds up ok).lineReset })
    (State.Inv.lineReset (h.resetFinds up ok) found) (Dev.drainAll_block (.refl _))

theorem Kept.reset (up : UpAccess) (ok : Bool) :
    Kept stepNumbers s.dev (Dev.drainAll (s.resetFinds up ok).lineReset) := by
  have k := (Kept.resetFinds (s := s) up ok).trans Kept.lineReset
  rw [Nat.add_zero] at k
  exact k

theorem StepKeeps.lineReset {up : UpAccess} {ok : Bool} (placed : s.dev.setup.part ≠ .unplaced) :
    StepKeeps s { s with mem := s.resetLands up ok, answers := [], downstream := s.resetIssued up
                         dev := Dev.drainAll (s.resetFinds up ok).lineReset } :=
  .ports State.resetLands_wf (State.Inv.reset placed) (Kept.reset up ok)

/-- The level of LRST is no part of the invariant or the laws. -/
theorem StepKeeps.setLrst (b : Bool) : StepKeeps s { s with dev := s.dev.setLrst b } :=
  have same : Kept 0 s.dev (s.dev.setLrst b) := Kept.same rfl
  ⟨fun h => h.path rfl rfl h.wait fun x => (h.silent x).2, same.mono (Nat.zero_le _)⟩

theorem StepKeeps.then_settle {t : State} (k : StepKeeps s t) : StepKeeps s { t with dev := t.dev.settle } :=
  ⟨fun h => (k.inv h).block (Dev.settle_block (.refl _)), k.laws.thenSame t.dev.settle_view⟩

/-- A timer's count is no part of the invariant or the laws. -/
theorem Dev.countTimers_block (d : Dev) : BlockStep d d.countTimers := ⟨rfl, rfl, rfl, rfl, rfl, id, Iff.rfl, fun _ h => h⟩

/-- A millisecond is a block's operation. -/
theorem Dev.tick_block (d : Dev) : BlockStep d d.tick := by
  unfold Dev.tick
  dsimp only
  have expiry : ∀ (c : Bool) (x y : Dev), BlockStep d x → BlockStep x y → BlockStep d (if c = true then y else x) :=
    fun c x y hx hy => .either (fun _ => hx.trans hy) fun _ => hx
  refine Dev.settle_block (expiry _ _ _ (expiry _ _ _ (expiry _ _ _ (expiry _ _ _ (expiry _ _ _ d.countTimers_block ?_) ?_) ?_) ?_) ?_)
  · exact Dev.stallExpired_block (.refl _)
  · exact Dev.stopExpired_block (.refl _)
  · exact Dev.silenceExpired_block (.refl _)
  · exact Dev.ageExpired_block (.refl _)
  · exact Dev.rereadExpired_block (.refl _)

end

/-- The next state of a command refused or answered by its well-formedness. -/
theorem whenOk_next {b : Bool} {t u : State} (h : whenOk b t = .next u) : b = true ∧ t = u := by
  cases b with
  | false => cases h
  | true => exact ⟨rfl, by injection h⟩

theorem StepKeeps.whenOk_next {s t u : State} {b : Bool} (k : b = true → StepKeeps s t) (h : whenOk b t = .next u) :
    StepKeeps s u := by
  obtain ⟨hb, rfl⟩ := Machine.whenOk_next h
  exact k hb

/-- Whatever next state a command answers keeps what every step keeps. -/
theorem exec_keeps {c : Instr} {s t : State} (h : exec c s = .next t) : StepKeeps s t := by
  have bus {x : Txn} {a : MemAns} {b : Bool} (h : whenOk b (s.present x a) = .next t) : StepKeeps s t :=
    .whenOk_next (fun _ => .present x a) h
  have done {u : State} (k : StepKeeps s u) (h : whenOk true u = .next t) : StepKeeps s t := .whenOk_next (fun _ => k) h
  cases c with
  | powerOnReset cabase memsize ok =>
    refine StepKeeps.whenOk_next (fun legal => ?_) h
    rw [Bool.and_eq_true, decide_eq_true_eq, decide_eq_true_eq] at legal
    exact .powerOnReset ok legal.1 legal.2
  | lineReset up ok =>
    change execLineReset up ok s = _ at h
    unfold execLineReset at h
    split at h
    case isTrue => exact done (.refl s) h
    case isFalse =>
      split at h
      case isTrue => exact done (.setLrst true) h
      case isFalse placed => exact done (.lineReset placed) h
  | lineResetRelease => exact done (StepKeeps.setLrst false).then_settle h
  | loadCompletion ok =>
    exact done (.answered _ _ _ (fun _ _ x k => Dev.setupAnswered_block k x.ok x.data)
      fun x _ => Kept.setupAnswered x.ok x.data) h
  | orderAFetchDone ok =>
    exact done (.answered _ _ _ (fun _ _ x k => Dev.fetchAAnswered_block k x.addr x.ok x.data)
      fun x _ => Kept.fetchAAnswered x.addr x.ok x.data) h
  | recipeLoadStart => exact done (.settled (Dev.startLoad_block (.refl _)) Kept.startLoad) h
  | recipeLoadDone ok =>
    exact done (.answered _ _ _ (fun _ _ x k => Dev.recipeAnswered_block k x.addr x.ok x.data)
      fun x _ => Kept.recipeAnswered x.addr x.ok x.data) h
  | orderWordWriteDone ok =>
    exact done (.answered _ _ _ (fun _ _ x k => Dev.orderWordAnswered_block k x.addr x.ok)
      fun x d => Kept.same (d.orderWordAnswered_view x.addr x.ok)) h
  | orderBFetchDone ok =>
    exact done (.answered _ _ _ (fun _ _ x k => Dev.fetchBAnswered_block k x.addr x.ok x.data)
      fun x d => Kept.same (d.fetchBAnswered_view x.addr x.ok x.data)) h
  | setSpan =>
    exact done (.service _ _ (fun _ _ o e k => Dev.setSpan_block k o e) fun o e => Kept.same (s.dev.setSpan_view o e)) h
  | zeroCapture =>
    exact done (.service _ _ (fun _ _ o e k => Dev.zeroCapture_block k o e)
      fun o e => Kept.same (s.dev.zeroCapture_view o e)) h
  | clearTrack =>
    exact done (.service _ _ (fun _ _ o e k => Dev.clearTrack_block k o e) fun o e => Kept.clearTrackEntry o e) h
  | valveGroup upTo =>
    exact done (.service _ _ (fun _ _ o e k => Dev.valveGroup_block k upTo o e) fun o e => Kept.valveGroup upTo o e) h
  | reportFlush =>
    exact done (.service _ _ (fun _ _ o e k => Dev.reportFlush_block k o e)
      fun o e => Kept.same (s.dev.reportFlush_view o e)) h
  | reportRestart =>
    exact done (.service _ _ (fun _ _ o e k => Dev.reportRestart_block k o e)
      fun o e => Kept.same (s.dev.reportRestart_view o e)) h
  | unknownOp => exact done (.block (Dev.unknownOp_block (.refl _)) (Kept.same s.dev.unknownOp_view)) h
  | stallTimerExpiry => exact done (.settled (Dev.stallExpired_block (.refl _)) Kept.stallExpired) h
  | stopTimerExpiry => exact done (.settled (Dev.stopExpired_block (.refl _)) Kept.stopExpired) h
  | scaleSilenceExpiry =>
    exact done (.settled (Dev.silenceExpired_block (.refl _)) (Kept.same s.dev.silenceExpired_view)) h
  | ageTimerExpiry => exact done (.settled (Dev.ageExpired_block (.refl _)) (Kept.same s.dev.ageExpired_view)) h
  | rereadTimerExpiry =>
    exact done (.settled (Dev.rereadExpired_block (.refl _)) (Kept.same s.dev.rereadExpired_view)) h
  | resultWrite => exact done (.settled (Dev.writeResult_block (.refl _)) (Kept.same s.dev.writeResult_view)) h
  | resultWriteDone ok =>
    refine done ?_ h
    split
    · exact .answered _ _ _ (fun _ _ x k => Dev.resultAnswered_block k x.ok)
        fun x d => Kept.same (d.resultAnswered_view x.ok)
    · exact .answered _ _ _ (fun _ _ x k => Dev.lapsedAnswered_block k x.ok)
        fun x d => Kept.same (d.lapsedAnswered_view x.ok)
    · exact .refl s
  | closeWriteDone ok =>
    refine done ?_ h
    split
    · exact .answered _ _ _ (fun _ _ x k => Dev.closeAnswered_block k _ _ x.ok)
        fun x d => Kept.same (d.closeAnswered_view _ _ x.ok)
    · exact .refl s
  | descriptorOpen ok =>
    refine done ?_ h
    split
    · exact .answered _ _ _ (fun _ _ x k => Dev.descriptorAnswered_block k _ x.ok x.data)
        fun x d => Kept.same (d.descriptorAnswered_view _ x.ok x.data)
    · exact .refl s
  | nextFieldRead ok =>
    refine done ?_ h
    split
    · exact .answered _ _ _ (fun _ _ x k => Dev.nextAnswered_block k _ x.ok x.data)
        fun x d => Kept.same (d.nextAnswered_view _ x.ok x.data)
    · exact .refl s
  | statusBurstDone ok =>
    exact done (.answered _ _ _ (fun _ _ x k => Dev.statusAnswered_block k x.ok)
      fun x d => Kept.same (d.statusAnswered_view x.ok)) h
  | arbiterGrant => exact done ⟨fun h => h.grant, Kept.arbiterGrant⟩ h
  | bcastMaskWrite m hi w a => exact bus (b := true) h
  | bcastSet m w a => exact bus (b := true) h
  | bcastAdd m w a => exact bus (b := true) h
  | positionEvent m w a => exact bus (b := true) h
  | gatePoll m a => exact bus (b := true) h
  | gateInspectionRead m a => exact bus (b := true) h
  | armTest m v x be a => exact bus (b := true) h
  | disarmTest m v x be a => exact bus (b := true) h
  | suspend m v x be a => exact bus (b := true) h
  | resume m v x be a => exact bus (b := true) h
  | zeroTrim m v x be a => exact bus (b := true) h
  | setTrim m v x be a => exact bus (b := true) h
  | clearStats m v x be a => exact bus (b := true) h
  | queryRefWrite m w a => exact bus (b := true) h
  | queryCareWrite m w a => exact bus (b := true) h
  | modeWrite m w a => exact bus (b := true) h
  | ackWrite m w a => exact bus (b := true) h
  | loadNow m be a => exact bus (b := true) h
  | loadAtStop m be a => exact bus (b := true) h
  | orderAWrite m w a => exact bus (b := true) h
  | orderBWrite m w a => exact bus (b := true) h
  | _ => exact bus h

/-- Whatever next state a step answers keeps what every step keeps. -/
theorem step_keeps {s t : State} (h : step s = .next t) : StepKeeps s t := by
  unfold step at h
  split at h
  case h_1 =>
    injection h with h
    exact h ▸ .block (Dev.tick_block _) Kept.tick
  case h_2 rest _ =>
    have k := exec_keeps h
    exact ⟨fun inv => k.inv (inv.withPending rest), k.laws⟩

end Sys2Proof.Machine

namespace Sys2Proof

open Sys2Proof.Machine

/-- Settles O5. Whatever a step does keeps the invariant and the laws (`step_keeps`); it ages the live records by at most
`stepNumbers`, fewer than the 2^21 numbers that the premise leaves free below half of R3's range. -/
theorem everyStepKeepsTheInvariant : Obligations.EveryStepKeepsTheInvariant := by
  unfold Obligations.EveryStepKeepsTheInvariant
  intro s t h
  have k := step_keeps h
  refine ⟨k.inv, fun laws => (k.laws laws).1, fun laws ordered recent => ?_⟩
  have free : 2 ^ 31 - 2 ^ 21 + stepNumbers ≤ 2 ^ 31 := by decide
  exact Dev.OrdAt.ordered ((k.laws laws).2 _ free (ordered.at recent)) free

/-- Settles O6: by the form of every command's answer, `exec_eq_whenOk`. -/
theorem onlyMalformedCommandsStop : Obligations.OnlyMalformedCommandsStop := by
  unfold Obligations.OnlyMalformedCommandsStop
  intro c s
  obtain ⟨t, answer⟩ := exec_eq_whenOk c s
  rw [answer]
  exact ⟨fun bad => by rw [bad]; rfl, fun good => ⟨t, by rw [good]; rfl⟩⟩

end Sys2Proof
end

section
/-! The power-on values, one millisecond on an empty queue, the tags of R3, and the first position word. -/

namespace Sys2Proof.Machine

/-! ### Power-on reset -/

/-- Every table is empty after power-on reset. -/
theorem Dev.powerOn_tables (cabase memsize : Nat) (lrst : Bool) (up : List Held) :
    let d := Dev.powerOn cabase memsize lrst up
    (∀ p, (d.entry p).occ = .none ∧ (d.entry p).record = none) ∧ (∀ v, d.valveRec v = ValveRec.reset) ∧
    (∀ k, d.slot k = RecipeSlot.empty) ∧ ∀ p, d.place p = none := by
  refine ⟨fun p => ?_, fun v => ?_, fun k => ?_, fun p => ?_⟩
  · rw [ringEntry_fresh]
    exact ⟨rfl, rfl⟩
  · simp [Dev.powerOn, Dev.valveRec]
  · simp [Dev.powerOn, Dev.slot]
  · simp [Dev.powerOn, Dev.place]

/-! ### A millisecond (log 4) -/

/-- When no timer reaches its time, a millisecond is the timers' count alone. -/
theorem Dev.tick_of_none_reached {d : Dev} (request : d.report.request = false)
    (stall : msReached d.su.stallMs d.countTimers.pocket.stall = false)
    (stop : d.countTimers.pocket.stop.reached d.su.stopMs = false)
    (silence : d.countTimers.weigh.silence.reached d.su.silentMs = false)
    (age : msReached d.su.ageMs d.countTimers.report.reporting.age = false)
    (reread : msReached 1 d.countTimers.report.reread = false) : d.tick = d.countTimers := by
  have su : d.countTimers.su = d.su := rfl
  rw [← su] at stall stop silence age
  unfold Dev.tick
  simp only [stall, stop, silence, age, reread, Bool.false_eq_true, if_false]
  exact Dev.settle_quiet request

/-- A timer that counts. -/
theorem Timer.count_eq (x : Timer) : x.count = match x with | .running n => .running (n + 1) | x => x := by
  cases x <;> rfl

/-- A running timer is reached by its count when that was one short of the time. -/
theorem Timer.reached_eq_false {x : Timer} {limit : Nat} (h : ∀ n, x = .running n → n < limit) :
    x.reached limit = false := by
  cases x with
  | running n => exact decide_eq_false (h n rfl).not_ge
  | _ => rfl

theorem msReached_eq_false {x : Option Nat} {limit : Nat} (h : ∀ n, x = some n → n < limit) :
    msReached limit x = false := by
  cases x with
  | none => rfl
  | some n => exact decide_eq_false (h n rfl).not_ge

theorem countMs_eq_map (x : Option Nat) : countMs x = x.map (· + 1) := by cases x <;> rfl

/-! ### Tags (R3) -/

theorem tagOf_toNat (seq : Word) : (tagOf seq).toNat = (seq.toNat - 1) % 4095 + 1 := by
  have small : (seq.toNat - 1) % 4095 + 1 < 2 ^ 12 := by omega
  exact (BitVec.toNat_ofNat _ _).trans (Nat.mod_eq_of_lt small)

theorem nextSeq_ne_zero (seq : Word) : nextSeq seq ≠ 0 := by
  unfold nextSeq
  split <;> bv_omega

end Sys2Proof.Machine

namespace Sys2Proof

open Sys2Proof.Machine

/-- Settles O1: `step` is defined so. -/
theorem stepRunsTheFrontCommand : Obligations.StepRunsTheFrontCommand := fun _ _ _ => rfl

/-- Settles O3. The tables are empty (`Dev.powerOn_tables`), the pool is the range 0 to 511, and every other field is
given its value by `Dev.powerOn`. -/
theorem resetIsTheSpecsReset : Obligations.ResetIsTheSpecsReset := by
  unfold Obligations.ResetIsTheSpecsReset
  obtain ⟨entries, valves, slots, places⟩ := Dev.powerOn_tables 0 0 false []
  have track : State.reset.dev.track = { free := List.range 512, fill := [], suspects := 0 } := rfl
  have pool : State.reset.dev.track.free = List.range 512 := by rw [track]
  have size : State.reset.dev.track.free.length = 512 := by rw [pool, List.length_range]
  have nodup : State.reset.dev.track.free.Nodup := by
    rw [pool]
    exact List.nodup_range
  have bound : ∀ n ∈ State.reset.dev.track.free, n < 512 := by
    rw [pool]
    exact fun n => List.mem_range.1
  refine ⟨rfl, rfl, rfl, rfl, rfl, rfl, rfl, rfl, rfl, rfl, rfl, rfl, rfl, rfl, rfl, rfl, rfl, rfl, rfl, rfl, rfl, rfl,
    rfl, rfl, size, nodup, bound, rfl, rfl, rfl, rfl, rfl, rfl, rfl, entries, rfl, rfl, rfl, rfl, rfl, rfl, rfl, rfl,
    rfl, rfl, rfl, rfl, rfl, rfl, rfl, rfl, rfl, rfl, valves, rfl, rfl, slots, places, rfl, rfl, rfl, rfl, rfl, rfl,
    rfl, rfl, rfl, rfl, rfl, rfl, rfl⟩

/-- Settles O4: a part without a live record meets the laws (`Dev.LawsAt.powerOn`), and its orders compare nothing. -/
theorem invariantAtReset : Obligations.InvariantAtReset := by
  unfold Obligations.InvariantAtReset
  have none_presented : ∀ x ∈ ([] : List Held), x.unserved := fun _ h => absurd h List.not_mem_nil
  obtain ⟨laws, bare⟩ := Dev.LawsAt.powerOn none_presented 0 0 false 0
  have live : State.reset.dev.live = [] := bare
  refine ⟨⟨rfl, by decide, by decide, by decide, by decide, by decide⟩, laws, ?_, ?_⟩
  · rw [live]
    exact List.Pairwise.nil
  · rw [live]
    exact fun _ h => absurd h List.not_mem_nil

/-- Settles O2: an empty queue is `Dev.tick`, and a tick that brings no timer to its time is the count alone. -/
theorem emptyQueueIsOneMillisecond : Obligations.EmptyQueueIsOneMillisecond := by
  unfold Obligations.EmptyQueueIsOneMillisecond
  refine ⟨fun s empty => by unfold step; rw [empty], fun d request stall stop silence age waits reread => ?_⟩
  have count := Dev.tick_of_none_reached (d := d) request ?stall ?stop ?silence ?age ?reread
  case stall =>
    refine msReached_eq_false fun n h => ?_
    by_cases ready : d.setup.part = .ready
    · obtain ⟨m, held, rfl⟩ : ∃ m, d.pocket.stall = some m ∧ m + 1 = n := by
        simpa [Dev.countTimers, ready, countMs_eq_map] using h
      exact stall m held ready
    · simp [Dev.countTimers, ready, waits ready] at h
  case stop =>
    refine Timer.reached_eq_false fun n h => ?_
    cases running : d.pocket.stop with
    | running m =>
      have := stop m running
      simp only [Dev.countTimers, running, Timer.count] at h
      split at h <;> injection h with h <;> omega
    | _ => simp [Dev.countTimers, running, Timer.count] at h
  case silence =>
    refine Timer.reached_eq_false fun n h => ?_
    cases running : d.weigh.silence with
    | running m =>
      have := silence m running
      simp only [Dev.countTimers, running, Timer.count] at h
      split at h <;> injection h with h <;> omega
    | _ => simp [Dev.countTimers, running, Timer.count] at h
  case age =>
    refine msReached_eq_false fun n h => ?_
    cases owned : d.report.reporting with
    | running b =>
      obtain ⟨m, held, rfl⟩ : ∃ m, b.age = some m ∧ m + 1 = n := by
        simpa [Dev.countTimers, owned, Reporting.countAge, Reporting.age, countMs_eq_map] using h
      exact age b m owned held
    | _ => simp [Dev.countTimers, owned, Reporting.countAge, Reporting.age] at h
  case reread => simp [Dev.countTimers, reread, countMs, msReached]
  rw [count]
  have stalls : (if decide (d.setup.part = .ready) = true then countMs d.pocket.stall else d.pocket.stall) =
      d.pocket.stall.map (· + 1) := by
    by_cases ready : d.setup.part = .ready
    · simp [ready, countMs_eq_map]
    · simp [ready, waits ready]
  have stops : (if (decide (d.setup.part = .ready) && !d.pocket.running) = true then d.pocket.stop.count
      else d.pocket.stop) = match d.pocket.stop with
        | .running n => if d.setup.part = .ready ∧ d.pocket.running = false then .running (n + 1) else .running n
        | x => x := by
    cases d.pocket.stop <;> simp [Timer.count]
  have silences : (if d.pocket.running = true then d.weigh.silence.count else d.weigh.silence) =
      match d.weigh.silence with
        | .running n => if d.pocket.running then .running (n + 1) else .running n
        | x => x := by
    cases d.weigh.silence <;> simp [Timer.count]
  have ages : d.report.reporting.countAge = match d.report.reporting with
      | .running b => .running { b with age := b.age.map (· + 1) }
      | x => x := by
    cases d.report.reporting <;> simp [Reporting.countAge, countMs_eq_map]
  unfold Dev.countTimers
  dsimp only
  rw [stalls, stops, silences, ages, reread]
  rfl

/-- Settles O26: tags lie from 1 to 4095, and numbers fewer than 4095 apart differ modulo 4095. -/
theorem tagsRepeatAfter4095Numbers : Obligations.TagsRepeatAfter4095Numbers := by
  unfold Obligations.TagsRepeatAfter4095Numbers
  refine ⟨fun seq zero => ?_, nextSeq_ne_zero, fun x y positive above near same => ?_⟩
  · have := tagOf_toNat seq
    rw [zero] at this
    simp at this
  · have := (tagOf_toNat x).symm.trans ((congrArg BitVec.toNat same).trans (tagOf_toNat y))
    omega

/-- Settles O34: with no position held `Dev.takePosition` is `Dev.establish`. -/
theorem firstPositionEstablishes : Obligations.FirstPositionEstablishes := by
  unfold Obligations.FirstPositionEstablishes
  intro d w unheld p
  have pocket : pocketOf (w.zeroExtend 48 : BitVec 48) d.su.pitch = p := by
    have fits : w.toNat % 281474976710656 = w.toNat := Nat.mod_eq_of_lt (by omega)
    simp [pocketOf, p, fits]
  unfold Dev.takePosition
  rw [unheld]
  show Dev.startEntry (pocketOf (w.zeroExtend 48 : BitVec 48) d.su.pitch) _ = _
  rw [pocket]
  rfl

end Sys2Proof
end

section
/-! The memory path: the transactions of the bus, those refused, forwarded or faulted, and the arbiter. -/

namespace Sys2Proof.Machine

variable {s : State} {m : Master} {a : MemAns}

/-! ### A window's transaction at its address (12.1) -/

/-- The control area lies below 16 MB, so its addresses are words. -/
theorem toNat_windowWord {cabase off : Nat} (straps : cabase < 16) (inside : off < 65536) :
    (BitVec.ofNat 32 (cabase * 1048576 + off)).toNat = cabase * 1048576 + off :=
  (BitVec.toNat_ofNat _ _).trans (Nat.mod_eq_of_lt (by omega))

theorem Dev.windowAddr_eq (d : Dev) (off i : Nat) : d.windowAddr off i = d.path.cabase * 1048576 + (off + 4 * i) := by
  unfold Dev.windowAddr Dev.base areaBase
  omega

/-- Presenting a write at a window's word is PLAIN_WRITE at its address. -/
theorem State.presentWrite_eq_plain {off i : Nat} {ws : List WWord} (straps : s.dev.path.cabase < 16)
    (aligned : off % 4 = 0) (inside : off + 4 * i < 65536) (length : lengthOk ws.length = true) :
    .next (s.presentWrite m off i ws a) =
      exec (.plainWrite m (BitVec.ofNat 32 (s.dev.path.cabase * 1048576 + (off + 4 * i))) ws a) s := by
  have addr := toNat_windowWord straps inside
  show _ = whenOk _ (s.present (.write m (BitVec.toNat _) ws) a)
  rw [addr, length, Bool.and_true, decide_eq_true (by omega)]
  unfold State.presentWrite
  rw [Dev.windowAddr_eq]
  rfl

theorem State.presentRead_eq_plain {off i n : Nat} (straps : s.dev.path.cabase < 16)
    (aligned : off % 4 = 0) (inside : off + 4 * i < 65536) (length : lengthOk n = true) :
    .next (s.presentRead m off i n a) =
      exec (.pathRefusedRead m (BitVec.ofNat 32 (s.dev.path.cabase * 1048576 + (off + 4 * i))) n a) s := by
  have addr := toNat_windowWord straps inside
  show _ = whenOk _ (s.present (.read m (BitVec.toNat _) n) a)
  rw [addr, length, Bool.and_true, decide_eq_true (by omega)]
  unfold State.presentRead
  rw [Dev.windowAddr_eq]
  rfl

/-- A command of a window's word answers when the word lies in the window and the length is a transaction's. -/
theorem whenOk_rangeOk {size i n : Nat} {t : State} (inside : i < size) (length : lengthOk n = true) :
    whenOk (rangeOk size i n) t = .next t := by
  unfold rangeOk
  rw [length, Bool.and_true, decide_eq_true inside]
  rfl

end Sys2Proof.Machine

namespace Sys2Proof

open Sys2Proof.Machine

/-- Settles O10. -/
theorem busCommandsAreTransactions : Obligations.BusCommandsAreTransactions := by
  unfold Obligations.BusCommandsAreTransactions
  intro s m a w ws i n be v x straps n1 n8 ws1 ws8 at' wr rd cmd
  have readLength : lengthOk n = true := lengthOk_of_le n1 n8
  have writeLength : lengthOk ws.length = true := lengthOk_of_le ws1 ws8
  have write (off j : Nat) (us : List WWord) (aligned : off % 4 = 0) (inside : off + 4 * j < 65536)
      (length : lengthOk us.length = true) : .next (s.presentWrite m off j us a) = wr (off + 4 * j) us :=
    State.presentWrite_eq_plain straps aligned inside length
  have read (off j k : Nat) (aligned : off % 4 = 0) (inside : off + 4 * j < 65536) (length : lengthOk k = true) :
      .next (s.presentRead m off j k a) = rd (off + 4 * j) k :=
    State.presentRead_eq_plain straps aligned inside length
  have word (off : Nat) (u : WWord) (aligned : off % 4 = 0) (inside : off < 65536) :
      .next (s.presentWrite m off 0 [u] a) = wr off [u] := write off 0 [u] aligned inside rfl
  have command (c : ValveCommand) : .next (s.presentCommand c m v x be a) = wr (0x600 + 4 * v.val) [cmd c.code] := by
    unfold State.presentCommand
    rw [commandWord_eq]
    exact write 0x600 v.val [cmd c.code] rfl (by omega) rfl
  refine ⟨fun h => ?_, fun h => ?_, fun h => ?_, fun h => ?_, fun h => ?_, word 0x11C w rfl (by decide),
    word 0x120 w rfl (by decide), word 0x124 w rfl (by decide), word 0x128 w rfl (by decide),
    word 0x140 w rfl (by decide), fun h => ?_, fun h => ?_, read 0x144 0 1 rfl (by decide) rfl,
    read 0x144 0 1 rfl (by decide) rfl, command .armTest, command .disarmTest, command .suspend, command .resume,
    command .zeroTrim, command .setTrim, command .clearStats, fun h => ?_, word 0x114 w rfl (by decide),
    word 0x118 w rfl (by decide), ?_, ?_, word 0x104 w rfl (by decide), word 0x110 w rfl (by decide),
    word 0x100 _ rfl (by decide), word 0x100 _ rfl (by decide), word 0x108 w rfl (by decide),
    word 0x10C w rfl (by decide)⟩
  · exact (whenOk_rangeOk h readLength).trans (read 0x400 i n rfl (by omega) readLength)
  · exact (whenOk_rangeOk h readLength).trans (read 0x400 i n rfl (by omega) readLength)
  · exact (whenOk_rangeOk h writeLength).trans (write 0x300 i ws rfl (by omega) writeLength)
  · exact (whenOk_rangeOk h writeLength).trans (write 0x500 i ws rfl (by omega) writeLength)
  · exact (whenOk_rangeOk h readLength).trans (read 0x500 i n rfl (by omega) readLength)
  · exact (whenOk_rangeOk h writeLength).trans (write 0x4000 i ws rfl (by omega) writeLength)
  · exact (whenOk_rangeOk h writeLength).trans (write 0x800 i ws rfl (by omega) writeLength)
  · exact (whenOk_rangeOk h readLength).trans (read 0x1000 i n rfl (by omega) readLength)
  · exact (congrArg (fun b => whenOk b _) readLength).trans (read 0x148 0 n rfl (by decide) readLength)
  · exact (congrArg (fun b => whenOk b _) readLength).trans (read 0x148 1 n rfl (by decide) readLength)

end Sys2Proof

namespace Sys2Proof.Machine

variable {s : State} {m : Master} {a : MemAns} {d : Dev} {t : Txn} {addr : Word} {x n : Nat} {ws : List WWord}

/-! ### Any address -/

theorem State.exec_plainWrite (aligned : addr.toNat % 4 = 0) (w1 : 1 ≤ ws.length) (w8 : ws.length ≤ 8) :
    exec (.plainWrite m addr ws a) s = .next (s.present (.write m addr.toNat ws) a) := by
  show whenOk (decide (addr.toNat % 4 = 0) && lengthOk ws.length) _ = _
  rw [lengthOk_of_le w1 w8, decide_eq_true aligned]
  rfl

theorem State.exec_pathRefusedRead (aligned : addr.toNat % 4 = 0) (n1 : 1 ≤ n) (n8 : n ≤ 8) :
    exec (.pathRefusedRead m addr n a) s = .next (s.present (.read m addr.toNat n) a) := by
  show whenOk (decide (addr.toNat % 4 = 0) && lengthOk n) _ = _
  rw [lengthOk_of_le n1 n8, decide_eq_true aligned]
  rfl

/-! ### Refusals (R157) -/

theorem Dev.refuses_outside (h : d.size < t.addr + 4 * t.len) : d.refuses t = true := by
  unfold Dev.refuses
  rw [decide_eq_true h, Bool.true_or]

/-- A transaction that touches the area of a placed part and lies in none of its windows. -/
theorem Dev.refuses_crossing (isPlaced : d.setup.part ≠ .unplaced) (touches : d.touches t = true)
    (row : d.rowOf t = none) : d.refuses t = true := by
  unfold Dev.refuses
  rw [decide_eq_true isPlaced, touches, row, Bool.and_self, Bool.and_self, Bool.or_true]

/-- A write of READY to a window whose reads are answered. -/
theorem Dev.refuses_answered {r : WindowRow} (ready : d.setup.part = .ready) (touches : d.touches t = true)
    (row : d.rowOf t = some r) (write : t.isWrite = true) (answered : r.kind.answered = true) : d.refuses t = true := by
  have isPlaced : d.setup.part ≠ .unplaced := fun h => nomatch ready.symm.trans h
  unfold Dev.refuses
  rw [decide_eq_true isPlaced, touches, row]
  simp [ready, write, answered]

/-- The part after a path refusal: the count of path faults, the pending cause, and the status write requested. -/
theorem Dev.pathFault_shape (d : Dev) : ∃ bursts request status again,
    Dev.settle (Dev.raise .pathFault d.faulted) = { d with
      path := { d.path with faults := d.path.faults + 1#32, bursts := bursts }
      report := { d.report with
        request := request, status := status, again := again
        pending := if d.setup.part = .unplaced then d.report.pending else d.report.pending ||| 1048576#21 } } := by
  obtain ⟨raised, shape⟩ := Dev.raise_shape .pathFault d.faulted
  obtain ⟨request, status, again, bursts, settled⟩ := Dev.settle_shape (Dev.raise .pathFault d.faulted)
  refine ⟨bursts, request, status, again, settled.trans ?_⟩
  rw [shape]
  rfl

/-- The windows whose reads are answered (R158). -/
theorem Window.answered_iff (k : Window) :
    k.answered = true ↔ k = .issued ∨ k = .valveView ∨ k = .gate ∨ k = .queryMatch := by
  cases k <;> decide

/-! ### Transactions that no block takes (R158, R159) -/

theorem Dev.takeStore_outside (row : d.rowOf (.write m x ws) = none) : d.takeStore m x ws = ([], d) := by
  unfold Dev.takeStore
  rw [row]

/-- No block takes a write in LOADING or UNPLACED, nor one of UNLOADED outside the LOAD word. -/
theorem Dev.takeStore_unready (unready : d.setup.part ≠ .ready)
    (load : d.setup.part = .unloaded → ∀ r, d.rowOf (.write m x ws) = some r → r.kind ≠ .load) :
    d.takeStore m x ws = ([], d) := by
  unfold Dev.takeStore
  cases row : d.rowOf (.write m x ws) with
  | none => rfl
  | some r =>
    cases part : d.setup.part with
    | ready => exact absurd part unready
    | unloaded => exact if_neg (load part r row)
    | loading _ => rfl
    | unplaced => rfl

theorem Dev.workOf_unready (unready : d.setup.part ≠ .ready) : d.workOf t = t.forward :=
  if_neg fun h => unready h.1

theorem Dev.workOf_untouching (h : d.touches t = false) : d.workOf t = t.forward :=
  if_neg fun k => Bool.false_ne_true (h.symm.trans k.2)

/-- A transaction beside the control area has no row. -/
theorem Dev.rowOf_beside (beside : d.touches t = false) (h0 : 0 < t.len) : d.rowOf t = none := by
  cases row : d.rowOf t with
  | none => rfl
  | some r =>
    obtain ⟨low, high⟩ := Dev.rowOf_inside row
    have touches : d.touches t = true := by
      unfold Dev.touches areaSize
      rw [decide_eq_true (by omega), decide_eq_true (by omega)]
      rfl
    exact absurd (beside.symm.trans touches) Bool.false_ne_true

/-- A transaction inside memory that touches no control area is accepted. -/
theorem Dev.accepted_plain (inside : t.addr + 4 * t.len ≤ d.size)
    (plain : d.touches t = false ∨ d.setup.part = .unplaced) : d.refuses t = false := by
  unfold Dev.refuses
  rw [decide_eq_false (by omega)]
  rcases plain with h | h <;> simp [h]

/-- A grant counted leaves where a transaction lies. -/
theorem Dev.rowOf_countGrant (d : Dev) (t : Txn) : d.countGrant.rowOf t = d.rowOf t := by
  unfold Dev.countGrant
  split <;> rfl

theorem Dev.part_countGrant (d : Dev) : d.countGrant.setup.part = d.setup.part := by
  rw [d.countGrant_keeps.1]

/-! ### A store answered FAULT (R159) -/

/-- A store whose access memory answers FAULT reaches no block, and with no slot DRAINING it leaves only the grant. -/
theorem State.present_store_faulted (free : s.PortFree) (fault : a.faultAt = some 0) (pause : a.pauseAt = none)
    (accepted : s.dev.refuses (.write m x ws) = false) (work : s.dev.workOf (.write m x ws) = [.store x ws])
    (still : ∀ k : Fin 4, (s.dev.slot k).st ≠ .draining) :
    s.present (.write m x ws) a =
      State.served m [.write x ws] .fault { s with dev := s.dev.countGrant.settle } := by
  rw [State.present_faulting free.1 fault pause accepted, work]
  have granted := State.serve_grant
    (s := s.portsClear.faulting (.write m x ws) (some [.store x ws]) (Ctx.init s.dev.fill.seq) 0)
    (mi := .store x ws) (x := .write x ws) 1022 1023 rfl rfl rfl free.2
  have ended (h : Held) : Dev.faultEnds (.store x ws) (Dev.countGrant (s.dev.withUp [h])) = s.dev.countGrant.settle := by
    have undrained : s.dev.countGrant.drainAll = s.dev.countGrant := Dev.drainAll_none fun k => by
      unfold Dev.countGrant
      split <;> exact still k
    rw [Dev.countGrant_withUp]
    unfold Dev.faultEnds
    rw [Dev.freePort_withUp, free.grant_idle, undrained]
    rfl
  refine granted.trans ?_
  unfold State.grantAccess State.faulting
  dsimp only
  rw [show s.portsClear.dev = s.dev from rfl, ended]
  exact State.serve_idle _ _ ((Dev.settle_block (.refl _)).upstream.trans free.grant_up)

/-- The windows whose writes are stored as they come. -/
theorem writeWork_store {shape : Word → Word} {k : Window} {i : Nat} (nominal : k ≠ .nominal) (add : k ≠ .add) :
    writeWork shape k x i ws = [.store x ws] := by
  cases k <;> first | rfl | contradiction

end Sys2Proof.Machine

namespace Sys2Proof

open Sys2Proof.Machine

/-- Settles O11: the three tests of R157, each a refusal, and what a refusal leaves (`Dev.pathFault_shape`). -/
theorem pathRefusals : Obligations.PathRefusals := by
  unfold Obligations.PathRefusals
  intro s m addr a ws n idle aligned n1 n8 length last inside outside crosses answered refused
  have result (t : Txn) (h : s.dev.refuses t = true) : refused (s.present t a) := by
    obtain ⟨bursts, request, status, again, shape⟩ := Dev.pathFault_shape s.dev
    rw [State.present_refused idle h, shape]
    exact ⟨rfl, rfl, rfl, rfl, idle, rfl, rfl, rfl, rfl, rfl, rfl, rfl, rfl, rfl, rfl, rfl, rfl, rfl, rfl, rfl⟩
  have beyond (t : Txn) (at' : t.addr = addr.toNat) (len : t.len = n) (h : outside ∨ crosses) :
      s.dev.refuses t = true := by
    rcases h with h | ⟨isPlaced, ⟨low, high⟩, nowhere⟩
    · exact Dev.refuses_outside (by rw [at', len]; exact h)
    · refine Dev.refuses_crossing isPlaced ?_ (Dev.rowOf_none ?_)
      · unfold Dev.touches areaSize
        rw [at', len, decide_eq_true low, decide_eq_true high]
        rfl
      · rw [at', len]
        exact nowhere
  refine ⟨fun h => ⟨_, State.exec_pathRefusedRead aligned n1 n8, result _ (beyond _ rfl rfl h)⟩, fun h => ?_⟩
  refine ⟨_, State.exec_plainWrite aligned (by omega) (by omega), result _ ?_⟩
  rw [← or_assoc] at h
  rcases h with h | ⟨ready, r, row, ⟨low, high⟩, kind⟩
  · exact beyond (.write m addr.toNat ws) rfl length h
  · have off : (Txn.write m addr.toNat ws).addr = s.dev.base + (addr.toNat - s.dev.base) := by
      show addr.toNat = _
      omega
    have at' : rowAt (addr.toNat - s.dev.base) = some r := rowAt_of_mem row (by omega) (by omega)
    have fits : addr.toNat - s.dev.base + 4 * (Txn.write m addr.toNat ws).len ≤ r.off + 4 * r.words := by
      show addr.toNat - s.dev.base + 4 * ws.length ≤ _
      omega
    have nonempty : 0 < (Txn.write m addr.toNat ws).len := by
      show 0 < ws.length
      omega
    exact Dev.refuses_answered ready (Dev.touching off at' fits nonempty) (Dev.rowOf_at off at' fits) rfl
      ((Window.answered_iff _).2 kind)

/-- Settles O12. -/
theorem plainTransactionsAreForwarded : Obligations.PlainTransactionsAreForwarded := by
  unfold Obligations.PlainTransactionsAreForwarded
  intro s m addr a ws n free clean aligned n1 n8 length inMemory beside
  have plain (t : Txn) (at' : t.addr = addr.toNat) (len : t.len = n) :
      s.dev.touches t = false ∨ s.dev.setup.part = .unplaced := by
    rw [← or_assoc] at beside
    refine beside.imp_left fun h => ?_
    unfold Dev.touches areaSize
    rw [at', len, ← Bool.decide_and]
    exact decide_eq_false (by omega)
  have accepted (t : Txn) (at' : t.addr = addr.toNat) (len : t.len = n) : s.dev.refuses t = false :=
    Dev.accepted_plain (by rw [at', len]; exact inMemory) (plain t at' len)
  have forward (t : Txn) (at' : t.addr = addr.toNat) (len : t.len = n) : s.dev.workOf t = t.forward := by
    rcases plain t at' len with h | h
    · exact Dev.workOf_untouching h
    · exact Dev.workOf_unready fun k => nomatch h.symm.trans k
  have untaken : s.dev.countGrant.takeStore m addr.toNat ws = ([], s.dev.countGrant) := by
    rcases plain (.write m addr.toNat ws) rfl length with h | h
    · refine Dev.takeStore_outside ?_
      rw [Dev.rowOf_countGrant]
      exact Dev.rowOf_beside h (by show 0 < ws.length; omega)
    · refine Dev.takeStore_unready ?_ ?_ <;> rw [Dev.part_countGrant, h]
      · exact fun k => nomatch k
      · exact fun k => nomatch k
  exact ⟨(State.exec_plainWrite aligned (by omega) (by omega)).trans (congrArg _
      (State.present_write_plain free clean (accepted _ rfl length) (forward _ rfl length) untaken)),
    (State.exec_pathRefusedRead aligned n1 n8).trans (congrArg _
      (State.present_read_plain free clean (accepted _ rfl rfl) (forward _ rfl rfl)))⟩

/-- Settles O13. -/
theorem controlAreaIsPlainOutsideReady : Obligations.ControlAreaIsPlainOutsideReady := by
  unfold Obligations.ControlAreaIsPlainOutsideReady
  intro s m addr a ws n r free clean aligned n1 n8 length isPlaced row low high
  have off : addr.toNat = s.dev.base + (addr.toNat - s.dev.base) := by omega
  have at' : rowAt (addr.toNat - s.dev.base) = some r := rowAt_of_mem row (by omega) (by omega)
  have unready (h : (∃ b, s.dev.setup.part = .loading b) ∨ s.dev.setup.part = .unloaded) :
      s.dev.setup.part ≠ .ready := by
    rcases h with ⟨b, h⟩ | h <;> rw [h] <;> exact fun k => nomatch k
  have accepted (t : Txn) (there : t.addr = addr.toNat) (len : t.len = n)
      (h : (∃ b, s.dev.setup.part = .loading b) ∨ s.dev.setup.part = .unloaded) : s.dev.refuses t = false := by
    have fits : t.addr - s.dev.base + 4 * t.len ≤ r.off + 4 * r.words := by omega
    have area := Dev.area_inside isPlaced
    have edge := rowAt_inside at'
    unfold Dev.refuses
    rw [Dev.rowOf_at (there.trans off) at' (by omega), decide_eq_false (by omega)]
    simp [unready h]
  refine ⟨fun h => ?_, fun h => ?_⟩
  · have weaker := h.imp_right And.left
    refine (State.exec_plainWrite aligned (by omega) (by omega)).trans (congrArg _ (State.present_write_plain free clean
      (accepted _ rfl length weaker) (Dev.workOf_unready (unready weaker)) (Dev.takeStore_unready ?_ ?_)))
    · rw [Dev.part_countGrant]
      exact unready weaker
    · intro unloaded q rowq
      rw [Dev.part_countGrant] at unloaded
      rw [Dev.rowOf_countGrant, Dev.rowOf_at (t := .write m addr.toNat ws) off at'
        (by show _ + 4 * ws.length ≤ _; omega)] at rowq
      obtain rfl : r = q := Option.some.inj rowq
      rcases h with ⟨b, h⟩ | ⟨_, h⟩
      · rw [h] at unloaded
        exact nomatch unloaded
      · exact h
  · exact (State.exec_pathRefusedRead aligned n1 n8).trans (congrArg _
      (State.present_read_plain free clean (accepted _ rfl rfl h) (Dev.workOf_unready (unready h))))

/-- Settles O14. -/
theorem faultedStoreIsNotTaken : Obligations.FaultedStoreIsNotTaken := by
  unfold Obligations.FaultedStoreIsNotTaken
  intro s m addr a ws r free fault pause aligned w1 w8 isPlaced row low high still nominal add issued view gate query
  have off : addr.toNat = s.dev.base + (addr.toNat - s.dev.base) := by omega
  have at' : rowAt (addr.toNat - s.dev.base) = some r := rowAt_of_mem row (by omega) (by omega)
  have fits : addr.toNat - s.dev.base + 4 * ws.length ≤ r.off + 4 * r.words := by omega
  have unanswered : r.kind.answered = false := by
    rw [← Bool.not_eq_true, Window.answered_iff]
    rintro (h | h | h | h)
    · exact issued h
    · exact view h
    · exact gate h
    · exact query h
  have work : s.dev.workOf (.write m addr.toNat ws) = [.store addr.toNat ws] := by
    by_cases ready : s.dev.setup.part = .ready
    · rw [Dev.workOf_write ready off at' fits w1]
      exact writeWork_store nominal add
    · exact Dev.workOf_unready ready
  exact (State.exec_plainWrite aligned w1 w8).trans (congrArg _ (State.present_store_faulted free fault pause
    (Dev.accepted (t := .write m addr.toNat ws) isPlaced off at' fits (by rw [unanswered]; rfl)) work still))

end Sys2Proof
namespace Sys2Proof.Machine

variable {s : State} {m : Master} {a : MemAns} {d : Dev}

/-! ### The arbiter (R160) -/

theorem State.present_behind {t : Txn} (busy : s.dev.path.upstream ≠ []) :
    s.present t a = s.queueUp { txn := t, faultAt := a.faultAt, work := none, ctx := Ctx.init 0 } := if_neg busy

theorem State.arbiterGrant_taken (port : s.dev.path.port ≠ none) : s.arbiterGrant = s :=
  if_pos (Option.isSome_iff_ne_none.2 port)

/-- Beside the area there is no row. -/
theorem Dev.rowOf_clear {t : Txn} (beside : t.addr < d.base ∨ d.base + 65536 ≤ t.addr) : d.rowOf t = none := by
  unfold Dev.rowOf
  rcases beside with below | above
  · exact if_pos below
  · rw [if_neg (by omega)]
    cases row : rowAt (t.addr - d.base) with
    | none => rfl
    | some r =>
      have inside := List.find?_some row
      have edge : r.off + 4 * r.words ≤ 65536 := rowAt_inside row
      simp only [Bool.and_eq_true, decide_eq_true_eq] at inside
      omega

/-- The oldest waiting burst is issued where no access of the upstream port is granted. -/
theorem State.arbiterGrant_burst {b : Burst} {bs : List Burst} (port : s.dev.path.port = none)
    (waiting : s.dev.waitingBursts = b :: bs) (turn : s.dev.path.upstream = [] ∨ s.dev.path.waitCount = 4) :
    s.arbiterGrant = { s with
      downstream := [{ owner := .part, access := b.access }]
      dev := { s.dev with path := { s.dev.path with
        port := some { burst := b, stopped := false }, bursts := s.dev.path.bursts.erase b, waitCount := 0 } } } := by
  have ungranted : ¬(s.dev.path.upstream ≠ [] ∧ s.dev.grantable = true) := by
    rintro ⟨held, granted⟩
    rcases turn with idle | four
    · exact held idle
    · unfold Dev.grantable at granted
      rw [waiting, four] at granted
      simp at granted
  unfold State.arbiterGrant
  rw [port, if_neg (by simp), if_neg ungranted]
  unfold State.grantBurst Dev.issueBurst
  rw [waiting]

theorem State.arbiterGrant_idle (port : s.dev.path.port = none) (idle : s.dev.path.upstream = [])
    (none_waits : s.dev.waitingBursts = []) : s.arbiterGrant = s := by
  unfold State.arbiterGrant State.grantBurst
  rw [port, none_waits, idle]
  rfl

/-- A waiting store beside the control area is granted, stored and answered. -/
theorem State.arbiterGrant_store {addr : Nat} {ws : List WWord} {c : Ctx}
    (held : s.dev.path.upstream = [{ txn := .write m addr ws, faultAt := none, work := some [.store addr ws], ctx := c }])
    (port : s.dev.path.port = none) (below : s.dev.path.waitCount < 4) (settled : s.dev.report.request = false)
    (beside : addr < s.dev.base ∨ s.dev.base + 65536 ≤ addr) :
    s.arbiterGrant = { s with
      mem := Memory.writeWords s.mem addr ws
      answers := [.okay c.ans]
      downstream := [{ owner := .upstream m, access := .write addr ws }]
      dev := s.dev.countGrant.withUp [] } := by
  have granted : s.dev.grantable = true := by
    unfold Dev.grantable
    rw [port, decide_eq_true below]
    simp
  have untaken : (s.dev.countGrant.withUp []).takeStore m addr ws = ([], s.dev.countGrant.withUp []) :=
    Dev.takeStore_outside ((Dev.rowOf_countGrant _ _).trans (Dev.rowOf_clear beside))
  have unrequested : s.dev.countGrant.report.request = false := by
    unfold Dev.countGrant
    split <;> exact settled
  have alone : s.dev.countGrant = s.dev.countGrant.withUp [Held.at (.write m addr ws) (.store addr ws) [] c] := by
    rw [show [Held.at (.write m addr ws) (.store addr ws) [] c] = s.dev.path.upstream from held.symm,
      ← s.dev.countGrant_keeps.2.2.2, Dev.withUp_self]
  have taken (h : Held) (master : h.txn.master = m) :
      (s.dev.countGrant.withUp [h]).workDone h [] (.store addr ws) = ([], h.ctx, s.dev.countGrant.withUp [h]) := by
    dsimp only [Dev.workDone, Dev.apart]
    rw [Dev.withUp_withUp, master, untaken]
    rfl
  have done := Dev.progress_quiet (rest := []) (taken (Held.at (.write m addr ws) (.store addr ws) [] c) rfl) unrequested
  have stored : s.portsClear.grantAccess (Held.at (.write m addr ws) (.store addr ws) [] c) (.store addr ws) []
      (.write addr ws) = State.holding (.write m addr ws) (some []) c { s with
        mem := Memory.writeWords s.mem addr ws
        answers := []
        downstream := [{ owner := .upstream m, access := .write addr ws }]
        dev := s.dev.countGrant.withUp [] } := by
    rw [← alone] at done
    exact congrArg (fun d => ({ s with
      mem := Memory.writeWords s.mem addr ws
      answers := []
      downstream := [{ owner := .upstream m, access := .write addr ws }]
      dev := d } : State)) done
  have served := State.serve_grant (s := s.portsClear) 1023 0 held rfl rfl granted
  unfold State.arbiterGrant
  rw [port, if_neg (by simp), if_pos ⟨by rw [held]; exact List.cons_ne_nil _ _, granted⟩]
  refine served.trans ((congrArg (State.serve 1023 0) stored).trans ((State.serve_done 1022 0 rfl)))

end Sys2Proof.Machine

namespace Sys2Proof

open Sys2Proof.Machine

/-- Settles O15. -/
theorem portServesOneAndTheArbiterGrants : Obligations.PortServesOneAndTheArbiterGrants := by
  unfold Obligations.PortServesOneAndTheArbiterGrants
  refine ⟨fun s m addr a ws h us held aligned w1 w8 => ?_, fun s => ⟨fun port => ?_, fun port b bs waiting turn => ?_,
    fun port idle none_waits => ?_, fun m addr ws c held port below settled beside => ?_⟩⟩
  · exact (State.exec_plainWrite aligned w1 w8).trans
      (congrArg _ (State.present_behind (by rw [held]; exact List.cons_ne_nil _ _)))
  · exact congrArg _ (State.arbiterGrant_taken port)
  · exact congrArg _ (State.arbiterGrant_burst port waiting turn)
  · exact congrArg _ (State.arbiterGrant_idle port idle none_waits)
  · refine congrArg _ ((State.arbiterGrant_store held port below settled beside).trans ?_)
    have count : s.dev.countGrant.withUp [] = { s.dev with path := { s.dev.path with
        upstream := []
        waitCount := s.dev.path.waitCount + if s.dev.waitingBursts = [] then 0 else 1 } } := by
      unfold Dev.countGrant
      cases s.dev.waitingBursts <;> rfl
    rw [count]
    rfl

end Sys2Proof
end

section
/-! The resets: the state after power-on reset and line reset, and the release of LRST. -/

namespace Sys2Proof.Machine

theorem placed_eq (cabase memsize : Nat) : placed cabase memsize = decide (cabase < 2 ^ memsize) := by
  unfold placed areaBase memoryBytes
  exact decide_eq_decide.2 (Nat.mul_lt_mul_left (by decide))

/-- Memory after the internal burst on the port, if any, has completed. -/
theorem State.portLands_eq (s : State) (ok : Bool) : s.portLands ok = match s.dev.path.port with
    | none => s.mem
    | some i => match i.burst.kind with
      | .read _ => s.mem
      | .write ws => if ok then Memory.writeWords s.mem i.burst.addr (ws.map fullWord) else s.mem := by
  unfold State.portLands Burst.land
  cases s.dev.path.port with
  | none => rfl
  | some i => cases i.burst.kind <;> rfl

end Sys2Proof.Machine

namespace Sys2Proof

open Sys2Proof.Machine

/-- Settles O7. -/
theorem powerOnResetResets : Obligations.PowerOnResetResets := by
  unfold Obligations.PowerOnResetResets
  intro s cabase memsize ok cabaseOk memsizeOk d isPlaced lrst writes first rest mem
  show whenOk (decide (cabase < 16) && decide (memsize < 8)) _ = _
  rw [decide_eq_true cabaseOk, decide_eq_true memsizeOk]
  have base : areaBase cabase = cabase * 1048576 := Nat.mul_comm _ _
  have lands : s.portLands ok = mem := s.portLands_eq ok
  rw [lands]
  unfold Dev.powerOn
  rw [placed_eq, base]
  rfl

end Sys2Proof
namespace Sys2Proof.Machine

variable {s : State} {d : Dev}

/-! ### The words of the status block (12.7) -/

theorem put_eq_mul {v lo len : Nat} (h : v < 2 ^ len) : put v lo len = 2 ^ lo * v := by
  unfold put
  rw [Nat.mod_eq_of_lt h]

theorem PartState.code_eq (p : PartState) : p.code = match p with | .loading _ => 1 | .ready => 2 | _ => 0 := by
  cases p <;> rfl

theorem Dev.stateWord_eq (d : Dev) :
    put d.setup.part.code 0 2 + putBit d.pocket.running 4 + putBit d.setup.enforce 5 + putBit d.setup.trimApply 6 +
      putBit d.setup.retained 7 + putBit (decide (0 < d.track.suspects)) 8 + put d.report.reporting.code 9 2 +
      putBit d.pocket.pos.isSome 11 + putBit d.currentSlot.isSome 12 +
      put (match d.currentSlot with | none => 0 | some k => k.val) 13 2 =
    d.setup.part.code + putBit d.pocket.running 4 + putBit d.setup.enforce 5 + putBit d.setup.trimApply 6 +
      putBit d.setup.retained 7 + putBit (decide (d.track.suspects ≠ 0)) 8 + 512 * d.report.reporting.code +
      putBit d.pocket.pos.isSome 11 + putBit d.currentSlot.isSome 12 +
      8192 * (match d.currentSlot with | none => 0 | some k => k.val) := by
  have part : d.setup.part.code < 2 ^ 2 := by cases d.setup.part <;> simp [PartState.code]
  have reporting : d.report.reporting.code < 2 ^ 2 := by cases d.report.reporting <;> simp [Reporting.code]
  have slot : (match d.currentSlot with | none => 0 | some k => k.val) < 2 ^ 2 := by
    cases d.currentSlot with
    | none => decide
    | some k => exact k.isLt
  rw [put_eq_mul part, put_eq_mul reporting, put_eq_mul slot, decide_eq_decide.2 Nat.pos_iff_ne_zero]
  simp only [Nat.pow_zero, Nat.one_mul]
  rfl

/-- The order summaries as one sum (R144). -/
theorem Dev.orderSummary_eq (d : Dev) : d.orderSummary = BitVec.ofNat 32
    ((match d.order.running with | none => 0 | some p => 1 + 2 * p.val) +
      (match d.order.draining with | none => 0 | some p => 4 + 8 * p.val) +
      (match d.slotIn .current, d.order.cur with
        | some _, some c => (match c.ref with | .detached => 16 | .entry p i => 32 * p.val + 64 * (i % 8)) +
            putBit (decide (c.canCount = 0)) 9 + putBit c.stalled 10
        | _, _ => 0) +
      (match d.order.service with | none => 0 | some o => 65536 + 131072 * (o.idx % 8))) := by
  have place (p : Fin 2) (lo : Nat) : put p.val lo 1 = 2 ^ lo * p.val := put_eq_mul p.isLt
  unfold Dev.orderSummary Dev.currentSlot
  dsimp only
  congr 2
  · congr 1
    · congr 1
      · cases d.order.running with
        | none => rfl
        | some p => exact congrArg (1 + ·) (place p 1)
      · cases d.order.draining with
        | none => rfl
        | some p => exact congrArg (4 + ·) (place p 3)
    · cases d.slotIn .current with
      | none => rfl
      | some k =>
        cases d.order.cur with
        | none => rfl
        | some c =>
          have counted : (c.canCount == 0) = decide (c.canCount = 0) := rfl
          cases ref : c.ref with
          | detached => simp only [ref, counted]; rfl
          | entry p i => simp only [ref, counted, place]; rfl

end Sys2Proof.Machine
namespace Sys2Proof.Machine

variable {s : State} {d : Dev}

/-- A requested status write is formed and its first burst is placed, when none is in progress and LRST is released
(R170). -/
theorem Dev.settle_forms (request : d.report.request = true) (isPlaced : d.setup.part ≠ .unplaced)
    (idle : d.report.status = .idle) (level : d.path.lrst = false) : d.settle = { d with
      path := { d.path with bursts := d.path.bursts ++ [{ op := .status, addr := d.base + 0x200,
                                                          kind := .write (d.statusWords.take 8) }] }
      report := { d.report with request := false, status := .first (d.statusWords.drop 8) } } := by
  have released : ¬d.path.lrst = true := by rw [level]; exact Bool.false_ne_true
  have formed : d.settle = d.formStatus := by
    unfold Dev.settle
    rw [if_neg (by simp [request, isPlaced, level]), idle]
  exact formed.trans (if_neg (not_or.2 ⟨isPlaced, released⟩))

end Sys2Proof.Machine

namespace Sys2Proof

open Sys2Proof.Machine

/-- Settles O9: the two levels, then the words of the block one by one. -/
theorem resetLevelAndRelease : Obligations.ResetLevelAndRelease := by
  unfold Obligations.ResetLevelAndRelease
  refine ⟨fun s up ok => ⟨fun asserted => if_pos asserted, fun released unplaced => ?_⟩,
    fun s => ⟨fun unrequested => ?_, fun request isPlaced idle => ?_⟩, fun d => ?_⟩
  · exact (if_neg (by rw [released]; exact Bool.false_ne_true)).trans (if_pos unplaced)
  · exact congrArg (fun d => Host.Outcome.next { s with dev := d })
      (Dev.settle_quiet (d := s.dev.setLrst false) unrequested)
  · exact congrArg (fun d => Host.Outcome.next { s with dev := d })
      (Dev.settle_forms (d := s.dev.setLrst false) request isPlaced idle rfl)
  · have half (c : BitVec 16) (lo : Nat) : put c.toNat lo 16 = 2 ^ lo * c.toNat := put_eq_mul c.isLt
    have low (c : BitVec 16) : put c.toNat 0 16 = c.toNat := (half c 0).trans (Nat.one_mul _)
    have free : put (512 - d.track.free.length) 0 16 = 512 - d.track.free.length :=
      (put_eq_mul (by omega)).trans (Nat.one_mul _)
    have code : put d.setup.loadError.code.code 0 8 = d.setup.loadError.code.code := by
      refine (put_eq_mul ?_).trans (Nat.one_mul _)
      cases d.setup.loadError.code <;> decide
    intro b w part reporting loadCode cur slot running draining entry service
    have state : BitVec.ofNat 32 _ = w _ := congrArg (BitVec.ofNat 32) d.stateWord_eq
    have pocket : d.pocketNow.getD 0 =
        match d.pocket.pos with | none => 0 | some q => w (q.high.toNat / d.su.pitch) := by
      unfold Dev.pocketNow
      cases d.pocket.pos <;> rfl
    have lot : (match d.currentSlot with | none => 0 | some k => BitVec.ofNat 32 (d.recipeOf k).lot.toNat : Word) =
        match cur with | none => 0 | some k => (d.recipeOf k).lot.setWidth 32 := by
      show _ = match d.currentSlot with | none => 0 | some k => (d.recipeOf k).lot.setWidth 32
      cases d.currentSlot with
      | none => rfl
      | some k => exact BitVec.ofNat_toNat ..
    unfold Dev.statusWords
    dsimp only
    rw [free, code, low, low, half, half, BitVec.ofNat_toNat]
    refine congrArg₂ List.cons (state.trans ?_) (congrArg₂ List.cons rfl (congrArg₂ List.cons pocket
      (congrArg₂ List.cons rfl (congrArg₂ List.cons rfl (congrArg₂ List.cons rfl (congrArg₂ List.cons lot
      (congrArg₂ List.cons d.orderSummary_eq rfl)))))))
    rw [d.setup.part.code_eq]
    rfl

end Sys2Proof
end

section
/-! The line reset: what it keeps of the part it finds, and what it finds when memory has answered the held write. -/

namespace Sys2Proof.Machine

variable {s : State} {d : Dev} {up : UpAccess} {ok : Bool}

/-! ### What a line reset leaves (R152) -/

theorem Dev.lineReset_place (d : Dev) (p : Fin 2) : d.lineReset.place p = none := by
  simp [Dev.place, Dev.lineReset, OrderUnit.lineReset]

/-- The draining that follows touches DRAINING slots alone, for every order place is empty. -/
theorem Dev.drainAll_lineReset (d : Dev) : OnlySlots d.lineReset d.lineReset.drainAll := by
  unfold Dev.drainAll
  have empty := d.lineReset_place
  exact Dev.drainIfEmpty_slots (Dev.drainIfEmpty_slots (Dev.drainIfEmpty_slots
    (Dev.drainIfEmpty_slots (.refl _) empty 0) empty 1) empty 2) empty 3

theorem Dev.drainAll_lineReset_slot (k : Fin 4) (h : (d.slot k).lineReset.st ≠ .draining) :
    d.lineReset.drainAll.slot k = (d.slot k).lineReset := by
  rw [d.drainAll_lineReset.keep k (by rw [Dev.lineReset_slot]; exact h), Dev.lineReset_slot]

theorem RecipeSlot.lineReset_current {r : RecipeSlot} (h : r.st = .current) :
    r.lineReset = { r with ref := .detached } := by
  unfold RecipeSlot.lineReset
  rw [h]

theorem RecipeSlot.lineReset_pending {r : RecipeSlot} (h : r.st = .pending ∨ r.st = .loading) : r.lineReset = .empty := by
  unfold RecipeSlot.lineReset
  rcases h with h | h <;> rw [h]

theorem Dev.drainAll_lineReset_current (k : Fin 4) (h : (d.slot k).st = .current) :
    d.lineReset.drainAll.slot k = { d.slot k with ref := .detached } := by
  have kept := RecipeSlot.lineReset_current h
  rw [Dev.drainAll_lineReset_slot k (by rw [kept, h]; decide), kept]

theorem Dev.drainAll_lineReset_pending (k : Fin 4) (h : (d.slot k).st = .pending ∨ (d.slot k).st = .loading) :
    d.lineReset.drainAll.slot k = .empty := by
  have emptied := RecipeSlot.lineReset_pending h
  rw [Dev.drainAll_lineReset_slot k (by rw [emptied]; decide), emptied]

/-- The part after a line reset, its recipe slots aside (R152). -/
theorem Dev.drainAll_lineReset_parts (d : Dev) : ∃ slots, d.lineReset.drainAll = { d with
    path := { d.path with
      upstream := d.path.upstream.drop 1, waitCount := 0, bursts := [], port := none, latch := none, lrst := true }
    setup := { d.setup with
      part := .unloaded, retained := d.setup.setup.isSome, deferred := false, loadWords := [], enforce := false,
      trimApply := false }
    report := { d.report with
      pending := 0, request := true, again := false, status := .idle, reporting := .waiting .nothing, act := none,
      reread := none }
    fill := { d.fill with switchDue := false, mask := 0 }
    pocket := { d.pocket with running := false, reversal := false, stall := none, stop := .idle }
    weigh := { d.weigh with
      expected := none, gapWin := .notOpened, weighWin := .notOpened,
      gapAcc := { sum := 0, count := 0, gap := false, overload := false },
      weighAcc := { sum := 0, count := 0, gap := false, overload := false },
      closed := none, stale := false, capture := false, silence := .idle }
    code := { d.code with expected := 0, last := none, missRun := 0 }
    valve := { d.valve with queryRef := 0, queryCare := 0 }
    order :=
      { slots := slots, places := Vector.replicate 2 none, running := none, draining := none,
        cur := d.order.cur.map CurrentEntry.lineReset, fetchA := none, fetchB := none, loader := none,
        writes := [], service := none } } :=
  ⟨_, d.drainAll_lineReset.eq⟩

/-- The access on its way at the reset, if any, is one, of the held transaction. -/
theorem State.resetIssued_cases (s : State) (up : UpAccess) : s.resetIssued up = [] ∨
    ∃ h us x, s.dev.path.upstream = h :: us ∧ s.resetIssued up = [{ owner := .upstream h.txn.master, access := x }] := by
  unfold State.resetIssued State.nextAccess
  split
  · split
    · exact .inl rfl
    · rename_i h us held
      split
      · exact .inl rfl
      · exact .inl rfl
      · rename_i mi rest work
        cases mi.access h.ctx s.dev with
        | none => exact .inl rfl
        | some x => exact .inr ⟨h, us, x, held, rfl⟩
  · exact .inl rfl

theorem State.resetIssued_none (h : up = .waiting ∨ s.dev.grantable = false) : s.resetIssued up = [] := by
  refine if_neg ?_
  rintro ⟨waits, granted⟩
  rcases h with h | h
  · exact waits h
  · exact Bool.false_ne_true (h.symm.trans granted)

/-- Where no access was answered OKAY before it, the reset finds the part as it stood. -/
theorem State.resetFinds_unanswered
    (h : up ≠ .answered ∨ ok = false ∨ s.dev.grantable = false ∨ s.dev.path.upstream = []) :
    s.resetFinds up ok = s.dev := by
  unfold State.resetFinds
  split
  · rename_i answered
    rcases h with h | h | h | h
    · exact absurd answered.1 h
    · exact absurd (h.symm.trans answered.2) Bool.false_ne_true
    · unfold State.resetTakes
      rw [h]
      split
      · rfl
      · split
        · rfl
        · rfl
        · split <;> rfl
    · unfold State.resetTakes
      rw [h]
  · rfl

theorem State.exec_lineReset (released : s.dev.path.lrst = false) (isPlaced : s.dev.setup.part ≠ .unplaced) :
    exec (.lineReset up ok) s = .next { s with
      mem := s.resetLands up ok
      answers := []
      downstream := s.resetIssued up
      dev := Dev.drainAll (s.resetFinds up ok).lineReset } :=
  (if_neg (by rw [released]; exact Bool.false_ne_true)).trans (if_neg isPlaced)

/-! ### A held write that memory has answered (R41, R57, R75) -/

/-- Nothing is done for work whose next access may not be made. -/
theorem State.serve_paused (n : Nat) {h : Held} {us : List Held} {mi : Micro} {rest : List Micro} {x : Access}
    (held : s.dev.path.upstream = h :: us) (work : h.work = some (mi :: rest))
    (access : mi.access h.ctx s.dev = some x) : State.serve (n + 1) 0 s = s := by
  unfold State.serve
  rw [held]
  dsimp only
  rw [work]
  dsimp only
  rw [access]

/-- Work without an access, once begun, goes on to the answer as a line reset would find it. -/
theorem State.serve_workOn (b : Nat) {h : Held} (work : h.work = some []) : ∀ (k n : Nat) (s : State), k ≤ n →
    (s.dev.workOn k).path.upstream = [h] →
    State.serve (n + 1) b s = State.answer (.okay h.ctx.ans) { s with dev := (s.dev.workOn k).freePort }
  | 0, n, s, _, alone => by
    rw [State.serve_answer n b alone work, State.serve_idle]
    · rfl
    · show (s.dev.freePort).path.upstream = []
      exact congrArg (List.drop 1) alone
  | k + 1, 0, s, le, _ => absurd le (by omega)
  | k + 1, n + 1, s, le, alone => by
    have stuck (unchanged : s.dev.workOn (k + 1) = s.dev) : State.serve (n + 1 + 1) b s =
        State.answer (.okay h.ctx.ans) { s with dev := (s.dev.workOn (k + 1)).freePort } := by
      rw [unchanged] at alone ⊢
      exact State.serve_workOn b work 0 (n + 1) s (Nat.zero_le _) alone
    cases held : s.dev.path.upstream with
    | nil => exact stuck (by unfold Dev.workOn; rw [held])
    | cons g us =>
      cases doing : g.work with
      | none => exact stuck (by unfold Dev.workOn; rw [held]; dsimp only; rw [doing])
      | some l =>
        cases l with
        | nil => exact stuck (by unfold Dev.workOn; rw [held]; dsimp only; rw [doing])
        | cons mi rest =>
          by_cases stops : (mi.answering || (mi.access g.ctx s.dev).isSome) = true
          · exact stuck (by unfold Dev.workOn; rw [held]; dsimp only; rw [doing]; exact if_pos stops)
          · have goes : s.dev.workOn (k + 1) = (s.dev.progress g mi rest []).workOn k := by
              show (match s.dev.path.upstream with | [] => _ | h :: _ => _) = _
              rw [held]
              dsimp only
              rw [doing]
              exact if_neg stops
            have accessless : mi.access g.ctx s.dev = none := by
              rw [Bool.or_eq_true, not_or] at stops
              exact Option.not_isSome_iff_eq_none.1 stops.2
            rw [State.serve_work (n + 1) b held doing accessless]
            rw [goes] at alone ⊢
            exact State.serve_workOn b work k n { s with dev := s.dev.progress g mi rest [] } (by omega) alone

/-- The port once its held work has been done: what is left of the work, and the context it leaves. -/
theorem Dev.progress_upstream {h k : Held} {us : List Held} {mi : Micro} {rest : List Micro} {ws : List Word}
    (held : d.path.upstream = k :: us) : (d.progress h mi rest ws).path.upstream =
      { h with work := some ((d.workDone h ws mi).1 ++ rest), ctx := (d.workDone h ws mi).2.1 } :: us := by
  have behind : ((d.workDone h ws mi).2.2.path.upstream).drop 1 = us := by
    rw [(d.workDone_block h ws mi).upstream, held]
    rfl
  unfold Dev.progress
  exact ((Dev.settle_block (.refl _)).upstream).trans (congrArg (List.cons _) behind)

theorem Dev.workOn_done (n : Nat) {h : Held} {us : List Held} (held : d.path.upstream = h :: us)
    (work : h.work = some []) : d.workOn n = d := by
  cases n with
  | zero => rfl
  | succ n =>
    unfold Dev.workOn
    rw [held]
    dsimp only
    rw [work]

/-- One piece of work is done, and what it adds is next. -/
theorem Dev.workOn_succ (n : Nat) {h : Held} {us : List Held} {mi : Micro} {rest : List Micro}
    (held : d.path.upstream = h :: us) (work : h.work = some (mi :: rest)) (silent : mi.answering = false)
    (accessless : mi.access h.ctx d = none) :
    d.workOn (n + 1) = (d.progress h mi rest []).workOn n ∧ (d.progress h mi rest []).path.upstream =
      { h with work := some ((d.workDone h [] mi).1 ++ rest), ctx := (d.workDone h [] mi).2.1 } :: us := by
  refine ⟨?_, Dev.progress_upstream held⟩
  show (match d.path.upstream with | [] => _ | h :: _ => _) = _
  rw [held]
  dsimp only
  rw [work]
  exact if_neg (by rw [silent, accessless]; decide)

/-- The held transaction's work is done and it has gathered no words to answer. -/
def Dev.WorkDone (d : Dev) : Prop := ∃ h, d.path.upstream = [h] ∧ h.work = some [] ∧ h.ctx.ans = []

/-- The state that presents a stored write and stops before its access. -/
def State.holdingStore (m : Master) (x : Nat) (ws : List WWord) (s : State) : State :=
  s.portsClear.holding (.write m x ws) (some [.store x ws]) (Ctx.init s.dev.fill.seq)

/-- The part once memory has answered that access OKAY. -/
def State.storeLanded (m : Master) (x : Nat) (ws : List WWord) (s : State) : Dev :=
  Dev.progress (Held.at (.write m x ws) (.store x ws) [] (Ctx.init s.dev.fill.seq)) (.store x ws) [] []
    (s.dev.countGrant.withUp [Held.at (.write m x ws) (.store x ws) [] (Ctx.init s.dev.fill.seq)])

section
variable {m : Master} {x : Nat} {ws : List WWord}

theorem State.storeLanded_upstream (m : Master) (x : Nat) (ws : List WWord) (free : s.PortFree) :
    (s.storeLanded m x ws).path.upstream =
      [{ txn := .write m x ws, faultAt := none, ctx := Ctx.init s.dev.fill.seq
         work := some ((s.dev.countGrant.takeStore m x ws).1 ++ []) }] := by
  refine (Dev.progress_upstream rfl).trans ?_
  have taken : ((s.dev.countGrant.withUp [Held.at (.write m x ws) (.store x ws) [] (Ctx.init s.dev.fill.seq)]).apart
      fun d => d.takeStore m x ws).1 = (s.dev.countGrant.takeStore m x ws).1 := by
    unfold Dev.apart
    rw [Dev.withUp_withUp, free.grant_idle]
  rw [← taken]
  rfl

theorem State.holdingStore_grant :
    (s.holdingStore m x ws).grantAccess (Held.at (.write m x ws) (.store x ws) [] (Ctx.init s.dev.fill.seq))
      (.store x ws) [] (.write x ws) = { s with
        mem := Memory.writeWords s.mem x ws
        answers := []
        downstream := [{ owner := .upstream m, access := .write x ws }]
        dev := s.storeLanded m x ws } := by
  have granted : (s.holdingStore m x ws).dev.countGrant =
      s.dev.countGrant.withUp [Held.at (.write m x ws) (.store x ws) [] (Ctx.init s.dev.fill.seq)] :=
    Dev.countGrant_withUp _ _
  unfold State.grantAccess
  dsimp only
  rw [granted]
  rfl

section
variable (free : s.PortFree) (accepted : s.dev.refuses (.write m x ws) = false)
  (work : s.dev.workOf (.write m x ws) = [.store x ws])
include free accepted work

theorem State.present_store_paused :
    s.present (.write m x ws) { faultAt := none, pauseAt := some 0 } = s.holdingStore m x ws := by
  have queued : s.portsClear.queueUp { txn := .write m x ws, faultAt := none, work := none, ctx := Ctx.init 0 } =
      s.portsClear.holding (.write m x ws) none (Ctx.init 0) := by
    unfold State.queueUp State.holding
    rw [show s.portsClear.dev.path.upstream = [] from free.1]
    rfl
  have given : (s.portsClear.holding (.write m x ws) none (Ctx.init 0)).accept
      { txn := .write m x ws, faultAt := none, work := none, ctx := Ctx.init 0 } = s.holdingStore m x ws := by
    have laid : (s.portsClear.holding (.write m x ws) none (Ctx.init 0)).dev.workOf (.write m x ws) = [.store x ws] :=
      (Dev.workOf_withUp _ _ _).trans work
    refine (if_neg fun refused => Bool.false_ne_true (accepted.symm.trans refused)).trans ?_
    rw [laid]
    rfl
  unfold State.present
  rw [if_pos free.1]
  dsimp only
  rw [queued]
  refine (State.serve_accept 1023 0 rfl rfl).trans ?_
  rw [given]
  exact State.serve_paused 1022 rfl rfl rfl

/-- Served without a pause it is answered, the part being the one a line reset would have found. -/
theorem State.present_store_workOn {a : MemAns} (clean : a.clean)
    (done : ((s.storeLanded m x ws).workOn resetFuel).WorkDone) :
    s.present (.write m x ws) a = { s with
      mem := Memory.writeWords s.mem x ws
      answers := [.okay []]
      downstream := [{ owner := .upstream m, access := .write x ws }]
      dev := ((s.storeLanded m x ws).workOn resetFuel).freePort } := by
  obtain ⟨h, alone, finished, nothing⟩ := done
  rw [State.present_accepted free.1 clean accepted, work]
  refine (State.serve_grant (s := s.holdingStore m x ws) 1022 1023 rfl rfl rfl free.2).trans ?_
  refine (congrArg (State.serve 1022 1023) State.holdingStore_grant).trans ?_
  refine (State.serve_workOn 1023 finished resetFuel 1021 _ (by decide) alone).trans ?_
  rw [nothing]
  rfl

end

/-- A reset while the access is out finds the part as it stood before the write, and memory has the access if it was
answered OKAY. -/
theorem State.holdingStore_reset (free : s.PortFree) (released : s.dev.path.lrst = false)
    (isPlaced : s.dev.setup.part ≠ .unplaced) (issued : up ≠ .waiting) :
    exec (.lineReset up ok) (s.holdingStore m x ws) = .next { s with
      mem := if ok then Memory.writeWords s.mem x ws else s.mem
      answers := []
      downstream := [{ owner := .upstream m, access := .write x ws }]
      dev := Dev.drainAll (if up = .answered ∧ ok = true then (s.storeLanded m x ws).workOn resetFuel
        else s.dev).lineReset } := by
  have grantable : (s.holdingStore m x ws).dev.grantable = true := free.2
  have out : (s.holdingStore m x ws).resetIssued up = [{ owner := .upstream m, access := .write x ws }] :=
    if_pos ⟨issued, grantable⟩
  have port : (s.holdingStore m x ws).dev.path.port.isSome = false := by
    have := (Bool.and_eq_true_iff.1 free.2).1
    rw [← Option.not_isSome, Bool.not_eq_true'] at this
    exact this
  have lands : (s.holdingStore m x ws).resetLands up ok = if ok then Memory.writeWords s.mem x ws else s.mem := by
    unfold State.resetLands
    rw [port, out]
    rfl
  have finds : (s.holdingStore m x ws).resetTakes = (s.storeLanded m x ws).workOn resetFuel := by
    refine (if_pos grantable).trans ?_
    exact congrArg (fun t : State => t.dev.workOn resetFuel) State.holdingStore_grant
  have reset : ((s.holdingStore m x ws).resetFinds up ok).lineReset =
      (if up = .answered ∧ ok = true then (s.storeLanded m x ws).workOn resetFuel else s.dev).lineReset := by
    unfold State.resetFinds
    split
    · rw [finds]
    · show (s.dev.withUp [_]).lineReset = s.dev.lineReset
      unfold Dev.lineReset PathUnit.lineReset
      rw [free.1]
      rfl
  refine (State.exec_lineReset (s := s.holdingStore m x ws) released isPlaced).trans ?_
  rw [lands, out, reset]
  rfl

/-- The part that the answered write leaves is placed and LRST is not asserted, and the reset drops the same of it with
or without the transaction on the port. -/
theorem State.storeLanded_held (m : Master) (x : Nat) (ws : List WWord) (free : s.PortFree) :
    HeldStep s.dev ((s.storeLanded m x ws).workOn resetFuel).freePort := by
  have counted : HeldStep s.dev (s.dev.countGrant.withUp
      [Held.at (.write m x ws) (.store x ws) [] (Ctx.init s.dev.fill.seq)]) :=
    ⟨by rw [free.1]; rfl, s.dev.countGrant_keeps.2.2.1, by rw [← Dev.part_countGrant s.dev]; exact Iff.rfl⟩
  have worked := (counted.trans (Dev.progress_held _ (Held.at (.write m x ws) (.store x ws) []
    (Ctx.init s.dev.fill.seq)) (.store x ws) [] [])).trans (Dev.workOn_held resetFuel _)
  refine ⟨?_, worked.lrst, worked.placed⟩
  have behind : ((s.storeLanded m x ws).workOn resetFuel).path.upstream.drop 1 = [] := by
    refine worked.behind.trans ?_
    rw [free.1]
    rfl
  show (List.drop 1 _).drop 1 = _
  rw [behind, free.1]

theorem Dev.lineReset_freePort (alone : d.path.upstream.drop 1 = []) : d.freePort.lineReset = d.lineReset := by
  unfold Dev.lineReset PathUnit.lineReset Dev.freePort
  dsimp only
  rw [alone]
  rfl

/-- A line reset that waits for no access and no burst leaves memory. -/
theorem State.resetLands_waiting (s : State) : s.resetLands .waiting false = s.mem := by
  unfold State.resetLands State.portLands Burst.land
  split
  · split
    · rfl
    · split
      · rfl
      · exact if_neg Bool.false_ne_true
  · exact if_neg Bool.false_ne_true

/-- A line reset at an idle port. -/
theorem State.exec_lineReset_waiting (released : s.dev.path.lrst = false) (isPlaced : s.dev.setup.part ≠ .unplaced) :
    exec (.lineReset .waiting false) s = .next { s with
      answers := [], downstream := [], dev := Dev.drainAll s.dev.lineReset } := by
  have finds : s.resetFinds .waiting false = s.dev := State.resetFinds_unanswered (.inl (by decide))
  rw [State.exec_lineReset released isPlaced, State.resetLands_waiting, finds, State.resetIssued_none (.inl rfl)]

/-- A stored write that memory answered before the reset is taken; one answered after it, or FAULT, is not (R41, R57,
R75, R164). -/
theorem State.lineReset_store {write : MemAns → Instr} (free : s.PortFree) (released : s.dev.path.lrst = false)
    (isPlaced : s.dev.setup.part ≠ .unplaced) (accepted : s.dev.refuses (.write m x ws) = false)
    (work : s.dev.workOf (.write m x ws) = [.store x ws])
    (presents : ∀ a, exec (write a) s = .next (s.present (.write m x ws) a))
    (done : ((s.storeLanded m x ws).workOn resetFuel).WorkDone) :
    ∃ held taken found left, exec (write { faultAt := none, pauseAt := some 0 }) s = .next held ∧
      held.dev.path.upstream ≠ [] ∧ held.mem = s.mem ∧
      exec (write { faultAt := none, pauseAt := none }) s = .next taken ∧ taken.answers = [.okay []] ∧
      exec (.lineReset .answered true) held = .next found ∧ exec (.lineReset .waiting false) taken = .next left ∧
      found = { left with downstream := taken.downstream } ∧
      ∀ up ok, up ≠ .waiting → up = .issued ∨ ok = false → exec (.lineReset up ok) held = .next { left with
        mem := if ok then left.mem else s.mem
        downstream := taken.downstream
        dev := Dev.drainAll s.dev.lineReset } := by
  obtain ⟨h, alone, -⟩ := id done
  have same := Dev.lineReset_freePort (d := (s.storeLanded m x ws).workOn resetFuel) (congrArg (List.drop 1) alone)
  have left := State.exec_lineReset_waiting (s := { s with
      mem := Memory.writeWords s.mem x ws
      answers := [.okay []]
      downstream := [{ owner := .upstream m, access := .write x ws }]
      dev := ((s.storeLanded m x ws).workOn resetFuel).freePort })
    ((s.storeLanded_held m x ws free).lrst.trans released)
    (fun h => isPlaced ((s.storeLanded_held m x ws free).placed.1 h))
  rw [same] at left
  have found := State.holdingStore_reset (m := m) (x := x) (ws := ws) (up := .answered) (ok := true) free released
    isPlaced (by decide)
  rw [if_pos rfl, if_pos ⟨rfl, rfl⟩] at found
  have held := presents { faultAt := none, pauseAt := some 0 }
  rw [State.present_store_paused free accepted work] at held
  have taken := presents { faultAt := none, pauseAt := none }
  rw [State.present_store_workOn free accepted work ⟨rfl, rfl⟩ done] at taken
  refine ⟨_, _, _, _, held, List.cons_ne_nil _ _, rfl, taken, rfl, found, left, ?_, ?_⟩
  · dsimp only
  · intro up ok issued unanswered
    have finds : ¬(up = .answered ∧ ok = true) := by
      rintro ⟨answered, okay⟩
      rcases unanswered with h | h
      · rw [answered] at h
        exact nomatch h
      · exact Bool.false_ne_true (h.symm.trans okay)
    refine (State.holdingStore_reset free released isPlaced issued).trans ?_
    rw [if_neg finds]

/-- A store that sets no further work is done at once. -/
theorem State.workDone_of_no_more (free : s.PortFree) (plain : (s.dev.countGrant.takeStore m x ws).1 = []) :
    ((s.storeLanded m x ws).workOn resetFuel).WorkDone := by
  have landed := s.storeLanded_upstream m x ws free
  rw [plain] at landed
  rw [Dev.workOn_done resetFuel landed rfl]
  exact ⟨_, landed, rfl, rfl⟩

/-- A code ring slot carried whole needs no access: it is taken, or is a repost. -/
theorem State.workDone_of_codeSlot {j : Nat} {seq : Word} (free : s.PortFree) (inRing : j < 128)
    (carried : ∀ k, k < 4 → (carriedWord (4 * j) ws (4 * j + k)).isSome = true)
    (number : carriedWord (4 * j) ws (4 * j + 3) = some seq)
    (slot : (s.dev.countGrant.takeStore m x ws).1 = [.codeSlot j (slotWords j (4 * j) ws)]) :
    ((s.storeLanded m x ws).workOn resetFuel).WorkDone := by
  have needless : codeNeeds (4 * j) ws j = [] := by
    unfold codeNeeds
    rw [List.filter_eq_nil_iff]
    intro k small
    have bound : k < 4 := by
      simp only [List.mem_cons, List.not_mem_nil, or_false] at small
      omega
    rw [Option.isNone_iff_eq_none]
    exact Option.ne_none_iff_isSome.2 (carried k bound)
  have landed := s.storeLanded_upstream m x ws free
  rw [slot] at landed
  obtain ⟨step, begun⟩ := Dev.workOn_succ 15 landed rfl rfl rfl
  rw [show resetFuel = 15 + 1 from rfl, step]
  by_cases repost : (j + 1) % 128 = (s.storeLanded m x ws).code.expected ∧ (s.storeLanded m x ws).code.last = some seq
  · have work : (s.storeLanded m x ws).codeWork j (slotWords j (4 * j) ws) = [] := by
      rw [Dev.codeWork_eq _ inRing number, if_pos repost]
    exact ⟨_, by rw [Dev.workOn_done 15 begun (congrArg (fun l => some (l ++ [])) work)]; exact begun,
      congrArg (fun l => some (l ++ [])) work, rfl⟩
  · have work : (s.storeLanded m x ws).codeWork j (slotWords j (4 * j) ws) = [.codeTake j (slotWords j (4 * j) ws)] := by
      rw [Dev.codeWork_eq _ inRing number, if_neg repost, needless]
      rfl
    obtain ⟨step', taken⟩ := Dev.workOn_succ 14 begun (congrArg (fun l => some (l ++ [])) work) rfl rfl
    rw [step', Dev.workOn_done 14 taken rfl]
    exact ⟨_, taken, rfl, rfl⟩

end

end Sys2Proof.Machine

namespace Sys2Proof

open Sys2Proof.Machine

/-- Settles O8. -/
theorem lineResetKeepsTheTrack : Obligations.LineResetKeepsTheTrack := by
  unfold Obligations.LineResetKeepsTheTrack
  refine ⟨fun s up ok released isPlaced => ⟨State.resetFinds_unanswered, ?_⟩, fun s write free ready released command => ?_⟩
  · have held := s.resetFinds_held up ok
    have parts := Dev.drainAll_lineReset_parts (s.resetFinds up ok)
    have current := Dev.drainAll_lineReset_current (d := s.resetFinds up ok)
    have pending := Dev.drainAll_lineReset_pending (d := s.resetFinds up ok)
    refine ⟨_, State.exec_lineReset released isPlaced, rfl, ?_⟩
    dsimp only
    generalize s.resetFinds up ok = found at *
    obtain ⟨slots, shape⟩ := parts
    have path := congrArg Dev.path shape
    have report := congrArg Dev.report shape
    have order := congrArg Dev.order shape
    refine ⟨(congrArg Dev.setup shape :), (congrArg Dev.track shape :),
      (congrArg Dev.pocket shape :), (congrArg Dev.valve shape :), (congrArg Dev.code shape :), (congrArg Dev.fill shape :),
      (congrArg Dev.weigh shape :), (congrArg ReportUnit.pending report :), (congrArg ReportUnit.queue report :),
      (congrArg ReportUnit.dropped report :), (congrArg ReportUnit.errAddr report :), (congrArg ReportUnit.reporting report :),
      fun p => ?_, (congrArg OrderUnit.service order :), (congrArg OrderUnit.writes order :), fun k now => ?_, pending,
      (congrArg PathUnit.bursts path :), (congrArg PathUnit.port path :), (congrArg PathUnit.waitCount path :),
      (congrArg PathUnit.latch path :), (congrArg PathUnit.faults path :), (congrArg PathUnit.lrst path :),
      ((congrArg PathUnit.upstream path :).trans held.behind), rfl, ?_, State.resetIssued_none, fun x out => ?_⟩
    · show found.lineReset.drainAll.order.places.get p = none
      rw [order]
      simp
    · have slot := current k now
      exact ⟨(congrArg RecipeSlot.st slot :).trans now, (congrArg RecipeSlot.recipe slot :),
        (congrArg RecipeSlot.members slot :), (congrArg RecipeSlot.ref slot :)⟩
    · rcases s.resetIssued_cases up with none_out | ⟨h, us, x, -, one⟩
      · exact (congrArg List.length none_out).trans_le (by decide)
      · exact (congrArg List.length one).le
    · rcases s.resetIssued_cases up with none_out | ⟨h, us, y, behind, one⟩
      · exact absurd (none_out ▸ out) List.not_mem_nil
      · obtain rfl : x = _ := List.mem_singleton.1 (one ▸ out)
        exact ⟨h, us, behind, rfl⟩
  · have isPlaced : s.dev.setup.part ≠ .unplaced := fun h => nomatch ready.1.symm.trans h
    have readyThen : s.dev.countGrant.setup.part = .ready := (Dev.part_countGrant s.dev).trans ready.1
    have base : s.dev.countGrant.base = s.dev.base := by
      unfold Dev.base
      rw [s.dev.countGrant_keeps.2.1]
    rcases command with ⟨m, w, rfl⟩ | ⟨m, j, ws, inRing, length, full, rfl⟩
    · have row : rowAt 0x140 = some ⟨0x140, 1, .position⟩ := rfl
      have fits : 0x140 + 4 * [w].length ≤ 0x140 + 4 * 1 := Nat.le_refl _
      refine State.lineReset_store free released isPlaced (m := m) (x := s.dev.base + 0x140) (ws := [w])
        (Dev.accepted ready.2 rfl row fits rfl) (Dev.workOf_write ready.1 rfl row fits Nat.one_pos) (fun a => rfl)
        (State.workDone_of_no_more free ?_)
      rw [Dev.takeStore_at readyThen (congrArg (· + 0x140) base.symm) row fits]
      show (if _ then _ else _ : List Micro × Dev).1 = []
      split <;> rfl
    · have row := (rowAt_window (0x800 + 4 * (4 * j))).2.2.2.2.1 (by omega)
      have fits : 0x800 + 4 * (4 * j) + 4 * ws.length ≤ 0x800 + 4 * 512 := by omega
      refine State.lineReset_store free released isPlaced (m := m) (x := s.dev.base + (0x800 + 4 * (4 * j))) (ws := ws)
        (Dev.accepted ready.2 rfl row fits rfl) (Dev.workOf_write ready.1 rfl row fits (by omega)) (fun a => ?_) ?_
      · refine (whenOk_rangeOk (by omega) (lengthOk_of_le (by omega) (by omega))).trans ?_
        unfold State.presentWrite Dev.windowAddr
        rw [Nat.add_assoc]
      · have taken : s.dev.countGrant.takeStore m (s.dev.base + (0x800 + 4 * (4 * j))) ws =
            if m.toNat = s.dev.countGrant.su.reader then (codeSlots (4 * j) ws, s.dev.countGrant)
            else ([], s.dev.countGrant) := by
          rw [Dev.takeStore_at readyThen (congrArg (· + _) base.symm) row fits,
            show (0x800 + 4 * (4 * j) - 0x800) / 4 = 4 * j by omega]
          rfl
        by_cases reader : m.toNat = s.dev.countGrant.su.reader
        · have carried (k : Nat) (bound : k < 4) : carriedWord (4 * j) ws (4 * j + k) = some (ws[k]'(by omega)).data := by
            unfold carriedWord
            rw [if_pos (Nat.le_add_right _ _), Nat.add_sub_cancel_left, List.getElem?_eq_getElem (by omega)]
            exact if_pos (full _ (List.getElem_mem _))
          refine State.workDone_of_codeSlot free inRing (fun k bound => by rw [carried k bound]; rfl)
            (carried 3 (by decide)) ?_
          rw [taken, if_pos reader]
          refine codeSlots_one (by omega) (carried 3 (by decide)) fun i other => ?_
          cases word : carriedWord (4 * j) ws (4 * i + 3) with
          | none => rfl
          | some w =>
            have within := carriedWord_some word
            omega
        · exact State.workDone_of_no_more free (by rw [taken, if_neg reader])

end Sys2Proof
end

section
/-! The control words of READY and the LOAD word: each stored, and taken when it was written whole. -/

namespace Sys2Proof.Machine

variable {s : State} {m : Master} {a : MemAns} {d : Dev} {w : WWord}

/-! ### A word of a one-word window -/

/-- What a block makes of the part matters only where the store finds it. -/
theorem State.stored_congr {x : Nat} {ws : List WWord} {f g : Dev → Dev} (h : f s.dev.countGrant = g s.dev.countGrant) :
    s.stored m x ws f = s.stored m x ws g := by
  unfold State.stored
  rw [h]

/-- A control word of READY is stored, and taken when all four byte enables are set (R159). -/
theorem State.presentWrite_control {off : Nat} {k : Window} (free : s.PortFree) (ready : s.Ready) (clean : a.clean)
    (row : rowAt off = some ⟨off, 1, k⟩) (unanswered : k.answered = false)
    (work : ∀ g x, writeWork g k x 0 [w] = [.store x [w]])
    (taken : ∀ d : Dev, d.takeReady m k 0 [w] = if isFull w = true then d.takeControl k w.data else ([], d))
    (done : ∀ d : Dev, (d.takeControl k w.data).1 = []) :
    s.presentWrite m off 0 [w] a =
      s.stored m (s.dev.base + off) [w] fun d => if w.be = 15#4 then (d.takeControl k w.data).2 else d := by
  have effect (d : Dev) : d.takeReady m k 0 [w] =
      ([], if w.be = 15#4 then (d.takeControl k w.data).2 else d) := by
    rw [taken]
    by_cases full : w.be = 15#4
    · rw [if_pos ((isFull_iff w).2 full), if_pos full, ← done d]
    · rw [if_neg (fun h => full ((isFull_iff w).1 h)), if_neg full]
  have idle (d : Dev) : (if w.be = 15#4 then (d.takeControl k w.data).2 else d).path.upstream = d.path.upstream := by
    split
    · exact (Dev.takeControl_block (.refl d) k w.data).upstream
    · rfl
  exact Host.Outcome.next.inj (State.control_write _ free ready clean row unanswered work
    (fun d _ _ _ _ _ _ => effect d) ((idle _).trans free.grant_up)).2

/-! ### What the blocks make of a control word -/

/-- MODE's bits 0 and 1 (R168). -/
theorem Dev.setMode_eq (x : Word) (d : Dev) : d.setMode x =
    { d with setup := { d.setup with enforce := x.getLsbD 0, trimApply := x.getLsbD 1 } } := by
  unfold Dev.setMode
  rw [bit_eq_getLsbD, bit_eq_getLsbD]

/-- Acknowledging causes of which none is pending changes nothing (R169). -/
theorem Dev.acknowledge_eq (mask : BitVec 21) (d : Dev) : d.acknowledge mask =
    if d.report.pending &&& mask ≠ 0 then
      { d with report := { d.report with pending := d.report.pending &&& ~~~mask, request := true } }
    else d := by
  have unchanged : d.report.pending &&& ~~~mask = d.report.pending ↔ d.report.pending &&& mask = 0 := by
    generalize d.report.pending = p
    constructor
    · intro h
      rw [← h, BitVec.and_assoc]
      simp
    · intro h
      apply BitVec.eq_of_getLsbD_eq
      intro i bound
      have bit := congrArg (fun x => BitVec.getLsbD x i) h
      simp only [BitVec.getLsbD_and, BitVec.getLsbD_not, bound, decide_true, Bool.true_and] at bit ⊢
      revert bit
      cases p.getLsbD i <;> cases mask.getLsbD i <;> simp
  unfold Dev.acknowledge
  dsimp only
  by_cases h : d.report.pending &&& mask = 0
  · rw [if_pos (unchanged.2 h), if_neg (not_not.2 h)]
  · rw [if_neg (fun k => h (unchanged.1 k)), if_pos h]

/-- The low half of the broadcast mask, or the high half, is replaced (R38). -/
theorem Dev.setMask_eq (x : Word) (d : Dev) :
    d.setMask false x = { d with fill := { d.fill with mask := d.fill.mask.extractLsb' 32 32 ++ x } } ∧
    d.setMask true x = { d with fill := { d.fill with mask := x ++ d.fill.mask.extractLsb' 0 32 } } := by
  rw [← lowMask_eq, ← highMask_eq]
  exact ⟨rfl, rfl⟩

theorem Cause.mask_eq_shift (c : Cause) : c.mask = 1#21 <<< c.bit := by
  cases c <;> rfl

theorem Cause.mask_getLsbD (c : Cause) (i : Nat) : c.mask.getLsbD i = true ↔ i = c.bit := by
  have small : c.bit < 21 := by cases c <;> decide
  rw [c.mask_eq_shift, BitVec.getLsbD_shiftLeft, BitVec.getLsbD_one]
  simp only [Bool.and_eq_true, decide_eq_true_eq, Bool.not_eq_true']
  rw [decide_eq_false_iff_not]
  omega

/-- A set of causes is empty exactly when it has no bit. -/
theorem ne_zero_iff_getLsbD (x : BitVec 21) : x ≠ 0 ↔ ∃ i, x.getLsbD i = true := by
  constructor
  · intro h
    by_contra none_set
    refine h (BitVec.eq_of_getLsbD_eq fun i _ => ?_)
    exact (Bool.eq_false_iff.2 fun k => none_set ⟨i, k⟩).trans BitVec.getLsbD_zero.symm
  · rintro ⟨i, set⟩ rfl
    exact Bool.false_ne_true (BitVec.getLsbD_zero.symm.trans set)

/-- Raising a cause (R169): it joins the set, and a status write is requested when that changes it. -/
theorem Dev.raise_placed (c : Cause) (isPlaced : d.setup.part ≠ .unplaced) : d.raise c = { d with report := { d.report with
    pending := d.report.pending ||| (1#21 <<< c.bit)
    request := if d.report.pending.getLsbD c.bit = true then d.report.request else true } } := by
  unfold Dev.raise
  rw [if_neg isPlaced, ← c.mask_eq_shift]
  by_cases already : d.report.pending.getLsbD c.bit = true
  · rw [if_pos already, if_pos already, Cause.mask_joined already]
  · rw [if_neg already, if_neg already]

/-- The error address is set beside the cause (R170). -/
theorem Dev.raiseAt_eq (c : Cause) (x : Nat) (d : Dev) :
    d.raiseAt c x = { d.raise c with report := { (d.raise c).report with errAddr := BitVec.ofNat 32 x } } := by
  unfold Dev.raiseAt Dev.raise
  dsimp only
  split
  · rfl
  · split <;> rfl

end Sys2Proof.Machine

namespace Sys2Proof

open Sys2Proof.Machine

/-- Settles O16. -/
theorem modeWriteSetsTheCopies : Obligations.ModeWriteSetsTheCopies := by
  unfold Obligations.ModeWriteSetsTheCopies
  intro s m w a free ready clean
  refine (congrArg _ (State.presentWrite_control (k := .mode) free ready clean rfl rfl (fun _ _ => rfl) (fun _ => rfl)
    fun _ => rfl)).trans (congrArg _ (State.stored_congr ?_))
  exact congrArg (fun t => if w.be = 15#4 then t else _) (Dev.setMode_eq w.data _)

/-- Settles O17: an acknowledgement (`Dev.acknowledge_eq`), a cause raised (`Dev.raise_placed`, `Dev.raiseAt_eq`), the
bits of the causes, and the enable set of each part state. -/
theorem ackWriteRemovesTheNamedCauses : Obligations.AckWriteRemovesTheNamedCauses := by
  unfold Obligations.AckWriteRemovesTheNamedCauses
  refine ⟨fun s m w a free ready clean => ?_, fun d c x => ⟨fun unplaced => if_pos unplaced, Dev.raise_placed c,
    Dev.raiseAt_eq c x d⟩, rfl, fun d => ⟨fun unplaced => ?_, fun unready i => ?_, fun ready u set => ?_, ?_⟩⟩
  · refine (congrArg _ (State.presentWrite_control (k := .ack) free ready clean rfl rfl (fun _ _ => rfl) (fun _ => rfl)
      fun _ => rfl)).trans (congrArg _ (State.stored_congr ?_))
    show (if w.be = 15#4 then Dev.acknowledge (w.data.truncate 21) _ else _) = _
    rw [Dev.acknowledge_eq]
    by_cases full : w.be = 15#4
    · refine (if_pos full).trans ?_
      by_cases named : s.dev.countGrant.report.pending &&& w.data.setWidth 21 ≠ 0
      · exact (if_pos named).trans (if_pos ⟨full, named⟩).symm
      · exact (if_neg named).trans (if_neg fun h => named h.2).symm
    · exact (if_neg full).trans (if_neg fun h => full h.1).symm
  · unfold SetupUnit.enableSet
    rw [unplaced]
  · have set : d.setup.enableSet = Cause.loadError.mask ||| Cause.pathFault.mask := by
      unfold SetupUnit.enableSet
      rcases unready with h | h <;> rw [h]
    rw [set, BitVec.getLsbD_or, Bool.or_eq_true, Cause.mask_getLsbD, Cause.mask_getLsbD]
  · unfold SetupUnit.enableSet
    rcases ready with h | h <;> rw [h, set]
  · unfold Dev.attn
    rw [decide_eq_true_eq, ne_zero_iff_getLsbD]
    simp only [BitVec.getLsbD_and, Bool.and_eq_true]

/-- Settles O18. -/
theorem selectionWritesTakeTheirHalf : Obligations.SelectionWritesTakeTheirHalf := by
  unfold Obligations.SelectionWritesTakeTheirHalf
  refine ⟨fun s m w a free ready clean => ⟨?_, ?_⟩, fun s m w a free ready clean => ⟨?_, ?_⟩⟩
  · exact congrArg _ (State.presentWrite_control (k := .queryRef) free ready clean rfl rfl (fun _ _ => rfl)
      (fun _ => rfl) fun _ => rfl)
  · exact congrArg _ (State.presentWrite_control (k := .queryCare) free ready clean rfl rfl (fun _ _ => rfl)
      (fun _ => rfl) fun _ => rfl)
  · refine (congrArg _ (State.presentWrite_control (k := .maskLo) free ready clean rfl rfl (fun _ _ => rfl)
      (fun _ => rfl) fun _ => rfl)).trans (congrArg _ (State.stored_congr ?_))
    exact congrArg (fun t => if w.be = 15#4 then t else _) (Dev.setMask_eq w.data _).1
  · refine (congrArg _ (State.presentWrite_control (k := .maskHi) free ready clean rfl rfl (fun _ _ => rfl)
      (fun _ => rfl) fun _ => rfl)).trans (congrArg _ (State.stored_congr ?_))
    exact congrArg (fun t => if w.be = 15#4 then t else _) (Dev.setMask_eq w.data _).2

end Sys2Proof
namespace Sys2Proof.Machine

variable {s : State} {m : Master} {a : MemAns} {d : Dev} {w : WWord}

/-! ### The LOAD word (R165) -/

/-- A LOAD word that is not taken. -/
theorem Dev.takeReady_load_idle {v : Word} {be : BitVec 4} (untaken : d.path.lrst = true ∨ be ≠ 15#4)
    (value : loadValueOf v ≠ none) : Dev.takeReady m .load 0 [{ data := v, be := be }] d = ([], d) := by
  show (if isFull { data := v, be := be } = true then _ else _) = _
  by_cases full : be = 15#4
  · rw [if_pos ((isFull_iff _).2 full)]
    have asserted : d.path.lrst = true := untaken.resolve_right (not_not.2 full)
    show (([], match loadValueOf v with | none => d | some x => d.takeLoad x) : List Micro × Dev) = _
    cases word : loadValueOf v with
    | none => exact absurd word value
    | some x => exact congrArg (Prod.mk []) (if_pos asserted)
  · exact if_neg fun h => full ((isFull_iff _).1 h)

/-- A whole LOAD word is taken as its value. -/
theorem Dev.takeReady_load {v : Word} {x : LoadValue} (value : loadValueOf v = some x) :
    Dev.takeReady m .load 0 [{ data := v, be := 15#4 }] d = ([], d.takeLoad x) := by
  show (([], match loadValueOf v with | none => d | some x => d.takeLoad x) : List Micro × Dev) = _
  rw [value]

/-- The first burst of a load and the part LOADING (R166). -/
def Dev.loadBegun (b : Bool) (d : Dev) : Dev :=
  { d with
    setup := { d.setup with part := .loading b, deferred := false, loadWords := [] }
    path := { d.path with bursts := d.path.bursts ++ [{ op := .setup, addr := d.base, kind := .read 8 }] } }

/-- Placing a burst in a placed part with LRST released (R162). -/
theorem Dev.placeBurst_placed (b : Burst) (isPlaced : d.setup.part ≠ .unplaced) (released : d.path.lrst = false) :
    d.placeBurst b = { d with path := { d.path with bursts := d.path.bursts ++ [b] } } :=
  if_neg (not_or.2 ⟨isPlaced, by rw [released]; exact Bool.false_ne_true⟩)

/-- The pending set emptied, a status write being requested if it held a cause (R165, R170). -/
theorem Dev.acknowledge_all (d : Dev) : d.acknowledge (~~~0#21) = { d with report := { d.report with
    pending := 0, request := d.report.request || decide (d.report.pending ≠ 0) } } := by
  rw [Dev.acknowledge_eq, BitVec.not_not]
  have all : d.report.pending &&& ~~~0#21 = d.report.pending := by rw [BitVec.not_zero, BitVec.and_allOnes]
  have none_left : d.report.pending &&& 0#21 = 0 := by simp
  rw [all, none_left]
  by_cases pending : d.report.pending = 0
  · rw [if_neg (not_not.2 pending), decide_eq_false (not_not.2 pending), Bool.or_false, ← pending]
  · rw [if_pos pending, decide_eq_true pending, Bool.or_true]

theorem Dev.takeLoad_unloaded (v : LoadValue) (released : d.path.lrst = false) (unloaded : d.setup.part = .unloaded) :
    d.takeLoad v = Dev.loadBegun false { d with report := { d.report with
      pending := 0, request := d.report.request || decide (d.report.pending ≠ 0) } } := by
  have begins : d.takeLoad v = d.beginLoad := by
    unfold Dev.takeLoad
    rw [released, unloaded]
    rfl
  rw [begins]
  unfold Dev.beginLoad
  rw [Dev.acknowledge_all, unloaded]
  exact Dev.placeBurst_placed _ (fun h => nomatch h) released

theorem Dev.takeLoad_stopped (v : LoadValue) (released : d.path.lrst = false) (ready : d.setup.part = .ready)
    (stopped : d.pocket.running = false) : d.takeLoad v = d.loadBegun true := by
  have begins : d.takeLoad v = d.beginLoad := by
    unfold Dev.takeLoad
    rw [released, ready, stopped]
    rfl
  rw [begins, Dev.beginLoad_ready ready]
  exact Dev.placeBurst_placed _ (fun h => nomatch h) released

theorem Dev.takeLoad_running (v : LoadValue) (released : d.path.lrst = false) (ready : d.setup.part = .ready)
    (running : d.pocket.running = true) : d.takeLoad v = match v with
      | .now => Dev.raise .loadError
          { d with setup := { d.setup with loadError := { code := .notStopped, field := 255 } } }
      | .atStop => { d with setup := { d.setup with deferred := true } } := by
  unfold Dev.takeLoad
  rw [released, ready, running]
  cases v <;> rfl

/-- What a grant counted leaves of the units that the LOAD word reads. -/
theorem Dev.countGrant_units (d : Dev) : d.countGrant.pocket = d.pocket ∧ d.countGrant.order = d.order ∧
    d.countGrant.report = d.report ∧ d.countGrant.path.memsize = d.path.memsize := by
  unfold Dev.countGrant
  split <;> exact ⟨rfl, rfl, rfl, rfl⟩

theorem Dev.countGrant_base (d : Dev) : d.countGrant.base = d.base := by
  unfold Dev.base
  rw [d.countGrant_keeps.2.1]

/-- A LOAD word stored, and taken by `f`. -/
theorem State.exec_load {x : LoadValue} {v : Word} {f : Dev → Dev} (free : s.PortFree)
    (isPlaced : s.dev.base < s.dev.size) (clean : a.clean)
    (part : s.dev.setup.part = .ready ∨ s.dev.setup.part = .unloaded) (value : loadValueOf v = some x)
    (effect : s.dev.countGrant.takeLoad x = f s.dev.countGrant) :
    Host.Outcome.next (s.presentWrite m 0x100 0 [{ data := v, be := 15#4 }] a) =
      (.next (s.stored m (s.dev.base + 0x100) [{ data := v, be := 15#4 }] f) : Host.Outcome State Fault Refusal) := by
  refine State.load_write f free isPlaced clean part ((Dev.takeReady_load value).trans (congrArg _ effect)) ?_
  rw [← effect]
  exact (Dev.takeLoad_block (.refl _) x).upstream.trans free.grant_up

end Sys2Proof.Machine

namespace Sys2Proof

open Sys2Proof.Machine

/-- Settles O19. -/
theorem loadWordBeginsALoad : Obligations.LoadWordBeginsALoad := by
  unfold Obligations.LoadWordBeginsALoad
  intro s m be a free isPlaced clean part st begun emptied
  obtain ⟨setup, -, lrst, -⟩ := s.dev.countGrant_keeps
  have partThen : s.dev.countGrant.setup.part = s.dev.setup.part := congrArg SetupUnit.part setup
  have runningThen : s.dev.countGrant.pocket.running = s.dev.pocket.running :=
    congrArg PocketUnit.running s.dev.countGrant_units.1
  have begin (b : Bool) (d : Dev) (base : d.base = s.dev.base) : d.loadBegun b = begun b d := by
    unfold Dev.loadBegun
    rw [base]
  have load {v : Word} {f : Dev → Dev} (x : LoadValue) (value : loadValueOf v = some x) (full : be = 15#4)
      (effect : s.dev.countGrant.takeLoad x = f s.dev.countGrant) :
      Host.Outcome.next (s.presentWrite m 0x100 0 [{ data := v, be := be }] a) =
        (.next (st v f) : Host.Outcome State Fault Refusal) := by
    subst full
    exact State.exec_load free isPlaced clean part value effect
  refine ⟨fun released full unloaded => ?_, fun released full ready stopped => ?_,
    fun released full ready running => ?_, fun untaken => ?_⟩
  · have effect (x : LoadValue) : s.dev.countGrant.takeLoad x = begun false (emptied s.dev.countGrant) :=
      (Dev.takeLoad_unloaded x (lrst.trans released) (partThen.trans unloaded)).trans
        (begin false _ s.dev.countGrant_base)
    exact ⟨load .now rfl full (effect _), load .atStop rfl full (effect _)⟩
  · have effect (x : LoadValue) : s.dev.countGrant.takeLoad x = begun true s.dev.countGrant :=
      (Dev.takeLoad_stopped x (lrst.trans released) (partThen.trans ready) (runningThen.trans stopped)).trans
        (begin true _ s.dev.countGrant_base)
    exact ⟨load .now rfl full (effect _), load .atStop rfl full (effect _)⟩
  · have effect (x : LoadValue) :=
      Dev.takeLoad_running x (lrst.trans released) (partThen.trans ready) (runningThen.trans running)
    exact ⟨load .now rfl full (effect _), load .atStop rfl full (effect _)⟩
  · have idle (v : Word) (value : loadValueOf v ≠ none) :=
      State.load_write (v := v) (be := be) (m := m) id free isPlaced clean part
        (Dev.takeReady_load_idle (untaken.imp_left lrst.trans) value) free.grant_up
    exact ⟨idle 1 (by decide), idle 2 (by decide)⟩

end Sys2Proof

namespace Sys2Proof.Machine

variable {d : Dev}

/-! ### The order words (R132, R139) -/

/-- A value of an order word that is no address (R132). -/
theorem Dev.addrOk_eq_false (d : Dev) (x : Nat) : d.addrOk x = false ↔ x % 4 ≠ 0 ∨ d.size ≤ x := by
  unfold Dev.addrOk
  rw [Bool.and_eq_false_iff, decide_eq_false_iff_not, decide_eq_false_iff_not]
  omega

theorem Dev.refuseOrder_busy (x : Nat) (d : Dev) :
    d.refuseOrder .busy x = Dev.raiseAt .orderError x (d.pushOrderWrite (x + 4) 0x102#32) := by
  unfold Dev.refuseOrder
  rw [orderStatusWord_error]
  rfl

/-- ORDER_A written (R132): the address test, BUSY while one is fetched, and else the fetch of the header word. -/
theorem Dev.orderAWritten_eq (isPlaced : d.setup.part ≠ .unplaced) (released : d.path.lrst = false) (w : Word) :
    d.orderAWritten w = if w.toNat = 0 then d
      else if w.toNat % 4 ≠ 0 ∨ d.size ≤ w.toNat then d.raiseAt .orderError w.toNat
      else if d.order.fetchA ≠ none then Dev.raiseAt .orderError w.toNat (d.pushOrderWrite (w.toNat + 4) 0x102#32)
      else { d with
        order := { d.order with fetchA := some { addr := w.toNat, got := [] } }
        path := { d.path with bursts := d.path.bursts ++ [{ op := .fetchA, addr := w.toNat, kind := .read 1 }] } } := by
  unfold Dev.orderAWritten
  dsimp only
  simp only [Dev.addrOk_eq_false, Dev.refuseOrder_busy, Option.isSome_iff_ne_none]
  refine if_congr Iff.rfl rfl (if_congr Iff.rfl rfl (if_congr Iff.rfl rfl ?_))
  exact Dev.placeBurst_placed _ isPlaced released

/-- ORDER_B written (R139): as ORDER_A, and BUSY while a service order is running too. -/
theorem Dev.orderBWritten_eq (isPlaced : d.setup.part ≠ .unplaced) (released : d.path.lrst = false) (w : Word) :
    d.orderBWritten w = if w.toNat = 0 then d
      else if w.toNat % 4 ≠ 0 ∨ d.size ≤ w.toNat then d.raiseAt .orderError w.toNat
      else if d.order.service ≠ none ∨ d.order.fetchB ≠ none then
        Dev.raiseAt .orderError w.toNat (d.pushOrderWrite (w.toNat + 4) 0x102#32)
      else { d with
        order := { d.order with fetchB := some { addr := w.toNat, got := [] } }
        path := { d.path with bursts := d.path.bursts ++ [{ op := .fetchB, addr := w.toNat, kind := .read 1 }] } } := by
  unfold Dev.orderBWritten
  dsimp only
  simp only [Dev.addrOk_eq_false, Dev.refuseOrder_busy, Option.isSome_iff_ne_none]
  refine if_congr Iff.rfl rfl (if_congr Iff.rfl rfl (if_congr Iff.rfl rfl ?_))
  exact Dev.placeBurst_placed _ isPlaced released

theorem Dev.countGrant_size (d : Dev) : d.countGrant.size = d.size := by
  obtain ⟨-, -, -, memsize⟩ := d.countGrant_units
  unfold Dev.size
  rw [memsize]

/-- A word taken only when written whole, and nothing done for the value 0. -/
theorem ite_full_eq {α : Type} {be : BitVec 4} {n : Nat} (x y : α) :
    (if be = 15#4 then (if n = 0 then x else y) else x) = if be ≠ 15#4 ∨ n = 0 then x else y := by
  by_cases full : be = 15#4
  · rw [if_pos full]
    exact if_congr (by simp [full]) rfl rfl
  · rw [if_neg full, if_pos (.inl full)]

end Sys2Proof.Machine

namespace Sys2Proof

open Sys2Proof.Machine

/-- Settles O20. -/
theorem orderWritesBeginTheFetch : Obligations.OrderWritesBeginTheFetch := by
  unfold Obligations.OrderWritesBeginTheFetch
  have still (s : State) (ready : s.Ready) (released : s.dev.path.lrst = false) :
      s.dev.countGrant.setup.part ≠ .unplaced ∧ s.dev.countGrant.path.lrst = false ∧
        s.dev.countGrant.size = s.dev.size ∧ s.dev.countGrant.order = s.dev.order := by
    obtain ⟨-, order, -, -⟩ := s.dev.countGrant_units
    obtain ⟨-, -, lrst, -⟩ := s.dev.countGrant_keeps
    refine ⟨fun h => ?_, lrst.trans released, s.dev.countGrant_size, order⟩
    exact nomatch ready.1.symm.trans ((Dev.part_countGrant s.dev).symm.trans h)
  refine ⟨fun s m w a free ready clean released => ?_, fun s m w a free ready clean released => ?_⟩
  · obtain ⟨isPlaced, lrst, size, order⟩ := still s ready released
    refine (congrArg _ (State.presentWrite_control (k := .orderA) free ready clean rfl rfl (fun _ _ => rfl)
      (fun _ => rfl) fun _ => rfl)).trans (congrArg _ (State.stored_congr ?_))
    have written := Dev.orderAWritten_eq isPlaced lrst w.data
    rw [← size, ← order]
    exact (congrArg (fun t => if w.be = 15#4 then t else _) written).trans (ite_full_eq _ _)
  · obtain ⟨isPlaced, lrst, size, order⟩ := still s ready released
    refine (congrArg _ (State.presentWrite_control (k := .orderB) free ready clean rfl rfl (fun _ _ => rfl)
      (fun _ => rfl) fun _ => rfl)).trans (congrArg _ (State.stored_congr ?_))
    have written := Dev.orderBWritten_eq isPlaced lrst w.data
    rw [← size, ← order]
    exact (congrArg (fun t => if w.be = 15#4 then t else _) written).trans (ite_full_eq _ _)

end Sys2Proof
end

section
/-! Doses, inspection reads and fill reads: the doses answered, the fills of a read, and the switching fill. -/

namespace Sys2Proof.Machine

variable {s : State} {m : Master} {a : MemAns} {d : Dev} {i n : Nat}

/-! ### Doses (R25 to R27) -/

theorem clampNat_eq_max_min {lo hi : Nat} (h : lo ≤ hi) (x : Nat) : clampNat lo hi x = max lo (min hi x) := by
  unfold clampNat
  split
  · omega
  · split <;> omega

/-- An idle or SUSPENDED valve is given 0 (R25, R26). -/
theorem Dev.doseFor_zero {v : Fin 64} {w : Word}
    (h : d.su.valves ≤ v.val ∨ w = 0 ∨ (d.valveRec v).st = .suspended) : d.doseFor v w = .zero := by
  refine if_pos ?_
  unfold Dev.idleValve
  rw [Bool.or_eq_true, decide_eq_true_eq, decide_eq_true_eq, or_assoc]
  exact h

/-- A valve in use is given its nominal, or the CURRENT recipe's dose (R25, R27). -/
theorem Dev.doseFor_used {v : Fin 64} {w : Word} (below : v.val < d.su.valves) (nonzero : w ≠ 0)
    (serving : (d.valveRec v).st ≠ .suspended) : d.doseFor v w = match d.currentSlot with
      | none => .untaught (clampNat 0 1048575 w.toNat)
      | some k => .dosed k (recipeDose (d.recipeOf k) w (d.issuedTrim v)) (d.issuedTrim v) := by
  refine if_neg ?_
  unfold Dev.idleValve
  rw [Bool.or_eq_true, decide_eq_true_eq, decide_eq_true_eq]
  rintro ((h | h) | h)
  · omega
  · exact nonzero h
  · exact serving h

/-- A dose within the recipe's limits (R27). -/
theorem recipeDose_eq {c : Recipe} (limits : c.doseFloor ≤ c.doseCeiling) (w : Word) (trim : Int) :
    (recipeDose c w trim : Int) = max (c.doseFloor : Int) (min (c.doseCeiling : Int) (w.toNat + trim)) := by
  unfold recipeDose
  rw [clampInt_eq_max_min (by omega)]
  omega

/-! ### Words of the issued view (R23, R31) -/

theorem wordsFrom_length (i n : Nat) : (wordsFrom i n).length = n := by
  unfold wordsFrom
  rw [List.length_map, List.length_range]

theorem map_wordsFrom {α : Type} (f : Nat → α) (i n : Nat) :
    (wordsFrom i n).map f = (List.range n).map fun k => f (i + k) := by
  unfold wordsFrom
  rw [List.map_map]
  rfl

theorem foldl_wordsFrom {α : Type} (f : α → Nat → α) (x : α) (i n : Nat) :
    (wordsFrom i n).foldl f x = (List.range n).foldl (fun c k => f c (i + k)) x := by
  unfold wordsFrom
  rw [List.foldl_map]

/-- Gathering one answer word after another. -/
theorem foldl_answers (f : Nat → Word) : ∀ (l : List Nat) (c : Ctx),
    l.foldl (fun c v => { c with ans := c.ans ++ [f v] }) c = { c with ans := c.ans ++ l.map f }
  | [], c => by rw [List.map_nil, List.append_nil]; rfl
  | v :: l, c => by
    rw [List.foldl_cons, foldl_answers f l, List.map_cons, List.append_assoc]
    rfl

/-- An accepted read of the issued view, as its work. -/
theorem State.exec_issued (ready : s.Ready) (n1 : 1 ≤ n) (n8 : n ≤ 8) (inside : i + n ≤ 64) :
    whenOk (rangeOk 64 i n) (s.presentRead m 0x400 i n a) =
        .next (s.present (.read m (s.dev.base + (0x400 + 4 * i)) n) a) ∧
      s.dev.refuses (.read m (s.dev.base + (0x400 + 4 * i)) n) = false ∧
      s.dev.workOf (.read m (s.dev.base + (0x400 + 4 * i)) n) =
        s.dev.readWork m .issued (s.dev.base + (0x400 + 4 * i)) i n := by
  have row := (rowAt_window (0x400 + 4 * i)).2.1 (by omega)
  have fits : 0x400 + 4 * i + 4 * n ≤ 0x400 + 4 * 64 := by omega
  refine ⟨?_, Dev.accepted ready.2 rfl row fits rfl, ?_⟩
  · rw [rangeOk_of_le inside n1 n8]
    unfold State.presentRead Dev.windowAddr
    rw [Nat.add_assoc]
    rfl
  · rw [Dev.workOf_read ready.1 rfl row fits n1, Nat.add_sub_cancel_left, Nat.mul_div_cancel_left _ (by decide)]

/-- The word an inspection of valve `v` is answered, its nominal being read from memory `mem` (R31). -/
def Dev.inspected (d : Dev) (mem : List Host.Cell) (v : Nat) : Word :=
  doseWord (d.doseFor (Fin.ofNat 64 v) (Memory.readWord mem (d.nomAddr v))).amount 0

/-- The words of an inspection read. -/
theorem State.serve_inspections (quiet : s.Quiet) (t : Txn) (l : List Nat) (c : Ctx) (n b : Nat) :
    State.serve (n + l.length) (b + l.length) (s.holding t (some (l.map Micro.inspect)) c) =
      State.serve n b (State.holding t (some [])
        { c with ans := c.ans ++ l.map (s.dev.inspected s.mem) }
        (s.issuing t.master (l.map fun v => .read (s.dev.nomAddr v) 1))) := by
  have reads := State.serve_reads t [] Micro.inspect s.dev.nomAddr (fun _ => 1)
    (fun c v ws => { c with ans := c.ans ++ [doseWord (s.dev.doseFor (Fin.ofNat 64 v) (wordAt ws 0)).amount 0] }) s.dev
    (fun _ _ => rfl) (fun _ _ _ _ => rfl) l c n b s rfl quiet
  rw [List.append_nil] at reads
  refine reads.trans ?_
  rw [← foldl_answers]
  rfl

/-! ### A fill read without the switching fill (R23, R24) -/

/-- No word of a fill read is the switching fill (R32). -/
def Dev.SwitchFree (d : Dev) (i n : Nat) : Prop :=
  d.slotIn .pending = none ∨
    (d.fill.switchDue = false ∧ ∀ e, d.order.cur = some e → e.canCount = 0 ∨ e.made + n ≤ e.canCount) ∨
    (∀ k < n, d.su.valves ≤ i + k ∨ (d.valveRec (Fin.ofNat 64 (i + k))).st = .suspended)

theorem Dev.foldl_formFill_made (f : Nat → Word) : ∀ (l : List Nat) (c : Ctx),
    (l.foldl (fun c v => d.formFill (Fin.ofNat 64 v) (f v) c) c).made ≤ c.made + l.length
  | [], c => Nat.le_refl _
  | v :: l, c => by
    have rest := Dev.foldl_formFill_made f l (d.formFill (Fin.ofNat 64 v) (f v) c)
    have first := d.formFill_made (Fin.ofNat 64 v) (f v) c
    rw [List.foldl_cons, List.length_cons]
    omega

theorem Dev.SwitchFree.switchAt (free : d.SwitchFree i n) (inside : i + n ≤ 64) (f : Nat → Word) (q : Word)
    (pre : List Nat) (v : Nat) (post : List Nat) (here : wordsFrom i n = pre ++ v :: post) :
    d.switchAt (Fin.ofNat 64 v)
      (pre.foldl (fun c v => d.formFill (Fin.ofNat 64 v) (f v) c) (Ctx.init q)) = none := by
  rcases free with none_pending | ⟨undue, uncounted⟩ | unused
  · exact Dev.switchAt_none none_pending _ _
  · refine Dev.switchAt_notDue undue (fun e cur => ?_) _
    have made := Dev.foldl_formFill_made (d := d) f pre (Ctx.init q)
    have init : (Ctx.init q).made = 0 := rfl
    have length := congrArg List.length here
    rw [wordsFrom_length, List.length_append, List.length_cons] at length
    rcases uncounted e cur with h | h
    · exact .inl h
    · exact .inr (by omega)
  · obtain ⟨k, small, rfl⟩ : ∃ k < n, i + k = v := by
      have member : v ∈ wordsFrom i n := here ▸ List.mem_append_right _ List.mem_cons_self
      obtain ⟨k, small, at'⟩ := List.mem_map.1 member
      exact ⟨k, List.mem_range.1 small, at'⟩
    refine Dev.switchAt_idle ((unused k small).imp_left fun h => ?_) _
    rw [Fin.val_ofNat, Nat.mod_eq_of_lt (by omega)]
    exact h

/-- The fills gathered take effect when the last is formed, and are answered. -/
theorem State.serve_fillEnd (t : Txn) (c : Ctx) (n b : Nat) (idle : s.dev.path.upstream = []) :
    State.serve (n + 2) b (s.holding t (some [.fillEnd]) c) =
      State.answer (.okay c.ans) { s with dev := (s.dev.takeFills c).settle } := by
  refine State.serve_last (c' := { c with formed := [] }) (d' := s.dev.takeFills c) n b rfl ?_
    ((Dev.takeFills_block (.refl _) c).upstream.trans idle)
  unfold Dev.workDone Held.at
  dsimp only
  rw [Dev.apart_idle idle]

end Sys2Proof.Machine

namespace Sys2Proof

open Sys2Proof.Machine

/-- Settles O21. -/
theorem doseFollowsNominalAndTrim : Obligations.DoseFollowsNominalAndTrim := by
  unfold Obligations.DoseFollowsNominalAndTrim
  refine fun d v nominal => ⟨Dev.doseFor_zero, fun below nonzero serving => ?_⟩
  have dose := Dev.doseFor_used below nonzero serving
  refine ⟨fun untaught => ?_, fun k current => ?_⟩
  · rw [dose, show d.currentSlot = none from untaught, clampNat_eq_max_min (by decide)]
    show Dose.untaught _ = Dose.untaught _
    congr 1
    omega
  · rw [show d.currentSlot = some k from current] at dose
    exact ⟨_, _, dose, rfl, fun limits => recipeDose_eq limits _ _⟩

/-- Settles O22. -/
theorem inspectionReadShowsTheDoses : Obligations.InspectionReadShowsTheDoses := by
  unfold Obligations.InspectionReadShowsTheDoses
  intro s m i n a quiet ready clean n1 n8 inside other nominal
  obtain ⟨run, accepted, work⟩ := State.exec_issued (m := m) (a := a) ready n1 n8 inside
  refine run.trans (congrArg _ ?_)
  rw [State.present_accepted quiet.upstream clean accepted, work]
  have laid : s.dev.readWork m .issued (s.dev.base + (0x400 + 4 * i)) i n = (wordsFrom i n).map Micro.inspect :=
    if_neg other
  rw [laid]
  have served := State.serve_inspections (s := s.portsClear) ⟨quiet.upstream, quiet.port, quiet.bursts, quiet.request⟩
    (.read m (s.dev.base + (0x400 + 4 * i)) n) (wordsFrom i n) (Ctx.init s.dev.fill.seq) (1023 - n) (1024 - n)
  rw [wordsFrom_length, show 1023 - n + n = 1023 by omega, show 1024 - n + n = 1024 by omega] at served
  refine served.trans ?_
  rw [show 1023 - n = 1022 - n + 1 by omega]
  refine (State.serve_done _ _ (by exact quiet.upstream)).trans ?_
  rw [map_wordsFrom, map_wordsFrom]
  unfold Dev.inspected
  simp only [doseWord_zero_tag]
  rfl

end Sys2Proof

namespace Sys2Proof.Machine

variable {s : State} {m : Master} {a : MemAns} {d : Dev} {i n : Nat}

/-- What the fills of the words `i` to `i + n - 1` gather, their nominals being in memory `mem` (R23). -/
def Dev.fillsFormed (d : Dev) (mem : List Host.Cell) (i n : Nat) : Ctx :=
  (List.range n).foldl (fun c k => d.formFill (Fin.ofNat 64 (i + k))
    (Memory.readWord mem (d.base + 0x300 + 4 * (i + k))) c) (Ctx.init d.fill.seq)

/-- The nominal's fetch of each word. -/
def Dev.nominalReads (d : Dev) (i n : Nat) : List Access :=
  (List.range n).map fun k => .read (d.base + 0x300 + 4 * (i + k)) 1

theorem Dev.readWork_sequencer (sequencer : m.toNat = d.su.sequencer) (x : Nat) :
    d.readWork m .issued x i n = (wordsFrom i n).map Micro.fill ++ [.fillEnd] := if_pos sequencer

/-- A fill read none of whose words is the switching fill (R23). -/
theorem State.present_fills (quiet : s.Quiet) (ready : s.Ready) (clean : a.clean) (n1 : 1 ≤ n) (n8 : n ≤ 8)
    (inside : i + n ≤ 64) (sequencer : m.toNat = s.dev.su.sequencer) (free : s.dev.SwitchFree i n) :
    exec (.fillEvent m i n a) s = .next (State.served m (s.dev.nominalReads i n)
      (.okay (s.dev.fillsFormed s.mem i n).ans)
      { s with dev := Dev.settle (s.dev.takeFills (s.dev.fillsFormed s.mem i n)) }) := by
  obtain ⟨run, accepted, work⟩ := State.exec_issued (m := m) (a := a) ready n1 n8 inside
  refine run.trans (congrArg _ ?_)
  rw [State.present_accepted quiet.upstream clean accepted, work, Dev.readWork_sequencer sequencer]
  have served := State.serve_fills (.read m (s.dev.base + (0x400 + 4 * i)) n) [.fillEnd] (wordsFrom i n)
    (Ctx.init s.dev.fill.seq) (1023 - n) (1024 - n) s.portsClear
    ⟨quiet.upstream, quiet.port, quiet.bursts, quiet.request⟩
    (free.switchAt inside (fun v => Memory.readWord s.mem (s.dev.base + 0x300 + 4 * v)) _)
  rw [wordsFrom_length, show 1023 - n + n = 1023 by omega, show 1024 - n + n = 1024 by omega, foldl_wordsFrom,
    map_wordsFrom (α := Access)] at served
  refine served.trans ?_
  rw [show 1023 - n = 1021 - n + 2 by omega]
  exact State.serve_fillEnd _ _ _ _ quiet.upstream

/-- Such a read with a FAULT on the fetch of its word `j` (R24). -/
theorem State.present_fills_fault {j : Nat} (quiet : s.Quiet) (ready : s.Ready) (fault : a.faultAt = some j)
    (pause : a.pauseAt = none) (n1 : 1 ≤ n) (n8 : n ≤ 8) (inside : i + n ≤ 64)
    (sequencer : m.toNat = s.dev.su.sequencer) (free : s.dev.SwitchFree i n) (within : j < n) :
    exec (.fillEvent m i n a) s = .next (State.served m (s.dev.nominalReads i (j + 1)) .fault
      { s with dev := Dev.settle s.dev.drainAll }) := by
  obtain ⟨run, accepted, work⟩ := State.exec_issued (m := m) (a := a) ready n1 n8 inside
  refine run.trans (congrArg _ ?_)
  rw [State.present_faulting quiet.upstream fault pause accepted, work, Dev.readWork_sequencer sequencer]
  have first : (wordsFrom i n).take (j + 1) = wordsFrom i (j + 1) := by
    unfold wordsFrom
    rw [← List.map_take, List.take_range, Nat.min_eq_left (by omega)]
  have served := State.serve_fills_fault (.read m (s.dev.base + (0x400 + 4 * i)) n) [.fillEnd] (wordsFrom i n)
    (Ctx.init s.dev.fill.seq) j 1023 1024 s.portsClear
    ⟨quiet.upstream, quiet.port, quiet.bursts, quiet.request⟩
    (free.switchAt inside (fun v => Memory.readWord s.mem (s.dev.base + 0x300 + 4 * v)) _)
    (by rw [wordsFrom_length]; exact within) (by rw [wordsFrom_length]; omega) (by rw [wordsFrom_length]; omega)
  rw [first, map_wordsFrom (α := Access)] at served
  refine served.trans ?_
  rw [show s.portsClear.dev.unserved = Dev.settle s.dev.drainAll from rfl]
  generalize Dev.settle s.dev.drainAll = left
  rfl

/-! ### The switching fill (R32 to R34) -/

/-- The writes of the new recipe's nominal list, if it has one (R33 step 1). -/
def listPuts (r : Recipe) : Nat := if r.nominals.isSome then 8 else 0

theorem Dev.fillWork_eq (k : Fin 4) (v : Nat) : d.fillWork k v =
    (List.range (listPuts (d.recipeOf k))).map Micro.switchPut ++ [.switchCommit, .fillFetch v] := by
  unfold Dev.fillWork listPuts
  cases (d.recipeOf k).nominals.isSome <;> rfl

/-- The first PENDING fill of a valve in use is the switching fill while the flag is set (R32). -/
theorem Dev.switchAt_due {k : Fin 4} (due : d.fill.switchDue = true) (pending : d.slotIn .pending = some k)
    (valve : i < 64) (below : i < d.su.valves) (serving : (d.valveRec (Fin.ofNat 64 i)).st ≠ .suspended) (c : Ctx) :
    d.switchAt (Fin.ofNat 64 i) c = some k := by
  unfold Dev.switchAt
  rw [if_pos ⟨by rw [due]; rfl, by rw [Fin.val_ofNat, Nat.mod_eq_of_lt valve]; exact below, serving⟩, pending]

/-- No fill is tentative while the read has formed none. -/
theorem Dev.tentative_withUp {u : List Held} (unformed : ∀ h ∈ u.head?, h.ctx.formed = []) (idle : d.path.upstream = [])
    (j : Fin 4) : (d.withUp u).tentative j = d.tentative j := by
  have before : d.tentative j = false := by
    unfold Dev.tentative
    rw [idle]
  rw [before]
  unfold Dev.tentative Dev.withUp
  cases u with
  | nil => rfl
  | cons h us =>
    dsimp only
    rw [unformed h rfl]
    rfl

section
variable {t : Txn} {mi : Micro} {rest more : List Micro} {c c' : Ctx} {d' : Dev} {x : Access}

/-- A granted access, memory answering OKAY, whatever of the part's own waits for the port. -/
theorem State.serve_granted (n b : Nat) (granted : s.dev.grantable = true) (access : mi.access c s.dev = some x)
    (done : (s.dev.countGrant.withUp [Held.at t mi rest c]).workDone (Held.at t mi rest c) (x.words s.mem) mi =
      (more, c', d'.withUp [Held.at t mi rest c])) :
    State.serve (n + 1) (b + 1) (s.holding t (some (mi :: rest)) c) = State.serve n b
      (State.holding t (some (more ++ rest)) c'
        { s.issue (.upstream t.master) x with mem := x.land s.mem, dev := d'.settle }) := by
  refine (State.serve_grant (s := s.holding t (some (mi :: rest)) c) n b rfl rfl
    ((Micro.access_withUp _ _ _ _).trans access) granted).trans (congrArg (State.serve n b) ?_)
  have counted : (s.holding t (some (mi :: rest)) c).dev.countGrant =
      s.dev.countGrant.withUp [Held.at t mi rest c] := Dev.countGrant_withUp _ _
  have progress : Dev.progress (Held.at t mi rest c) mi rest (x.words s.mem)
      (s.dev.countGrant.withUp [Held.at t mi rest c]) =
      d'.settle.withUp [{ Held.at t mi rest c with work := some (more ++ rest), ctx := c' }] := by
    unfold Dev.progress
    rw [done]
    dsimp only
    rw [Dev.setHead_withUp, Dev.settle_withUp]
  unfold State.grantAccess
  dsimp only
  rw [counted]
  exact congrArg (fun d => ({ s.issue (.upstream t.master) x with mem := x.land s.mem, dev := d } : State)) progress

theorem Dev.faultEnds_switching (h : Held) (idle : d.path.upstream = []) (switching : mi.switching = true) :
    Dev.faultEnds mi (d.withUp [h]) = Dev.settle (Dev.decideHeld d.drainAll) := by
  unfold Dev.faultEnds
  rw [Dev.freePort_withUp, Dev.withUp_idle idle]
  exact congrArg Dev.settle (if_pos switching)

/-- A granted access of the switching fill that memory answers FAULT ends the transaction (R34, R159). -/
theorem State.serve_granted_fault (n b : Nat) (idle : s.dev.path.upstream = []) (granted : s.dev.grantable = true)
    (access : mi.access c s.dev = some x) (switching : mi.switching = true) :
    State.serve (n + 1) (b + 1) (s.faulting t (some (mi :: rest)) c 0) = State.answer .fault
      { s.issue (.upstream t.master) x with dev := Dev.settle (Dev.decideHeld s.dev.countGrant.drainAll) } := by
  refine (State.serve_grant (s := s.faulting t (some (mi :: rest)) c 0) n b rfl rfl
    ((Micro.access_withUp _ _ _ _).trans access) granted).trans ?_
  have still : s.dev.countGrant.path.upstream = [] := s.dev.countGrant_keeps.2.2.2.trans idle
  have up : (Dev.settle (Dev.decideHeld s.dev.countGrant.drainAll)).path.upstream = [] :=
    (Dev.settle_block (Dev.decideHeld_block (Dev.drainAll_block (.refl _)))).upstream.trans still
  have ends := Dev.faultEnds_switching (mi := mi)
    { txn := t, faultAt := some 0, work := some (mi :: rest), ctx := c } still switching
  generalize Dev.settle (Dev.decideHeld s.dev.countGrant.drainAll) = left at up ends ⊢
  have counted : (s.faulting t (some (mi :: rest)) c 0).dev.countGrant = s.dev.countGrant.withUp
      [{ txn := t, faultAt := some 0, work := some (mi :: rest), ctx := c }] := Dev.countGrant_withUp _ _
  unfold State.grantAccess
  dsimp only
  rw [counted, ends]
  exact State.serve_idle _ _ up

end

end Sys2Proof.Machine
end

section
/-! The switching fill of a read: the list's writes, the switch, and the fill under the new recipe. -/

namespace Sys2Proof.Machine

variable {s : State} {m : Master} {a : MemAns} {d : Dev} {i : Nat} {k : Fin 4} {t : Txn} {q : Word}

/-- The next fill is the switching fill (R32): the flag is set, slot `k` is PENDING, and valve `i` is in use. -/
structure Dev.SwitchDue (d : Dev) (k : Fin 4) (i : Nat) : Prop where
  flag    : d.fill.switchDue = true
  pending : d.slotIn .pending = some k
  valve   : i < 64
  below   : i < d.su.valves
  serving : (d.valveRec (Fin.ofNat 64 i)).st ≠ .suspended

/-- Memory after the first `j` writes of the new recipe's list (R33 step 1). -/
def Dev.listWritten (d : Dev) (k : Fin 4) (mem : List Host.Cell) (j : Nat) : List Host.Cell :=
  (List.range j).foldl (fun mem j => (d.listPut k j).land mem) mem

/-- The part when the switch has been made and its requests are met. -/
def Dev.switchMade (d : Dev) (k : Fin 4) (q : Word) : Dev := Dev.settle (d.switchTo k (Ctx.init q))

theorem Dev.workDone_switchCommit {h : Held} (idle : d.path.upstream = []) (pending : d.slotIn .pending = some k)
    (ctx : h.ctx = Ctx.init q) :
    (d.withUp [h]).workDone h [] .switchCommit = ([], Ctx.init q, (d.switchTo k (Ctx.init q)).withUp [h]) := by
  have switched := Dev.switchTo_withUp (u := [h]) (d := d) (k := k) (c := Ctx.init q) (h := fun d idle j =>
    Dev.tentative_withUp (u := [h]) (fun g head => by
      obtain rfl : h = g := Option.some.inj head
      rw [ctx]
      rfl) idle j) (hd := idle)
  unfold Dev.workDone
  rw [ctx, show (d.withUp [h]).slotIn .pending = some k from pending]
  dsimp only
  rw [switched]
  rfl

/-- The switching fill's word becomes the switch and the fetch. -/
theorem Dev.SwitchDue.workDone_fill (due : d.SwitchDue k i) (h : Held) (u : List Held) :
    (d.withUp u).workDone h [] (.fill i) = (d.fillWork k i, h.ctx, d.withUp u) := by
  have found := Dev.switchAt_due due.flag due.pending due.valve due.below due.serving h.ctx
  unfold Dev.workDone
  dsimp only
  rw [show (d.withUp u).switchAt (Fin.ofNat 64 i) h.ctx = some k from found]
  rfl

theorem Dev.SwitchDue.access_fill (due : d.SwitchDue k i) (c : Ctx) : (Micro.fill i).access c d = none := by
  have found := Dev.switchAt_due due.flag due.pending due.valve due.below due.serving c
  unfold Micro.access
  dsimp only
  rw [found]
  rfl

/-- The switching fill up to the fetch of its nominal. -/
theorem State.serve_switch (due : s.dev.SwitchDue k i) (quiet : s.Quiet) (n b : Nat) :
    State.serve (n + 1 + listPuts (s.dev.recipeOf k) + 1) (b + listPuts (s.dev.recipeOf k))
        (s.holding t (some [.fill i, .fillEnd]) (Ctx.init q)) =
      State.serve n b (State.holding t (some [.fillFetch i, .fillEnd]) (Ctx.init q)
        (State.issuing t.master ((List.range (listPuts (s.dev.recipeOf k))).map (s.dev.listPut k))
          { s with mem := s.dev.listWritten k s.mem (listPuts (s.dev.recipeOf k)), dev := s.dev.switchMade k q })) := by
  have laid := State.serve_plain (s := s) (t := t) (mi := .fill i) (rest := [.fillEnd]) (c := Ctx.init q)
    (c' := Ctx.init q) (d' := s.dev) (more := s.dev.fillWork k i) (n + 1 + listPuts (s.dev.recipeOf k))
    (b + listPuts (s.dev.recipeOf k)) (due.access_fill _) (due.workDone_fill _ _)
    quiet.request
  have puts := State.serve_puts t [.switchCommit, .fillFetch i, .fillEnd] (Ctx.init q) k
    (List.range (listPuts (s.dev.recipeOf k))) (n + 1) b s quiet due.pending
  rw [List.length_range] at puts
  rw [Dev.fillWork_eq, List.append_assoc, List.cons_append, List.cons_append, List.nil_append] at laid
  rw [laid, puts]
  unfold Dev.switchMade Dev.listWritten
  refine (State.serve_settled (s := State.issuing t.master
      ((List.range (listPuts (s.dev.recipeOf k))).map (s.dev.listPut k))
      { s with mem := _ }) (mi := .switchCommit)
    (rest := [.fillFetch i, .fillEnd]) (more := []) (c := Ctx.init q) (c' := Ctx.init q)
    (d' := s.dev.switchTo k (Ctx.init q)) n b rfl
    (Dev.workDone_switchCommit (k := k) (q := q) quiet.upstream due.pending rfl)).trans (congrArg (State.serve n b) ?_)
  generalize Dev.settle (s.dev.switchTo k (Ctx.init q)) = made
  rfl

/-- The same, a later access being the one that memory answers FAULT. -/
theorem State.serve_switch_before (due : s.dev.SwitchDue k i) (quiet : s.Quiet) (n b f : Nat) :
    State.serve (n + 1 + listPuts (s.dev.recipeOf k) + 1) (b + listPuts (s.dev.recipeOf k))
        (s.faulting t (some [.fill i, .fillEnd]) (Ctx.init q) (f + listPuts (s.dev.recipeOf k))) =
      State.serve n b (State.faulting t (some [.fillFetch i, .fillEnd]) (Ctx.init q) f
        (State.issuing t.master ((List.range (listPuts (s.dev.recipeOf k))).map (s.dev.listPut k))
          { s with mem := s.dev.listWritten k s.mem (listPuts (s.dev.recipeOf k)), dev := s.dev.switchMade k q })) := by
  have laid := State.serve_plain_fault (s := s) (t := t) (mi := .fill i) (rest := [.fillEnd]) (c := Ctx.init q)
    (c' := Ctx.init q) (d' := s.dev) (more := s.dev.fillWork k i) (n + 1 + listPuts (s.dev.recipeOf k))
    (b + listPuts (s.dev.recipeOf k)) (f + listPuts (s.dev.recipeOf k))
    (due.access_fill _) (fun h _ ctx => by rw [due.workDone_fill, ctx])
  have puts := State.serve_puts_before t [.switchCommit, .fillFetch i, .fillEnd] (Ctx.init q) k
    (List.range (listPuts (s.dev.recipeOf k))) f (n + 1) b s quiet due.pending
  rw [List.length_range] at puts
  rw [Dev.fillWork_eq, List.append_assoc, List.cons_append, List.cons_append, List.nil_append,
    Dev.settle_quiet quiet.request] at laid
  rw [laid, puts]
  unfold Dev.switchMade Dev.listWritten
  refine (State.serve_plain_fault (s := State.issuing t.master
      ((List.range (listPuts (s.dev.recipeOf k))).map (s.dev.listPut k))
      { s with mem := _ }) (mi := .switchCommit)
    (rest := [.fillFetch i, .fillEnd]) (more := []) (c := Ctx.init q) (c' := Ctx.init q)
    (d' := s.dev.switchTo k (Ctx.init q)) n b f rfl
    (fun h _ ctx => Dev.workDone_switchCommit (k := k) (q := q) quiet.upstream due.pending ctx)).trans
      (congrArg (State.serve n b) ?_)
  generalize Dev.settle (s.dev.switchTo k (Ctx.init q)) = made
  rfl

/-- A FAULT on one of the list's writes stops the switch there (R34). -/
theorem State.serve_switch_fault (due : s.dev.SwitchDue k i) (quiet : s.Quiet) (n b j : Nat)
    (within : j < listPuts (s.dev.recipeOf k)) (fuel : 8 ≤ n) (budget : 8 ≤ b) :
    State.serve (n + 1) b (s.faulting t (some [.fill i, .fillEnd]) (Ctx.init q) j) =
      State.answer .fault (State.issuing t.master ((List.range (j + 1)).map (s.dev.listPut k))
        { s with mem := s.dev.listWritten k s.mem j, dev := Dev.settle (Dev.decideHeld s.dev.drainAll) }) := by
  have laid := State.serve_plain_fault (s := s) (t := t) (mi := .fill i) (rest := [.fillEnd]) (c := Ctx.init q)
    (c' := Ctx.init q) (d' := s.dev) (more := s.dev.fillWork k i) n b j
    (due.access_fill _) (fun h _ ctx => by rw [due.workDone_fill, ctx])
  have few : listPuts (s.dev.recipeOf k) ≤ 8 := by
    unfold listPuts
    split <;> omega
  have puts := State.serve_puts_fault t [.switchCommit, .fillFetch i, .fillEnd] (Ctx.init q) k
    (List.range (listPuts (s.dev.recipeOf k))) j n b s quiet due.pending (by rw [List.length_range]; exact within)
    (by rw [List.length_range]; omega) (by rw [List.length_range]; omega)
  have first (l : Nat) (h : l ≤ listPuts (s.dev.recipeOf k)) :
      (List.range (listPuts (s.dev.recipeOf k))).take l = List.range l := by
    rw [List.take_range, Nat.min_eq_left h]
  rw [first (j + 1) within, first j (by omega)] at puts
  rw [Dev.fillWork_eq, List.append_assoc, List.cons_append, List.cons_append, List.nil_append,
    Dev.settle_quiet quiet.request] at laid
  exact laid.trans puts

theorem Dev.settle_port (d : Dev) : d.settle.path.port = d.path.port := by
  obtain ⟨_, _, _, _, shape⟩ := d.settle_shape
  rw [shape]

/-- A block's work apart from the one transaction held. -/
theorem Dev.apart_withUp {α : Type} {h : Held} (idle : d.path.upstream = []) (f : Dev → α × Dev) :
    (d.withUp [h]).apart f = ((f d).1, (f d).2.withUp [h]) := by
  unfold Dev.apart
  rw [Dev.withUp_withUp, Dev.withUp_idle idle]
  rfl

/-- The switch leaves the port as it was: idle, and granted while the wait count is below 4. -/
theorem Dev.switchMade_port (idle : d.path.upstream = []) (port : d.path.port = none)
    (below : d.path.waitCount < 4) :
    (d.switchMade k q).path.upstream = [] ∧ (d.switchMade k q).grantable = true := by
  have step : BlockStep d (d.switchMade k q) := Dev.settle_block (Dev.switchTo_block (.refl d) k _)
  have free : (d.switchMade k q).path.port = none := by
    unfold Dev.switchMade
    rw [Dev.settle_port, Dev.switchTo_port, port]
  refine ⟨step.upstream.trans idle, ?_⟩
  unfold Dev.grantable
  rw [free, step.wait, decide_eq_true below, Bool.or_true]
  rfl

/-- The fill's word is formed under the new recipe, and a waiting acceptance is decided (R32, R33). -/
theorem Dev.workDone_fillFetch {h : Held} (idle : d.path.upstream = []) (mem : List Host.Cell) :
    (d.withUp [h]).workDone h (Memory.readWords mem (d.nomAddr i) 1) (.fillFetch i) =
      ([], d.formFill (Fin.ofNat 64 i) (Memory.readWord mem (d.nomAddr i)) h.ctx, d.decideHeld.withUp [h]) := by
  unfold Dev.workDone
  dsimp only
  rw [Dev.apart_withUp idle]
  rfl

/-- The last fetch of a switching fill's read, and the fill it forms. -/
theorem State.serve_fetchFill (idle : s.dev.path.upstream = []) (granted : s.dev.grantable = true) (c : Ctx) (n b : Nat) :
    State.serve (n + 3) (b + 1) (s.holding t (some [.fillFetch i, .fillEnd]) c) =
      State.answer (.okay
          (s.dev.countGrant.formFill (Fin.ofNat 64 i) (Memory.readWord s.mem (s.dev.nomAddr i)) c).ans)
        { s.issue (.upstream t.master) (.read (s.dev.nomAddr i) 1) with
          dev := Dev.settle (Dev.takeFills
            (s.dev.countGrant.formFill (Fin.ofNat 64 i) (Memory.readWord s.mem (s.dev.nomAddr i)) c)
            (Dev.settle s.dev.countGrant.decideHeld)) } := by
  have still : s.dev.countGrant.path.upstream = [] := s.dev.countGrant_keeps.2.2.2.trans idle
  have same : s.dev.countGrant.nomAddr i = s.dev.nomAddr i := by
    unfold Dev.nomAddr
    rw [Dev.countGrant_base]
  have done (h : Held) : (s.dev.countGrant.withUp [h]).workDone h
      ((Access.read (s.dev.nomAddr i) 1).words s.mem) (.fillFetch i) =
      ([], s.dev.countGrant.formFill (Fin.ofNat 64 i) (Memory.readWord s.mem (s.dev.nomAddr i)) h.ctx,
        s.dev.countGrant.decideHeld.withUp [h]) := by
    have formed := Dev.workDone_fillFetch (h := h) (i := i) still s.mem
    rw [same] at formed
    exact formed
  rw [State.serve_granted (mi := .fillFetch i) (rest := [.fillEnd]) (c := c) (more := []) (n + 2) b granted rfl (done _)]
  refine (State.serve_fillEnd _ _ _ _ ?_).trans ?_
  · exact ((Dev.settle_block (.refl _)).upstream).trans ((Dev.decideHeld_block (.refl _)).upstream.trans still)
  · rfl

theorem Dev.switchMade_block (d : Dev) : BlockStep d (d.switchMade k q) :=
  Dev.settle_block (Dev.switchTo_block (.refl d) k _)

/-- The address of a nominal depends on the straps alone. -/
theorem Dev.switchMade_nomAddr (d : Dev) (v : Nat) : (d.switchMade k q).nomAddr v = d.nomAddr v := by
  unfold Dev.nomAddr Dev.base
  rw [(Dev.switchMade_block d).cabase]

/-- The part when the switching fill's nominal is fetched. -/
def Dev.fetchesFill (d : Dev) (k : Fin 4) : Dev := (d.switchMade k d.fill.seq).countGrant

/-- The switching fill formed under the new recipe, its nominal being read from memory `mem`. -/
def Dev.switchedFill (d : Dev) (k : Fin 4) (i : Nat) (mem : List Host.Cell) : Ctx :=
  (d.fetchesFill k).formFill (Fin.ofNat 64 i) (Memory.readWord mem (d.nomAddr i)) (Ctx.init d.fill.seq)

section
variable (due : s.dev.SwitchDue k i) (ready : s.Ready) (sequencer : m.toNat = s.dev.su.sequencer)
include due ready sequencer

/-- A read of one word that is the switching fill, as the work it is given. -/
theorem State.exec_switchFill : exec (.fillEvent m i 1 a) s =
      .next (s.present (.read m (s.dev.base + (0x400 + 4 * i)) 1) a) ∧
    s.dev.refuses (.read m (s.dev.base + (0x400 + 4 * i)) 1) = false ∧
    s.dev.workOf (.read m (s.dev.base + (0x400 + 4 * i)) 1) = [.fill i, .fillEnd] := by
  have valve := due.valve
  obtain ⟨run, accepted, work⟩ := State.exec_issued (m := m) (a := a) (i := i) (n := 1) ready (Nat.le_refl 1)
    (by decide) (by omega)
  exact ⟨run, accepted, work.trans (Dev.readWork_sequencer sequencer _)⟩

/-- The switching fill, memory answering OKAY (R32, R33). -/
theorem State.present_switchFill (quiet : s.Quiet) (clean : a.clean) (below : s.dev.path.waitCount < 4) :
    exec (.fillEvent m i 1 a) s = .next (State.served m
      ((List.range (listPuts (s.dev.recipeOf k))).map (s.dev.listPut k) ++ [.read (s.dev.nomAddr i) 1])
      (.okay (s.dev.switchedFill k i (s.dev.listWritten k s.mem (listPuts (s.dev.recipeOf k)))).ans)
      { s with
        mem := s.dev.listWritten k s.mem (listPuts (s.dev.recipeOf k))
        dev := Dev.settle (Dev.takeFills
          (s.dev.switchedFill k i (s.dev.listWritten k s.mem (listPuts (s.dev.recipeOf k))))
          (Dev.settle (s.dev.fetchesFill k).decideHeld)) }) := by
  obtain ⟨run, accepted, work⟩ := State.exec_switchFill (m := m) (a := a) due ready sequencer
  refine run.trans (congrArg _ ?_)
  rw [State.present_accepted quiet.upstream clean accepted, work]
  have few : listPuts (s.dev.recipeOf k) ≤ 8 := by
    unfold listPuts
    split <;> omega
  obtain ⟨idle, granted⟩ := Dev.switchMade_port (k := k) (q := s.dev.fill.seq) quiet.upstream quiet.port below
  have base := Dev.switchMade_nomAddr (k := k) (q := s.dev.fill.seq) s.dev i
  have switch := State.serve_switch (s := s.portsClear) (t := .read m (s.dev.base + (0x400 + 4 * i)) 1)
    (q := s.dev.fill.seq) due ⟨quiet.upstream, quiet.port, quiet.bursts, quiet.request⟩
    (1018 - listPuts (s.dev.recipeOf k) + 3) (1023 - listPuts (s.dev.recipeOf k) + 1)
  rw [State.portsClear_dev, show 1018 - listPuts (s.dev.recipeOf k) + 3 + 1 + listPuts (s.dev.recipeOf k) + 1 = 1023 by omega,
    show 1023 - listPuts (s.dev.recipeOf k) + 1 + listPuts (s.dev.recipeOf k) = 1024 by omega] at switch
  refine switch.trans ?_
  unfold Dev.switchedFill Dev.fetchesFill
  generalize s.dev.switchMade k s.dev.fill.seq = made at idle granted base ⊢
  refine (State.serve_fetchFill (by exact idle) (by exact granted) _ _ _).trans ?_
  dsimp only [State.issuing]
  rw [base]
  unfold State.issue State.answer State.served issuedFor
  dsimp only
  rw [List.map_append]
  rfl

/-- A FAULT on the switching fill's own fetch: the switch stands (R34). -/
theorem State.present_switchFill_fault (quiet : s.Quiet) (fault : a.faultAt = some (listPuts (s.dev.recipeOf k)))
    (pause : a.pauseAt = none) (below : s.dev.path.waitCount < 4) :
    exec (.fillEvent m i 1 a) s = .next (State.served m
      ((List.range (listPuts (s.dev.recipeOf k))).map (s.dev.listPut k) ++ [.read (s.dev.nomAddr i) 1]) .fault
      { s with
        mem := s.dev.listWritten k s.mem (listPuts (s.dev.recipeOf k))
        dev := Dev.settle (Dev.decideHeld (s.dev.fetchesFill k).drainAll) }) := by
  obtain ⟨run, accepted, work⟩ := State.exec_switchFill (m := m) (a := a) due ready sequencer
  refine run.trans (congrArg _ ?_)
  rw [State.present_faulting quiet.upstream fault pause accepted, work]
  have few : listPuts (s.dev.recipeOf k) ≤ 8 := by
    unfold listPuts
    split <;> omega
  obtain ⟨idle, granted⟩ := Dev.switchMade_port (k := k) (q := s.dev.fill.seq) quiet.upstream quiet.port below
  have base := Dev.switchMade_nomAddr (k := k) (q := s.dev.fill.seq) s.dev i
  have switch := State.serve_switch_before (s := s.portsClear) (t := .read m (s.dev.base + (0x400 + 4 * i)) 1)
    (q := s.dev.fill.seq) due ⟨quiet.upstream, quiet.port, quiet.bursts, quiet.request⟩
    (1020 - listPuts (s.dev.recipeOf k) + 1) (1023 - listPuts (s.dev.recipeOf k) + 1) 0
  rw [State.portsClear_dev, Nat.zero_add,
    show 1020 - listPuts (s.dev.recipeOf k) + 1 + 1 + listPuts (s.dev.recipeOf k) + 1 = 1023 by omega,
    show 1023 - listPuts (s.dev.recipeOf k) + 1 + listPuts (s.dev.recipeOf k) = 1024 by omega] at switch
  refine switch.trans ?_
  unfold Dev.fetchesFill
  generalize s.dev.switchMade k s.dev.fill.seq = made at idle granted base ⊢
  refine (State.serve_granted_fault _ _ (by exact idle) (by exact granted) rfl rfl).trans ?_
  dsimp only [State.issuing]
  rw [base]
  unfold State.issue State.answer State.served issuedFor
  dsimp only
  rw [List.map_append]
  rfl

/-- A FAULT on one of the list's writes: the switch is given up (R34). -/
theorem State.present_switch_stopped {j : Nat} (quiet : s.Quiet) (fault : a.faultAt = some j) (pause : a.pauseAt = none)
    (within : j < listPuts (s.dev.recipeOf k)) :
    exec (.fillEvent m i 1 a) s = .next (State.served m ((List.range (j + 1)).map (s.dev.listPut k)) .fault
      { s with
        mem := s.dev.listWritten k s.mem j
        dev := Dev.settle (Dev.decideHeld s.dev.drainAll) }) := by
  obtain ⟨run, accepted, work⟩ := State.exec_switchFill (m := m) (a := a) due ready sequencer
  refine run.trans (congrArg _ ?_)
  rw [State.present_faulting quiet.upstream fault pause accepted, work]
  have stopped := State.serve_switch_fault (s := s.portsClear) (t := .read m (s.dev.base + (0x400 + 4 * i)) 1)
    (q := s.dev.fill.seq) due ⟨quiet.upstream, quiet.port, quiet.bursts, quiet.request⟩ 1022 1024 j within (by decide)
    (by decide)
  refine stopped.trans ?_
  rw [State.portsClear_dev]
  generalize Dev.settle (Dev.decideHeld s.dev.drainAll) = left
  rfl

end

/-- A listed nominal within the new limits (R33 step 1). -/
theorem listedNominal_eq (r : Recipe) (x : Word) : listedNominal r x =
    if x = 0 then 0
    else if x.toNat < r.doseFloor then BitVec.ofNat 32 r.doseFloor
    else if r.doseCeiling < x.toNat then BitVec.ofNat 32 r.doseCeiling else x := by
  unfold listedNominal clampNat
  by_cases zero : x = 0
  · rw [if_pos zero, if_pos zero]
  · rw [if_neg zero, if_neg zero]
    by_cases under : x.toNat < r.doseFloor
    · rw [if_pos under, if_pos under]
    · rw [if_neg under, if_neg under]
      by_cases above : r.doseCeiling < x.toNat
      · rw [if_pos above, if_pos above]
      · rw [if_neg above, if_neg above, BitVec.ofNat_toNat, BitVec.setWidth_eq]

/-- With nothing draining and no acceptance waiting, giving up the switch leaves the part as it was (R34). -/
theorem Dev.unswitched_same (request : d.report.request = false) (still : ∀ u : Fin 4, (d.slot u).st ≠ .draining)
    (unfetched : d.order.fetchA = none) : Dev.settle (Dev.decideHeld d.drainAll) = d := by
  have undecided : d.decideHeld = d := by
    unfold Dev.decideHeld
    rw [unfetched]
  rw [Dev.drainAll_none still, undecided, Dev.settle_quiet request]

end Sys2Proof.Machine

namespace Sys2Proof

open Sys2Proof.Machine

/-- Settles O23: a read without the switching fill (`State.present_fills`), such a read with a FAULT, and the switching
fill with each of its FAULTs. -/
theorem fillReadTakesItsFills : Obligations.FillReadTakesItsFills := by
  unfold Obligations.FillReadTakesItsFills
  refine ⟨fun s m i n a quiet ready clean n1 n8 inside sequencer free =>
      State.present_fills quiet ready clean n1 n8 inside sequencer free,
    fun s m i n j a quiet ready n1 n8 inside sequencer fault pause within free =>
      ⟨State.present_fills_fault quiet ready fault pause n1 n8 inside sequencer free within,
        Dev.unserved_same quiet.request⟩,
    fun s m i a k quiet ready valve below sequencer serving flag pending => ?_⟩
  intro r shaped burst start put puts written empty
  have due : s.dev.SwitchDue k i := ⟨flag, pending, valve, below, serving⟩
  have listed : s.dev.listPut k = put := by
    funext j
    have word : listedNominal r = shaped := funext (listedNominal_eq r)
    have addr : s.dev.nomAddr (8 * j) = start j := by
      show s.dev.base + 0x300 + 4 * (8 * j) = s.dev.base + 0x300 + 32 * j
      omega
    unfold Dev.listPut listWords
    rw [addr, show s.dev.recipeOf k = r from rfl, word, List.map_map]
    rfl
  have memory : s.dev.listWritten k s.mem = written := by
    funext j
    unfold Dev.listWritten
    rw [listed]
    rfl
  refine ⟨fun clean waits => ?_, fun fault pause waits => ?_, fun j fault pause within => ⟨?_, fun still unfetched => ?_⟩⟩
  · have filled := State.present_switchFill (m := m) (a := a) due ready sequencer quiet clean waits
    rw [listed, memory] at filled
    exact filled
  · have filled := State.present_switchFill_fault (m := m) (a := a) due ready sequencer quiet fault pause waits
    rw [listed, memory] at filled
    exact filled
  · have stopped := State.present_switch_stopped (m := m) (a := a) due ready sequencer quiet fault pause within
    rw [listed, memory] at stopped
    exact stopped
  · exact Dev.unswitched_same quiet.request still unfetched

end Sys2Proof
end

section
/-! One fill with a dose under the CURRENT recipe, tracked and untracked. -/

namespace Sys2Proof.Machine

variable {s : State} {m : Master} {a : MemAns} {d : Dev} {i : Nat} {k : Fin 4} {c : Ctx} {f : FormedFill}

/-! ### What one fill gathers (R28, R134, R135) -/

theorem doseWord_eq {dose : Nat} (small : dose < 1048576) (tag : BitVec 12) :
    doseWord dose tag = BitVec.ofNat 32 (dose + 1048576 * tag.toNat) := by
  unfold doseWord
  rw [put_eq_mul small, put_eq_mul tag.isLt, Nat.pow_zero, Nat.one_mul]
  rfl

/-- The current entry's can count is reached by the fills made (R134). -/
def CurrentEntryReached (e : CurrentEntry) (fills : Nat) : Bool := decide (e.canCount ≠ 0 ∧ e.canCount ≤ e.made + fills)

/-- A stalled indication that the fill finds (R135): the count is reached and no slot is PENDING. -/
def Dev.stallsAt (d : Dev) (fills : Nat) (e : CurrentEntry) : Bool :=
  CurrentEntryReached e fills && (d.slotIn .pending).isNone

/-- CHANGEOVER_STALLED is raised the first time. -/
def Dev.stallRaises (d : Dev) (fills : Nat) : Bool :=
  match d.order.cur with
  | none => false
  | some e => d.stallsAt fills e && !e.stalled

theorem Dev.stallRaises_some {e : CurrentEntry} (cur : d.order.cur = some e) (fills : Nat) :
    d.stallRaises fills = (d.stallsAt fills e && !e.stalled) := by
  unfold Dev.stallRaises
  rw [cur]

theorem Dev.stallRaises_iff {e : CurrentEntry} (cur : d.order.cur = some e) (fills : Nat) :
    d.stallRaises fills = true ↔ CurrentEntryReached e fills = true ∧ d.slotIn .pending = none ∧ e.stalled = false := by
  rw [Dev.stallRaises_some cur]
  unfold Dev.stallsAt
  rw [Bool.and_eq_true, Bool.and_eq_true, Option.isNone_iff_eq_none, Bool.not_eq_true', and_assoc]

theorem Dev.stallTest_eq (fresh : c.stalled = false) (quiet : c.raise = false) :
    d.stallTest c = { c with stalled := d.stallRaises c.made, raise := d.stallRaises c.made } := by
  unfold Dev.stallTest Dev.entryWith
  cases cur : d.order.cur with
  | none =>
    have unraised : d.stallRaises c.made = false := by
      unfold Dev.stallRaises
      rw [cur]
    rw [unraised]
    cases c
    cases fresh
    cases quiet
    rfl
  | some e =>
    show (if CurrentEntryReached e c.made = true ∧ d.slotIn .pending = none ∧ (e.stalled || c.stalled) = false
      then { c with stalled := true, raise := true } else c) = _
    rw [fresh, Bool.or_false]
    by_cases stalls : CurrentEntryReached e c.made = true ∧ d.slotIn .pending = none ∧ e.stalled = false
    · rw [if_pos stalls, (Dev.stallRaises_iff cur _).2 stalls]
    · have unraised := Bool.eq_false_iff.2 fun raised => stalls ((Dev.stallRaises_iff cur c.made).1 raised)
      rw [if_neg stalls, unraised]
      cases c
      cases fresh
      cases quiet
      rfl

/-- The current entry after the fill. -/
theorem Dev.entryWith_eq (stalled : c.stalled = d.stallRaises c.made) : d.entryWith c =
    d.order.cur.map fun e => { e with made := e.made + c.made, stalled := e.stalled || d.stallsAt c.made e } := by
  unfold Dev.entryWith
  rw [stalled]
  cases cur : d.order.cur with
  | none => rfl
  | some e =>
    rw [Option.map_some, Option.map_some, Dev.stallRaises_some cur]
    have same : (e.stalled || (d.stallsAt c.made e && !e.stalled)) = (e.stalled || d.stallsAt c.made e) := by
      cases e.stalled <;> cases d.stallsAt c.made e <;> rfl
    rw [same]

theorem Dev.dueWith_eq (d : Dev) (c : Ctx) : d.dueWith c = match d.order.cur with
    | none => false
    | some e => CurrentEntryReached e c.made := by
  unfold Dev.dueWith Dev.entryWith
  cases d.order.cur <;> rfl

/-! ### What it makes of the part (R9, R28) -/

/-- A tracked fill, field by field. -/
structure TrackedFill (d : Dev) (c : Ctx) (f : FormedFill) (x : Nat) (free : List Nat) (t : Dev) : Prop where
  track  : t.track = { free := free, suspects := d.track.suspects, fill := d.track.fill ++ [f.record x d.fill.seq] }
  fill   : t.fill = { d.fill with
    seq := nextSeq d.fill.seq, switchDue := d.fill.switchDue || (d.dueWith c && (d.slotIn .pending).isSome) }
  valve  : ∀ u, t.valveRec u = if u = f.valve then (d.valveRec u).noteFill f d.fill.seq else d.valveRec u
  slot   : ∀ j, t.slot j = if j = f.recipe then { d.slot j with members := x :: (d.slot j).members } else d.slot j
  order  : t.order = { d.order with slots := t.order.slots, cur := d.entryWith c }
  others : t.pocket = d.pocket ∧ t.weigh = d.weigh ∧ t.code = d.code ∧ t.setup = d.setup
  report : t.report.queue = d.report.queue

theorem Dev.fillEffect_makes {x : Nat} {free : List Nat} (tracked : f.tracked = true)
    (pool : d.track.free = x :: free) : TrackedFill d c f x free ((d.countFills c).fillEffect f) ∧
      ((d.countFills c).fillEffect f).report = d.report := by
  have effect := Dev.fillEffect_tracked (d := d.countFills c) tracked pool
  rw [effect]
  refine ⟨⟨rfl, rfl, fun u => ?_, fun j => ?_, rfl, ⟨rfl, rfl, rfl, rfl⟩, rfl⟩, rfl⟩
  · refine (Dev.valveRec_setValve_ite (d.countFills c) f.valve u _).trans ?_
    by_cases same : u = f.valve
    · rw [if_pos same, if_pos same, same]
      rfl
    · rw [if_neg same, if_neg same]
      rfl
  · unfold Dev.joinMembers
    rw [Dev.slot_setSlot_ite]
    by_cases same : j = f.recipe
    · rw [if_pos same, if_pos same, same]
      rfl
    · rw [if_neg same, if_neg same]
      rfl

/-- What a raised cause and a status write leave is the rest of the part. -/
theorem TrackedFill.report_only {x : Nat} {free : List Nat} {t : Dev} (h : TrackedFill d c f x free t) {p : PathUnit}
    {r : ReportUnit} (queue : r.queue = t.report.queue) :
    TrackedFill d c f x free { t with path := p, report := r } :=
  ⟨h.track, h.fill, h.valve, h.slot, h.order, h.others, queue.trans h.report⟩

/-- One fill takes effect: after it only a cause may be raised, when no slot drains. -/
theorem Dev.takeFills_one {t : Dev} (formed : c.formed = [f]) (effect : (d.countFills c).fillEffect f = t)
    (isPlaced : t.setup.part ≠ .unplaced)
    (busy : ∀ j : Fin 4, (t.slot j).st = .draining → (t.slot j).members ≠ []) :
    ∃ p r, r.queue = t.report.queue ∧ r.pending = t.report.pending ||| (if c.raise = true then 32#21 else 0#21) ∧
      Dev.settle (d.takeFills c) = { t with path := p, report := r } := by
  have taken : d.takeFills c = if c.raise = true then t.raise .changeoverStalled else t := by
    unfold Dev.takeFills
    rw [formed]
    show Dev.drainAll (if c.raise = true then Dev.raise .changeoverStalled ((d.countFills c).fillEffect f) else
      (d.countFills c).fillEffect f) = _
    rw [effect]
    refine Dev.drainAll_busy fun j => ?_
    split
    · rw [Dev.raise_placed _ isPlaced]
      exact busy j
    · exact busy j
  obtain ⟨request, status, again, bursts, settled⟩ := Dev.settle_shape (d.takeFills c)
  rw [settled, taken]
  by_cases raises : c.raise = true
  · rw [if_pos raises, if_pos raises, Dev.raise_placed _ isPlaced]
    refine ⟨_, _, ?_, ?_, rfl⟩
    · rfl
    · rfl
  · rw [if_neg raises, if_neg raises]
    refine ⟨_, _, ?_, ?_, rfl⟩
    · rfl
    · exact BitVec.or_zero.symm

/-! ### The read of one fill -/

/-- The fill that valve `v` is given by a CURRENT recipe's dose (R9, R28). -/
def Dev.filling (d : Dev) (v : Fin 64) (k : Fin 4) (dose : Nat) (trim : Int) (tracked : Bool) : FormedFill :=
  { valve := v, dose := dose, trim := trim, epoch := (d.valveRec v).epoch, test := (d.valveRec v).arm, recipe := k,
    lot := match d.order.cur with | none => .detached | some e => e.ref, tracked := tracked }

theorem Dev.fillsFormed_one {mem : List Host.Cell} {dose : Nat} {trim : Int}
    (given : d.doseFor (Fin.ofNat 64 i) (Memory.readWord mem (d.base + 0x300 + 4 * i)) = .dosed k dose trim) :
    d.fillsFormed mem i 1 = d.stallTest (d.formDosed (Fin.ofNat 64 i) k dose trim (Ctx.init d.fill.seq)) := by
  show d.formFill (Fin.ofNat 64 (i + 0)) (Memory.readWord mem (d.base + 0x300 + 4 * (i + 0))) _ = _
  rw [Nat.add_zero]
  unfold Dev.formFill
  rw [given]

/-- What a read of one tracked fill gathers. -/
theorem Dev.fillsFormed_tracked {mem : List Host.Cell} {dose x : Nat} {trim : Int} {free : List Nat}
    (given : d.doseFor (Fin.ofNat 64 i) (Memory.readWord mem (d.base + 0x300 + 4 * i)) = .dosed k dose trim)
    (pool : d.track.free = x :: free) : d.fillsFormed mem i 1 = { Ctx.init (nextSeq d.fill.seq) with
      ans := [doseWord dose (tagOf d.fill.seq)]
      formed := [d.filling (Fin.ofNat 64 i) k dose trim true]
      tracked := 1, made := 1, stalled := d.stallRaises 1, raise := d.stallRaises 1 } := by
  have room : 0 < d.track.free.length := by
    rw [pool]
    exact Nat.succ_pos _
  have formed : d.formDosed (Fin.ofNat 64 i) k dose trim (Ctx.init d.fill.seq) = { Ctx.init (nextSeq d.fill.seq) with
      ans := [doseWord dose (tagOf d.fill.seq)]
      formed := [d.filling (Fin.ofNat 64 i) k dose trim true]
      tracked := 1, made := 1 } := by
    simp only [Dev.formDosed, Ctx.init, room, decide_true, if_true]
    rfl
  rw [Dev.fillsFormed_one given, formed]
  exact Dev.stallTest_eq rfl rfl

/-- What a read of one fill gathers while the pool is empty (R29). -/
theorem Dev.fillsFormed_untracked {mem : List Host.Cell} {dose : Nat} {trim : Int}
    (given : d.doseFor (Fin.ofNat 64 i) (Memory.readWord mem (d.base + 0x300 + 4 * i)) = .dosed k dose trim)
    (empty : d.track.free = []) : d.fillsFormed mem i 1 = { Ctx.init d.fill.seq with
      ans := [doseWord dose 0]
      formed := [d.filling (Fin.ofNat 64 i) k dose trim false]
      stalled := d.stallRaises 0, raise := d.stallRaises 0 } := by
  have room : ¬0 < d.track.free.length := by
    rw [empty]
    exact Nat.lt_irrefl 0
  have formed : d.formDosed (Fin.ofNat 64 i) k dose trim (Ctx.init d.fill.seq) = { Ctx.init d.fill.seq with
      ans := [doseWord dose 0]
      formed := [d.filling (Fin.ofNat 64 i) k dose trim false] } := by
    simp only [Dev.formDosed, Ctx.init, room, decide_false, Bool.false_eq_true, if_false]
    rfl
  rw [Dev.fillsFormed_one given, formed]
  exact Dev.stallTest_eq rfl rfl

/-- CHANGEOVER_STALLED of a read of one fill, in terms of the current entry. -/
theorem Dev.stallRaises_mask (d : Dev) (fills : Nat) : (if d.stallRaises fills = true then 32#21 else 0#21) =
    match d.order.cur with
    | none => 0#21
    | some e => if d.stallsAt fills e && !e.stalled then 32#21 else 0#21 := by
  unfold Dev.stallRaises
  cases d.order.cur <;> rfl

theorem Dev.stallsAt_eq (d : Dev) (fills : Nat) (e : CurrentEntry) :
    d.stallsAt fills e = (decide (e.canCount ≠ 0 ∧ e.canCount ≤ e.made + fills) && !(d.slotIn .pending).isSome) := by
  rw [Option.not_isSome]
  rfl

/-- A read of one word is no switching fill when the count is not reached before it. -/
theorem Dev.switchFree_one (h : d.slotIn .pending = none ∨ (d.fill.switchDue = false ∧
    ∀ e, d.order.cur = some e → e.canCount = 0 ∨ e.made < e.canCount)) : d.SwitchFree i 1 :=
  h.imp_right fun undue => .inl undue

/-- An untracked fill makes no switch due (R29, R134). -/
theorem Dev.undue_untracked (h : d.slotIn .pending = none ∨ (d.fill.switchDue = false ∧
    ∀ e, d.order.cur = some e → e.canCount = 0 ∨ e.made < e.canCount)) (made : c.made = 0) :
    (d.dueWith c && (d.slotIn .pending).isSome) = false := by
  rcases h with none_pending | ⟨-, uncounted⟩
  · rw [none_pending]
    exact Bool.and_false _
  · rw [Dev.dueWith_eq, made]
    cases cur : d.order.cur with
    | none => rfl
    | some e =>
      have below := uncounted e cur
      have unreached : CurrentEntryReached e 0 = false := decide_eq_false (by omega)
      show (CurrentEntryReached e 0 && _) = false
      rw [unreached]
      rfl

/-- An untracked fill (R29): the count and TRACK_FULL. -/
theorem Dev.fillEffect_untracked (untracked : f.tracked = false) (isPlaced : d.setup.part ≠ .unplaced) :
    (d.countFills c).fillEffect f = { d.countFills c with
      fill := { (d.countFills c).fill with untracked := d.fill.untracked + 1#32 }
      report := { d.report with
        pending := d.report.pending ||| 128#21
        request := if d.report.pending.getLsbD 7 = true then d.report.request else true } } := by
  have unfolded : (d.countFills c).fillEffect f = (d.countFills c).fillUntracked := if_neg (by
    rw [untracked]
    exact Bool.false_ne_true)
  exact unfolded.trans (Dev.raise_placed .trackFull isPlaced)

/-- The arm of a fill formed now falls. -/
theorem ValveRec.noteFill_arm {r : ValveRec} (test : f.test = r.arm) (seq : Word) :
    r.noteFill f seq = { r with fills := r.fills + 1, lastSeq := some seq, arm := false } := by
  unfold ValveRec.noteFill
  have falls : (if f.test = true then false else r.arm) = false := by
    rw [test]
    cases r.arm <;> rfl
  rw [falls]
  rfl

end Sys2Proof.Machine

namespace Sys2Proof

open Sys2Proof.Machine

/-- Settles O24. -/
theorem trackedFillMakesARecord : Obligations.TrackedFillMakesARecord := by
  unfold Obligations.TrackedFillMakesARecord
  intro s m i a k dose trim x free quiet ready clean valve sequencer undue busy given pool small v seq tag pending reached
  have isPlaced : s.dev.setup.part ≠ .unplaced := fun h => nomatch ready.1.symm.trans h
  have run := State.present_fills (m := m) (a := a) quiet ready clean (Nat.le_refl 1) (by decide) valve sequencer
    (Dev.switchFree_one undue)
  rw [Dev.fillsFormed_tracked given pool] at run
  generalize formed : ({ Ctx.init (nextSeq s.dev.fill.seq) with
    ans := [doseWord dose (tagOf s.dev.fill.seq)]
    formed := [s.dev.filling (Fin.ofNat 64 i) k dose trim true]
    tracked := 1, made := 1, stalled := s.dev.stallRaises 1, raise := s.dev.stallRaises 1 } : Ctx) = c at run
  have counted : c.made = 1 := formed ▸ rfl
  have stalls : c.stalled = s.dev.stallRaises 1 := formed ▸ rfl
  have raises : c.raise = s.dev.stallRaises 1 := formed ▸ rfl
  obtain ⟨made, report⟩ := Dev.fillEffect_makes (d := s.dev) (c := c)
    (f := s.dev.filling (Fin.ofNat 64 i) k dose trim true) rfl pool
  generalize effect : (s.dev.countFills c).fillEffect (s.dev.filling (Fin.ofNat 64 i) k dose trim true) = t at made report
  have drains (j : Fin 4) (draining : (t.slot j).st = .draining) : (t.slot j).members ≠ [] := by
    rw [made.slot j] at draining ⊢
    by_cases same : j = (s.dev.filling (Fin.ofNat 64 i) k dose trim true).recipe
    · rw [if_pos same]
      exact List.cons_ne_nil _ _
    · rw [if_neg same] at draining ⊢
      exact busy j draining
  obtain ⟨p, r, queue, raised, settled⟩ := Dev.takeFills_one (formed ▸ rfl) effect (by rw [made.others.2.2.2]; exact isPlaced) drains
  rw [settled] at run
  have made' := made.report_only queue (p := p)
  refine ⟨_, run, rfl, rfl, ?_, made'.track, ?_, ?_, fun u other => ?_, ?_, fun j other => ?_, ?_, ?_,
    made'.others.1, made'.others.2.1, made'.others.2.2.1, made'.others.2.2.2, made'.report⟩
  · rw [← formed]
    exact congrArg (fun w => [Answer.okay [w]]) (doseWord_eq small _)
  · refine made'.fill.trans ?_
    rw [Dev.dueWith_eq, counted]
    cases s.dev.order.cur <;> rfl
  · refine (made'.valve v).trans ((if_pos rfl).trans ?_)
    exact ValveRec.noteFill_arm rfl _
  · exact (made'.valve u).trans (if_neg other)
  · exact (made'.slot k).trans (if_pos rfl)
  · exact (made'.slot j).trans (if_neg other)
  · refine made'.order.trans ?_
    rw [Dev.entryWith_eq (counted.symm ▸ stalls), counted]
    cases s.dev.order.cur with
    | none => rfl
    | some e =>
      rw [Option.map_some, Option.map_some, Dev.stallsAt_eq]
      rfl
  · refine raised.trans ?_
    rw [raises, Dev.stallRaises_mask, report]
    cases s.dev.order.cur with
    | none => rfl
    | some e =>
      show _ ||| (if (s.dev.stallsAt 1 e && !e.stalled) = true then _ else _) = _
      rw [Dev.stallsAt_eq]

/-- Settles O25. -/
theorem fillWithoutARecordIsUntracked : Obligations.FillWithoutARecordIsUntracked := by
  unfold Obligations.FillWithoutARecordIsUntracked
  intro s m i a k dose trim quiet ready clean valve sequencer undue busy given empty small stalls
  have isPlaced : s.dev.setup.part ≠ .unplaced := fun h => nomatch ready.1.symm.trans h
  have run := State.present_fills (m := m) (a := a) quiet ready clean (Nat.le_refl 1) (by decide) valve sequencer
    (Dev.switchFree_one undue)
  rw [Dev.fillsFormed_untracked given empty] at run
  generalize formed : ({ Ctx.init s.dev.fill.seq with
    ans := [doseWord dose 0]
    formed := [s.dev.filling (Fin.ofNat 64 i) k dose trim false]
    stalled := s.dev.stallRaises 0, raise := s.dev.stallRaises 0 } : Ctx) = c at run
  have counted : c.made = 0 := formed ▸ rfl
  have stall : c.stalled = s.dev.stallRaises 0 := formed ▸ rfl
  have raises : c.raise = s.dev.stallRaises 0 := formed ▸ rfl
  have effect := Dev.fillEffect_untracked (d := s.dev) (c := c)
    (f := s.dev.filling (Fin.ofNat 64 i) k dose trim false) rfl isPlaced
  obtain ⟨p, r, queue, raised, settled⟩ := Dev.takeFills_one (formed ▸ rfl) effect isPlaced busy
  rw [settled] at run
  refine ⟨_, run, rfl, rfl, ?_, ?_, ?_, ?_, rfl, rfl, rfl, rfl, rfl, rfl, queue⟩
  · rw [← formed, doseWord_zero_tag, Nat.mod_eq_of_lt small]
    rfl
  · show ({ s.dev.fill with
      switchDue := s.dev.fill.switchDue || (s.dev.dueWith c && (s.dev.slotIn .pending).isSome)
      untracked := s.dev.fill.untracked + 1 } : FillUnit) = _
    rw [Dev.undue_untracked undue counted, Bool.or_false]
  · refine raised.trans ?_
    rw [raises, Dev.stallRaises_mask]
    rfl
  · show { s.dev.order with cur := s.dev.entryWith c } = _
    rw [Dev.entryWith_eq (counted.symm ▸ stall), counted]
    rfl

end Sys2Proof
end

section
/-! Writes of nominals (R36, R37, R39): pieces of work on nominals that land one after another, and what a FAULT on any
of their accesses leaves. -/

namespace Sys2Proof.Machine

variable {s : State} {m : Master} {a : MemAns} {d : Dev} {t : Txn} {c : Ctx} {w : List Micro} {xs : List Access}

/-! ### Values of the nominal view -/

theorem Dev.currentRecipe_none (h : d.slotIn .current = none) : d.currentRecipe = none := congrArg (Option.map _) h

theorem Dev.currentRecipe_some {k : Fin 4} (h : d.slotIn .current = some k) : d.currentRecipe = some (d.recipeOf k) :=
  congrArg (Option.map _) h

theorem Dev.shapeNominal_none (h : d.slotIn .current = none) (x : Word) : d.shapeNominal x = x := by
  unfold Dev.shapeNominal
  rw [Dev.currentRecipe_none h]

theorem Dev.shapeNominal_some {k : Fin 4} (h : d.slotIn .current = some k) (x : Word) :
    d.shapeNominal x = listedNominal (d.recipeOf k) x := by
  unfold Dev.shapeNominal
  rw [Dev.currentRecipe_some h]

theorem Dev.addNominal_none (h : d.slotIn .current = none) {nominal : Word} (given : nominal ≠ 0) (delta : Word) :
    d.addNominal nominal delta = BitVec.ofNat 32 (clampInt 0 4294967295 (nominal.toNat + delta.toInt)).toNat := by
  unfold Dev.addNominal
  rw [Dev.currentRecipe_none h]
  exact if_neg given

theorem Dev.addNominal_some {k : Fin 4} (h : d.slotIn .current = some k) {nominal : Word} (given : nominal ≠ 0)
    (delta : Word) : d.addNominal nominal delta = BitVec.ofNat 32
      (clampInt (d.recipeOf k).doseFloor (d.recipeOf k).doseCeiling (nominal.toNat + delta.toInt)).toNat := by
  unfold Dev.addNominal
  rw [Dev.currentRecipe_some h]
  exact if_neg given

/-- A clamp between two words, read back from the word it is stored in. -/
theorem toNat_clampInt {lo hi : Nat} (ordered : lo ≤ hi) (small : hi < 2 ^ 32) (x : Int) :
    ((BitVec.ofNat 32 (clampInt lo hi x).toNat).toNat : Int) = max (lo : Int) (min (hi : Int) x) := by
  rw [clampInt_eq_max_min (by omega), BitVec.toNat_ofNat]
  omega

/-! ### Work on nominals that lands -/

/-- Work `w` of transaction `t` makes the accesses `xs`: when all are answered OKAY they land one after another, and a
FAULT on one of them ends the transaction there. -/
def State.Lands (t : Txn) (c : Ctx) (w : List Micro) (s : State) (xs : List Access) : Prop :=
  (∀ n b, State.serve (n + xs.length) (b + xs.length) (s.holding t (some w) c) = State.serve n b
    (State.holding t (some []) c (State.issuing t.master xs { s with mem := landed xs s.mem }))) ∧
  ∀ j n b, j < xs.length → xs.length ≤ n → xs.length ≤ b → State.serve n b (s.faulting t (some w) c j) =
    State.answer .fault (State.issuing t.master (xs.take (j + 1))
      { s with mem := landed (xs.take j) s.mem, dev := s.dev.unserved })

/-- Pieces of work on nominals land. -/
theorem State.lands_nominals (t : Txn) (c : Ctx) (quiet : s.Quiet) (pieces : ∀ mi ∈ w, 0 < mi.accesses) :
    ∃ xs, xs.length = (w.map Micro.accesses).sum ∧ s.Lands t c w xs := by
  obtain ⟨xs, length, lands, faults⟩ := State.serve_nominals t c _ w s quiet pieces rfl
  rw [← length] at lands faults
  exact ⟨xs, length, lands, faults⟩

/-- A store that no block takes, before work that lands. -/
theorem State.Lands.store {x : Nat} {ws : List WWord} (quiet : s.Quiet)
    (taken : s.dev.takeStore t.master x ws = (w, s.dev))
    (rest : State.Lands t c w { s.issue (.upstream t.master) (.write x ws) with mem := Memory.writeWords s.mem x ws } xs) :
    s.Lands t c [.store x ws] (.write x ws :: xs) := by
  obtain ⟨lands, faults⟩ := rest
  have done (h k : Held) (txn : h.txn = t) (ctx : h.ctx = c) : (s.dev.withUp [k]).workDone h
      ((Access.write x ws).words s.mem) (.store x ws) = (w, c, s.dev.withUp [k]) := by
    subst txn ctx
    unfold Dev.workDone
    dsimp only
    rw [Dev.apart_idle quiet.upstream, taken]
  have join (ys zs : List Access) (d : Dev) : State.issuing t.master ys
      { s.issue (.upstream t.master) (.write x ws) with mem := landed zs (Memory.writeWords s.mem x ws), dev := d } =
      State.issuing t.master (.write x ws :: ys) { s with mem := landed (.write x ws :: zs) s.mem, dev := d } :=
    State.issuing_issuing t.master [.write x ws] ys
      { s with mem := landed zs (Memory.writeWords s.mem x ws), dev := d }
  refine ⟨fun n b => ?_, fun j n b within pieces accesses => ?_⟩
  · refine (State.serve_access (d' := s.dev) (n + xs.length) (b + xs.length) quiet rfl (done _ _ rfl rfl) quiet.request).trans ?_
    rw [List.append_nil]
    refine (lands n b).trans ?_
    exact congrArg (fun s => State.serve n b (State.holding t (some []) c s)) (join xs xs s.dev)
  · obtain ⟨n, rfl⟩ := Nat.exists_eq_add_of_lt (Nat.lt_of_lt_of_le (Nat.succ_pos _) pieces)
    obtain ⟨b, rfl⟩ := Nat.exists_eq_add_of_lt (Nat.lt_of_lt_of_le (Nat.succ_pos _) accesses)
    rw [List.length_cons] at within pieces accesses
    rw [Nat.zero_add, Nat.zero_add]
    cases j with
    | zero =>
      refine (State.serve_fault n b quiet rfl rfl).trans ?_
      generalize s.dev.unserved = left
      rfl
    | succ j =>
      refine (State.serve_before_fault n b j quiet rfl done quiet.request).trans ?_
      rw [List.append_nil]
      refine (faults j n b (by omega) (by omega) (by omega)).trans ?_
      exact congrArg (State.answer .fault) (join (xs.take (j + 1)) (xs.take j) s.dev.unserved)

/-- Work that lands, from its acceptance at a quiet port on. -/
theorem State.Lands.served (h : s.portsClear.Lands t c w xs) (quiet : s.Quiet) (few : xs.length ≤ 1022) :
    State.serve 1023 1024 (s.portsClear.holding t (some w) c) =
      State.served t.master xs (.okay c.ans) { s with mem := landed xs s.mem } := by
  have lands := h.1 (1022 - xs.length + 1) (1024 - xs.length)
  rw [show 1022 - xs.length + 1 + xs.length = 1023 by omega, show 1024 - xs.length + xs.length = 1024 by omega] at lands
  refine lands.trans ((State.serve_done _ _ ?_).trans ?_)
  · exact quiet.upstream
  · rfl

/-- Such work with a FAULT on its access `j`. -/
theorem State.Lands.faulted {j : Nat} (h : s.portsClear.Lands t c w xs) (within : j < xs.length)
    (few : xs.length ≤ 1022) : State.serve 1023 1024 (s.portsClear.faulting t (some w) c j) =
      State.served t.master (xs.take (j + 1)) .fault
        { s with mem := landed (xs.take j) s.mem, dev := s.dev.unserved } := by
  refine (h.2 j 1023 1024 within (by omega) (by omega)).trans ?_
  rw [show s.portsClear.dev.unserved = s.dev.unserved from rfl]
  generalize s.dev.unserved = left
  rfl

/-- The memory that such work lands is the memory it is known to reach. -/
theorem State.Lands.mem_eq {K : Nat} {mem : List Host.Cell} (h : s.portsClear.Lands t c w xs) (quiet : s.Quiet)
    (few : xs.length ≤ 1022) (reach : State.Reach t c K s { s with mem := mem } w []) (short : K ≤ 1022) :
    landed xs s.mem = mem := by
  obtain ⟨ys, reached⟩ := reach.served quiet.upstream rfl 1023 1024 (by omega) (by omega)
  exact (congrArg State.mem (h.served quiet few)).symm.trans (congrArg State.mem reached)

/-- A quiet part with its ports clear is quiet. -/
theorem State.Quiet.portsClear (quiet : s.Quiet) : s.portsClear.Quiet :=
  ⟨quiet.upstream, quiet.port, quiet.bursts, quiet.request⟩

/-! ### The work of the nominal windows -/

/-- The run gathered, put in one access. -/
theorem gatheredRun_accesses (start : Nat) (run : List Word) :
    (∀ mi ∈ if run = [] then [] else [Micro.nomPut start run.reverse], 0 < mi.accesses) ∧
      ((if run = [] then [] else [Micro.nomPut start run.reverse]).map Micro.accesses).sum ≤ 1 := by
  split
  · exact ⟨fun _ no => (nomatch no), Nat.zero_le _⟩
  · exact ⟨fun mi only => List.mem_singleton.1 only ▸ Nat.one_pos, Nat.le_refl _⟩

/-- A partly written word, merged in two accesses. -/
theorem mergedWord_accesses (v : Nat) (w : WWord) :
    (∀ mi ∈ if w.be = 0#4 then [] else [Micro.nomMerge v w], 0 < mi.accesses) ∧
      ((if w.be = 0#4 then [] else [Micro.nomMerge v w]).map Micro.accesses).sum ≤ 2 := by
  split
  · exact ⟨fun _ no => (nomatch no), Nat.zero_le _⟩
  · exact ⟨fun mi only => List.mem_singleton.1 only ▸ Nat.two_pos, Nat.le_refl _⟩

/-- Every piece of a nominal write makes an access, and they make few. -/
theorem nominalRuns_accesses : ∀ (ws : List WWord) (start v : Nat) (run : List Word),
    (∀ mi ∈ nominalRuns start run v ws, 0 < mi.accesses) ∧
      ((nominalRuns start run v ws).map Micro.accesses).sum ≤ 3 * ws.length + 1 := by
  intro ws
  induction ws with
  | nil =>
    intro start v run
    exact gatheredRun_accesses start run
  | cons w ws ih =>
    intro start v run
    unfold nominalRuns
    rw [List.length_cons]
    split
    · obtain ⟨pieces, few⟩ := ih (if run = [] then v else start) (v + 1) (w.data :: run)
      exact ⟨pieces, by omega⟩
    · obtain ⟨pieces, few⟩ := ih 0 (v + 1) []
      obtain ⟨gathered, one⟩ := gatheredRun_accesses start run
      obtain ⟨merged, two⟩ := mergedWord_accesses v w
      rw [List.map_append, List.map_append, List.sum_append, List.sum_append]
      refine ⟨fun mi among => ?_, by omega⟩
      rcases List.mem_append.1 among with among | among
      · exact (List.mem_append.1 among).elim (gathered mi) (merged mi)
      · exact pieces mi among

/-- The words of an add view write that are added, each with its place. -/
theorem addWords_eq : ∀ (ws : List WWord) (i n : Nat), addWords (i + n) ws =
    ((ws.zipIdx n).filter fun x => decide (x.1.be = 15#4)).map fun x => Micro.nomAdd (i + x.2) x.1.data := by
  intro ws
  induction ws with
  | nil => intro i n; rfl
  | cons w ws ih =>
    intro i n
    unfold addWords
    rw [List.zipIdx_cons, List.filter_cons, show i + n + 1 = i + (n + 1) from rfl, ih]
    by_cases full : w.be = 15#4
    · rw [if_pos ((isFull_iff w).2 full), decide_eq_true full, if_pos rfl]
      rfl
    · rw [if_neg fun h => full ((isFull_iff w).1 h), decide_eq_false full, if_neg Bool.false_ne_true]
      rfl

/-- The bursts of a broadcast write make an access each, no more than there are valves. -/
theorem setBursts_accesses (x : Word) : ∀ (vs : List Nat) (start len : Nat),
    (∀ mi ∈ setBursts x start len vs, 0 < mi.accesses) ∧
      ((setBursts x start len vs).map Micro.accesses).sum ≤ vs.length + 1 := by
  intro vs
  induction vs with
  | nil =>
    intro start len
    unfold setBursts
    split
    · exact ⟨fun _ no => (nomatch no), Nat.zero_le _⟩
    · exact ⟨fun mi only => List.mem_singleton.1 only ▸ Nat.one_pos, Nat.le_refl _⟩
  | cons v vs ih =>
    intro start len
    unfold setBursts
    rw [List.length_cons]
    split
    · obtain ⟨pieces, few⟩ := ih v 1
      exact ⟨pieces, by omega⟩
    · split
      · obtain ⟨pieces, few⟩ := ih start (len + 1)
        exact ⟨pieces, by omega⟩
      · obtain ⟨pieces, few⟩ := ih v 1
        refine ⟨fun mi among => ?_, ?_⟩
        · rcases List.mem_cons.1 among with rfl | among
          · exact Nat.one_pos
          · exact pieces mi among
        · rw [List.map_cons, List.sum_cons, show (Micro.nomPut start (List.replicate len x)).accesses = 1 from rfl]
          omega

/-- A write of a window that the port accepts, in READY: its run, its acceptance, and its work. -/
theorem State.accepts_write {i words : Nat} {off : Nat} {k : Window} {ws : List WWord} (ready : s.Ready)
    (row : rowAt (off + 4 * i) = some ⟨off, words, k⟩) (answered : k.answered = false) (n1 : 1 ≤ ws.length)
    (inside : i + ws.length ≤ words) :
    s.presentWrite m off i ws a = s.present (.write m (s.dev.base + (off + 4 * i)) ws) a ∧
      s.dev.refuses (.write m (s.dev.base + (off + 4 * i)) ws) = false ∧
      s.dev.workOf (.write m (s.dev.base + (off + 4 * i)) ws) =
        writeWork s.dev.shapeNominal k (s.dev.base + (off + 4 * i)) i ws := by
  have fits : off + 4 * i + 4 * ws.length ≤ off + 4 * words := by omega
  refine ⟨?_, Dev.accepted ready.2 rfl row fits ?_, ?_⟩
  · unfold State.presentWrite Dev.windowAddr
    rw [Nat.add_assoc]
  · rw [answered]
    rfl
  · rw [Dev.workOf_write ready.1 rfl row fits n1, Nat.add_sub_cancel_left, Nat.mul_div_cancel_left _ (by decide)]

/-- Accesses land as any function that reads by leaving memory alone and writes by writing the words. -/
theorem foldl_land {f : List Host.Cell → Access → List Host.Cell} (reads : ∀ mem x n, f mem (.read x n) = mem)
    (writes : ∀ mem x ws, f mem (.write x ws) = Memory.writeWords mem x ws) (xs : List Access)
    (mem : List Host.Cell) : landed xs mem = xs.foldl f mem := by
  have same : f = fun mem x => Access.land mem x := by
    funext mem x
    cases x with
    | read x n => exact reads mem x n
    | write x ws => exact writes mem x ws
  rw [same]
  rfl

end Sys2Proof.Machine

namespace Sys2Proof

open Sys2Proof.Machine

/-- Settles O28. -/
theorem nominalsStayWithinTheDoseLimits : Obligations.NominalsStayWithinTheDoseLimits := by
  unfold Obligations.NominalsStayWithinTheDoseLimits
  refine ⟨fun d w => ⟨fun idle => Dev.shapeNominal_none idle w, fun k current => ⟨?_, fun given ordered small => ?_⟩⟩,
    fun d nominal delta => ⟨?_, fun given idle => ?_, fun given k current ordered small => ?_⟩⟩
  · rw [Dev.shapeNominal_some current]
    rfl
  · rw [Dev.shapeNominal_some current]
    unfold listedNominal
    rw [if_neg given, clampNat_eq_max_min ordered, BitVec.toNat_ofNat, Nat.mod_eq_of_lt (by omega)]
  · unfold Dev.addNominal
    exact if_pos rfl
  · rw [Dev.addNominal_none idle given]
    exact toNat_clampInt (lo := 0) (hi := 4294967295) (by decide) (by decide) _
  · rw [Dev.addNominal_some current given]
    exact toNat_clampInt ordered small _

/-- Settles O29. -/
theorem nominalWriteStoresShapedWords : Obligations.NominalWriteStoresShapedWords := by
  unfold Obligations.NominalWriteStoresShapedWords
  intro s m i ws quiet ready n1 n8 inside landing
  have row := (rowAt_window (0x300 + 4 * i)).1 (by omega)
  have accepts (a : MemAns) := State.accepts_write (m := m) (a := a) ready row rfl n1 inside
  obtain ⟨pieces, few⟩ := nominalRuns_accesses
    (ws.map fun w => if isFull w then { w with data := s.dev.shapeNominal w.data } else w) 0 i []
  rw [List.length_map] at few
  obtain ⟨xs, length, lands⟩ := State.lands_nominals (s := s.portsClear)
    (.write m (s.dev.base + (0x300 + 4 * i)) ws) (Ctx.init s.dev.fill.seq) quiet.portsClear pieces
  have mem := lands.mem_eq quiet (by omega) (List.append_nil _ ▸ State.reach_nominalRuns quiet i [] ws 0 0 [] s.mem
    fun no => absurd rfl no) (by omega)
  refine ⟨xs, fun a clean => ?_, fun a j fault pause within => ?_, Dev.unserved_same quiet.request⟩
  · obtain ⟨run, accepted, work⟩ := accepts a
    refine (whenOk_rangeOk (by omega) (lengthOk_of_le n1 n8)).trans (congrArg _ ?_)
    rw [run, State.present_accepted quiet.upstream clean accepted, work]
    refine (lands.served quiet (by omega)).trans ?_
    rw [mem]
    rfl
  · obtain ⟨run, accepted, work⟩ := accepts a
    refine (whenOk_rangeOk (by omega) (lengthOk_of_le n1 n8)).trans (congrArg _ ?_)
    rw [run, State.present_faulting quiet.upstream fault pause accepted, work]
    refine (lands.faulted within (by omega)).trans ?_
    show State.served m _ _ { s with mem := _, dev := Dev.settle s.dev.drainAll } = _
    rw [show landed (xs.take j) s.mem = landing (xs.take j) s.mem from foldl_land (fun _ _ _ => rfl) (fun _ _ _ => rfl) _ _]

/-- Settles O30. -/
theorem addViewWriteAddsToTheNominals : Obligations.AddViewWriteAddsToTheNominals := by
  unfold Obligations.AddViewWriteAddsToTheNominals
  intro s m i ws a quiet ready n1 n8 inside adds added
  have row := (rowAt_window (0x500 + 4 * i)).2.2.1 (by omega)
  obtain ⟨run, accepted, work⟩ := State.accepts_write (m := m) (a := a) ready row rfl n1 inside
  have few : adds.length ≤ ws.length := (List.length_filter_le _ _).trans (Nat.le_of_eq List.length_zipIdx)
  have exec_eq {t : State} (h : s.presentWrite m 0x500 i ws a = t) : exec (.addViewWrite m i ws a) s = .next t :=
    (whenOk_rangeOk (by omega) (lengthOk_of_le n1 n8)).trans (congrArg _ h)
  refine ⟨fun clean => ?_, fun j fault pause within => ?_, Dev.unserved_same quiet.request⟩
  · obtain ⟨xs, served⟩ := (State.reach_adds quiet i ws 0 s.mem).served
      (t := .write m (s.dev.base + (0x500 + 4 * i)) ws) (c := Ctx.init s.dev.fill.seq) (m := m) quiet.upstream rfl
      1023 1024 (by omega) (by omega)
    refine ⟨xs, exec_eq ?_⟩
    rw [run, State.present_accepted quiet.upstream clean accepted, work]
    refine served.trans ?_
    have all : adds.take adds.length = adds := List.take_length
    show _ = State.served m xs (.okay []) { s with mem := (adds.take adds.length).foldl _ s.mem }
    rw [all, List.foldl_filter]
    simp only [decide_eq_true_eq]
    rfl
  · have list : addWords i ws = (adds.map fun x => (i + x.2, x.1.data)).map fun x => Micro.nomAdd x.1 x.2 := by
      rw [List.map_map]
      exact addWords_eq ws i 0
    obtain ⟨xs, length, served⟩ := State.serve_adds_fault (.write m (s.dev.base + (0x500 + 4 * i)) ws)
      (Ctx.init s.dev.fill.seq) (adds.map fun x => (i + x.2, x.1.data)) j 1023 1024 s.portsClear quiet.portsClear
      (by rw [List.length_map]; exact within) (by rw [List.length_map]; omega) (by rw [List.length_map]; omega)
    refine ⟨xs, length, exec_eq ?_⟩
    rw [run, State.present_faulting quiet.upstream fault pause accepted, work]
    unfold writeWork
    dsimp only
    rw [list]
    refine served.trans ?_
    rw [← List.map_take, List.foldl_map]
    rw [show s.portsClear.dev.unserved = Dev.settle s.dev.drainAll from rfl]
    generalize Dev.settle s.dev.drainAll = left
    rfl

end Sys2Proof
end

section
/-! The add view's read, the broadcast words, and the position and sample words (R37, R39, R41, R59). -/

namespace Sys2Proof.Machine

variable {s : State} {m : Master} {a : MemAns} {d : Dev} {t : Txn} {c : Ctx} {mis : List Micro} {xs : List Access}
variable {off x : Nat} {k : Window} {w : WWord} {ws : List WWord} {f : Dev → Dev}

/-! ### A one-word window written -/

/-- A word that a block takes as `f`, written into a one-word window of READY. -/
theorem State.presentWrite_taken (free : s.PortFree) (ready : s.Ready) (clean : a.clean)
    (row : rowAt off = some ⟨off, 1, k⟩) (unanswered : k.answered = false)
    (work : ∀ g x, writeWork g k x 0 [w] = [.store x [w]])
    (effect : ∀ d : Dev, d.takeReady m k 0 [w] = ([], f d))
    (idle : ∀ d : Dev, (f d).path.upstream = d.path.upstream) :
    s.presentWrite m off 0 [w] a = s.stored m (s.dev.base + off) [w] f :=
  Host.Outcome.next.inj (State.control_write f free ready clean row unanswered work
    (fun d _ _ _ _ _ _ => effect d) ((idle _).trans free.grant_up)).2

/-- A store is made and taken, with a FAULT to come at a later access. -/
theorem State.serve_store_before_fault (n b j : Nat) (quiet : s.Quiet)
    (taken : s.dev.takeStore t.master x ws = (mis, s.dev)) :
    State.serve (n + 1) (b + 1) (s.faulting t (some [.store x ws]) c (j + 1)) = State.serve n b
      (State.faulting t (some mis) c j
        { s.issue (.upstream t.master) (.write x ws) with mem := Memory.writeWords s.mem x ws }) := by
  refine (State.serve_before_fault (d' := s.dev) (more := mis) (c' := c) n b j quiet rfl (fun h k txn ctx => ?_) quiet.request).trans ?_
  · subst txn ctx
    unfold Dev.workDone
    dsimp only
    rw [Dev.apart_idle quiet.upstream, taken]
  · rw [List.append_nil]
    rfl

/-! ### Broadcasts (R39) -/

/-- The window of a broadcast word. -/
def Window.IsBroadcast (k : Window) (off : Nat) : Prop := (k = .bcastSet ∧ off = 0x124) ∨ (k = .bcastAdd ∧ off = 0x128)

theorem Window.IsBroadcast.row (h : k.IsBroadcast off) : rowAt off = some ⟨off, 1, k⟩ := by
  rcases h with ⟨rfl, rfl⟩ | ⟨rfl, rfl⟩ <;> decide

theorem Window.IsBroadcast.unanswered (h : k.IsBroadcast off) : k.answered = false := by
  rcases h with ⟨rfl, rfl⟩ | ⟨rfl, rfl⟩ <;> rfl

theorem Window.IsBroadcast.work (h : k.IsBroadcast off) (g : Word → Word) (x : Nat) :
    writeWork g k x 0 [w] = [.store x [w]] := by
  rcases h with ⟨rfl, rfl⟩ | ⟨rfl, rfl⟩ <;> rfl

/-- A broadcast word is taken when all four byte enables are set. -/
theorem Window.IsBroadcast.taken (h : k.IsBroadcast off) (d : Dev) :
    d.takeReady m k 0 [w] = if isFull w = true then d.takeControl k w.data else ([], d) := by
  rcases h with ⟨rfl, rfl⟩ | ⟨rfl, rfl⟩ <;> rfl

/-- A broadcast word written in part is stored and does nothing more. -/
theorem State.broadcast_partly (h : k.IsBroadcast off) (quiet : s.Quiet) (ready : s.Ready) (clean : a.clean)
    (part : w.be ≠ 15#4) : s.presentWrite m off 0 [w] a = s.stored m (s.dev.base + off) [w] id :=
  State.presentWrite_taken quiet.portFree ready clean h.row h.unanswered h.work
    (fun d => (h.taken d).trans (if_neg fun full => part ((isFull_iff w).1 full))) fun _ => rfl

/-- A broadcast word's store is accepted, laid out and taken. -/
theorem State.broadcast_accepted (h : k.IsBroadcast off) (ready : s.Ready) (full : w.be = 15#4) :
    s.presentWrite m off 0 [w] a = s.present (.write m (s.dev.base + off) [w]) a ∧
      s.dev.refuses (.write m (s.dev.base + off) [w]) = false ∧
      s.dev.workOf (.write m (s.dev.base + off) [w]) = [.store (s.dev.base + off) [w]] ∧
      s.dev.takeStore m (s.dev.base + off) [w] = s.dev.takeControl k w.data := by
  obtain ⟨run, accepted, work⟩ := State.accepts_write (s := s) (m := m) (a := a) (i := 0) (ws := [w]) ready h.row
    h.unanswered (Nat.le_refl 1) (Nat.le_refl 1)
  refine ⟨run, accepted, work.trans (h.work _ _), ?_⟩
  rw [Dev.takeStore_at ready.1 rfl h.row (Nat.le_refl _), Nat.sub_self]
  exact (h.taken s.dev).trans (if_pos ((isFull_iff w).2 full))

/-- A broadcast word's store and the nominals it asks for land. -/
theorem State.broadcast_lands (h : k.IsBroadcast off) (quiet : s.Quiet) (ready : s.Ready) (full : w.be = 15#4)
    (laid : s.dev.takeControl k w.data = (mis, s.dev)) (pieces : ∀ mi ∈ mis, 0 < mi.accesses) :
    ∃ xs, xs.length = (mis.map Micro.accesses).sum + 1 ∧ s.portsClear.Lands (.write m (s.dev.base + off) [w])
      (Ctx.init s.dev.fill.seq) [.store (s.dev.base + off) [w]] xs := by
  obtain ⟨-, -, -, taken⟩ := State.broadcast_accepted (m := m) (a := { faultAt := none, pauseAt := none }) h ready full
  obtain ⟨xs, length, lands⟩ := State.lands_nominals
    (s := { s.portsClear.issue (.upstream m) (.write (s.dev.base + off) [w]) with
      mem := Memory.writeWords s.mem (s.dev.base + off) [w] })
    (.write m (s.dev.base + off) [w]) (Ctx.init s.dev.fill.seq)
    ⟨quiet.upstream, quiet.port, quiet.bursts, quiet.request⟩ pieces
  exact ⟨_, (List.length_cons).trans (congrArg (· + 1) length), .store quiet.portsClear (taken.trans laid) lands⟩

/-- A broadcast word that memory answers OKAY throughout. -/
theorem State.broadcast_served {K : Nat} {mem : List Host.Cell} (h : k.IsBroadcast off) (quiet : s.Quiet)
    (ready : s.Ready) (clean : a.clean) (full : w.be = 15#4) (laid : s.dev.takeControl k w.data = (mis, s.dev))
    (short : K ≤ 1000) (reach : State.Reach (.write m (s.dev.base + off) [w]) (Ctx.init s.dev.fill.seq) K
      { s with mem := Memory.writeWords s.mem (s.dev.base + off) [w] } { s with mem := mem } mis []) :
    ∃ xs, s.presentWrite m off 0 [w] a = State.served m xs (.okay []) { s with mem := mem } :=
  State.broadcast_write quiet ready clean h.row h.unanswered h.work
    ((h.taken s.dev).trans ((if_pos ((isFull_iff w).2 full)).trans laid)) short reach

end Sys2Proof.Machine

namespace Sys2Proof.Machine

/-! ### The words of the line partners (R41, R59) -/

/-- Samples taken one by one, each at its ring index. -/
theorem Dev.takeSamples_eq : ∀ (ws : List WWord) (i n : Nat) (d : Dev), Dev.takeSamples (i + n) ws d =
    (ws.zipIdx n).foldl (fun d x => d.takeSample (i + x.2) (mergeBytes 0 x.1.data x.1.be)) d := by
  intro ws
  induction ws with
  | nil => exact fun _ _ _ => rfl
  | cons w ws ih => exact fun i n d => ih i (n + 1) _

end Sys2Proof.Machine

namespace Sys2Proof

open Sys2Proof.Machine

/-- Settles O31. -/
theorem addViewReadAnswersTheNominals : Obligations.AddViewReadAnswersTheNominals := by
  unfold Obligations.AddViewReadAnswersTheNominals
  intro s m i n a free ready clean n1 n8 inside
  have row := (rowAt_window (0x500 + 4 * i)).2.2.1 (by omega)
  have fits : 0x500 + 4 * i + 4 * n ≤ 0x500 + 4 * 64 := by omega
  have accepted := Dev.accepted (d := s.dev) (t := .read m (s.dev.base + (0x500 + 4 * i)) n) ready.2 rfl row fits rfl
  have work := Dev.workOf_read (m := m) ready.1 rfl row fits n1
  rw [Nat.add_sub_cancel_left, Nat.mul_div_cancel_left _ (by decide)] at work
  refine (whenOk_rangeOk (by omega) (lengthOk_of_le n1 n8)).trans (congrArg _ ?_)
  unfold State.presentRead Dev.windowAddr
  rw [Nat.add_assoc, State.present_one (mi := .read (s.dev.base + 0x300 + 4 * i) n)
    (x := .read (s.dev.base + 0x300 + 4 * i) n) free clean accepted work rfl rfl rfl rfl]
  show State.served m _ _ { s with dev := Dev.settle (s.dev.countGrant.withUp []) } = _
  rw [free.grant_idle]
  rfl

/-- Settles O32. -/
theorem broadcastWritesReachTheSelectedValves : Obligations.BroadcastWritesReachTheSelectedValves := by
  unfold Obligations.BroadcastWritesReachTheSelectedValves
  intro s m w quiet ready valves stored nominal added landing
  have setWord : Window.bcastSet.IsBroadcast 0x124 := .inl ⟨rfl, rfl⟩
  have addWord : Window.bcastAdd.IsBroadcast 0x128 := .inr ⟨rfl, rfl⟩
  have few : valves.length ≤ 64 := (List.length_filter_le _ _).trans (Nat.le_of_eq List.length_range)
  refine ⟨fun full => ⟨?_, ?_, ?_⟩, fun part a clean => ⟨?_, ?_⟩, Dev.unserved_same quiet.request⟩
  · obtain ⟨pieces, bursts⟩ := setBursts_accesses (s.dev.shapeNominal w.data) valves 0 0
    obtain ⟨xs, length, lands⟩ := State.broadcast_lands (m := m)
      (mis := setBursts (s.dev.shapeNominal w.data) 0 0 valves) setWord quiet ready full rfl pieces
    refine ⟨xs, fun a clean => ?_, fun a j fault pause within => ?_⟩
    · obtain ⟨run, accepted, work, -⟩ := State.broadcast_accepted (m := m) (a := a) setWord ready full
      obtain ⟨ys, served⟩ := State.broadcast_served (m := m) setWord quiet ready clean full rfl (by omega)
        (State.reach_setBursts quiet (s.dev.shapeNominal w.data) valves 0 0 (stored 0x124))
      have whole : s.presentWrite m 0x124 0 [w] a =
          State.served m xs (.okay []) { s with mem := landed xs s.mem } := by
        rw [run, State.present_accepted quiet.upstream clean accepted, work]
        exact lands.served quiet (by omega)
      exact congrArg _ (whole.trans (congrArg (fun mem => State.served m xs (.okay []) { s with mem := mem })
        (congrArg State.mem (whole.symm.trans served))))
    · obtain ⟨run, accepted, work, -⟩ := State.broadcast_accepted (m := m) (a := a) setWord ready full
      refine congrArg Host.Outcome.next (a₁ := s.presentWrite m 0x124 0 [w] a) ?_
      rw [run, State.present_faulting quiet.upstream fault pause accepted, work]
      refine (lands.faulted within (by omega)).trans ?_
      show State.served m _ _ { s with mem := _, dev := Dev.settle s.dev.drainAll } = _
      rw [show landed (xs.take j) s.mem = landing (xs.take j) s.mem from
        foldl_land (fun _ _ _ => rfl) (fun _ _ _ => rfl) _ _]
  · intro a clean
    obtain ⟨xs, served⟩ := State.broadcast_served (m := m) addWord quiet ready clean full rfl (by omega)
      (State.reach_addAll quiet w.data valves (stored 0x128))
    have all : valves.take valves.length = valves := List.take_length
    refine ⟨xs, congrArg _ (served.trans ?_)⟩
    show _ = State.served m xs (.okay []) { s with mem := (valves.take valves.length).foldl _ (stored 0x128) }
    rw [all]
  · intro a j fault pause within
    obtain ⟨run, accepted, work, taken⟩ := State.broadcast_accepted (m := m) (a := a) addWord ready full
    obtain ⟨t, stores⟩ : ∃ t : State, t = { s.portsClear.issue (.upstream m) (.write (s.dev.base + 0x128) [w]) with
      mem := stored 0x128 } := ⟨_, rfl⟩
    have dev : t.dev = s.dev := stores ▸ rfl
    have mem : t.mem = stored 0x128 := stores ▸ rfl
    obtain ⟨xs, length, served⟩ := State.serve_adds_fault (.write m (s.dev.base + 0x128) [w])
      (Ctx.init s.dev.fill.seq) (valves.map fun v => (v, w.data)) j 1022 1023 t
      (stores ▸ ⟨quiet.upstream, quiet.port, quiet.bursts, quiet.request⟩)
      (by rw [List.length_map]; exact within) (by rw [List.length_map]; omega) (by rw [List.length_map]; omega)
    refine ⟨.write (s.dev.base + 0x128) [w] :: xs, congrArg (· + 1) length,
      congrArg Host.Outcome.next (a₁ := s.presentWrite m 0x128 0 [w] a) ?_⟩
    rw [run, State.present_faulting quiet.upstream fault pause accepted, work]
    have adds : s.dev.takeControl .bcastAdd w.data =
        ((valves.map fun v => (v, w.data)).map fun x => Micro.nomAdd x.1 x.2, s.dev) := by
      rw [List.map_map]
      rfl
    refine (State.serve_store_before_fault (t := .write m (s.dev.base + 0x128) [w]) 1022 1023 j quiet.portsClear
      (taken.trans adds)).trans ?_
    rw [dev, mem, ← List.map_take, List.foldl_map] at served
    rw [show Dev.settle s.dev.drainAll = s.dev.unserved from rfl]
    generalize s.dev.unserved = left at served ⊢
    subst stores
    exact served
  · exact congrArg _ (State.broadcast_partly setWord quiet ready clean part)
  · exact congrArg _ (State.broadcast_partly addWord quiet ready clean part)

/-- Settles O33. -/
theorem positionAndSampleWordsAreTaken : Obligations.PositionAndSampleWordsAreTaken := by
  unfold Obligations.PositionAndSampleWordsAreTaken
  refine ⟨fun s m w a free ready clean => congrArg Host.Outcome.next ?_,
    fun s m i ws a free ready clean n1 n8 inside => ?_⟩
  · refine (State.presentWrite_taken (k := .position)
      (f := fun d => if m.toNat = d.su.motion ∧ w.be = 15#4 then d.takePosition w.data else d)
      free ready clean (by decide) rfl (fun _ _ => rfl) (fun d => ?_) fun d => ?_).trans ?_
    · show (if m.toNat = d.su.motion ∧ isFull w = true then _ else _) = _
      simp only [isFull_iff]
      split <;> rfl
    · split
      · exact (Dev.takePosition_block (.refl d) w.data).upstream
      · rfl
    · refine State.stored_congr ?_
      rw [show s.dev.countGrant.su = s.dev.su from congrArg (fun u => u.setup.getD default) s.dev.countGrant_keeps.1]
  · have row := (rowAt_window (0x4000 + 4 * i)).2.2.2.2.2.2 (by omega)
    have fits : 0x4000 + 4 * i + 4 * ws.length ≤ 0x4000 + 4 * 4096 := by omega
    refine (whenOk_rangeOk (by omega) (lengthOk_of_le n1 n8)).trans (congrArg Host.Outcome.next ?_)
    unfold State.presentWrite Dev.windowAddr
    rw [Nat.add_assoc]
    refine State.present_store free ready clean rfl row fits n1 rfl rfl ?_ ?_
    · have scale : s.dev.countGrant.su = s.dev.su := congrArg (fun u => u.setup.getD default) s.dev.countGrant_keeps.1
      rw [Nat.add_sub_cancel_left, Nat.mul_div_cancel_left _ (by decide), ← scale]
      show (if m.toNat = s.dev.countGrant.su.scale then (_, _) else (_, _)) = _
      rw [← Dev.takeSamples_eq]
      split <;> rfl
    · split
      · rw [← Dev.takeSamples_eq]
        exact (Dev.takeSamples_block ws _ (.refl _)).upstream.trans free.grant_up
      · exact free.grant_up

end Sys2Proof
end

section
/-! The switch to the PENDING recipe (R33, R70, R130, R136): its valves, its slots, its entries' words, and the nets of
bare pockets. -/

namespace Sys2Proof.Machine

variable {a b d t : Dev} {k u : Fin 4} {c : Ctx} {p q : Fin 2} {i j : Nat} {o : LotOrder} {x y : LotEntry}

/-! ### Entries of orders held -/

/-- Place `p` holds order `o`, but for its entries, and its entry `i` is `x`. -/
def Dev.HasEntry (d : Dev) (p : Fin 2) (o : LotOrder) (i : Nat) (x : LotEntry) : Prop :=
  ∃ es, d.place p = some { o with entries := es } ∧ es[i]? = some x

theorem Dev.hasEntry_of_place (held : d.place p = some o) (entry : o.entries[i]? = some x) : d.HasEntry p o i x :=
  ⟨o.entries, held, entry⟩

theorem Dev.HasEntry.entryAt (h : d.HasEntry p o i x) : d.entryAt p i = some x := by
  obtain ⟨es, held, entry⟩ := h
  unfold Dev.entryAt
  rw [held]
  exact entry

/-- An entry's change reaches that entry, and its two words wait. -/
theorem Dev.HasEntry.updateEntry (h : d.HasEntry p o i x) (f : LotEntry → LotEntry) :
    (d.updateEntry p i f).HasEntry p o i (f x) ∧
      (d.updateEntry p i f).order.writes = d.order.writes ++
        [(o.addr + 16 + 16 * i, BitVec.ofNat 32 (f x).status.code), (o.addr + 20 + 16 * i, BitVec.ofNat 32 (f x).made)] ∧
      (d.updateEntry p i f).order.running = d.order.running := by
  obtain ⟨es, held, entry⟩ := h
  have within := (List.getElem?_eq_some_iff.1 entry).1
  rw [Dev.updateEntry_eq f held entry]
  refine ⟨⟨es.set i (f x), ?_, ?_⟩, ?_, ?_⟩
  · rw [(Dev.pushOrderWrite_wrote _ _ _).place, (Dev.pushOrderWrite_wrote _ _ _).place, Dev.place_setPlace]
  · rw [List.getElem?_set_self within]
  · rw [Dev.pushOrderWrite_writes, Dev.pushOrderWrite_writes, List.append_assoc]
    rfl
  · rw [(Dev.pushOrderWrite_wrote _ _ _).runs.1, (Dev.pushOrderWrite_wrote _ _ _).runs.1]
    rfl

/-- It leaves every other entry. -/
theorem Dev.HasEntry.updateEntry_ne {o' : LotOrder} (h : d.HasEntry q o' j y) (h' : d.HasEntry p o i x)
    (other : (p, i) ≠ (q, j)) (f : LotEntry → LotEntry) : (d.updateEntry p i f).HasEntry q o' j y := by
  obtain ⟨es, held, entry⟩ := h'
  obtain ⟨es', held', entry'⟩ := h
  rw [Dev.updateEntry_eq f held entry]
  unfold Dev.HasEntry
  rw [(Dev.pushOrderWrite_wrote _ _ _).place, (Dev.pushOrderWrite_wrote _ _ _).place]
  by_cases same : q = p
  · subst same
    have order : ({ o with entries := es } : LotOrder) = { o' with entries := es' } :=
      Option.some.inj (held.symm.trans held')
    have entries : es = es' := congrArg LotOrder.entries order
    subst entries
    refine ⟨es.set i (f x), ?_, ?_⟩
    · rw [Dev.place_setPlace]
      exact congrArg (fun o : LotOrder => some { o with entries := es.set i (f x) }) order
    · rw [List.getElem?_set_ne fun h => other (congrArg (Prod.mk q) h)]
      exact entry'
  · rw [Dev.place_setPlace_ne _ _ same]
    exact ⟨es', held', entry'⟩

/-- Closing an entry of an order that has another one open (R137): the entry's words and the order's status word. -/
theorem Dev.HasEntry.closeEntry (h : d.HasEntry p o i x) (h' : d.HasEntry p o j y) (other : i ≠ j)
    (stays : y.status.over = false) :
    (d.closeEntry (.entry p i)).order.writes = d.order.writes ++
        [(o.addr + 16 + 16 * i, 5), (o.addr + 20 + 16 * i, BitVec.ofNat 32 x.made),
         (o.addr + 4, orderStatusWord false o.error (o.closed + 1))] ∧
      (d.closeEntry (.entry p i)).entryAt p i = some { x with status := .closed } ∧
      (d.closeEntry (.entry p i)).entryAt p j = some y ∧
      (d.closeEntry (.entry p i)).order.running = d.order.running := by
  obtain ⟨es, held, entry⟩ := h
  obtain ⟨es', held', entry'⟩ := h'
  have entries : es = es' := congrArg LotOrder.entries (Option.some.inj (held.symm.trans held'))
  subst entries
  have within := (List.getElem?_eq_some_iff.1 entry).1
  have stands : (es.set i { x with status := .closed })[j]? = some y := by
    rw [List.getElem?_set_ne other]
    exact entry'
  rw [Dev.closeEntry_eq held entry, Dev.completeOrder_open (x := y)
    (o := { o with entries := es.set i { x with status := .closed }, closed := o.closed + 1 })
    ?_ (List.mem_of_getElem? stands) stays]
  · unfold Dev.writeOrderStatus Dev.entryAt
    rw [(Dev.pushOrderWrite_wrote _ _ _).place, (Dev.pushOrderWrite_wrote _ _ _).place,
      (Dev.pushOrderWrite_wrote _ _ _).place, Dev.place_setPlace]
    refine ⟨?_, ?_, stands, ?_⟩
    · rw [Dev.pushOrderWrite_writes, Dev.pushOrderWrite_writes, Dev.pushOrderWrite_writes, List.append_assoc,
        List.append_assoc]
      rfl
    · exact List.getElem?_set_self within
    · rw [(Dev.pushOrderWrite_wrote _ _ _).runs.1, (Dev.pushOrderWrite_wrote _ _ _).runs.1,
        (Dev.pushOrderWrite_wrote _ _ _).runs.1]
      rfl
  · unfold Dev.writeOrderStatus
    rw [(Dev.pushOrderWrite_wrote _ _ _).place, (Dev.pushOrderWrite_wrote _ _ _).place,
      (Dev.pushOrderWrite_wrote _ _ _).place, Dev.place_setPlace]

/-! ### The parts of a switch -/

/-- What more an order step keeps. -/
theorem OrderStep.keeps_line (h : OrderStep a b) : b.pocket = a.pocket ∧ b.weigh = a.weigh ∧ b.draws = a.draws ∧
    b.path.upstream = a.path.upstream := by
  obtain ⟨_, _, _, _, _, _, _, _, rfl⟩ := h
  exact ⟨rfl, rfl, rfl, rfl⟩

theorem OrderStep.slot (h : OrderStep a b) (j : Fin 4) : b.slot j = a.slot j := by
  obtain ⟨_, _, _, _, _, _, _, _, rfl⟩ := h
  rfl

theorem Dev.fillOldEntry_order (c : Ctx) (d : Dev) : OrderStep d (d.fillOldEntry c) := by
  unfold Dev.fillOldEntry
  cases d.entryWith c with
  | none => exact .refl d
  | some e =>
    dsimp only
    cases e.ref with
    | detached => exact .refl d
    | entry p i => exact Dev.updateEntry_order (.refl d) p i _

/-- The current entry that a switch to entry `ref` starts (R136). -/
def Dev.freshEntry (d : Dev) (ref : LotRef) : CurrentEntry where
  ref := ref
  canCount := match ref with
    | .detached => 0
    | .entry p i => match d.entryAt p i with | none => 0 | some e => e.canCount
  made := 0
  stalled := false

theorem Dev.startNewEntry_order (ref : LotRef) (d : Dev) :
    OrderStep { d with order := { d.order with cur := some (d.freshEntry ref) } } (d.startNewEntry ref) := by
  unfold Dev.startNewEntry
  cases ref with
  | detached => exact .refl _
  | entry p i =>
    dsimp only
    obtain ⟨_, _, _, _, _, _, _, _, shape⟩ :=
      Dev.updateEntry_order (.refl d) p i fun x => { x with status := .started, made := 0 }
    rw [shape]
    exact ⟨_, _, _, _, _, _, _, _, rfl⟩

/-- The slot that `a` has CURRENT becomes DRAINING (R130). -/
def Dev.oldDrains (a : Dev) (d : Dev) : Dev :=
  match a.currentSlot with
  | none => d
  | some j => d.setSlot j { d.slot j with st := .draining }

/-- It goes FREE when nothing names it (R130). -/
def Dev.oldFreed (a : Dev) (d : Dev) : Dev := match a.currentSlot with | none => d | some j => d.drainIfEmpty j

/-- The switch up to the old slot's draining: the valves and the old entry. -/
def Dev.oldFilled (k : Fin 4) (c : Ctx) (d : Dev) : Dev :=
  d.oldDrains (Dev.fillOldEntry c (d.switchValves (d.recipeOf k)))

/-- Slot `k` becomes CURRENT and its entry the current one (R136). -/
def Dev.newStarted (k : Fin 4) (d : Dev) : Dev :=
  Dev.startNewEntry (d.slot k).ref (d.setSlot k { d.slot k with st := .current })

theorem Dev.switchTo_eq (k : Fin 4) (c : Ctx) (d : Dev) : d.switchTo k c =
    Dev.raise .lotSwitch (Dev.reformBare { d.oldFreed (Dev.newStarted k (d.oldFilled k c)) with
      fill := { (d.oldFreed (Dev.newStarted k (d.oldFilled k c))).fill with switchDue := false } }) := by
  unfold Dev.switchTo Dev.newStarted Dev.oldFilled Dev.oldFreed Dev.oldDrains
  cases d.currentSlot <;> rfl

theorem Dev.oldDrains_slot (a d : Dev) (u : Fin 4) : (a.oldDrains d).slot u =
    if a.currentSlot = some u then { d.slot u with st := .draining } else d.slot u := by
  unfold Dev.oldDrains
  cases a.currentSlot with
  | none => exact (if_neg fun h => nomatch h).symm
  | some j =>
    show (d.setSlot j _).slot u = _
    rw [Dev.slot_setSlot_ite]
    by_cases same : u = j
    · rw [if_pos same, if_pos (congrArg some same.symm), same]
    · rw [if_neg same, if_neg fun h => same (Option.some.inj h).symm]

theorem Dev.drainIfEmpty_slot {j : Fin 4} (draining : (d.slot j).st = .draining) (u : Fin 4) : (d.drainIfEmpty j).slot u =
    if u = j ∧ (d.slot j).members = [] ∧ d.tentative j = false then RecipeSlot.empty else d.slot u := by
  unfold Dev.drainIfEmpty
  dsimp only
  by_cases empty : (d.slot j).members = [] ∧ d.tentative j = false
  · rw [if_pos ⟨draining, empty⟩, (Dev.closeEntry_order (.refl _) _).slot, Dev.slot_setSlot_ite]
    by_cases same : u = j
    · rw [if_pos same, if_pos ⟨same, empty⟩]
    · rw [if_neg same, if_neg fun h => same h.1]
  · rw [if_neg fun h => empty h.2, if_neg fun h => empty h.2]

/-! ### What a switch leaves alone -/

/-- The valve table, the order unit, the bursts and the raised causes alone may differ. -/
def SwitchStep (a b : Dev) : Prop :=
  ∃ bs p q e u v, b = { a with
    path := { a.path with bursts := bs }
    report := { a.report with pending := p, request := q, errAddr := e }
    valve := u
    order := v }

theorem SwitchStep.trans {a b c : Dev} (h : SwitchStep a b) (k : SwitchStep b c) : SwitchStep a c := by
  obtain ⟨_, _, _, _, _, _, rfl⟩ := h
  obtain ⟨_, _, _, _, _, _, rfl⟩ := k
  exact ⟨_, _, _, _, _, _, rfl⟩

theorem SwitchStep.of_order (d : Dev) (o : OrderUnit) : SwitchStep d { d with order := o } := ⟨_, _, _, _, _, _, rfl⟩

theorem OrderStep.switchStep (h : OrderStep a b) : SwitchStep a b := by
  obtain ⟨_, _, _, _, _, _, _, _, rfl⟩ := h
  exact ⟨_, _, _, _, _, _, rfl⟩

theorem SwitchStep.keeps (h : SwitchStep a b) : b.fill = a.fill ∧ b.track = a.track ∧ b.code = a.code ∧
    b.setup = a.setup ∧ b.pocket = a.pocket ∧ b.draws = a.draws ∧ b.path.upstream = a.path.upstream := by
  obtain ⟨_, _, _, _, _, _, rfl⟩ := h
  exact ⟨rfl, rfl, rfl, rfl, rfl, rfl, rfl⟩

theorem Dev.oldDrains_switchStep (a d : Dev) : SwitchStep d (a.oldDrains d) := by
  unfold Dev.oldDrains
  cases a.currentSlot <;> exact .of_order d _

theorem Dev.drainIfEmpty_switchStep (j : Fin 4) (d : Dev) : SwitchStep d (d.drainIfEmpty j) := by
  unfold Dev.drainIfEmpty
  dsimp only
  split
  · exact (SwitchStep.of_order d _).trans (Dev.closeEntry_order (.refl _) _).switchStep
  · exact .of_order d _

theorem Dev.oldFreed_switchStep (a d : Dev) : SwitchStep d (a.oldFreed d) := by
  unfold Dev.oldFreed
  cases a.currentSlot with
  | none => exact .of_order d _
  | some j => exact Dev.drainIfEmpty_switchStep j d

theorem Dev.oldFilled_switchStep (k : Fin 4) (c : Ctx) (d : Dev) : SwitchStep d (d.oldFilled k c) := by
  obtain ⟨u, valves⟩ := d.switchValves_shape (d.recipeOf k)
  have first : SwitchStep d (d.switchValves (d.recipeOf k)) := valves ▸ ⟨_, _, _, _, _, _, rfl⟩
  exact (first.trans (Dev.fillOldEntry_order c _).switchStep).trans (Dev.oldDrains_switchStep d _)

theorem Dev.newStarted_switchStep (k : Fin 4) (d : Dev) : SwitchStep d (d.newStarted k) :=
  ((SwitchStep.of_order d _).trans (.of_order _ _)).trans (Dev.startNewEntry_order _ _).switchStep

/-! ### The slots, the valves and the current entry of a switch -/

theorem Dev.oldFilled_slot (k : Fin 4) (c : Ctx) (d : Dev) (u : Fin 4) : (d.oldFilled k c).slot u =
    if d.currentSlot = some u then { d.slot u with st := .draining } else d.slot u := by
  unfold Dev.oldFilled
  rw [Dev.oldDrains_slot, (Dev.fillOldEntry_order c _).slot]
  obtain ⟨v, shape⟩ := d.switchValves_shape (d.recipeOf k)
  rw [shape]
  rfl

theorem Dev.newStarted_slot (k : Fin 4) (d : Dev) (u : Fin 4) : (d.newStarted k).slot u =
    if u = k then { d.slot k with st := .current } else d.slot u := by
  unfold Dev.newStarted
  rw [(Dev.startNewEntry_order _ _).slot]
  exact Dev.slot_setSlot_ite d k u _

/-- A PENDING slot is not the CURRENT one. -/
theorem Dev.currentSlot_ne (pending : (d.slot k).st = .pending) : d.currentSlot ≠ some k := fun current =>
  nomatch pending.symm.trans (Dev.slotIn_some current)

/-- The slots of the switch to PENDING slot `k`, before the old slot's release. -/
theorem Dev.switching_slot (pending : (d.slot k).st = .pending) (c : Ctx) (u : Fin 4) :
    (Dev.newStarted k (d.oldFilled k c)).slot u = if u = k then { d.slot k with st := .current }
      else if d.currentSlot = some u then { d.slot u with st := .draining } else d.slot u := by
  rw [Dev.newStarted_slot, Dev.oldFilled_slot, Dev.oldFilled_slot, if_neg (Dev.currentSlot_ne pending)]

/-- The slots after it. -/
theorem Dev.switched_slot (pending : (d.slot k).st = .pending) (c : Ctx) (u : Fin 4) :
    (d.oldFreed (Dev.newStarted k (d.oldFilled k c))).slot u = if u = k then { d.slot k with st := .current }
      else if d.currentSlot = some u then
        if (d.slot u).members = [] ∧ d.tentative u = false then RecipeSlot.empty
        else { d.slot u with st := .draining }
      else d.slot u := by
  have switching := Dev.switching_slot pending c
  have upstream := ((Dev.oldFilled_switchStep k c d).trans (Dev.newStarted_switchStep k _)).keeps.2.2.2.2.2.2
  unfold Dev.oldFreed
  cases current : d.currentSlot with
  | none =>
    dsimp only
    rw [switching, current]
    by_cases same : u = k
    · rw [if_pos same, if_pos same]
    · rw [if_neg same, if_neg same, if_neg nofun, if_neg nofun]
  | some j =>
    have other : j ≠ k := fun same => Dev.currentSlot_ne pending (same ▸ current)
    have old := switching j
    rw [if_neg other, if_pos current] at old
    dsimp only
    rw [Dev.drainIfEmpty_slot (by rw [old]), old, Dev.tentative_congr upstream, switching, current]
    by_cases same : u = k
    · rw [if_pos same, if_pos same, if_neg fun h => other (h.1.symm.trans same)]
    · rw [if_neg same, if_neg same]
      by_cases was : u = j
      · subst was
        rw [if_pos rfl, if_pos rfl]
        exact if_congr (and_iff_right rfl) rfl rfl
      · rw [if_neg fun h => was h.1, if_neg fun h => was (Option.some.inj h).symm, if_neg fun h => was (Option.some.inj h).symm]

theorem Dev.oldFreed_keeps (a d : Dev) :
    (a.oldFreed d).valve = d.valve ∧ (a.oldFreed d).order.cur = d.order.cur := by
  unfold Dev.oldFreed Dev.drainIfEmpty
  cases a.currentSlot with
  | none => exact ⟨rfl, rfl⟩
  | some j =>
    dsimp only
    split
    · obtain ⟨valve, -, -, -, -, cur, -⟩ := (Dev.closeEntry_order (.refl (d.setSlot j .empty)) (d.slot j).ref).keeps
      exact ⟨valve, cur⟩
    · exact ⟨rfl, rfl⟩

/-- Its valves. -/
theorem Dev.switched_valveRec (k : Fin 4) (c : Ctx) (d : Dev) (v : Fin 64) :
    (d.oldFreed (Dev.newStarted k (d.oldFilled k c))).valveRec v = (d.valveRec v).switched (d.recipeOf k) := by
  have started : (Dev.newStarted k (d.oldFilled k c)).valve = (d.oldFilled k c).valve :=
    (Dev.startNewEntry_order _ _).keeps.1
  have drained : (d.oldFilled k c).valve = (Dev.fillOldEntry c (d.switchValves (d.recipeOf k))).valve := by
    unfold Dev.oldFilled Dev.oldDrains
    cases d.currentSlot <;> rfl
  rw [← Dev.valveRec_switchValves]
  unfold Dev.valveRec
  rw [(Dev.oldFreed_keeps _ _).1, started, drained, (Dev.fillOldEntry_order c _).keeps.1]

/-- Its current entry. -/
theorem Dev.switched_cur (pending : (d.slot k).st = .pending) (c : Ctx) :
    (d.oldFreed (Dev.newStarted k (d.oldFilled k c))).order.cur =
      some ((Dev.oldFilled k c d).freshEntry (d.slot k).ref) := by
  have ref := Dev.oldFilled_slot k c d k
  rw [if_neg (Dev.currentSlot_ne pending)] at ref
  rw [(Dev.oldFreed_keeps _ _).2]
  refine (Dev.startNewEntry_order _ _).keeps.2.2.2.2.2.1.trans ?_
  rw [ref]
  rfl

/-! ### The nets of bare pockets (R70, R71) -/

theorem clamp32_eq (x : Int) : clamp32 x = max (-2147483648) (min 2147483647 x) :=
  clampInt_eq_max_min (by decide) x

/-- The flag UNSEEN of a weighing. -/
theorem flagUnseen_iff (flags : BitVec 6) : flags &&& flagUnseen ≠ 0 ↔ flags.getLsbD 5 = true := by
  revert flags
  decide

/-- A bare entry's net, formed again under the CURRENT recipe. -/
theorem Dev.reformNet_bare (current : d.slotIn .current = some k) {e : Entry} (bare : e.record = none) :
    d.reformNet e = match e.verdict, e.weighing with
      | none, some w => if w.flags.getLsbD 5 then e else
          { e with weighing := some { w with
            net := max (-2147483648) (min 2147483647 (w.gross - (d.recipeOf k).tare)) } }
      | _, _ => e := by
  have tare : d.tareFor e = (d.recipeOf k).tare := by
    unfold Dev.tareFor
    rw [bare, Dev.currentRecipe_some current]
  unfold Dev.reformNet netOf
  rw [tare]
  cases e.verdict with
  | some v => rfl
  | none =>
    cases e.weighing with
    | none => rfl
    | some w =>
      dsimp only
      rw [clamp32_eq]
      exact if_congr (flagUnseen_iff w.flags) rfl rfl

/-- The slot switched to is the one CURRENT after it, when at most one was before (R129). -/
theorem Dev.switched_current (pending : (d.slot k).st = .pending)
    (one : ∀ u v : Fin 4, (d.slot u).st = .current → (d.slot v).st = .current → u = v) (c : Ctx) :
    (d.oldFreed (Dev.newStarted k (d.oldFilled k c))).slotIn .current = some k := by
  refine Dev.slotIn_unique ?_ fun j current => ?_
  · rw [Dev.switched_slot pending, if_pos rfl]
  · rw [Dev.switched_slot pending] at current
    by_contra other
    rw [if_neg other] at current
    by_cases was : d.currentSlot = some j
    · rw [if_pos was] at current
      split at current <;> exact nomatch current
    · rw [if_neg was] at current
      exact was (Dev.slotIn_unique current fun u same => one u j same current)

/-- The switch, with the parts that its last steps change left open. -/
theorem Dev.switchTo_ends (isPlaced : d.setup.part ≠ .unplaced) (k : Fin 4) (c : Ctx) :
    ∃ ring p q, p.getLsbD 6 = true ∧ d.switchTo k c = { d.oldFreed (Dev.newStarted k (d.oldFilled k c)) with
      fill := { d.fill with switchDue := false }
      pocket := { d.pocket with ring := ring }
      report := { (d.oldFreed (Dev.newStarted k (d.oldFilled k c))).report with pending := p, request := q } } := by
  obtain ⟨fill, -, -, setup, pocket, -, -⟩ := (((Dev.oldFilled_switchStep k c d).trans
    (Dev.newStarted_switchStep k _)).trans (Dev.oldFreed_switchStep d _)).keeps
  rw [Dev.switchTo_eq]
  generalize d.oldFreed (Dev.newStarted k (d.oldFilled k c)) = e at *
  obtain ⟨ring, shape⟩ := Dev.reformBare_shape { e with fill := { e.fill with switchDue := false } }
  rw [shape, Dev.raise_placed .lotSwitch (by rw [← setup] at isPlaced; exact isPlaced)]
  refine ⟨ring, _, _, ?_, by rw [← fill, ← pocket]⟩
  · rw [BitVec.getLsbD_or, show (1#21 <<< Cause.lotSwitch.bit).getLsbD 6 = true from rfl, Bool.or_true]

theorem Dev.slot_congr (same : a.order = b.order) (u : Fin 4) : a.slot u = b.slot u := by
  unfold Dev.slot
  rw [same]

theorem Dev.valveRec_congr (same : a.valve = b.valve) (v : Fin 64) : a.valveRec v = b.valveRec v := by
  unfold Dev.valveRec
  rw [same]

theorem Dev.entry_congr (same : a.pocket = b.pocket) (p : Word) : a.entry p = b.entry p := by
  unfold Dev.entry
  rw [same]

theorem Dev.raise_entry (c : Cause) (d : Dev) (p : Word) : (d.raise c).entry p = d.entry p := by
  obtain ⟨request, shape⟩ := Dev.raise_shape c d
  rw [shape]
  rfl

/-- The ring after it. -/
theorem Dev.switchTo_entry (pending : (d.slot k).st = .pending)
    (one : ∀ u v : Fin 4, (d.slot u).st = .current → (d.slot v).st = .current → u = v) (c : Ctx) (p : Word) :
    (d.switchTo k c).entry p = if (d.entry p).record = none then
      match (d.entry p).verdict, (d.entry p).weighing with
      | none, some w => if w.flags.getLsbD 5 then d.entry p else
          { d.entry p with weighing := some { w with
            net := max (-2147483648) (min 2147483647 (w.gross - (d.recipeOf k).tare)) } }
      | _, _ => d.entry p
      else d.entry p := by
  obtain ⟨-, -, -, -, pocket, draws, -⟩ := (((Dev.oldFilled_switchStep k c d).trans
    (Dev.newStarted_switchStep k _)).trans (Dev.oldFreed_switchStep d _)).keeps
  have current := Dev.switched_current pending one c
  have slot := Dev.switched_slot pending c k
  rw [if_pos rfl] at slot
  rw [Dev.switchTo_eq]
  generalize d.oldFreed (Dev.newStarted k (d.oldFilled k c)) = e at *
  have recipe : e.recipeOf k = d.recipeOf k := by
    unfold Dev.recipeOf
    rw [slot, draws]
  have entry : e.entry p = d.entry p := by
    unfold Dev.entry
    rw [pocket]
  have unfilled : Dev.entry { e with fill := { e.fill with switchDue := false } } p = d.entry p :=
    (Dev.entry_congr (b := e) rfl p).trans entry
  rw [Dev.raise_entry, Dev.reformBare_entry]
  rw [unfilled]
  by_cases bare : (d.entry p).record = none
  · rw [if_pos bare, if_pos bare]
    refine (Dev.reformNet_congr (a := e) (d := { e with fill := { e.fill with switchDue := false } }) rfl rfl _).trans ?_
    rw [Dev.reformNet_bare current bare, recipe]
  · rw [if_neg bare, if_neg bare]

/-! ### The words of a switch between entries of orders (R136) -/

theorem Dev.fillOldEntry_eq {cur : CurrentEntry} (was : d.order.cur = some cur) (old : cur.ref = .entry p i) (c : Ctx) :
    d.fillOldEntry c = d.updateEntry p i fun x => { x with status := .filled, made := cur.made + c.made } := by
  unfold Dev.fillOldEntry Dev.entryWith
  rw [was]
  dsimp only [Option.map_some]
  rw [old]

theorem Dev.HasEntry.congr (h : a.HasEntry p o i x) (same : b.order.places = a.order.places) : b.HasEntry p o i x := by
  unfold Dev.HasEntry Dev.place
  rw [same]
  exact h

theorem Dev.oldDrains_keeps (a d : Dev) : (a.oldDrains d).order.places = d.order.places ∧
    (a.oldDrains d).order.writes = d.order.writes ∧ (a.oldDrains d).order.running = d.order.running := by
  unfold Dev.oldDrains
  cases a.currentSlot <;> exact ⟨rfl, rfl, rfl⟩

/-- The old entry is written FILLED with its fills made. -/
theorem Dev.oldFilled_words {cur : CurrentEntry} {o' : LotOrder} (k : Fin 4) (c : Ctx) (was : d.order.cur = some cur)
    (old : cur.ref = .entry p i) (held : d.HasEntry p o i x) (held' : d.HasEntry q o' j y) (other : (p, i) ≠ (q, j)) :
    (d.oldFilled k c).HasEntry p o i { x with status := .filled, made := cur.made + c.made } ∧
      (d.oldFilled k c).HasEntry q o' j y ∧
      (d.oldFilled k c).order.writes = d.order.writes ++
        [(o.addr + 16 + 16 * i, 4), (o.addr + 20 + 16 * i, BitVec.ofNat 32 (cur.made + c.made))] ∧
      (d.oldFilled k c).order.running = d.order.running := by
  obtain ⟨u, valves⟩ := d.switchValves_shape (d.recipeOf k)
  have order : (d.switchValves (d.recipeOf k)).order = d.order := (congrArg Dev.order valves :)
  obtain ⟨places, writes, running⟩ := d.oldDrains_keeps (Dev.fillOldEntry c (d.switchValves (d.recipeOf k)))
  unfold Dev.oldFilled
  rw [writes, running]
  rw [Dev.fillOldEntry_eq (by rw [order]; exact was) old] at places ⊢
  have held := held.congr (congrArg OrderUnit.places order)
  have held' := held'.congr (congrArg OrderUnit.places order)
  obtain ⟨filled, words, runs⟩ := held.updateEntry fun x => { x with status := .filled, made := cur.made + c.made }
  refine ⟨filled.congr places, (held'.updateEntry_ne held other _).congr places, ?_, ?_⟩
  · rw [words, order]
    rfl
  · rw [runs, order]

/-- The new entry is written STARTED and becomes the current one. -/
theorem Dev.newStarted_words {o' : LotOrder} (new : (d.slot k).ref = .entry q j) (held : d.HasEntry p o i x)
    (held' : d.HasEntry q o' j y) (other : (p, i) ≠ (q, j)) :
    (d.newStarted k).HasEntry p o i x ∧ (d.newStarted k).HasEntry q o' j { y with status := .started, made := 0 } ∧
      (d.newStarted k).order.writes = d.order.writes ++ [(o'.addr + 16 + 16 * j, 3), (o'.addr + 20 + 16 * j, 0)] ∧
      (d.newStarted k).order.running = d.order.running ∧
      (d.newStarted k).order.cur = some { ref := .entry q j, canCount := y.canCount, made := 0, stalled := false } := by
  have held := held.congr (b := d.setSlot k { d.slot k with st := .current }) rfl
  have held' := held'.congr (b := d.setSlot k { d.slot k with st := .current }) rfl
  obtain ⟨started, words, runs⟩ := held'.updateEntry fun x => { x with status := .started, made := 0 }
  have kept := held.updateEntry_ne held' other.symm fun x => { x with status := .started, made := 0 }
  unfold Dev.newStarted Dev.startNewEntry
  rw [new]
  dsimp only
  rw [held'.entryAt]
  exact ⟨kept.congr rfl, started.congr rfl, words, runs, rfl⟩

end Sys2Proof.Machine

namespace Sys2Proof

open Sys2Proof.Machine

/-- Settles O27. -/
theorem switchTakesTheNewRecipe : Obligations.SwitchTakesTheNewRecipe := by
  unfold Obligations.SwitchTakesTheNewRecipe
  intro d k c ready pending r t
  have isPlaced : d.setup.part ≠ .unplaced := fun h => nomatch ready.symm.trans h
  obtain ⟨ring, raised, request, lotSwitch, ends⟩ := Dev.switchTo_ends isPlaced k c
  obtain ⟨-, track, code, setup, -, -, -⟩ := (((Dev.oldFilled_switchStep k c d).trans
    (Dev.newStarted_switchStep k _)).trans (Dev.oldFreed_switchStep d _)).keeps
  have order : t.order = (d.oldFreed (Dev.newStarted k (d.oldFilled k c))).order := (congrArg Dev.order ends :)
  have valve : t.valve = (d.oldFreed (Dev.newStarted k (d.oldFilled k c))).valve := (congrArg Dev.valve ends :)
  have slot (u : Fin 4) : t.slot u = _ := (Dev.slot_congr order u).trans (Dev.switched_slot pending c u)
  refine ⟨fun v => ?_, (slot k).trans (if_pos rfl), (congrArg Dev.fill ends :),
    ⟨_, (congrArg OrderUnit.cur order).trans (Dev.switched_cur pending c), rfl, rfl, rfl⟩, ?_,
    (congrArg Dev.track ends :).trans track, (congrArg Dev.code ends :).trans code,
    (congrArg Dev.setup ends :).trans setup, fun u other idle => ?_, fun u was => ?_, fun one p => ?_, ?_⟩
  · have taken : t.valveRec v = (d.valveRec v).switched (d.recipeOf k) := by
      rw [Dev.valveRec_congr valve v, Dev.switched_valveRec]
    exact taken
  · have report : t.report = _ := (congrArg Dev.report ends :)
    rw [report]
    exact lotSwitch
  · exact (slot u).trans ((if_neg other).trans (if_neg idle))
  · have other : u ≠ k := fun same => Dev.currentSlot_ne pending (by rw [← same]; exact was)
    exact (slot u).trans ((if_neg other).trans (if_pos was))
  · refine (Dev.switchTo_entry pending one c p).trans ?_
    generalize d.entry p = e
    cases e with
    | mk pocket occ weighing record ident codeLot codes checkFail verdict gate repeats =>
      cases record with
      | some x => rfl
      | none =>
        cases verdict with
        | some v => rfl
        | none => cases weighing <;> rfl
  · intro cur p i q j o o' x y was old new held entry held' entry' other u current made switched
    have has := Dev.hasEntry_of_place held entry
    have has' := Dev.hasEntry_of_place held' entry'
    obtain ⟨filled, unstarted, fillWords, fillRuns⟩ := Dev.oldFilled_words k c was old has has' other
    have ref := Dev.oldFilled_slot k c d k
    rw [if_neg (Dev.currentSlot_ne pending)] at ref
    obtain ⟨filled, started, startWords, startRuns, cur'⟩ :=
      Dev.newStarted_words ((congrArg RecipeSlot.ref ref).trans new) filled unstarted other
    have other' : u ≠ k := fun same => Dev.currentSlot_ne pending (by rw [← same]; exact current)
    have draining := Dev.switching_slot pending c u
    rw [if_neg other', if_pos (show d.currentSlot = some u from current)] at draining
    rw [order, (Dev.oldFreed_keeps _ _).2]
    have freed : d.oldFreed (Dev.newStarted k (d.oldFilled k c)) =
        Dev.drainIfEmpty u (Dev.newStarted k (d.oldFilled k c)) := by
      unfold Dev.oldFreed
      rw [show d.currentSlot = some u from current]
    have entryAt (p : Fin 2) (i : Nat) : t.entryAt p i =
        (d.oldFreed (Dev.newStarted k (d.oldFilled k c))).entryAt p i := by
      unfold Dev.entryAt Dev.place
      rw [order]
    have tentative := Dev.tentative_congr ((Dev.oldFilled_switchStep k c d).trans
      (Dev.newStarted_switchStep k _)).keeps.2.2.2.2.2.2 u
    have words := startWords.trans (congrArg (· ++ _) fillWords)
    rw [List.append_assoc] at words
    rw [entryAt, entryAt, freed]
    generalize Dev.newStarted k (d.oldFilled k c) = e at *
    refine ⟨cur', fun busy => ?_, fun empty untouched ref' same => ?_⟩
    · have stays : e.drainIfEmpty u = e := by
        unfold Dev.drainIfEmpty
        rw [draining, tentative]
        exact if_neg fun h => busy.elim (fun members => members h.2.1) fun named =>
          Bool.false_ne_true (h.2.2.symm.trans named)
      rw [stays]
      exact ⟨words, filled.entryAt, started.entryAt⟩
    · subst same
      have order' : o = o' := Option.some.inj (held.symm.trans held')
      subst order'
      have closes : e.drainIfEmpty u = Dev.closeEntry (.entry p i) (e.setSlot u .empty) := by
        unfold Dev.drainIfEmpty
        dsimp only
        rw [draining, tentative]
        refine (if_pos ⟨rfl, empty, untouched⟩).trans ?_
        rw [← ref']
      rw [closes]
      obtain ⟨closeWords, closed, kept, runs⟩ := Dev.HasEntry.closeEntry (d := e.setSlot u .empty) (filled.congr rfl)
        (started.congr rfl) (fun h => other (congrArg (Prod.mk p) h)) rfl
      refine ⟨?_, closed, kept, runs.trans (startRuns.trans fillRuns)⟩
      rw [closeWords, show (e.setSlot u .empty).order.writes = e.order.writes from rfl, words]
      rfl

end Sys2Proof
end

section
/-! A boundary's three departures (R47, R48, R69, R90), the code record taken in order (R76), and the window closes (R65 to
R67). -/

namespace Sys2Proof.Machine

variable {d : Dev} {p : Word} {r : CanRecord} {rest : List CanRecord} {gross : Int} {flags : BitVec 6}

/-! ### The scale departure (R69) -/

theorem netOf_eq (gross tare : Int) : netOf gross tare = max (-2147483648) (min 2147483647 (gross - tare)) :=
  clamp32_eq _

/-- The can laid, with the record that the head take gave. -/
theorem Dev.layCan_of_take {x : Option CanRecord} {e : Dev} (take : d.takeHead d.track.fill = (x, e)) :
    d.layCan p gross flags = e.setEntry p { e.entry p with
      occ := .can, record := x
      weighing := some { gross := gross, flags := flags
                         net := netOf gross (e.tareFor { e.entry p with occ := .can, record := x }) } } := by
  unfold Dev.layCan
  rw [take]

/-- A bare can. -/
theorem Dev.layCan_bare (empty : d.track.fill = []) :
    d.layCan p gross flags = Dev.setEntry { d with track := { d.track with fill := [] } } p { d.entry p with
      occ := .can, record := none
      weighing := some { gross := gross, net := netOf gross (match d.slotIn .current with
        | none => 0 | some k => (d.recipeOf k).tare), flags := flags } } := by
  rw [Dev.layCan_of_take (x := none) (e := d.setFillList []) (by rw [empty]; rfl)]
  have tare : (d.setFillList []).tareFor { (d.setFillList []).entry p with occ := .can, record := none } =
      match d.slotIn .current with | none => 0 | some k => (d.recipeOf k).tare := by
    unfold Dev.tareFor
    dsimp only
    rw [show (d.setFillList []).currentRecipe = (d.slotIn .current).map d.recipeOf from rfl]
    cases d.slotIn .current <;> rfl
  rw [tare]
  rfl

/-- A can that claims a sound head. -/
theorem Dev.layCan_sound (fill : d.track.fill = r :: rest) (sound : r.bad = false) :
    d.layCan p gross flags = Dev.setEntry { d with track := { d.track with fill := rest } } p { d.entry p with
      occ := .can, record := some r
      weighing := some { gross := gross, net := netOf gross (d.recipeOf r.recipe).tare, flags := flags } } := by
  rw [Dev.layCan_of_take (x := some r) (e := d.setFillList rest) (by rw [fill]; exact Dev.takeHead_sound sound)]
  rfl

/-- A can whose head fails its check: the head is freed, and the next one claimed. -/
theorem Dev.layCan_failing (fill : d.track.fill = r :: rest) (failing : r.bad = true) :
    d.layCan p gross flags = (Dev.failFilled r (d.setFillList rest)).layCan p gross flags := by
  have list : (Dev.failFilled r (d.setFillList rest)).track.fill = rest := (Dev.failFilled_released r _).list
  unfold Dev.layCan
  rw [fill, list, Dev.takeHead_failing failing]

theorem CanRecord.bad_iff (r : CanRecord) : r.bad = true ↔ r.failed = true ∨ r.checkOk = false := by
  unfold CanRecord.bad
  rw [Bool.or_eq_true, Bool.not_eq_true']

/-- The windows as the scale departure finds them closed. -/
def Dev.windowsClosed (d : Dev) : Dev :=
  let u := if d.weigh.gapWin = .closed then d else d.closeGap
  if u.weigh.weighWin = .closed then u else u.closeWeigh

theorem Dev.scaleDeparts_weighed {mean : Int} (closed : d.windowsClosed.weigh.closed = some (.weighed mean gross flags true)) :
    d.scaleDeparts p = (d.windowsClosed.layCan p gross flags).setWeigh
      (d.windowsClosed.layCan p gross flags).weigh.emptied := by
  unfold Dev.scaleDeparts
  change (let d := match d.windowsClosed.weigh.closed with
    | some (.weighed _ gross flags true) => d.windowsClosed.layCan p gross flags
    | _ => d.windowsClosed
    d.setWeigh d.weigh.emptied) = _
  rw [closed]

theorem Dev.scaleDeparts_unweighed (closed : ∀ m g f, d.windowsClosed.weigh.closed ≠ some (.weighed m g f true)) :
    d.scaleDeparts p = d.windowsClosed.setWeigh d.windowsClosed.weigh.emptied := by
  unfold Dev.scaleDeparts
  change (let d := match d.windowsClosed.weigh.closed with
    | some (.weighed _ gross flags true) => d.windowsClosed.layCan p gross flags
    | _ => d.windowsClosed
    d.setWeigh d.weigh.emptied) = _
  cases weighing : d.windowsClosed.weigh.closed with
  | none => rfl
  | some w =>
    cases w with
    | unknown => rfl
    | weighed m g f present =>
      cases present with
      | false => rfl
      | true => exact absurd weighing (closed m g f)

/-! ### The missed-read test (R90, R91) -/

theorem Dev.missedRead_can (can : (d.entry p).occ = .can) (unchecked : (d.entry p).ident = .unchecked) :
    d.missedRead p = if d.code.missRun < d.su.readerSilent ∧ min 63 (d.code.missRun + 1) = d.su.readerSilent then
        Dev.raise .readerFault (Dev.setEntry { d with code := { d.code with missRun := min 63 (d.code.missRun + 1) } } p
          { d.entry p with ident := .missed })
      else Dev.setEntry { d with code := { d.code with missRun := min 63 (d.code.missRun + 1) } } p
        { d.entry p with ident := .missed } := by
  have run : satSucc 63 d.code.missRun = min 63 (d.code.missRun + 1) := by
    unfold satSucc
    split <;> omega
  unfold Dev.missedRead
  dsimp only
  rw [if_pos ⟨can, unchecked⟩, run]

/-! ### Window closes (R65 to R67) -/

/-- The gap window's mean is within the zero band. -/
def Dev.GapNear (d : Dev) : Prop :=
  (d.weigh.gapAcc.sum.tdiv d.weigh.gapAcc.count - d.weigh.zero).natAbs ≤ d.su.zeroBand

/-- The gap window is fit. -/
def Dev.GapFits (d : Dev) : Prop :=
  d.su.gapMin ≤ d.weigh.gapAcc.count ∧ d.weigh.gapAcc.gap = false ∧ d.weigh.gapAcc.overload = false

theorem Dev.gapOutcome_captured (fit : d.GapFits) (capture : d.weigh.capture = true) : d.gapOutcome = { d.weigh with
    gapWin := .closed, zero := d.weigh.gapAcc.sum.tdiv d.weigh.gapAcc.count, zeroAge := 0, capture := false
    stale := false } :=
  (Dev.gapOutcome_eq d).trans ((if_pos fit).trans (if_pos capture))

theorem Dev.gapOutcome_followed (fit : d.GapFits) (capture : d.weigh.capture = false) (near : d.GapNear) :
    d.gapOutcome = { d.weigh with
      gapWin := .closed
      zero := d.weigh.zero + (d.weigh.gapAcc.sum.tdiv d.weigh.gapAcc.count - d.weigh.zero).fdiv (2 ^ d.su.zeroShift)
      zeroAge := 0, stale := false } :=
  (Dev.gapOutcome_eq d).trans ((if_pos fit).trans ((if_neg fun h => Bool.false_ne_true (capture.symm.trans h)).trans
    (if_pos near)))

theorem Dev.gapOutcome_aged (other : ¬d.GapFits ∨ d.weigh.capture = false ∧ ¬d.GapNear) : d.gapOutcome = { d.weigh with
    gapWin := .closed, zeroAge := satSucc 65535 d.weigh.zeroAge } := by
  refine (Dev.gapOutcome_eq d).trans ?_
  by_cases fit : d.GapFits
  · obtain ⟨capture, far⟩ := other.resolve_left (not_not_intro fit)
    exact (if_pos fit).trans ((if_neg fun h => Bool.false_ne_true (capture.symm.trans h)).trans (if_neg far))
  · exact if_neg fit

/-- A gap window close sets the zero, or its age rises. -/
theorem Dev.gapOutcome_cases (d : Dev) :
    (d.gapOutcome.zeroAge = 0 ∧ d.gapOutcome.stale = false ∧ d.GapFits ∧ (d.weigh.capture = true ∨ d.GapNear)) ∨
    (d.gapOutcome.stale = d.weigh.stale ∧ (¬d.GapFits ∨ d.weigh.capture = false ∧ ¬d.GapNear)) := by
  by_cases fit : d.GapFits
  · by_cases near : d.GapNear
    · cases capture : d.weigh.capture with
      | true =>
        rw [Dev.gapOutcome_captured fit capture]
        exact .inl ⟨rfl, rfl, fit, .inl rfl⟩
      | false =>
        rw [Dev.gapOutcome_followed fit capture near]
        exact .inl ⟨rfl, rfl, fit, .inr near⟩
    · cases capture : d.weigh.capture with
      | true =>
        rw [Dev.gapOutcome_captured fit capture]
        exact .inl ⟨rfl, rfl, fit, .inl rfl⟩
      | false =>
        rw [Dev.gapOutcome_aged (.inr ⟨capture, near⟩)]
        exact .inr ⟨rfl, .inr ⟨rfl, near⟩⟩
  · rw [Dev.gapOutcome_aged (.inl fit)]
    exact .inr ⟨rfl, .inl fit⟩

theorem iff_of_eq_decide {b : Bool} {q : Prop} [Decidable q] (h : b = decide q) : b = true ↔ q := by
  rw [h, decide_eq_true_iff]

/-- The flags of a weighing, each at its place (12.8). -/
theorem weighingFlags_bits : ∀ short overload gap stale implausible : Bool,
    let flags := flagIf short flagShort ||| flagIf overload flagOverload ||| flagIf gap flagGap |||
      flagIf stale flagZeroStale ||| flagIf implausible flagImplausible
    flags.getLsbD 0 = short ∧ flags.getLsbD 1 = overload ∧ flags.getLsbD 2 = gap ∧ flags.getLsbD 3 = stale ∧
      flags.getLsbD 4 = implausible ∧ flags.getLsbD 5 = false := by
  decide

end Sys2Proof.Machine

namespace Sys2Proof

open Sys2Proof.Machine

/-- Settles O36. -/
theorem boundaryDepartsThreeStations : Obligations.BoundaryDepartsThreeStations := by
  unfold Obligations.BoundaryDepartsThreeStations
  refine ⟨fun d first p => ?_, fun d p => ⟨fun closed => ?_, fun m gross flags closed => ⟨?_, ?_, ?_, ?_⟩⟩,
    fun d p => ⟨fun other => ?_, fun can unchecked => ?_⟩⟩
  · rfl
  · exact Dev.scaleDeparts_unweighed closed
  · exact Dev.scaleDeparts_weighed closed
  · intro x empty
    rw [Dev.layCan_bare empty, netOf_eq] <;> rfl
  · intro x r rest fill sound checked
    rw [Dev.layCan_sound fill (CanRecord.bad_of_sound sound checked), netOf_eq]
  · intro x r rest fill failing
    obtain ⟨free, queue, pending⟩ := Dev.failFilled_pool r (x.setFillList rest)
    have released := Dev.failFilled_released r (x.setFillList rest)
    refine ⟨_, Dev.layCan_failing fill ((CanRecord.bad_iff r).2 failing), released.list, free, released.ring,
      released.weigh, fun ready sound => pending sound fun h => PartState.noConfusion (ready.symm.trans h),
      fun room => ⟨_, queue room, rfl, rfl, rfl, rfl, rfl, rfl, rfl, rfl⟩⟩
  · exact if_neg fun h => other.elim (fun no => no h.1) fun no => no h.2
  · exact Dev.missedRead_can can unchecked

/-- Settles O39. -/
theorem codeRecordIsTakenInOrder : Obligations.CodeRecordIsTakenInOrder := by
  unfold Obligations.CodeRecordIsTakenInOrder
  intro d j c seq inside new
  have taken : ¬d.code.isRepost j seq = true := fun h => new ((CodeUnit.isRepost_iff inside).1 h)
  unfold Dev.takeCode
  rw [if_neg taken, nextCodeIndex_eq j inside]
  rfl

/-- Settles O41. -/
theorem windowsCloseIntoZeroAndWeighing : Obligations.WindowsCloseIntoZeroAndWeighing := by
  unfold Obligations.WindowsCloseIntoZeroAndWeighing
  intro d u t mean fit near stale w m gross
  have weigh : t.weigh = _ := Dev.closeGap_weigh d
  have closed : d.gapOutcome.gapWin = .closed := by
    unfold Dev.gapOutcome
    dsimp only
    split
    · split
      · rfl
      · split <;> rfl
    · rfl
  obtain ⟨raises, silent⟩ := Dev.closeGap_report d
  have age : t.weigh.zeroAge = d.gapOutcome.zeroAge := (congrArg WeighUnit.zeroAge weigh :)
  have flag : t.weigh.stale = (d.gapOutcome.stale || decide (stale d.gapOutcome.zeroAge)) :=
    (congrArg WeighUnit.stale weigh :)
  have fresh : ¬stale 0 := Nat.not_lt_zero _
  rw [age, flag, weigh]
  refine ⟨closed, fun fits capture => ?_, fun fits capture close => ?_, fun other => ?_, fun fits set => ?_,
    fun other young => ?_, fun old => ?_, fun old unflagged isPlaced => ?_, fun quiet => ?_, fun unsampled => ?_,
    fun sampled => ?_⟩
  · rw [Dev.gapOutcome_captured fits capture]
    exact ⟨rfl, rfl, rfl⟩
  · rw [Dev.gapOutcome_followed fits capture close]
    exact ⟨rfl, rfl, capture⟩
  · rw [Dev.gapOutcome_aged other]
    exact ⟨rfl, rfl, rfl⟩
  · rcases Dev.gapOutcome_cases d with ⟨zero, unflagged, -, -⟩ | ⟨-, other⟩
    · rw [zero, unflagged, decide_eq_false fresh]
      rfl
    · exfalso
      rcases other with no | ⟨no, far⟩
      · exact no fits
      · exact set.elim (fun capture => Bool.false_ne_true (no.symm.trans capture)) far
  · rw [decide_eq_false young, Bool.or_false, Dev.gapOutcome_aged other]
  · rw [decide_eq_true old, Bool.or_true]
  · refine raises old ?_ isPlaced
    rcases Dev.gapOutcome_cases d with ⟨-, unflagged', -, -⟩ | ⟨same, -⟩
    · exact unflagged'
    · exact same.trans unflagged
  · refine silent ?_
    rcases Dev.gapOutcome_cases d with ⟨zero, -, -, -⟩ | ⟨same, -⟩
    · rw [zero]
      exact .inr fresh
    · exact quiet.imp_left fun flagged => same.trans flagged
  · unfold Dev.closeWeigh Dev.closedWeighing
    rw [if_pos unsampled]
    rfl
  · obtain ⟨short, overload, gap, old, implausible, unseen⟩ := weighingFlags_bits (decide (w.count < d.su.weighMin))
      w.overload w.gap (decide (stale u.zeroAge)) (decide ((d.su.maxGross : Int) < gross))
    refine ⟨_, decide ((d.su.presence : Int) ≤ gross), ?_, iff_of_eq_decide short, overload, gap,
      iff_of_eq_decide old, iff_of_eq_decide implausible, unseen, decide_eq_true_iff⟩
    unfold Dev.closeWeigh Dev.closedWeighing
    rw [if_neg sampled]
    dsimp only
    unfold Dev.grossOf
    rw [clamp32_eq]
    rfl

end Sys2Proof
end

section
/-! CODE_EVENT (R75, R76): the slots that a code ring write takes, each with its words as carried or as memory holds them. -/

namespace Sys2Proof.Machine

variable {s : State} {m : Master} {a : MemAns} {t : Txn} {c : Ctx} {rest : List Micro} {i j : Nat} {ws : List WWord}
variable {seq : Word}

/-- Slot `j` taken with the words that a write from word `i` on carries, the others from `word`; a repost is not
taken (R75, R76). -/
def Dev.slotTaken (i : Nat) (ws : List WWord) (word : Nat → Word) (j : Nat) (seq : Word) (d : Dev) : Dev :=
  if (j + 1) % 128 = d.code.expected ∧ d.code.last = some seq then d
  else Dev.takeCode j (codeRecOf ((carriedWord i ws (4 * j + 0)).getD (word 0)) ((carriedWord i ws (4 * j + 1)).getD (word 1))
    ((carriedWord i ws (4 * j + 2)).getD (word 2))) seq d

/-- The word of slot `j` that stands in memory at place `k`. -/
def State.slotWord (s : State) (j k : Nat) : Word := Memory.readWord s.mem (s.dev.base + 0x800 + 16 * j + 4 * k)

/-- The reads of a slot's words that a write did not carry. -/
theorem State.serve_codeWords (fetch : codeNeeds i ws j = [] ∨ s.Quiet) (n b : Nat) :
    State.serve (n + (codeNeeds i ws j).length) (b + (codeNeeds i ws j).length)
        (s.holding t (some ((codeNeeds i ws j).map (Micro.codeWord j) ++ rest)) { c with code := [] }) =
      State.serve n b (State.holding t (some rest)
        { c with code := (codeNeeds i ws j).map fun k => (k, s.slotWord j k) }
        (s.issuing t.master ((codeNeeds i ws j).map fun k => .read (s.dev.base + 0x800 + 16 * j + 4 * k) 1))) := by
  rcases fetch with whole | quiet
  · rw [whole, List.map_nil, List.map_nil, List.map_nil, State.issuing_nil]
    rfl
  · have reads := State.serve_reads t rest (Micro.codeWord j) (fun k => s.dev.base + 0x800 + 16 * j + 4 * k) (fun _ => 1)
      (fun c k ws => { c with code := c.code ++ [(k, wordAt ws 0)] }) s.dev (fun _ _ => rfl) (fun _ _ _ _ => rfl)
      (codeNeeds i ws j) { c with code := [] } n b s rfl quiet
    rw [foldl_gather_code] at reads
    exact reads

/-- A slot's piece of work: the words missing are read, and the slot is taken. -/
theorem State.serve_codeSlot (settled : s.dev.settle = s.dev) (idle : s.dev.path.upstream = [])
    (fetch : codeNeeds i ws j = [] ∨ s.Quiet) (inRing : j < 128) (carried : carriedWord i ws (4 * j + 3) = some seq) :
    ∃ k l xs c', k ≤ 5 ∧ l ≤ 3 ∧ (codeNeeds i ws j = [] → xs = []) ∧ c'.ans = c.ans ∧ ∀ n b,
      State.serve (n + k) (b + l) (s.holding t (some (.codeSlot j (slotWords j i ws) :: rest)) c) =
        State.serve n b (State.holding t (some rest) c' { s.issuing t.master xs with
          dev := Dev.settle (s.dev.slotTaken i ws (s.slotWord j) j seq) }) := by
  have begin (n b : Nat) : State.serve (n + 1) b (s.holding t (some (.codeSlot j (slotWords j i ws) :: rest)) c) =
      State.serve n b (State.holding t (some (s.dev.codeWork j (slotWords j i ws) ++ rest)) { c with code := [] } s) := by
    refine (State.serve_settled n b rfl (Dev.workDone_codeSlot _ _ _ _)).trans ?_
    rw [settled]
    rfl
  have few : (codeNeeds i ws j).length ≤ 3 := List.length_filter_le _ _
  rw [Dev.codeWork_eq _ inRing carried] at begin
  unfold Dev.slotTaken
  by_cases repost : (j + 1) % 128 = s.dev.code.expected ∧ s.dev.code.last = some seq
  · rw [if_pos repost] at begin ⊢
    refine ⟨1, 0, [], { c with code := [] }, by decide, by decide, fun _ => rfl, rfl, fun n b => (begin n b).trans ?_⟩
    rw [settled, State.issuing_nil]
    rfl
  · rw [if_neg repost] at begin ⊢
    refine ⟨(codeNeeds i ws j).length + 2, (codeNeeds i ws j).length,
      (codeNeeds i ws j).map fun k => .read (s.dev.base + 0x800 + 16 * j + 4 * k) 1,
      { c with code := (codeNeeds i ws j).map fun k => (k, s.slotWord j k) }, by omega, few,
      fun whole => by rw [whole]; rfl, rfl, fun n b => ?_⟩
    rw [show n + ((codeNeeds i ws j).length + 2) = n + 1 + (codeNeeds i ws j).length + 1 by omega, begin,
      List.append_assoc, State.serve_codeWords fetch]
    refine (State.serve_settled (s := s.issuing t.master _) n b rfl (Dev.workDone_codeTake _ _ idle _ _)).trans ?_
    dsimp only [Held.at]
    rw [Dev.codeTaken_eq (s.slotWord j) c _ carried]
    rfl

theorem Dev.slotTaken_upstream (i : Nat) (ws : List WWord) (word : Nat → Word) (j : Nat) (seq : Word) (d : Dev) :
    (Dev.settle (d.slotTaken i ws word j seq)).path.upstream = d.path.upstream := by
  rw [(Dev.settle_block (.refl _)).upstream]
  unfold Dev.slotTaken
  split
  · rfl
  · exact (Dev.takeCode_block (.refl d) _ _ _).upstream

/-- The part just after a code write is stored, with the slots it carried still to be taken. -/
def State.codeStored (s : State) (m : Master) (i : Nat) (ws : List WWord) : State :=
  { s with answers := [], downstream := issuedFor m [.write (s.dev.base + 0x800 + 4 * i) ws]
           mem := Memory.writeWords s.mem (s.dev.base + 0x800 + 4 * i) ws }

theorem State.codeStored_quiet (quiet : s.Quiet) (m : Master) (i : Nat) (ws : List WWord) : (s.codeStored m i ws).Quiet :=
  ⟨quiet.upstream, quiet.port, quiet.bursts, quiet.request⟩

/-- A code write that takes no slot (R75). -/
theorem State.presentWrite_code_untaken (quiet : s.Quiet) (ready : s.Ready) (clean : a.clean) (n1 : 1 ≤ ws.length)
    (inside : i + ws.length ≤ 512)
    (untaken : m.toNat ≠ s.dev.su.reader ∨ ∀ j, carriedWord i ws (4 * j + 3) = none) :
    s.presentWrite m 0x800 i ws a = s.stored m (s.dev.base + 0x800 + 4 * i) ws id := by
  have row := (rowAt_window (0x800 + 4 * i)).2.2.2.2.1 (by omega)
  have fits : 0x800 + 4 * i + 4 * ws.length ≤ 0x800 + 4 * 512 := by omega
  obtain ⟨run, accepted, work⟩ := State.accepts_write (m := m) (a := a) ready row rfl n1 inside
  rw [run, Nat.add_assoc]
  refine State.present_write_plain quiet.portFree clean accepted work ?_
  rw [Dev.countGrant_quiet quiet.bursts, Dev.takeStore_at ready.1 rfl row fits, Nat.add_sub_cancel_left,
    Nat.mul_div_cancel_left _ (by decide)]
  show (if m.toNat = s.dev.su.reader then (codeSlots i ws, s.dev) else ([], s.dev)) = _
  rcases untaken with other | none
  · exact if_neg other
  · rw [codeSlots_none none]
    exact ite_self _

/-- A code write by the reader that carries one slot's word 3 whole. -/
theorem State.presentWrite_code_one (quiet : s.Quiet) (ready : s.Ready) (clean : a.clean) (n1 : 1 ≤ ws.length)
    (n8 : ws.length ≤ 8) (inside : i + ws.length ≤ 512) (reader : m.toNat = s.dev.su.reader)
    (carried : carriedWord i ws (4 * j + 3) = some seq) (only : ∀ k, k ≠ j → carriedWord i ws (4 * k + 3) = none) :
    ∃ xs, s.presentWrite m 0x800 i ws a = (s.stored m (s.dev.base + 0x800 + 4 * i) ws
      (Dev.slotTaken i ws ((s.codeStored m i ws).slotWord j) j seq)).issuing m xs := by
  have within := carriedWord_some carried
  obtain ⟨k, l, xs, c', short, few, -, answer, run⟩ := State.serve_codeSlot (s := s.codeStored m i ws) (rest := [])
    (t := .write m (s.dev.base + 0x800 + 4 * i) ws) (c := Ctx.init s.dev.fill.seq) (Dev.settle_quiet quiet.request)
    quiet.upstream (.inr (State.codeStored_quiet quiet m i ws)) (by omega) carried
  refine ⟨xs, ?_⟩
  rw [State.serve_codeStore quiet ready clean n1 inside reader, codeSlots_one n8 carried only]
  have ends := run (1022 - k) (1023 - l)
  rw [show 1022 - k + k = 1022 by omega, show 1023 - l + l = 1023 by omega] at ends
  refine ends.trans ?_
  rw [show 1022 - k = 1021 - k + 1 by omega, State.serve_done _ _ ((Dev.slotTaken_upstream _ _ _ _ _ _).trans quiet.upstream),
    answer]
  unfold State.stored
  rw [Dev.countGrant_quiet quiet.bursts]
  generalize Dev.slotTaken i ws ((s.codeStored m i ws).slotWord j) j seq = taken
  rfl

/-- Two slots written whole are taken one after the other. -/
theorem codeSlots_two {x y : Word} (n8 : ws.length = 8) (first : carriedWord (4 * j) ws (4 * j + 3) = some x)
    (second : carriedWord (4 * j) ws (4 * (j + 1) + 3) = some y) : codeSlots (4 * j) ws =
      [.codeSlot j (slotWords j (4 * j) ws), .codeSlot (j + 1) (slotWords (j + 1) (4 * j) ws)] := by
  have third : carriedWord (4 * j) ws (4 * (j + 2) + 3) = none := by
    cases carried : carriedWord (4 * j) ws (4 * (j + 2) + 3) with
    | none => rfl
    | some w =>
      have within := carriedWord_some carried
      omega
  unfold codeSlots
  rw [Nat.mul_div_cancel_left _ (by decide), show List.range 3 = [0, 1, 2] from rfl]
  simp only [List.filterMap_cons, List.filterMap_nil, lookup_slotWords _ _ _ 3 (by decide), Nat.add_zero, first, second,
    third, Option.isSome_some, Option.isSome_none, if_true, Bool.false_eq_true, if_false]

/-- A word of a write with all byte enables is carried. -/
theorem carriedWord_of_full (full : ∀ w ∈ ws, w.be = 15#4) {x : Nat} (start : i ≤ x) (stop : x - i < ws.length) :
    ∃ w, carriedWord i ws x = some w := by
  refine ⟨(ws[x - i]).data, ?_⟩
  unfold carriedWord
  rw [if_pos start, List.getElem?_eq_getElem stop]
  exact if_pos (full _ (List.getElem_mem stop))

/-- A slot that lies in a write with all byte enables needs no word of memory. -/
theorem codeNeeds_of_full (full : ∀ w ∈ ws, w.be = 15#4) (start : i ≤ 4 * j) (stop : 4 * j + 3 - i < ws.length) :
    codeNeeds i ws j = [] := by
  unfold codeNeeds
  rw [List.filter_eq_nil_iff]
  intro k among none
  have small : k < 3 := by
    simp only [List.mem_cons, List.not_mem_nil, or_false] at among
    omega
  obtain ⟨w, carried⟩ := carriedWord_of_full (i := i) (x := 4 * j + k) full (by omega) (by omega)
  rw [carried] at none
  exact Bool.false_ne_true none

/-- Then what stands in memory does not matter. -/
theorem Dev.slotTaken_whole (full : ∀ w ∈ ws, w.be = 15#4) (start : i ≤ 4 * j) (stop : 4 * j + 3 - i < ws.length)
    (f g : Nat → Word) (seq : Word) (d : Dev) : d.slotTaken i ws f j seq = d.slotTaken i ws g j seq := by
  obtain ⟨w, first⟩ := carriedWord_of_full (i := i) (x := 4 * j + 0) full (by omega) (by omega)
  obtain ⟨w', second⟩ := carriedWord_of_full (i := i) (x := 4 * j + 1) full (by omega) (by omega)
  obtain ⟨w'', third⟩ := carriedWord_of_full (i := i) (x := 4 * j + 2) full (by omega) (by omega)
  unfold Dev.slotTaken
  rw [first, second, third]
  rfl

/-- A code write by the reader that carries two slots whole. -/
theorem State.presentWrite_code_two {x y : Word} (quiet : s.Quiet) (ready : s.Ready) (clean : a.clean)
    (n8 : ws.length = 8) (inside : 4 * j + ws.length ≤ 512) (reader : m.toNat = s.dev.su.reader)
    (full : ∀ w ∈ ws, w.be = 15#4) (first : carriedWord (4 * j) ws (4 * j + 3) = some x)
    (second : carriedWord (4 * j) ws (4 * (j + 1) + 3) = some y) :
    s.presentWrite m 0x800 (4 * j) ws a = s.stored m (s.dev.base + 0x800 + 4 * (4 * j)) ws fun d =>
      Dev.slotTaken (4 * j) ws ((s.codeStored m (4 * j) ws).slotWord (j + 1)) (j + 1) y
        (Dev.settle (Dev.slotTaken (4 * j) ws ((s.codeStored m (4 * j) ws).slotWord j) j x d)) := by
  have within := carriedWord_some second
  have start : 4 * j ≤ 4 * (j + 1) := by omega
  have stop : 4 * j + 3 - 4 * j < ws.length := by omega
  have stop' : 4 * (j + 1) + 3 - 4 * j < ws.length := by omega
  have needs := codeNeeds_of_full (i := 4 * j) full (Nat.le_refl _) stop
  have needs' := codeNeeds_of_full full start stop'
  obtain ⟨k, l, xs, c, short, few, none, answer, run⟩ := State.serve_codeSlot (s := s.codeStored m (4 * j) ws)
    (rest := [.codeSlot (j + 1) (slotWords (j + 1) (4 * j) ws)])
    (t := .write m (s.dev.base + 0x800 + 4 * (4 * j)) ws) (c := Ctx.init s.dev.fill.seq) (Dev.settle_quiet quiet.request)
    quiet.upstream (.inl needs) (by omega) first
  have idle := (Dev.slotTaken_upstream (4 * j) ws ((s.codeStored m (4 * j) ws).slotWord j) j x s.dev).trans quiet.upstream
  have taken : s.dev.countGrant = s.dev := Dev.countGrant_quiet quiet.bursts
  rw [State.serve_codeStore quiet ready clean (by omega) inside reader, codeSlots_two n8 first second]
  unfold State.stored
  rw [taken]
  beta_reduce
  rw [none needs, State.issuing_nil] at run
  rw [show (s.codeStored m (4 * j) ws).dev = s.dev from rfl] at run
  have settled := Dev.settle_settle (s.dev.slotTaken (4 * j) ws ((s.codeStored m (4 * j) ws).slotWord j) j x)
  generalize Dev.settle (s.dev.slotTaken (4 * j) ws ((s.codeStored m (4 * j) ws).slotWord j) j x) = e at run idle settled ⊢
  obtain ⟨k', l', xs', c', short', few', none', answer', run'⟩ := State.serve_codeSlot
    (s := { s.codeStored m (4 * j) ws with dev := e }) (rest := [])
    (t := .write m (s.dev.base + 0x800 + 4 * (4 * j)) ws) (c := c) settled idle (.inl needs') (by omega) second
  rw [none' needs', State.issuing_nil] at run'
  rw [show ({ s.codeStored m (4 * j) ws with dev := e } : State).dev = e from rfl,
    Dev.slotTaken_whole full start stop' _ ((s.codeStored m (4 * j) ws).slotWord (j + 1))] at run'
  have begins := run (1022 - k) (1023 - l)
  have ends := run' (1021 - k - k' + 1) (1023 - l - l')
  rw [show 1022 - k + k = 1022 by omega, show 1023 - l + l = 1023 by omega] at begins
  rw [show 1021 - k - k' + 1 + k' = 1022 - k by omega, show 1023 - l - l' + l' = 1023 - l by omega] at ends
  refine begins.trans (ends.trans ?_)
  rw [State.serve_done _ _ ((Dev.slotTaken_upstream _ _ _ _ _ _).trans idle), answer', answer]
  generalize e.slotTaken (4 * j) ws ((s.codeStored m (4 * j) ws).slotWord (j + 1)) (j + 1) y = done
  rfl

end Sys2Proof.Machine

namespace Sys2Proof

open Sys2Proof.Machine

/-- Settles O38. -/
theorem codeEventTakesItsSlots : Obligations.CodeEventTakesItsSlots := by
  unfold Obligations.CodeEventTakesItsSlots
  intro s m i ws a quiet ready clean n1 n8 inside carried at' mem' word taken
  have exec_eq {t : State} (h : s.presentWrite m 0x800 i ws a = t) : exec (.codeEvent m i ws a) s = .next t :=
    (whenOk_rangeOk (by omega) (lengthOk_of_le n1 n8)).trans (congrArg _ h)
  refine ⟨fun untaken => exec_eq (State.presentWrite_code_untaken quiet ready clean n1 inside untaken),
    fun reader j seq slot only => ?_, fun reader j x y start length full first second => exec_eq ?_⟩
  · obtain ⟨xs, run⟩ := State.presentWrite_code_one quiet ready clean n1 n8 inside reader slot only
    exact ⟨xs, exec_eq run⟩
  · subst start
    exact State.presentWrite_code_two quiet ready clean length inside reader full first second

end Sys2Proof
end

section
/-! VALVE_VIEW_READ (R123, R124): the 16 words of a valve record, and which of them a read answers from the latch. -/

namespace Sys2Proof.Machine

variable {s : State} {m : Master} {a : MemAns} {d : Dev} {i n : Nat}

/-! ### The recent list's mean and spread (R112) -/

theorem recentMax_spec : ∀ {xs : List Int}, xs ≠ [] → recentMax xs ∈ xs ∧ ∀ x ∈ xs, x ≤ recentMax xs := by
  intro xs
  induction xs with
  | nil => exact fun no => absurd rfl no
  | cons x xs ih =>
    intro _
    cases xs with
    | nil => exact ⟨List.mem_cons_self, fun y among => (List.mem_singleton.1 among).le⟩
    | cons y ys =>
      obtain ⟨among, bound⟩ := ih (List.cons_ne_nil _ _)
      unfold recentMax
      refine ⟨?_, fun z here => ?_⟩
      · rcases Int.le_total x (recentMax (y :: ys)) with below | above
        · rw [max_eq_right below]
          exact List.mem_cons_of_mem _ among
        · rw [max_eq_left above]
          exact List.mem_cons_self
      · rcases List.mem_cons.1 here with rfl | there
        · exact le_max_left _ _
        · exact (bound z there).trans (le_max_right _ _)

theorem recentMin_spec : ∀ {xs : List Int}, xs ≠ [] → recentMin xs ∈ xs ∧ ∀ x ∈ xs, recentMin xs ≤ x := by
  intro xs
  induction xs with
  | nil => exact fun no => absurd rfl no
  | cons x xs ih =>
    intro _
    cases xs with
    | nil => exact ⟨List.mem_cons_self, fun y among => (List.mem_singleton.1 among).ge⟩
    | cons y ys =>
      obtain ⟨among, bound⟩ := ih (List.cons_ne_nil _ _)
      unfold recentMin
      refine ⟨?_, fun z here => ?_⟩
      · rcases Int.le_total x (recentMin (y :: ys)) with below | above
        · rw [min_eq_left below]
          exact List.mem_cons_self
        · rw [min_eq_right above]
          exact List.mem_cons_of_mem _ among
      · rcases List.mem_cons.1 here with rfl | there
        · exact min_le_left _ _
        · exact (min_le_right _ _).trans (bound z there)

theorem recentSum_eq (xs : List Int) : recentSum xs = xs.sum := by
  induction xs with
  | nil => rfl
  | cons x xs ih =>
    unfold recentSum
    rw [ih, List.sum_cons]

/-! ### The words of a record (12.4) -/

theorem getD_zero (x : Option Int) : x.getD 0 = match x with | none => 0 | some n => n := by
  cases x <;> rfl

theorem ValveState.code_eq (st : ValveState) : st.code = match st with | .inService => 0 | .watch => 1 | .suspended => 2 := by
  cases st <;> rfl

theorem causeCode_eq (c : Option SuspendCause) :
    causeCode c = match c with | none => 0 | some .software => 1 | some .auto => 2 := by
  unfold causeCode
  rfl

theorem verdictCode_eq (v : Option Bool) : verdictCode v = match v with | none => 0 | some false => 1 | some true => 2 := by
  unfold verdictCode
  rfl

theorem causeCode_lt (c : Option SuspendCause) : causeCode c < 3 := by
  rcases c with _ | _ | _ <;> decide

theorem verdictCode_lt (v : Option Bool) : verdictCode v < 3 := by
  rcases v with _ | _ | _ <;> decide

theorem Dev.trimLimit_getD (d : Dev) :
    d.trimLimit.getD 0 = match d.slotIn .current with | none => 0 | some k => (d.recipeOf k).trimLimit := by
  rw [Dev.trimLimit_eq]
  cases d.slotIn .current <;> rfl

/-- The 16 words, field by field. -/
theorem Dev.viewWords_eq (d : Dev) (v : Fin 64) (nominal : Word) : d.viewWords v nominal =
    [BitVec.ofNat 32 ((d.conditionOf v nominal).toNat + 65536 * v.val),
     BitVec.ofNat 32 ((d.valveRec v).st.code + 16 * causeCode (d.valveRec v).cause + 256 * (d.valveRec v).epoch.toNat),
     BitVec.ofInt 32 (d.valveRec v).trim,
     BitVec.ofNat 32 ((d.valveRec v).outlier % 65536 + 65536 * ((d.valveRec v).good % 65536)),
     BitVec.ofNat 32 ((d.valveRec v).atLimit % 65536 + 65536 * (d.trimLimit.getD 0 % 65536)),
     (d.valveRec v).fills, (d.valveRec v).confirmed, (d.valveRec v).rejects,
     BitVec.ofInt 32 ((d.valveRec v).lastNet.getD 0), (d.valveRec v).lastSeq.getD 0,
     BitVec.ofNat 32 ((d.valveRec v).recent.length % 32 + 256 * verdictCode (d.valveRec v).lastVerdict +
       if (d.valveRec v).lastNet.isSome then 4096 else 0),
     BitVec.ofInt 32 (recentMean (d.valveRec v).recent), BitVec.ofInt 32 (recentSpread (d.valveRec v).recent),
     BitVec.ofInt 32 ((d.valveRec v).recent.getLast?.getD 0), BitVec.ofInt 32 ((d.valveRec v).recent.head?.getD 0),
     nominal] := by
  have state := (d.valveRec v).st.code_lt
  have cause := causeCode_lt (d.valveRec v).cause
  have verdict := verdictCode_lt (d.valveRec v).lastVerdict
  have epoch := (d.valveRec v).epoch.isLt
  unfold Dev.viewWords ofInt
  dsimp only
  rw [put_eq_mul (lo := 16) v.isLt, put_eq_mul (len := 2) (lo := 0) (by omega), put_eq_mul (len := 2) (lo := 4) (by omega),
    put_eq_mul (lo := 8) epoch, put_eq_mul (len := 2) (lo := 8) (by omega)]
  unfold put putBit
  rw [Nat.pow_zero, Nat.one_mul, Nat.one_mul, Nat.one_mul, Nat.one_mul]
  rfl

/-! ### The read (R123, R124) -/

/-- The valves whose nominals a view read fetches. -/
def Dev.viewFetches (d : Dev) (m : Master) (i n : Nat) : List Nat :=
  d.viewNeeds m (d.path.latch.map fun l => (l.master, l.valve.val)) i n

/-- The nominals that a view read fetches. -/
def State.viewNominals (s : State) (m : Master) (i n : Nat) : List (Nat × Word) :=
  (s.dev.viewFetches m i n).map fun v => (v, Memory.readWord s.mem (s.dev.base + 0x300 + 4 * v))

theorem Dev.viewRead_idle (noms : List (Nat × Word)) (i : Nat) (d : Dev) (n16 : n ≤ 16) :
    (Dev.viewRead m noms i n d).2.path.upstream = d.path.upstream ∧ (Dev.viewRead m noms i n d).2.report = d.report := by
  rw [Dev.viewRead_latch m noms n i d n16]
  split <;> exact ⟨rfl, rfl⟩

theorem Dev.workDone_viewEnd (idle : d.path.upstream = []) (h : Held) : (d.withUp [h]).workDone h [] (.viewEnd i n) =
    ([], { h.ctx with ans := (Dev.viewRead h.txn.master h.ctx.noms i n d).1 },
      (Dev.viewRead h.txn.master h.ctx.noms i n d).2.withUp [h]) := by
  unfold Dev.workDone Dev.apart
  dsimp only
  rw [Dev.withUp_withUp, Dev.withUp_idle idle]
  rfl

/-- VALVE_VIEW_READ in READY, of words that lie in the window. -/
theorem State.exec_valveViewRead (quiet : s.Quiet) (ready : s.Ready) (clean : a.clean) (n1 : 1 ≤ n) (n8 : n ≤ 8)
    (inside : i + n ≤ 1024) : exec (.valveViewRead m i n a) s = .next (State.served m
      ((s.dev.viewFetches m i n).map fun v => .read (s.dev.base + 0x300 + 4 * v) 1)
      (.okay (Dev.viewRead m (s.viewNominals m i n) i n s.dev).1)
      { s with dev := (Dev.viewRead m (s.viewNominals m i n) i n s.dev).2 }) := by
  have row := (rowAt_window (0x1000 + 4 * i)).2.2.2.2.2.1 (by omega)
  have fits : 0x1000 + 4 * i + 4 * n ≤ 0x1000 + 4 * 1024 := by omega
  have accepted := Dev.accepted (d := s.dev) (t := .read m (s.dev.base + (0x1000 + 4 * i)) n) ready.2 rfl row fits rfl
  have few : (s.dev.viewFetches m i n).length ≤ n := Dev.viewNeeds_length _ _ _ _ _
  refine (whenOk_rangeOk (by omega) (lengthOk_of_le n1 n8)).trans (congrArg _ ?_)
  unfold State.presentRead Dev.windowAddr
  rw [Nat.add_assoc, State.present_accepted quiet.upstream clean accepted,
    Dev.workOf_read ready.1 rfl row fits n1, Nat.add_sub_cancel_left, Nat.mul_div_cancel_left _ (by decide)]
  have reads := State.serve_reads (.read m (s.dev.base + (0x1000 + 4 * i)) n) [.viewEnd i n] Micro.viewFetch
    (fun v => s.dev.base + 0x300 + 4 * v) (fun _ => 1) (fun c v ws => { c with noms := c.noms ++ [(v, wordAt ws 0)] }) s.dev
    (fun _ _ => rfl) (fun _ _ _ _ => rfl) (s.dev.viewFetches m i n) (Ctx.init s.dev.fill.seq)
    (1023 - (s.dev.viewFetches m i n).length) (1024 - (s.dev.viewFetches m i n).length) s.portsClear rfl
    ⟨quiet.upstream, quiet.port, quiet.bursts, quiet.request⟩
  rw [foldl_gather_noms, show 1023 - (s.dev.viewFetches m i n).length + (s.dev.viewFetches m i n).length = 1023 by omega,
    show 1024 - (s.dev.viewFetches m i n).length + (s.dev.viewFetches m i n).length = 1024 by omega] at reads
  obtain ⟨upstream, report⟩ := Dev.viewRead_idle (n := n) (m := m) (s.viewNominals m i n) i s.dev (by omega)
  refine reads.trans ?_
  rw [show 1023 - (s.dev.viewFetches m i n).length = 1021 - (s.dev.viewFetches m i n).length + 2 by omega]
  refine (State.serve_last (d' := (Dev.viewRead m (s.viewNominals m i n) i n s.dev).2)
    (c' := { Ctx.init s.dev.fill.seq with
      noms := s.viewNominals m i n, ans := (Dev.viewRead m (s.viewNominals m i n) i n s.dev).1 }) _ _ rfl ?_ ?_).trans ?_
  · exact Dev.workDone_viewEnd (d := s.dev) quiet.upstream _
  · exact upstream.trans quiet.upstream
  · rw [Dev.settle_quiet ((congrArg ReportUnit.request report).trans quiet.request)]
    rfl

/-- The nominal that a view read shows for valve `v`. -/
def State.shownNominal (s : State) (v : Nat) : Word :=
  if v < s.dev.su.valves then Memory.readWord s.mem (s.dev.base + 0x300 + 4 * v) else 0

theorem State.fetchedNominal_shown {v : Nat} (fetched : v < s.dev.su.valves → v ∈ s.dev.viewFetches m i n) :
    s.dev.fetchedNominal (s.viewNominals m i n) v = s.shownNominal v := by
  unfold Dev.fetchedNominal State.shownNominal
  by_cases used : v < s.dev.su.valves
  · rw [if_neg (Nat.not_le.2 used), if_pos used]
    unfold State.viewNominals
    rw [lookup_map_mem _ _ _ (fetched used)]
    rfl
  · rw [if_pos (Nat.not_lt.1 used), if_neg used]

/-- The valve whose record `x` lies in, answered live in a read from word `i` on. -/
def State.liveWord (s : State) (x : Nat) : Word :=
  (s.dev.viewWords (Fin.ofNat 64 (x / 16)) (s.shownNominal (x / 16))).getD (x % 16) 0

/-- A word of a view read that the latch does not answer. -/
theorem State.viewWordAt_live {x : Nat} (start : i ≤ x) (stop : x < i + n)
    (live : i ≤ 16 * (x / 16) ∨ latched s.dev.path.latch m (x / 16) (x % 16) = none) :
    s.dev.viewWordAt m (s.viewNominals m i n) s.dev.path.latch i x = s.liveWord x := by
  have word : wordAt (s.dev.viewWords (Fin.ofNat 64 (x / 16))
      (s.dev.fetchedNominal (s.viewNominals m i n) (x / 16))) (x % 16) = s.liveWord x := by
    by_cases shown : x % 16 = 0 ∨ x % 16 = 15
    · rw [State.fetchedNominal_shown fun used => Dev.viewNeeds_mem s.dev m n i _ x start stop used ?_]
      · rfl
      · refine shown.imp_right fun last => ⟨last, live.symm.imp_left fun unlatched same => ?_⟩
        cases latch : s.dev.path.latch with
        | none =>
          rw [latch] at same
          cases same
        | some l =>
          rw [latch] at same unlatched
          obtain ⟨master, valve⟩ := Prod.mk.inj (Option.some.inj same)
          exact nomatch (show some _ = none from (if_pos ⟨by omega, master, valve⟩).symm.trans unlatched)
    · exact Dev.viewWords_nominal _ _ _ _ _ (fun h => shown (.inl h)) fun h => shown (.inr h)
  unfold Dev.viewWordAt
  dsimp only
  rw [word]
  rcases live with before | unlatched
  · exact if_pos before
  · rw [unlatched]
    exact ite_self _

/-- A word of a view read that the latch answers. -/
theorem State.viewWordAt_latched {x : Nat} {l : Latch} {noms : List (Nat × Word)} (latch : s.dev.path.latch = some l)
    (inside : ¬i ≤ 16 * (x / 16)) (later : x % 16 ≠ 0) (master : l.master = m) (valve : l.valve.val = x / 16) :
    s.dev.viewWordAt m noms s.dev.path.latch i x = l.words.getD (x % 16) 0 := by
  unfold Dev.viewWordAt latched
  dsimp only
  rw [if_neg inside, latch]
  dsimp only
  rw [if_pos ⟨later, master, valve⟩]
  rfl

end Sys2Proof.Machine

namespace Sys2Proof

open Sys2Proof.Machine

/-- Settles O45. -/
theorem valveViewReadShowsTheRecords : Obligations.ValveViewReadShowsTheRecords := by
  unfold Obligations.ValveViewReadShowsTheRecords
  refine ⟨fun d v nominal => ?_, fun s m i n a quiet ready clean n1 n8 inside => ?_⟩
  · dsimp only
    refine ⟨recentMean (d.valveRec v).recent, recentSpread (d.valveRec v).recent, ?_, fun none => ?_,
      fun some => ⟨?_, ?_⟩⟩
    · rw [Dev.viewWords_eq, Dev.trimLimit_getD]
      rw [getD_zero, getD_zero, getD_zero, ValveState.code_eq]
      cases (d.valveRec v).lastSeq <;> rfl
    · unfold recentMean recentSpread
      rw [if_pos none, if_pos none]
      exact ⟨rfl, rfl⟩
    · unfold recentMean
      rw [if_neg some, recentSum_eq]
      rfl
    · obtain ⟨hi, above⟩ := recentMax_spec some
      obtain ⟨lo, below⟩ := recentMin_spec some
      exact ⟨_, hi, _, lo, if_neg some, fun x among => ⟨below x among, above x among⟩⟩
  · intro live word next
    refine ⟨(s.dev.viewFetches m i n).map fun v => .read (s.dev.base + 0x300 + 4 * v) 1,
      (State.exec_valveViewRead quiet ready clean n1 n8 inside).trans ?_⟩
    have words : (Dev.viewRead m (s.viewNominals m i n) i n s.dev).1 = (List.range n).map fun k => word (i + k) := by
      rw [Dev.viewRead_words m _ n i _ inside]
      refine List.map_congr_left fun k among => ?_
      have stop := List.mem_range.1 among
      show _ = match s.dev.path.latch with
        | none => s.liveWord (i + k)
        | some l => if (i + k) / 16 = i / 16 ∧ i % 16 ≠ 0 ∧ l.master = m ∧ l.valve.val = i / 16 then
            l.words.getD ((i + k) % 16) 0 else s.liveWord (i + k)
      cases latch : s.dev.path.latch with
      | none =>
        rw [← latch, State.viewWordAt_live (by omega) (by omega) (.inr (by rw [latch]; rfl)), latch]
      | some l =>
        dsimp only
        rw [← latch]
        by_cases here : (i + k) / 16 = i / 16 ∧ i % 16 ≠ 0 ∧ l.master = m ∧ l.valve.val = i / 16
        · rw [if_pos here]
          obtain ⟨same, later, master, valve⟩ := here
          exact State.viewWordAt_latched latch (by omega) (by omega) master (by omega)
        · rw [if_neg here]
          refine State.viewWordAt_live (i := i) (n := n) (x := i + k) (by omega) (by omega) ?_
          by_cases before : i ≤ 16 * ((i + k) / 16)
          · exact .inl before
          · refine .inr ?_
            unfold latched
            rw [latch]
            exact if_neg fun ⟨later, master, valve⟩ => here ⟨by omega, by omega, master, by omega⟩
    rw [words, Dev.viewRead_latch m _ n i s.dev (show n ≤ 16 by omega)]
    by_cases fills : 16 * next < i + n
    · rw [if_pos fills, if_pos fills, State.fetchedNominal_shown fun used => ?_]
      · rfl
      · have start : i ≤ 16 * next := by omega
        have fetched := Dev.viewNeeds_mem s.dev m n i (s.dev.path.latch.map fun l => (l.master, l.valve.val)) (16 * next)
          start fills
        rw [Nat.mul_div_cancel_left _ (by decide)] at fetched
        exact fetched used (.inl (Nat.mul_mod_right _ _))
    · rw [if_neg fills, if_neg fills]

end Sys2Proof
end

section
/-! Service orders (R139, R140): the entry reached and what executing it does; VALVE_GROUP; and the report operations,
handed over between the Report unit's own bursts (R174). -/

namespace Sys2Proof.Machine

variable {d : Dev} {o : ServiceOrder} {e : ServiceEntry}

/-! ### The entry reached (R139) -/

theorem Dev.serviceNow_of (ready : d.setup.part = .ready) (running : d.order.service = some o)
    (entry : o.entries[o.idx]? = some e) : d.serviceNow = some (o, e) := by
  unfold Dev.serviceNow
  rw [if_pos ready, running]
  dsimp only
  rw [entry]

theorem ServiceEntry.code_eq (e : ServiceEntry) : e.code = e.op.toNat % 256 := by
  unfold ServiceEntry.code bits
  rw [pow_zero, Nat.div_one, show 2 ^ 8 = 256 from rfl]

theorem Dev.service_of {k : Nat} (f : ServiceOrder → ServiceEntry → Dev → Dev) (now : d.serviceNow = some (o, e))
    (op : e.op.toNat % 256 = k) : d.service k f = Dev.settle (f o e d) := by
  unfold Dev.service
  rw [now]
  exact if_pos (e.code_eq.trans op)

theorem Dev.unknownOp_of (now : d.serviceNow = some (o, e)) (op : e.op.toNat % 256 < 1 ∨ 6 < e.op.toNat % 256) :
    d.unknownOp = Dev.settle (d.serviceFails o .unknownOp) := by
  unfold Dev.unknownOp
  rw [now]
  refine if_pos ?_
  unfold ServiceEntry.unknown
  rw [e.code_eq, Bool.or_eq_true, decide_eq_true_iff, decide_eq_true_iff]
  exact op

theorem Dev.serviceDone_eq (d : Dev) (o : ServiceOrder) :
    d.serviceDone o =
      if o.idx + 1 < o.entries.length then
        (d.pushOrderWrite (o.addr + 20 + 16 * o.idx) (BitVec.ofNat 32 2)).setService
          (some { o with idx := o.idx + 1, closed := o.closed + 1, nextValve := 0 })
      else
        if o.notify then
          Dev.raise .orderBDone (Dev.setService none
            ((d.pushOrderWrite (o.addr + 20 + 16 * o.idx) (BitVec.ofNat 32 2)).pushOrderWrite (o.addr + 4)
              (BitVec.ofNat 32 (1 + 65536 * ((o.closed + 1) % 16)))))
        else
          Dev.setService none
            ((d.pushOrderWrite (o.addr + 20 + 16 * o.idx) (BitVec.ofNat 32 2)).pushOrderWrite (o.addr + 4)
              (BitVec.ofNat 32 (1 + 65536 * ((o.closed + 1) % 16)))) := by
  unfold Dev.serviceDone Dev.writeServiceEntry
  rw [orderStatusWord_done]

/-- The rest of a failed order: the entries after the one reached, one word each. -/
theorem Dev.writeServiceEntries_after (d : Dev) (a code i n : Nat) :
    d.writeServiceEntries a code (i + 1) n =
      (List.range n).foldl
        (fun d j => if i < j then d.pushOrderWrite (a + 20 + 16 * j) (BitVec.ofNat 32 code) else d) d := by
  unfold Dev.writeServiceEntries Dev.writeServiceEntry
  rw [List.foldl_filter]
  simp only [decide_eq_true_iff, Nat.succ_le_iff]

theorem Dev.serviceFails_eq (d : Dev) (o : ServiceOrder) (code : OrderCode) :
    d.serviceFails o code = Dev.setService none
      ((List.range o.entries.length).foldl
        (fun d j => if o.idx < j then d.pushOrderWrite (o.addr + 20 + 16 * j) (BitVec.ofNat 32 4) else d)
        (Dev.raiseAt .orderError (o.addr + 8 + 16 * o.idx)
          ((d.pushOrderWrite (o.addr + 20 + 16 * o.idx) (BitVec.ofNat 32 3)).pushOrderWrite (o.addr + 4)
            (BitVec.ofNat 32 (2 + 256 * code.code + 65536 * (o.closed % 16)))))) := by
  unfold Dev.serviceFails Dev.writeServiceEntry
  dsimp only
  rw [Dev.writeServiceEntries_after, orderStatusWord_error]

/-! ### The operations (R140) -/

theorem Dev.setSpan_eq (d : Dev) (o : ServiceOrder) (e : ServiceEntry) :
    d.setSpan o e = if 1 ≤ e.op1.toNat ∧ e.op1.toNat ≤ 65535 ∧ e.op2.toNat ≤ 31 then
        Dev.serviceDone o { d with weigh := { d.weigh with spanMul := e.op1.toNat, spanShift := e.op2.toNat } }
      else d.serviceFails o .badOperand := by
  unfold Dev.setSpan inRange Dev.setWeigh
  refine if_congr ?_ rfl rfl
  simp only [Bool.and_eq_true, decide_eq_true_iff, Nat.zero_le, true_and, and_assoc]

/-! ### VALVE_GROUP (R140) -/

theorem mem_groupValves {first upTo : Nat} (v : Fin 64) :
    v ∈ d.groupValves e first upTo ↔ v.val < d.su.valves ∧ first ≤ v.val ∧ v.val < upTo ∧
      (if v.val < 32 then e.op1.getLsbD v.val else e.op2.getLsbD (v.val - 32)) = true := by
  have all : ∀ v : Fin 64, v ∈ valveNumbers := by decide
  unfold Dev.groupValves ServiceEntry.selects
  rw [List.mem_filter, and_iff_right (all v), bit_eq_getLsbD, bit_eq_getLsbD]
  simp only [Bool.and_eq_true, decide_eq_true_iff, and_assoc]

theorem groupValves_nodup (d : Dev) (e : ServiceEntry) (first upTo : Nat) : (d.groupValves e first upTo).Nodup := by
  have distinct : valveNumbers.Nodup := by decide
  exact distinct.filter _

theorem ServiceEntry.command_none (op : e.op.toNat / 256 % 256 < 1 ∨ 7 < e.op.toNat / 256 % 256) : e.command = none := by
  unfold ServiceEntry.command valveCommandOf
  have code : bits e.op 8 8 = e.op.toNat / 256 % 256 := rfl
  rw [code]
  rw [if_neg (by omega), if_neg (by omega), if_neg (by omega), if_neg (by omega), if_neg (by omega),
    if_neg (by omega), if_neg (by omega)]

theorem ServiceEntry.command_of {c : ValveCommand} (op : c.code = e.op.toNat / 256 % 256) : e.command = some c := by
  unfold ServiceEntry.command
  have code : bits e.op 8 8 = e.op.toNat / 256 % 256 := rfl
  rw [code, ← op, valveCommandOf_code]

theorem ServiceEntry.command_exists (low : 1 ≤ e.op.toNat / 256 % 256) (high : e.op.toNat / 256 % 256 ≤ 7) :
    ∃ c, e.command = some c := by
  have all : ∀ k : Fin 8, 1 ≤ k.val → (valveCommandOf k.val).isSome = true := by decide
  exact Option.isSome_iff_exists.1 (all ⟨e.op.toNat / 256 % 256, by omega⟩ low)

theorem ServiceEntry.operand_eq (e : ServiceEntry) : e.operand = (BitVec.ofNat 16 (e.op.toNat / 65536)).toInt := by
  have bound := e.op.isLt
  unfold ServiceEntry.operand bits
  rw [Nat.mod_eq_of_lt (by omega), show 2 ^ 16 = 65536 from rfl]

theorem Dev.commandGroup_eq (d : Dev) (c : ValveCommand) (operand : Int) {l : List (Fin 64)} (nodup : l.Nodup) :
    l.foldl (fun d v => d.commandValve v c operand) d =
      { d with valve := { d.valve with recs := Vector.ofFn fun v =>
        if v ∈ l then (d.valveRec v).command c operand (d.trimLimit.getD 0) else d.valveRec v } } :=
  Dev.foldl_commandValve d c operand _ rfl l d.valve.recs nodup

theorem Dev.valveGroup_bad (upTo : Nat) (bad : e.command = none) :
    d.valveGroup upTo o e = d.serviceFails o .badOperand := by
  unfold Dev.valveGroup
  rw [bad]

theorem Dev.valveGroup_midSwitch {c : ValveCommand} (upTo : Nat) (good : e.command = some c)
    (mid : d.midSwitch = true) : d.valveGroup upTo o e = d := by
  unfold Dev.valveGroup
  rw [good]
  exact if_pos mid

theorem Dev.valveGroup_commands {c : ValveCommand} (upTo : Nat) (good : e.command = some c)
    (between : d.midSwitch = false) :
    d.valveGroup upTo o e =
      if d.su.valves ≤ upTo then
        Dev.serviceDone o ((d.groupValves e o.nextValve upTo).foldl (fun d v => d.commandValve v c e.operand) d)
      else
        Dev.setService (some { o with nextValve := max o.nextValve upTo })
          ((d.groupValves e o.nextValve upTo).foldl (fun d v => d.commandValve v c e.operand) d) := by
  unfold Dev.valveGroup
  rw [good]
  exact if_neg (by rw [between]; exact Bool.false_ne_true)

/-! ### The report operations (R174) -/

theorem closeWord_flush (count : Nat) : closeWord .flush count = BitVec.ofNat 32 (2 * 16 + 65536 * (count % 4096)) := rfl

theorem Dev.reportFlush_idle (idle : d.report.act = none) : d.reportFlush o e = Dev.serviceDone o d.flushTaken :=
  if_pos idle

theorem Dev.reportRestart_bad (bad : e.op1.toNat % 4 ≠ 0 ∨ d.size ≤ e.op1.toNat) :
    d.reportRestart o e = d.serviceFails o .badOperand :=
  if_pos ((d.addrOk_eq_false _).2 bad)

theorem Dev.reportRestart_idle (aligned : e.op1.toNat % 4 = 0) (inside : e.op1.toNat < d.size)
    (idle : d.report.act = none) :
    d.reportRestart o e = Dev.serviceDone o (d.restartTaken e.op1.toNat) := by
  unfold Dev.reportRestart
  rw [if_neg fun bad => by rw [d.addrOk_eq_false] at bad; omega, if_pos idle]

theorem Dev.flushTaken_closes {b : Buffer} (running : d.report.reporting = .running b) (some : 1 ≤ b.count) :
    d.flushTaken = d.closeBuffer .flush .follow b := by
  unfold Dev.flushTaken
  rw [running]
  exact if_pos some

theorem Dev.flushTaken_stands (empty : ∀ b, d.report.reporting = .running b → b.count = 0) : d.flushTaken = d := by
  unfold Dev.flushTaken
  split
  case h_1 b running => rw [empty b running]; exact if_neg (by omega)
  case h_2 => rfl

theorem Dev.restartTaken_closes {b : Buffer} (x : Nat) (running : d.report.reporting = .running b)
    (some : 1 ≤ b.count) : d.restartTaken x = d.closeBuffer .flush (.restart x) b := by
  unfold Dev.restartTaken
  rw [running]
  exact if_pos some

theorem Dev.restartTaken_opens (x : Nat) (empty : ∀ b, d.report.reporting = .running b → b.count = 0) :
    d.restartTaken x = d.openDescriptor x := by
  unfold Dev.restartTaken
  split
  case h_1 b running => rw [empty b running]; exact if_neg (by omega)
  case h_2 => rfl

end Sys2Proof.Machine

namespace Sys2Proof

open Sys2Proof.Machine

/-- Settles O47: each operation is its own branch of the entry reached, and the two ends are the model's, their words
written out. -/
theorem serviceEntriesAreExecuted : Obligations.ServiceEntriesAreExecuted := by
  intro s o e ready running entry word status keeps done failed leaves op
  have now := Dev.serviceNow_of ready running entry
  have closes : ∀ d : Dev, d.serviceDone o = done d := fun d => d.serviceDone_eq o
  have fails : ∀ (d : Dev) (code : OrderCode), d.serviceFails o code = failed code.code d :=
    fun d code => d.serviceFails_eq o code
  have executes : ∀ {d : Dev} (d' : Dev), d = Dev.settle d' →
      (Host.Outcome.next { s with dev := d } : Host.Outcome State Fault Refusal) = .next (leaves d') := by
    rintro _ d' rfl
    rfl
  refine ⟨closes, fails, fun one => ?_, fun two => ?_, fun three => ?_, fun outside => ?_⟩
  · refine executes _ ((Dev.service_of _ now one).trans (congrArg Dev.settle ?_))
    rw [Dev.setSpan_eq, closes, fails]
    rfl
  · refine executes _ ((Dev.service_of _ now two).trans (congrArg Dev.settle ?_))
    exact closes _
  · refine executes _ ((Dev.service_of _ now three).trans (congrArg Dev.settle ?_))
    unfold Dev.clearTrack
    rw [closes, fails]
    rfl
  · refine executes _ ((Dev.unknownOp_of now outside).trans (congrArg Dev.settle ?_))
    exact fails _ _

/-- Settles O49: the group's valves are distinct, so the fold of their commands changes each selected record once. -/
theorem valveGroupCommandsTheSelectedValves : Obligations.ValveGroupCommandsTheSelectedValves := by
  intro s o e upTo ready running entry four code operand limit selected commanded
  have now := Dev.serviceNow_of ready running entry
  have executes : ∀ d' : Dev, s.dev.valveGroup upTo o e = d' →
      exec (.valveGroup upTo) s = .next { s with dev := Dev.settle d' } := by
    rintro d' rfl
    exact congrArg (fun d => Host.Outcome.next { s with dev := d }) (Dev.service_of _ now four)
  refine ⟨fun bad => ?_, fun mid low high => ?_, fun c between which => ?_⟩
  · exact executes _ (Dev.valveGroup_bad upTo (ServiceEntry.command_none bad))
  · obtain ⟨c, good⟩ := ServiceEntry.command_exists low high
    exact executes _ (Dev.valveGroup_midSwitch upTo good mid)
  · have group : (s.dev.groupValves e o.nextValve upTo).foldl (fun d v => d.commandValve v c e.operand) s.dev =
        commanded c := by
      rw [Dev.commandGroup_eq _ _ _ (groupValves_nodup _ _ _ _), e.operand_eq, Dev.trimLimit_getD]
      simp only [mem_groupValves]
      rfl
    refine executes _ ((Dev.valveGroup_commands upTo (ServiceEntry.command_of which) between).trans ?_)
    rw [group]
    rfl

/-- Settles O50: with no burst of the chain under way the operation is taken at once, and closes the buffer when it
holds a result. -/
theorem reportOperationsAreHandedOver : Obligations.ReportOperationsAreHandedOver := by
  intro s o e ready running entry idle done opened closed x
  have now := Dev.serviceNow_of ready running entry
  have executes : ∀ {d : Dev} (d' : Dev), d = Dev.settle d' →
      (Host.Outcome.next { s with dev := d } : Host.Outcome State Fault Refusal) =
        .next { s with dev := Dev.settle d' } := by
    rintro _ d' rfl
    rfl
  have closes : ∀ (after : AfterClose) (b : Buffer), s.dev.closeBuffer .flush after b = closed after b s.dev := by
    intro after b
    unfold Dev.closeBuffer
    rw [closeWord_flush]
  refine ⟨fun five => ⟨fun b buffer held => ?_, fun empty => ?_⟩,
    fun six => ⟨fun bad => ?_, fun aligned inside => ⟨fun b buffer held => ?_, fun empty => ?_⟩⟩⟩
  · refine executes _ ((Dev.service_of _ now five).trans (congrArg Dev.settle ?_))
    rw [Dev.reportFlush_idle idle, Dev.flushTaken_closes buffer held, closes]
  · refine executes _ ((Dev.service_of _ now five).trans (congrArg Dev.settle ?_))
    rw [Dev.reportFlush_idle idle, Dev.flushTaken_stands empty]
  · refine executes _ ((Dev.service_of _ now six).trans (congrArg Dev.settle ?_))
    exact Dev.reportRestart_bad bad
  · refine executes _ ((Dev.service_of _ now six).trans (congrArg Dev.settle ?_))
    rw [Dev.reportRestart_idle aligned inside idle, Dev.restartTaken_closes _ buffer held, closes]
  · refine executes _ ((Dev.service_of _ now six).trans (congrArg Dev.settle ?_))
    rw [Dev.reportRestart_idle aligned inside idle, Dev.restartTaken_opens _ empty]
    rfl

end Sys2Proof
end

section
/-! The track cleared and the track flagged (R14, R16, R145, R146, R150): what CLEAR_TRACK frees and leaves, and what a
suspect marking over sound records does, its count with it. -/

namespace Sys2Proof.Machine

variable {d : Dev}

/-! ### The track cleared (R14, R150) -/

theorem Dev.clearRing_shape (d : Dev) :
    ∃ ring, d.clearRing = { d with pocket := { d.pocket with ring := ring } } :=
  ⟨_, d.clearRing_entry.1⟩

theorem Dev.live_eq (d : Dev) : d.live =
    ((List.range 64).filterMap fun i =>
      (d.entry ((match d.pocket.pos with
        | none => 0
        | some q => BitVec.ofNat 32 (q.high.toNat / d.su.pitch)) - 63 + BitVec.ofNat 32 i)).record) ++
      d.track.fill := by
  unfold Dev.live Dev.ringPockets Dev.pocketNow
  rw [List.filterMap_map]
  cases d.pocket.pos <;> rfl

theorem Dev.clearRing_pools (d : Dev) : d.clearRing.track = d.track ∧ d.clearRing.report = d.report := by
  obtain ⟨ring, shape⟩ := d.clearRing_shape
  exact ⟨(congrArg Dev.track shape :), (congrArg Dev.report shape :)⟩

/-- What a clearing of the ring leaves of the units that freed records leave. -/
theorem Dev.clearRing_units {x : Dev} (freed : Freed d x) :
    x.clearRing.pocket.pos = d.pocket.pos ∧ x.clearRing.pocket.running = d.pocket.running ∧
    x.clearRing.pocket.stall = d.pocket.stall ∧ x.clearRing.pocket.stop = d.pocket.stop ∧
    x.clearRing.pocket.reversal = d.pocket.reversal ∧ x.clearRing.fill = d.fill ∧ x.clearRing.weigh = d.weigh ∧
    x.clearRing.code = d.code ∧ x.clearRing.valve = d.valve ∧ x.clearRing.setup = d.setup ∧
    x.clearRing.order.cur = d.order.cur ∧ x.clearRing.path.latch = d.path.latch ∧
    x.clearRing.path.faults = d.path.faults := by
  obtain ⟨ring, shape⟩ := x.clearRing_shape
  generalize x.clearRing = t at shape
  subst shape
  exact ⟨freed.pos, freed.running, freed.stall, freed.stop, freed.reversal, freed.fill, freed.weigh, freed.code,
    freed.valve, freed.setup, freed.cur, freed.latch, freed.faults⟩

theorem Dev.cleared_entry (d : Dev) (p : Word) :
    d.discardTrack.clearRing.entry p = Entry.fresh (d.entry p).pocket :=
  (d.discardTrack.clearRing_entry.2 p).trans (congrArg Entry.fresh (d.discardTrack_freed.1.number p))

/-! ### The suspect count of a marking (R146) -/

/-- A record that a suspect marking flags. -/
def CanRecord.unmarked (r : CanRecord) : Bool := !r.failed && !r.suspect

theorem CanRecord.unmarked_eq_false (r : CanRecord) : r.unmarked = false ↔ r.failed = true ∨ r.suspect = true := by
  unfold CanRecord.unmarked
  cases r.failed <;> cases r.suspect <;> decide

theorem Dev.ringPockets_nodup (d : Dev) : (d.ringPockets.map ringIx).Nodup := by
  unfold Dev.ringPockets
  rw [List.map_map]
  refine List.Nodup.map_on (fun x inX y inY same => ?_) List.nodup_range
  rw [List.mem_range] at inX inY
  have indices := congrArg Fin.val same
  simp only [Function.comp, ringIx, BitVec.toNat_add, BitVec.toNat_ofNat] at indices
  omega

theorem Dev.markPocket_suspects (p : Word) (sound : Dev.AllSound d) :
    (d.markPocket p).track.suspects = d.track.suspects + (d.entry p).record.toList.countP CanRecord.unmarked := by
  unfold Dev.markPocket
  dsimp only
  split
  case h_1 none => rw [none]; rfl
  case h_2 r here =>
    rw [here, Option.toList_some, List.countP_singleton]
    by_cases marked : r.failed = true ∨ r.suspect = true
    case pos => rw [if_pos marked, r.unmarked_eq_false.2 marked]; rfl
    case neg =>
      have unmarked : r.unmarked = true := by
        rw [← Bool.not_eq_false, r.unmarked_eq_false]; exact marked
      rw [if_neg marked, if_pos (sound p r here), if_pos unmarked]
      rfl

/-- Marking distinct entries of the ring counts each record flagged once. -/
theorem Dev.foldl_markPocket_suspects : ∀ (l : List Word) (d : Dev), Dev.AllSound d → (l.map ringIx).Nodup →
    (l.foldl Dev.markPocket d).track.suspects =
      d.track.suspects + (l.filterMap fun p => (d.entry p).record).countP CanRecord.unmarked
  | [], d, _, _ => rfl
  | p :: l, d, sound, nodup => by
    rw [List.map_cons, List.nodup_cons] at nodup
    have marks := Dev.markPocket_marks d p sound
    have others : (l.filterMap fun q => ((d.markPocket p).entry q).record) = l.filterMap fun q => (d.entry q).record := by
      refine List.filterMap_congr fun q inL => congrArg Entry.record ((marks.entry q).2 fun same => nodup.1 ?_)
      exact same ▸ List.mem_map_of_mem inL
    rw [List.foldl_cons, Dev.foldl_markPocket_suspects l _ (sound.marks marks) nodup.2, others,
      Dev.markPocket_suspects p sound, List.filterMap_cons]
    cases (d.entry p).record with
    | none => rfl
    | some r =>
      rw [Option.toList_some, List.countP_singleton, List.countP_cons]
      omega

theorem Dev.markFill_suspects : ∀ (l kept : List CanRecord) (d : Dev), (∀ r ∈ l, r.checkOk = true) →
    (Dev.markFill l kept d).track.suspects = d.track.suspects + l.countP CanRecord.unmarked
  | [], _, _, _ => rfl
  | r :: l, kept, d, sound => by
    have rest : ∀ x ∈ l, x.checkOk = true := fun x inL => sound x (List.mem_cons_of_mem _ inL)
    rw [Dev.markFill, List.countP_cons]
    by_cases marked : r.failed = true ∨ r.suspect = true
    case pos =>
      rw [if_pos marked, Dev.markFill_suspects l _ d rest, r.unmarked_eq_false.2 marked]
      rfl
    case neg =>
      have unmarked : r.unmarked = true := by
        rw [← Bool.not_eq_false, r.unmarked_eq_false]; exact marked
      rw [if_neg marked, if_pos (sound r List.mem_cons_self), Dev.markFill_suspects l _ _ rest, if_pos unmarked]
      show d.track.suspects + 1 + l.countP CanRecord.unmarked = _
      omega

/-! ### A suspect marking of sound records (R145) -/

/-- The state that a suspect marking leaves when every live record is sound. -/
theorem Dev.markSuspects_shape (d : Dev) (inList : ∀ r ∈ d.track.fill, r.checkOk = true) (inRing : Dev.AllSound d) :
    ∃ ring, (∀ p, ring.get (ringIx p) = Entry.flagged (d.entry p)) ∧
      d.markSuspects = Dev.raise .trackSuspect { d with
        pocket := { d.pocket with ring := ring }
        track := { d.track with
          fill := d.track.fill.map CanRecord.flagged
          suspects := d.track.suspects + d.live.countP CanRecord.unmarked } } := by
  have marks := Dev.foldl_markPocket d.ringPockets d inRing
  have count := Dev.foldl_markPocket_suspects d.ringPockets d inRing d.ringPockets_nodup
  obtain ⟨ring, n, shape⟩ := marks.shape
  have fill : (d.ringPockets.foldl Dev.markPocket d).track.fill = d.track.fill := by rw [shape]
  have listCount := Dev.markFill_suspects d.track.fill [] (d.ringPockets.foldl Dev.markPocket d) inList
  obtain ⟨k, list⟩ := Dev.markFill_sound d.track.fill [] (d.ringPockets.foldl Dev.markPocket d) inList
  have total : k = d.track.suspects + d.live.countP CanRecord.unmarked := by
    have counted : (Dev.markFill d.track.fill [] (d.ringPockets.foldl Dev.markPocket d)).track.suspects = k := by
      rw [list]
    unfold Dev.live
    rw [List.countP_append, ← counted, listCount, count, Nat.add_assoc]
  refine ⟨ring, fun p => ?_, ?_⟩
  · refine Eq.trans ?_ ((marks.entry p).1 (d.ringPockets_all (ringIx p)))
    rw [shape]
    rfl
  · unfold Dev.markSuspects
    dsimp only
    rw [fill, list, total, shape]
    rfl

end Sys2Proof.Machine

namespace Sys2Proof

open Sys2Proof.Machine

/-- Settles O48: the discard frees the live records in order (the architect's `FreedAll`), the ring's clearing touches
the ring alone, and a marking of sound records flags and counts each record not yet failed or suspect. -/
theorem trackIsClearedOrFlagged : Obligations.TrackIsClearedOrFlagged := by
  refine ⟨?_, ?_, ?_⟩
  · intro d t
    obtain ⟨freed, empty⟩ := d.discardTrack_freed
    refine ⟨?_, d.cleared_entry, Dev.clearRing_units freed⟩
    exact (congrArg Track.fill d.discardTrack.clearRing_pools.1).trans empty
  · intro d room now live t
    have same : live = d.live := d.live_eq.symm
    obtain ⟨track, report⟩ : t.track = d.discardTrack.track ∧ t.report = d.discardTrack.report := d.discardTrack.clearRing_pools
    have all : FreedAll .discarded d.live d d.discardTrack := d.discardTrack_all
    rw [track, report, same]
    refine ⟨all.free, all.queue room, all.dropped room, rfl, all.suspects, fun theirs => ?_⟩
    rw [all.suspects, theirs, Nat.sub_self]
  · intro d isPlaced inList inRing mark t
    obtain ⟨ring, entries, shape⟩ := d.markSuspects_shape inList inRing
    have pending : t.report.pending.getLsbD 14 = true := by
      rw [show t = _ from shape]
      exact Dev.raise_pending _ .trackSuspect isPlaced
    obtain ⟨request, raised⟩ := Dev.raise_shape .trackSuspect { d with
      pocket := { d.pocket with ring := ring }
      track := { d.track with
        fill := d.track.fill.map CanRecord.flagged
        suspects := d.track.suspects + d.live.countP CanRecord.unmarked } }
    have final := shape.trans raised
    have entry : ∀ p, t.entry p = { d.entry p with record := (d.entry p).record.map mark } := fun p =>
      Eq.trans (by rw [show t = _ from final]; rfl) (entries p)
    rw [show t = _ from final] at pending entry ⊢
    exact ⟨rfl, rfl, rfl, entry, pending, rfl, rfl, rfl, rfl, rfl, rfl, rfl, rfl, rfl, rfl⟩

end Sys2Proof
end

section
/-! The expiries of the millisecond timers (R53 to R55, R72, R148, R172, R173). -/

namespace Sys2Proof.Machine

variable {d : Dev} {b : Buffer} {n x : Nat}

/-! ### The stall timer, the stop timer and the silence timer -/

theorem Dev.stallExpired_idle (idle : d.setup.part ≠ .ready ∨ d.pocket.stall = none) : d.stallExpired = d :=
  if_pos idle

theorem Dev.stallExpired_running (ready : d.setup.part = .ready) (counts : d.pocket.stall ≠ none)
    (running : d.pocket.running = true) : d.stallExpired = d.lineStops :=
  (if_neg (not_or.2 ⟨not_not.2 ready, counts⟩)).trans (if_pos running)

theorem Dev.stallExpired_stopped (ready : d.setup.part = .ready) (counts : d.pocket.stall ≠ none)
    (stopped : d.pocket.running = false) :
    d.stallExpired = { d with pocket := { d.pocket with stall := none } } :=
  (if_neg (not_or.2 ⟨not_not.2 ready, counts⟩)).trans (if_neg (by rw [stopped]; exact Bool.false_ne_true))

/-- The line as a stop leaves it (R54, R72). -/
def Dev.lineStopped (d : Dev) : Dev :=
  Dev.raise .lineStopped { d with
    pocket := { d.pocket with running := false, stall := none, stop := .running 0 }
    weigh := { d.weigh with silence := .idle } }

theorem Dev.lineStopped_setup (d : Dev) : d.lineStopped.setup = d.setup := (Dev.raise_keeps _ _).1

theorem Dev.lineStops_eq (d : Dev) :
    d.lineStops = if d.setup.deferred then d.lineStopped.beginLoad else d.lineStopped := by
  have shape : d.lineStops = if d.lineStopped.setup.deferred then d.lineStopped.beginLoad else d.lineStopped := rfl
  rw [shape, d.lineStopped_setup]

theorem Dev.lineStops_plain (none : d.setup.deferred = false) : d.lineStops = d.lineStopped :=
  d.lineStops_eq.trans (if_neg (by rw [none]; exact Bool.false_ne_true))

theorem Dev.lineStops_deferred (ready : d.setup.part = .ready) (deferred : d.setup.deferred = true) :
    d.lineStops = Dev.placeBurst { op := .setup, addr := d.base, kind := .read 8 }
      { d.lineStopped with setup := { d.lineStopped.setup with
        part := .loading true, deferred := false, loadWords := [] } } := by
  have base : d.lineStopped.base = d.base := by
    unfold Dev.base
    exact congrArg (fun p => areaBase p.cabase) (Dev.raise_keeps _ _).2
  rw [d.lineStops_eq, if_pos deferred,
    Dev.beginLoad_ready ((congrArg SetupUnit.part d.lineStopped_setup).trans ready), base]

theorem Dev.stopExpired_expires (counts : d.pocket.stop = .running n) (ready : d.setup.part = .ready)
    (stopped : d.pocket.running = false) :
    d.stopExpired = Dev.markSuspects { d with pocket := { d.pocket with stop := .expired } } := by
  unfold Dev.stopExpired
  rw [counts]
  exact if_pos ⟨ready, stopped⟩

theorem Dev.stopExpired_idle
    (idle : d.setup.part ≠ .ready ∨ d.pocket.running = true ∨ ∀ n, d.pocket.stop ≠ .running n) :
    d.stopExpired = d := by
  unfold Dev.stopExpired
  split
  case h_1 n counts =>
    refine if_neg fun ⟨ready, stopped⟩ => ?_
    rcases idle with notReady | running | notRunning
    · exact notReady ready
    · exact Bool.false_ne_true (stopped.symm.trans running)
    · exact notRunning n counts
  case h_2 => rfl

theorem Dev.silenceExpired_expires (counts : d.weigh.silence = .running n) :
    d.silenceExpired = Dev.raise .scaleFault { d with weigh := { d.weigh with silence := .expired } } := by
  unfold Dev.silenceExpired
  rw [counts]
  rfl

theorem Dev.silenceExpired_idle (idle : ∀ n, d.weigh.silence ≠ .running n) : d.silenceExpired = d := by
  unfold Dev.silenceExpired
  split
  case h_1 n counts => exact absurd counts (idle n)
  case h_2 => rfl

/-! ### The age timer (R173) -/

theorem closeWord_age (count : Nat) : closeWord .age count = BitVec.ofNat 32 (3 * 16 + 65536 * (count % 4096)) := rfl

theorem Dev.ageExpired_idle (idle : ∀ b, d.report.reporting = .running b → b.age = none) : d.ageExpired = d := by
  unfold Dev.ageExpired
  split
  case h_1 b running => exact if_pos (idle b running)
  case h_2 => rfl

theorem Dev.ageExpired_closes (running : d.report.reporting = .running b) (counts : b.age = some n)
    (between : d.report.act = none) : d.ageExpired = d.closeBuffer .age .follow b := by
  unfold Dev.ageExpired
  rw [running, between]
  exact if_neg (by rw [counts]; exact Option.some_ne_none n)

theorem Dev.ageExpired_writing (running : d.report.reporting = .running b) (counts : b.age = some n)
    (writing : d.report.act = some .writing) :
    d.ageExpired = if d.path.bursts.any fun x => x.op == .report then
        Dev.closeBuffer .age .follow b (d.dropBursts .report)
      else { d with report := { d.report with
        reporting := .running { b with age := none }, act := some .lapsing } } := by
  unfold Dev.ageExpired
  rw [running, writing]
  exact if_neg (by rw [counts]; exact Option.some_ne_none n)

/-! ### The re-read timer (R172) -/

theorem Dev.rereadExpired_idle (idle : d.report.reread = none) : d.rereadExpired = d := if_pos idle

theorem Dev.rereadExpired_empty (counts : d.report.reread = some n) (empty : d.report.queue = []) :
    d.rereadExpired = { d with report := { d.report with reread := none } } :=
  (if_neg (by rw [counts]; exact Option.some_ne_none n)).trans (if_pos empty)

theorem Dev.rereadExpired_queued (counts : d.report.reread = some n) (queued : d.report.queue ≠ []) :
    d.rereadExpired = Dev.reRead { d with report := { d.report with reread := none } } :=
  (if_neg (by rw [counts]; exact Option.some_ne_none n)).trans (if_neg queued)

theorem Dev.reRead_descriptor (between : d.report.act = none) (waits : d.report.reporting = .waiting (.descriptor x)) :
    d.reRead = Dev.placeBurst { op := .report, addr := x, kind := .read 4 }
      { d with report := { d.report with act := some (.opening x), reread := none } } := by
  unfold Dev.reRead
  rw [between, waits]
  dsimp only
  unfold Dev.openDescriptor
  rw [← waits]

theorem Dev.reRead_nextField (between : d.report.act = none) (waits : d.report.reporting = .waiting (.nextField x)) :
    d.reRead = Dev.placeBurst { op := .report, addr := x + 8, kind := .read 1 }
      { d with report := { d.report with act := some (.reading x), reread := none } } := by
  unfold Dev.reRead
  rw [between, waits]
  dsimp only
  unfold Dev.readNext
  rw [← waits]

end Sys2Proof.Machine

namespace Sys2Proof

open Sys2Proof.Machine

/-- Settles O51: each expiry is its own branch, and a timer that is not due changes nothing. -/
theorem lineTimersExpire : Obligations.LineTimersExpire := by
  intro s leaves stopped
  have stalls : ∀ d', s.dev.stallExpired = d' → exec .stallTimerExpiry s = .next (leaves d') := by
    rintro _ rfl
    rfl
  have stops : ∀ d', s.dev.stopExpired = d' → exec .stopTimerExpiry s = .next (leaves d') := by
    rintro _ rfl
    rfl
  have silences : ∀ d', s.dev.silenceExpired = d' → exec .scaleSilenceExpiry s = .next (leaves d') := by
    rintro _ rfl
    rfl
  refine ⟨fun ready counts => ⟨fun running => ⟨fun plain => ?_, fun deferred => ?_⟩, fun still => ?_⟩, fun idle => ?_,
    fun n counts ready still => ?_, fun idle => ?_, fun n counts => ?_, fun idle => ?_⟩
  · exact stalls _ ((Dev.stallExpired_running ready counts running).trans (Dev.lineStops_plain plain))
  · exact stalls _ ((Dev.stallExpired_running ready counts running).trans (Dev.lineStops_deferred ready deferred))
  · exact stalls _ (Dev.stallExpired_stopped ready counts still)
  · exact stalls _ (Dev.stallExpired_idle idle)
  · exact stops _ (Dev.stopExpired_expires counts ready still)
  · exact stops _ (Dev.stopExpired_idle idle)
  · exact silences _ (Dev.silenceExpired_expires counts)
  · exact silences _ (Dev.silenceExpired_idle idle)

/-- Settles O52: each expiry is its own branch; a waiting result burst is found among those placed. -/
theorem reportTimersExpire : Obligations.ReportTimersExpire := by
  intro s leaves closed withdrawn
  have ages : ∀ d', s.dev.ageExpired = d' → exec .ageTimerExpiry s = .next (leaves d') := by
    rintro _ rfl
    rfl
  have rereads : ∀ d', s.dev.rereadExpired = d' → exec .rereadTimerExpiry s = .next (leaves d') := by
    rintro _ rfl
    rfl
  have closes : ∀ (b : Buffer) (d : Dev), d.closeBuffer .age .follow b = closed b d := by
    intro b d
    unfold Dev.closeBuffer
    rw [closeWord_age]
  refine ⟨fun b n running counts => ⟨fun between => ?_, fun writing => ⟨fun waiting => ?_, fun issued => ?_⟩⟩,
    fun idle => ?_, fun n counts => ⟨fun empty => ?_, fun queued between => ⟨fun x waits => ?_, fun x waits => ?_⟩⟩,
    fun idle => ?_⟩
  · exact ages _ ((Dev.ageExpired_closes running counts between).trans (closes _ _))
  · obtain ⟨x, placed, report⟩ := waiting
    have any : (s.dev.path.bursts.any fun x => x.op == .report) = true :=
      List.any_eq_true.2 ⟨x, placed, beq_iff_eq.2 report⟩
    exact ages _ ((Dev.ageExpired_writing running counts writing).trans ((if_pos any).trans (closes _ _)))
  · refine ages _ ((Dev.ageExpired_writing running counts writing).trans (if_neg fun any => ?_))
    obtain ⟨x, placed, report⟩ := List.any_eq_true.1 any
    exact issued x placed (beq_iff_eq.1 report)
  · exact ages _ (Dev.ageExpired_idle idle)
  · exact rereads _ (Dev.rereadExpired_empty counts empty)
  · exact rereads _ ((Dev.rereadExpired_queued counts queued).trans (Dev.reRead_descriptor between waits))
  · exact rereads _ ((Dev.rereadExpired_queued counts queued).trans (Dev.reRead_nextField between waits))
  · exact rereads _ (Dev.rereadExpired_idle idle)

end Sys2Proof
end

section
/-! The result chain (R172 to R174): the words of a result (12.8), and what each answer of the Report unit's bursts
does. -/

namespace Sys2Proof.Machine

variable {s : State} {d : Dev} {b : Buffer} {ok : Bool} {n x a : Nat} {ws : List Word}

/-! ### The words of a result (12.8) -/

/-- The identity code of a result, as 12.8 lists it. -/
theorem ResultIdent.code_lt (i : ResultIdent) : i.code < 16 := by
  cases i with
  | pocket i => cases i <;> decide
  | lost => decide
  | discarded => decide

theorem verdictCode_put (v : Option Bool) :
    put (verdictCode v) 27 2 = match v with | none => 0 | some false => 2 ^ 27 | some true => 2 ^ 28 := by
  rcases v with _ | _ | _ <;> rfl

/-- The record part of word 1. -/
theorem recordField_put (f : ResultRecord) :
    put f.tag.toNat 0 12 + put f.valve.val 12 6 + put f.recipe.val 18 2 + putBit true 24 =
      f.tag.toNat + 4096 * f.valve.val + 262144 * f.recipe.val + 16777216 := by
  rw [put_eq_mul f.tag.isLt, put_eq_mul f.valve.isLt, put_eq_mul f.recipe.isLt]
  show 2 ^ 0 * f.tag.toNat + 2 ^ 12 * f.valve.val + 2 ^ 18 * f.recipe.val + 2 ^ 24 = _
  omega

/-- The gate part of word 1. -/
theorem gateField_put (reject : Bool) (n : Nat) :
    put 2 25 2 + putBit reject 27 + put n 28 4 = 2 ^ 26 + (if reject then 2 ^ 27 else 0) + 2 ^ 28 * (n % 16) := rfl

/-- The lot, reasons and presence bits of word 3. -/
theorem lotField_put (lot : Option (BitVec 16)) (reasons : BitVec 11) (verdict pocket weighing : Nat) :
    (lot.getD 0).toNat + put reasons.toNat 16 11 + verdict + putBit lot.isSome 29 + pocket + weighing =
      (match lot with | none => 0 | some l => l.toNat + 2 ^ 29) + 65536 * reasons.toNat + verdict + pocket +
        weighing := by
  rw [put_eq_mul reasons.isLt]
  cases lot with
  | none => rfl
  | some l =>
    show l.toNat + 2 ^ 16 * reasons.toNat + verdict + 2 ^ 29 + pocket + weighing =
      l.toNat + 2 ^ 29 + 65536 * reasons.toNat + verdict + pocket + weighing
    omega

/-- The dose part of word 6. -/
theorem doseField_put (dose : Nat) : put dose 0 20 = dose % 1048576 := Nat.one_mul _

theorem ResultIdent.code_put (i : ResultIdent) : put i.code 20 4 = 1048576 * i.code := put_eq_mul i.code_lt

/-! ### The answers reach the Report unit (R172, R173) -/

theorem State.exec_resultWriteDone (answering : s.Answering .report x (.write ws))
    (writing : s.dev.report.act = some .writing) :
    exec (.resultWriteDone ok) s = .next { s.burstEnds x (.write ws) ok with
      dev := Dev.settle ((s.burstEnds x (.write ws) ok).dev.resultAnswered ok) } := by
  show execResultWriteDone ok s = _
  unfold execResultWriteDone
  rw [writing]
  exact congrArg Host.Outcome.next (State.answered_port _ answering)

theorem State.exec_resultWriteDone_lapsing (answering : s.Answering .report x (.write ws))
    (lapsing : s.dev.report.act = some .lapsing) :
    exec (.resultWriteDone ok) s = .next { s.burstEnds x (.write ws) ok with
      dev := Dev.settle ((s.burstEnds x (.write ws) ok).dev.lapsedAnswered ok) } := by
  show execResultWriteDone ok s = _
  unfold execResultWriteDone
  rw [lapsing]
  exact congrArg Host.Outcome.next (State.answered_port _ answering)

theorem State.exec_closeWriteDone {after : AfterClose} (answering : s.Answering .report x (.write ws))
    (closing : s.dev.report.act = some (.closing a after)) :
    exec (.closeWriteDone ok) s = .next { s.burstEnds x (.write ws) ok with
      dev := Dev.settle ((s.burstEnds x (.write ws) ok).dev.closeAnswered a after ok) } := by
  show execCloseWriteDone ok s = _
  unfold execCloseWriteDone
  rw [closing]
  exact congrArg Host.Outcome.next (State.answered_port _ answering)

theorem State.exec_descriptorOpen (answering : s.Answering .report x (.read 4))
    (opening : s.dev.report.act = some (.opening a)) :
    exec (.descriptorOpen ok) s = .next { s.burstEnds x (.read 4) ok with
      dev := Dev.settle ((s.burstEnds x (.read 4) ok).dev.descriptorAnswered a ok (Memory.readWords s.mem x 4)) } := by
  show execDescriptorOpen ok s = _
  unfold execDescriptorOpen
  rw [opening]
  exact congrArg Host.Outcome.next (State.answered_port _ answering)

theorem State.exec_nextFieldRead (answering : s.Answering .report x (.read 1))
    (reading : s.dev.report.act = some (.reading a)) :
    exec (.nextFieldRead ok) s = .next { s.burstEnds x (.read 1) ok with
      dev := Dev.settle ((s.burstEnds x (.read 1) ok).dev.nextAnswered a ok (Memory.readWords s.mem x 1)) } := by
  show execNextFieldRead ok s = _
  unfold execNextFieldRead
  rw [reading]
  exact congrArg Host.Outcome.next (State.answered_port _ answering)

/-! ### What each answer does -/

theorem closeWord_full (count : Nat) : closeWord .full count = BitVec.ofNat 32 (1 * 16 + 65536 * (count % 4096)) := rfl

theorem Dev.writeResult_head {r : Result} {rest : List Result} (between : d.report.act = none)
    (running : d.report.reporting = .running b) (queue : d.report.queue = r :: rest) :
    d.writeResult = Dev.placeBurst { op := .report, addr := b.addr + 32 * b.count, kind := .write r.words }
      { d with report := { d.report with act := some .writing } } := by
  unfold Dev.writeResult
  rw [between, running, queue]

/-- The buffer with one result more. -/
def Buffer.filled (b : Buffer) : Buffer :=
  { b with count := b.count + 1, age := if b.count = 0 then some 0 else b.age }

/-- The Report unit when its head result is in memory. -/
def Dev.resultTaken (b : Buffer) (d : Dev) : Dev :=
  { d with report := { d.report with act := none, queue := d.report.queue.drop 1, reporting := .running b.filled } }

theorem Dev.resultAnswered_good (running : d.report.reporting = .running b) :
    d.resultAnswered true =
      if b.len ≤ 32 * (b.count + 1) then Dev.closeBuffer .full .follow b.filled (d.resultTaken b)
      else d.resultTaken b := by
  unfold Dev.resultAnswered
  rw [running]
  rfl

theorem Dev.resultAnswered_fault (running : d.report.reporting = .running b) :
    d.resultAnswered false = d.reportFault (b.addr + 32 * b.count) := by
  unfold Dev.resultAnswered
  rw [running]
  rfl

theorem Dev.lapsedAnswered_eq (running : d.report.reporting = .running b) :
    d.lapsedAnswered ok = if ok = false then d.reportFault (b.addr + 32 * b.count)
      else d.closeBuffer .age .follow b := by
  unfold Dev.lapsedAnswered
  dsimp only
  rw [running]
  cases ok <;> rfl

theorem Dev.closeAnswered_restart (y : Nat) :
    d.closeAnswered a (.restart y) ok =
      Dev.openDescriptor y (if ok then d else d.reportFault (a + 12)) := by
  cases ok <;> rfl

theorem Dev.closeAnswered_follow :
    d.closeAnswered a .follow ok = if ok then d.readNext a else d.reportFault (a + 12) := by
  cases ok <;> rfl

/-- Reporting left waiting; the re-read timer starts when a result is queued (R172, log 23). -/
theorem Dev.armReread_eq (d : Dev) :
    d.armReread = { d with report := { d.report with
      reread := if d.report.queue = [] then d.report.reread else some 0 } } := by
  unfold Dev.armReread
  by_cases empty : d.report.queue = []
  · rw [if_pos empty, if_pos empty]
  · rw [if_neg empty, if_neg empty]

theorem bit_zero_eq_false (w : Word) : bit w 0 = false ↔ w.toNat % 2 = 0 := by
  unfold bit bits
  rw [beq_eq_false_iff_ne, pow_zero, Nat.div_one, pow_one]
  omega

theorem Dev.descriptorOk_iff (d : Dev) (addr len : Nat) :
    d.descriptorOk addr len = true ↔
      addr % 4 = 0 ∧ len % 32 = 0 ∧ 32 ≤ len ∧ len ≤ 65536 ∧ addr + len ≤ d.size := by
  unfold Dev.descriptorOk
  simp only [Bool.and_eq_true, decide_eq_true_iff, and_assoc]

/-- The answer of a descriptor read: the owner, then the descriptor's test. -/
theorem Dev.descriptorAnswered_good (ws : List Word) :
    d.descriptorAnswered a true ws =
      if (wordAt ws 3).toNat % 2 = 0 then
        { d with report := { d.report with
          reporting := .waiting (.descriptor a), act := none
          reread := if d.report.queue = [] then d.report.reread else some 0 } }
      else if d.descriptorOk (wordAt ws 0).toNat (wordAt ws 1).toNat = true then
        { d with report := { d.report with
          act := none
          reporting := .running { desc := a, addr := (wordAt ws 0).toNat, len := (wordAt ws 1).toNat,
                                  next := (wordAt ws 2).toNat, count := 0, age := none } } }
      else d.reportFault a := by
  unfold Dev.descriptorAnswered
  dsimp only
  rw [Dev.armReread_eq]
  exact (if_neg Bool.true_eq_false_eq_False).trans (if_congr (bit_zero_eq_false _) rfl rfl)

theorem Dev.nextAnswered_eq (ws : List Word) :
    d.nextAnswered a ok ws =
      if ok = false then d.reportFault (a + 8)
      else if (wordAt ws 0).toNat = 0 then
        { d with report := { d.report with
          reporting := .waiting (.nextField a), act := none
          reread := if d.report.queue = [] then d.report.reread else some 0 } }
      else if (wordAt ws 0).toNat % 4 = 0 ∧ (wordAt ws 0).toNat < d.size then d.openDescriptor (wordAt ws 0).toNat
      else d.reportFault (wordAt ws 0).toNat := by
  unfold Dev.nextAnswered
  dsimp only
  rw [Dev.armReread_eq]
  refine if_congr Iff.rfl rfl (if_congr Iff.rfl rfl (if_congr ?_ rfl rfl))
  unfold Dev.addrOk
  rw [Bool.and_eq_true, decide_eq_true_iff, decide_eq_true_iff]
  rfl

end Sys2Proof.Machine

namespace Sys2Proof

open Sys2Proof.Machine

/-- Settles O53: each answer goes to the branch of what the Report unit has under way. -/
theorem resultChainIsFollowed : Obligations.ResultChainIsFollowed := by
  refine ⟨?_, ?_⟩
  · rintro ⟨seq, held, named, pocket, lotOf, reasons, judged, gated, weighed⟩ b w ident record gate lot verdict dose
    refine congrArg₂ List.cons rfl (congrArg₂ List.cons (congrArg (BitVec.ofNat 32) ?_)
      (congrArg₂ List.cons ?_ (congrArg₂ List.cons (congrArg (BitVec.ofNat 32) ?_)
      (congrArg₂ List.cons ?_ (congrArg₂ List.cons ?_ (congrArg₂ List.cons (congrArg (BitVec.ofNat 32) ?_)
      (congrArg₂ List.cons ?_ rfl)))))))
    · refine congrArg₂ (· + ·) (congrArg₂ (· + ·) ?_ (named.code_put.trans (congrArg (1048576 * ·) ?_))) ?_
      · cases held with
        | none => rfl
        | some f => exact recordField_put f
      · rcases named with i | _ | _
        · cases i <;> rfl
        · rfl
        · rfl
      · rcases gated with _ | _ | ⟨reject, n⟩
        · rfl
        · rfl
        · exact gateField_put reject n
    · cases pocket <;> rfl
    · refine (lotField_put lotOf reasons _ _ _).trans ?_
      refine congrArg₂ (· + ·) (congrArg₂ (· + ·) (congrArg₂ (· + ·) rfl ?_) rfl) rfl
      exact verdictCode_put judged
    · cases weighed <;> rfl
    · cases weighed <;> rfl
    · refine congrArg₂ (· + ·) ?_ ?_
      · cases held with
        | none => rfl
        | some f => exact doseField_put f.dose
      · cases weighed with
        | none => rfl
        | some x => exact put_eq_mul x.flags.isLt
    · cases held <;> rfl
  · intro s ok leaves act faulted opened waits
    refine ⟨fun b r rest between running queue => ?_, ?_, ?_, ?_, ?_, ?_⟩
    · exact congrArg (fun d => Host.Outcome.next { s with dev := Dev.settle d })
        (Dev.writeResult_head between running queue)
    · intro b x ws answering writing running e b' taken
      have executes : ∀ {d}, e.dev.resultAnswered ok = d → exec (.resultWriteDone ok) s = .next (leaves e d) := by
        rintro _ rfl
        exact State.exec_resultWriteDone answering writing
      refine ⟨fun good room => executes ?_, fun good full => executes ?_, fun fault => executes ?_⟩
      · subst good
        exact (Dev.resultAnswered_good (d := e.dev) running).trans (if_neg (by omega))
      · subst good
        exact (Dev.resultAnswered_good (d := e.dev) running).trans (if_pos full)
      · subst fault
        exact Dev.resultAnswered_fault running
    · intro b x ws answering lapsing running e
      refine (State.exec_resultWriteDone_lapsing answering lapsing).trans (congrArg (fun d => Host.Outcome.next (leaves e d)) ?_)
      exact Dev.lapsedAnswered_eq running
    · intro x answering opening e w sound
      have executes : ∀ {d}, e.dev.descriptorAnswered x ok (Memory.readWords s.mem x 4) = d →
          exec (.descriptorOpen ok) s = .next (leaves e d) := by
        rintro _ rfl
        exact State.exec_descriptorOpen answering opening
      have word : ∀ i < 4, (wordAt (Memory.readWords s.mem x 4) i).toNat = w i := fun i small =>
        congrArg BitVec.toNat (wordAt_readWords s.mem 4 x i small)
      have good : ok = true → e.dev.descriptorAnswered x ok (Memory.readWords s.mem x 4) =
          if w 3 % 2 = 0 then waits (.descriptor x) e.dev
          else if e.dev.descriptorOk (w 0) (w 1) = true then
            { e.dev with report := { e.dev.report with
              act := none
              reporting := .running { desc := x, addr := w 0, len := w 1, next := w 2, count := 0, age := none } } }
          else faulted x e.dev := by
        rintro rfl
        rw [Dev.descriptorAnswered_good, word 0 (by decide), word 1 (by decide), word 2 (by decide),
          word 3 (by decide)] <;> rfl
      refine ⟨fun fault => executes ?_, fun fine host => executes ((good fine).trans (if_pos host)),
        fun fine part isSound => executes ((good fine).trans ?_),
        fun fine part unsound => executes ((good fine).trans ?_)⟩
      · subst fault
        rfl
      · exact (if_neg (by omega)).trans (if_pos ((Dev.descriptorOk_iff _ _ _).2 isSound))
      · exact (if_neg (by omega)).trans (if_neg fun isSound => unsound ((Dev.descriptorOk_iff _ _ _).1 isSound))
    · intro x desc after ws answering closing e d
      refine ⟨fun y restart => ?_, fun follow => ?_⟩
      · subst restart
        refine (State.exec_closeWriteDone answering closing).trans (congrArg (fun d => Host.Outcome.next (leaves e d)) ?_)
        exact Dev.closeAnswered_restart y
      · subst follow
        refine (State.exec_closeWriteDone answering closing).trans (congrArg (fun d => Host.Outcome.next (leaves e d)) ?_)
        refine Dev.closeAnswered_follow.trans ?_
        cases ok <;> rfl
    · intro x desc answering reading e n
      refine (State.exec_nextFieldRead answering reading).trans (congrArg (fun d => Host.Outcome.next (leaves e d)) ?_)
      exact Dev.nextAnswered_eq _

end Sys2Proof
end

section
/-! The end of a load (R166): the setup's words (12.6), its test (R167), and what a good load does. -/

namespace Sys2Proof.Machine

variable {s : State} {d : Dev} {ok fromReady : Bool} {x : Nat} {ws : List Word} {u : Setup}

/-! ### The setup block (12.6, R167) -/

theorem setupOfWords_masks (ws : List Word) :
    (setupOfWords ws).enable = (wordAt ws 27).setWidth 21 ∧ (setupOfWords ws).lotCheck = (wordAt ws 28).getLsbD 0 ∧
      (setupOfWords ws).bareMask = (wordAt ws 29).setWidth 11 :=
  ⟨BitVec.ofNat_toNat 21 _, bit_eq_getLsbD _ 0, BitVec.ofNat_toNat 11 _⟩

theorem inRange_iff (a b x : Nat) : inRange a b x = true ↔ a ≤ x ∧ x ≤ b := by
  unfold inRange
  rw [Bool.and_eq_true, decide_eq_true_iff, decide_eq_true_iff]

theorem setupCheck_eq_none (size : Nat) (u : Setup) :
    setupCheck size u = none ↔ ∀ t ∈ setupTests size u, t.range = true ∧ t.order = true :=
  firstFailure_eq_none _

/-! ### The answer of a setup burst (R166) -/

theorem Dev.setupAnswered_fault (loading : d.setup.part = .loading fromReady) :
    d.setupAnswered false ws =
      d.loadFailed fromReady { code := .readFault, field := setupField d.setup.loadWords.length } := by
  unfold Dev.setupAnswered
  rw [loading]
  rfl

theorem Dev.setupAnswered_good (loading : d.setup.part = .loading fromReady) :
    d.setupAnswered true ws =
      if (d.setup.loadWords ++ ws).length < 64 then
        Dev.placeBurst (d.setupBurst (d.setup.loadWords ++ ws).length)
          { d with setup := { d.setup with loadWords := d.setup.loadWords ++ ws } }
      else match setupCheck d.size (setupOfWords (d.setup.loadWords ++ ws)) with
        | some e => d.loadFailed fromReady e
        | none => d.loadSucceeded (setupOfWords (d.setup.loadWords ++ ws)) := by
  unfold Dev.setupAnswered
  rw [loading] <;> rfl

theorem State.exec_loadCompletion (answering : s.Answering .setup x (.read 8)) :
    exec (.loadCompletion ok) s = .next { s.burstEnds x (.read 8) ok with
      dev := Dev.settle ((s.burstEnds x (.read 8) ok).dev.setupAnswered ok (Memory.readWords s.mem x 8)) } :=
  congrArg Host.Outcome.next (State.answered_port _ answering)

/-! ### A good load (R166) -/

/-- Whether the setup in effect has the geometry of `u`. -/
def Dev.keepsGeometry (d : Dev) (u : Setup) : Bool :=
  match d.setup.setup with
  | none => false
  | some v => decide (v.pitch = u.pitch ∧ v.dRead = u.dRead ∧ v.dGate = u.dGate ∧ v.gOpen = u.gOpen ∧
      v.gClose = u.gClose ∧ v.wOpen = u.wOpen ∧ v.wClose = u.wClose)

theorem sameGeometry_eq (v u : Setup) : sameGeometry v u =
    decide (v.pitch = u.pitch ∧ v.dRead = u.dRead ∧ v.dGate = u.dGate ∧ v.gOpen = u.gOpen ∧
      v.gClose = u.gClose ∧ v.wOpen = u.wOpen ∧ v.wClose = u.wClose) := by
  unfold sameGeometry
  rw [Bool.eq_iff_iff]
  simp only [Bool.and_eq_true, beq_iff_eq, decide_eq_true_iff, and_assoc]

theorem Dev.geometryChanges_eq (d : Dev) (u : Setup) : d.geometryChanges u = !d.keepsGeometry u := by
  unfold Dev.geometryChanges Dev.keepsGeometry
  cases d.setup.setup with
  | none => rfl
  | some v => exact congrArg not (sameGeometry_eq v u)

theorem Dev.startReporting_eq (u : Setup) (d : Dev) :
    d.startReporting u = if d.report.reporting = .waiting .nothing then d.openDescriptor u.firstDesc else d := by
  unfold Dev.startReporting
  split
  case h_1 waits => rw [if_pos waits]
  case h_2 other => rw [if_neg other]

theorem Dev.loadSucceeded_eq (u : Setup) (d : Dev) :
    d.loadSucceeded u = Dev.startReporting u
      (if d.setup.retained = true ∧ d.keepsGeometry u = true then
        Dev.markSuspects (Dev.raise .loadDone (Dev.putSetup u
          (Dev.loadUnits u (if d.keepsGeometry u then d else d.dropGeometry))))
      else Dev.raise .loadDone (Dev.putSetup u
          (Dev.loadUnits u (if d.keepsGeometry u then d else d.dropGeometry)))) := by
  unfold Dev.loadSucceeded
  dsimp only
  rw [d.geometryChanges_eq]
  cases d.keepsGeometry u <;> cases d.setup.retained <;> rfl

end Sys2Proof.Machine

namespace Sys2Proof

open Sys2Proof.Machine

/-- Settles O54: the answer's branches, and the units' part of a good load written out. -/
theorem loadCompletionEndsTheLoad : Obligations.LoadCompletionEndsTheLoad := by
  refine ⟨fun ws => ?_, ?_⟩
  · intro n
    obtain ⟨enable, lotCheck, bareMask⟩ := setupOfWords_masks ws
    refine Eq.trans (b := { setupOfWords ws with
      enable := (wordAt ws 27).setWidth 21
      lotCheck := (wordAt ws 28).getLsbD 0
      bareMask := (wordAt ws 29).setWidth 11 }) ?_ rfl
    rw [← enable, ← lotCheck, ← bareMask]
  · intro s ok fromReady x answering loading e leaves got first failed
    have executes : ∀ {d}, e.dev.setupAnswered ok (Memory.readWords s.mem x 8) = d →
        exec (.loadCompletion ok) s = .next (leaves d) := by
      rintro _ rfl
      exact State.exec_loadCompletion answering
    have isLoading : e.dev.setup.part = .loading fromReady := loading
    refine ⟨fun fault => executes ?_, fun good short => executes ?_, fun good whole err bad => executes ?_,
      fun good whole valid => ?_⟩
    · subst fault
      exact Dev.setupAnswered_fault isLoading
    · subst good
      exact (Dev.setupAnswered_good isLoading).trans (if_pos short)
    · subst good
      refine (Dev.setupAnswered_good isLoading).trans ((if_neg (Nat.not_lt.2 whole)).trans ?_)
      have check : setupCheck e.dev.size (setupOfWords (e.dev.setup.loadWords ++ Memory.readWords s.mem x 8)) = some err := bad
      rw [check]
      rfl
    · intro u kept cleared d loaded marked
      subst good
      refine executes ((Dev.setupAnswered_good isLoading).trans ((if_neg (Nat.not_lt.2 whole)).trans ?_))
      have check : setupCheck e.dev.size (setupOfWords (e.dev.setup.loadWords ++ Memory.readWords s.mem x 8)) = none := valid
      rw [check]
      have succeeded : e.dev.loadSucceeded u = Dev.startReporting u marked := Dev.loadSucceeded_eq u e.dev
      exact succeeded.trans (Dev.startReporting_eq u marked)

/-- Settles O55: every test of the list of R167, its ranges and relations written out. -/
theorem setupIsValidWithinItsRanges : Obligations.SetupIsValidWithinItsRanges := by
  intro size u
  rw [setupCheck_eq_none]
  unfold setupTests
  simp only [List.forall_mem_append, List.forall_mem_cons, List.not_mem_nil, false_implies, implies_true,
    inRange_iff, Bool.and_eq_true, decide_eq_true_iff, Nat.zero_le, true_and, and_true]
  constructor
  · intro h
    omega
  · intro h
    omega

end Sys2Proof
end

section
/-! Order fetches and their decision (R132, R133, R139): the burst's answer, acceptance in a free place, and a replacing
order's cancellations. -/

namespace Sys2Proof.Machine

variable {s : State} {a d : Dev} {ok : Bool} {f : Fetch} {x n : Nat} {ws got : List Word}

/-! ### The answer of a fetch burst (R132, R139) -/

theorem State.exec_orderAFetchDone (answering : s.Answering .fetchA x (.read n)) :
    exec (.orderAFetchDone ok) s = .next { s.burstEnds x (.read n) ok with
      dev := Dev.settle ((s.burstEnds x (.read n) ok).dev.fetchAAnswered x ok (Memory.readWords s.mem x n)) } :=
  congrArg Host.Outcome.next (State.answered_port _ answering)

theorem State.exec_orderBFetchDone (answering : s.Answering .fetchB x (.read n)) :
    exec (.orderBFetchDone ok) s = .next { s.burstEnds x (.read n) ok with
      dev := Dev.settle ((s.burstEnds x (.read n) ok).dev.fetchBAnswered x ok (Memory.readWords s.mem x n)) } :=
  congrArg Host.Outcome.next (State.answered_port _ answering)

/-- A refusal's word is the error with its code alone. -/
theorem Dev.refuseOrder_eq (code : OrderCode) (x : Nat) (d : Dev) :
    d.refuseOrder code x =
      Dev.raiseAt .orderError x (d.pushOrderWrite (x + 4) (BitVec.ofNat 32 (2 + 256 * code.code))) := by
  unfold Dev.refuseOrder
  exact congrArg (fun w => Dev.raiseAt .orderError x (d.pushOrderWrite (x + 4) w)) (orderStatusWord_error code 0)

/-- The fetch of a whole order that goes on. -/
theorem fetchBurst_more {count : Nat} (op : InternalOp) (f : Fetch) (header : headerCount (wordAt f.got 0) = count)
    (some : 1 ≤ count) :
    fetchBurst op f = { op := op, addr := f.addr + 4 * f.got.length,
                        kind := .read (min 8 (2 + 4 * count - f.got.length)) } := by
  subst header
  refine if_neg fun empty => ?_
  rw [empty] at some
  exact absurd some (by decide)

/-- The changeover order's answer with the words gathered so far. -/
theorem Dev.fetchAAnswered_eq (fetching : d.order.fetchA = some f) :
    d.fetchAAnswered x ok ws =
      if ok = false then Dev.raiseAt .orderError x { d with order := { d.order with fetchA := none } }
      else if ¬(1 ≤ headerCount (wordAt (f.got ++ ws) 0) ∧ headerCount (wordAt (f.got ++ ws) 0) ≤ 8) then
        Dev.refuseOrder .badHeader f.addr { d with order := { d.order with fetchA := none } }
      else if (f.got ++ ws).length < 2 + 4 * headerCount (wordAt (f.got ++ ws) 0) then
        Dev.placeBurst (fetchBurst .fetchA { f with got := f.got ++ ws })
          { d with order := { d.order with fetchA := some { f with got := f.got ++ ws } } }
      else if d.midSwitch then { d with order := { d.order with fetchA := some { f with got := f.got ++ ws } } }
      else Dev.decideOrder f.addr (f.got ++ ws) { d with order := { d.order with fetchA := none } } := by
  unfold Dev.fetchAAnswered
  rw [fetching]
  rfl

theorem Dev.fetchBAnswered_eq (fetching : d.order.fetchB = some f) :
    d.fetchBAnswered x ok ws =
      if ok = false then Dev.raiseAt .orderError x { d with order := { d.order with fetchB := none } }
      else if ¬(1 ≤ headerCount (wordAt (f.got ++ ws) 0) ∧ headerCount (wordAt (f.got ++ ws) 0) ≤ 8) then
        Dev.refuseOrder .badHeader f.addr { d with order := { d.order with fetchB := none } }
      else if (f.got ++ ws).length < 2 + 4 * headerCount (wordAt (f.got ++ ws) 0) then
        Dev.placeBurst (fetchBurst .fetchB { f with got := f.got ++ ws })
          { d with order := { d.order with fetchB := some { f with got := f.got ++ ws } } }
      else Dev.acceptService f.addr (f.got ++ ws) { d with order := { d.order with fetchB := none } } := by
  unfold Dev.fetchBAnswered
  rw [fetching]
  rfl

/-! ### The orders that the words give (12.5) -/

/-- The changeover order that a fetch ends with. -/
def LotOrder.fetched (x : Nat) (got : List Word) : LotOrder :=
  { addr := x, notify := (wordAt got 0).getLsbD 8, entries := lotEntries got, closed := 0, error := none }

theorem lotEntries_eq (count : Nat) (header : headerCount (wordAt got 0) = count) :
    lotEntries got = (List.range count).map fun i =>
      { context := wordAt got (2 + 4 * i), canCount := (wordAt got (3 + 4 * i)).toNat, status := .waiting, made := 0 } := by
  unfold lotEntries
  rw [header]

theorem serviceEntries_length : (serviceEntries got).length = headerCount (wordAt got 0) := by
  unfold serviceEntries
  rw [List.length_map, List.length_range]

/-- The decision by the order's entries and the orders held (R132, R133). -/
theorem Dev.decideOrder_eq (d : Dev) (x : Nat) (got : List Word) :
    d.decideOrder x got = if openBeforeLast (lotEntries got) then d.refuseOrder .badHeader x
      else match d.order.running, d.order.draining with
        | none, _ => d.acceptOrder (LotOrder.fetched x got) false
        | some _, some _ => d.refuseOrder .busy x
        | some p, none =>
          if d.laterOpen p then
            if (wordAt got 0).getLsbD 9 then d.acceptOrder (LotOrder.fetched x got) true else d.refuseOrder .busy x
          else d.acceptOrder (LotOrder.fetched x got) false := by
  unfold Dev.decideOrder LotOrder.fetched headerNotify headerReplace
  rw [bit_eq_getLsbD, bit_eq_getLsbD] <;> rfl

/-- The words written at acceptance: each entry WAITING with 0 fills. -/
theorem Dev.writeNewOrder_fetched (x : Nat) (count : Nat) (header : headerCount (wordAt got 0) = count) (d : Dev) :
    d.writeNewOrder (LotOrder.fetched x got) =
      (List.range count).foldl
        (fun d i => (d.pushOrderWrite (x + 16 + 16 * i) (BitVec.ofNat 32 1)).pushOrderWrite (x + 20 + 16 * i)
          (BitVec.ofNat 32 0))
        (d.pushOrderWrite (x + 4) (BitVec.ofNat 32 0)) := by
  have entries : (LotOrder.fetched x got).entries = _ := lotEntries_eq count header
  unfold Dev.writeNewOrder
  rw [entries, List.length_map, List.length_range]
  refine List.foldl_ext _ _ _ fun d i inRange => ?_
  rw [List.getElem?_map, List.getElem?_range (List.mem_range.1 inRange)]
  rfl

theorem Dev.acceptService_eq (count : Nat) (header : headerCount (wordAt got 0) = count) (d : Dev) :
    d.acceptService x got =
      (List.range count).foldl (fun d i => d.pushOrderWrite (x + 20 + 16 * i) (BitVec.ofNat 32 1))
        (Dev.pushOrderWrite (x + 4) (BitVec.ofNat 32 0) { d with order := { d.order with
          service := some { addr := x, notify := (wordAt got 0).getLsbD 8
                            entries := (List.range count).map fun i =>
                              { op := wordAt got (2 + 4 * i), op1 := wordAt got (3 + 4 * i)
                                op2 := wordAt got (4 + 4 * i) }
                            idx := 0, closed := 0, nextValve := 0 } } }) := by
  have entries : serviceEntries got = (List.range count).map fun i =>
      { op := wordAt got (2 + 4 * i), op1 := wordAt got (3 + 4 * i), op2 := wordAt got (4 + 4 * i) } := by
    unfold serviceEntries
    rw [header]
  unfold Dev.acceptService Dev.writeServiceEntries Dev.writeServiceEntry headerNotify
  dsimp only
  rw [bit_eq_getLsbD, entries, List.length_map, List.length_range, List.filter_eq_self.2 fun i _ => decide_eq_true i.zero_le]
  rfl

/-! ### Acceptance (R133) -/

/-- The order in the free place `p`, its words waiting, running (R133). -/
def Dev.placeOrder (p : Fin 2) (o : LotOrder) (d : Dev) : Dev :=
  let t := Dev.writeNewOrder o (d.setPlace p (some o))
  { t with order := { t.order with running := some p } }

theorem Dev.freePlace_first (free : d.place 0 = none) : d.freePlace = some 0 := if_pos free

/-- With one order held the free place is the other one. -/
theorem Dev.freePlace_other {p q : Fin 2} {o : LotOrder} (held : d.place p = some o) (free : d.place q = none) :
    d.freePlace = some q := by
  have distinct : p ≠ q := by
    rintro rfl
    exact Option.some_ne_none o (held.symm.trans free)
  unfold Dev.freePlace
  match q, p with
  | 0, _ => exact if_pos free
  | 1, 0 => exact (if_neg (by rw [held]; exact Option.some_ne_none o)).trans (if_pos free)
  | 1, 1 => exact absurd rfl distinct

theorem Dev.acceptOrder_first (o : LotOrder) (replace : Bool) (none : d.order.running = none)
    (free : d.place 0 = Option.none) : d.acceptOrder o replace = d.placeOrder 0 o := by
  unfold Dev.acceptOrder
  rw [Dev.freePlace_first free, none]
  rfl

/-- Acceptance over a running order: its cancellations, the new order, and its completion if nothing of it is left. -/
theorem Dev.acceptOrder_second {p q : Fin 2} {held : LotOrder} (o : LotOrder) (replace : Bool)
    (running : d.order.running = some p) (there : d.place p = some held) (free : d.place q = none) :
    d.acceptOrder o replace = Dev.completeOrder p
      { Dev.placeOrder q o (if replace then d.cancelOrder p else d) with
        order := { (Dev.placeOrder q o (if replace then d.cancelOrder p else d)).order with draining := some p } } := by
  unfold Dev.acceptOrder
  rw [Dev.freePlace_other there free, running]
  rfl

/-! ### Later entries (R133) -/

theorem Dev.laterOpen_iff {p : Fin 2} {o : LotOrder} (held : d.place p = some o) :
    d.laterOpen p = true ↔ ∃ i y, d.laterFrom p ≤ i ∧ o.entries[i]? = some y ∧
      (y.status = .waiting ∨ y.status = .loading) := by
  have unstarted : ∀ y : LotEntry, y.status.unstarted = true ↔ y.status = .waiting ∨ y.status = .loading := by
    intro y
    cases y.status <;> simp [EntryStatus.unstarted]
  unfold Dev.laterOpen Dev.entryRefs
  rw [held, List.any_eq_true]
  dsimp only
  constructor
  · rintro ⟨_, among, isOpen⟩
    obtain ⟨i, later, rfl⟩ := List.mem_map.1 among
    obtain ⟨inside, from'⟩ := List.mem_filter.1 later
    have entry := List.getElem?_eq_getElem (List.mem_range.1 inside)
    rw [Dev.unstartedAt_eq held entry] at isOpen
    exact ⟨i, _, of_decide_eq_true from', entry, (unstarted _).1 isOpen⟩
  · rintro ⟨i, y, from', entry, isOpen⟩
    refine ⟨(p, i), List.mem_map_of_mem (List.mem_filter.2 ⟨List.mem_range.2 ?_, decide_eq_true from'⟩), ?_⟩
    · exact (List.getElem?_eq_some_iff.1 entry).1
    · rw [Dev.unstartedAt_eq held entry]
      exact (unstarted y).2 isOpen

/-- An order's entries once those from `n` on that are not started are cancelled. -/
def LotOrder.cancelled (o : LotOrder) (n : Nat) : LotOrder :=
  { o with entries := o.entries.zipIdx.map fun y =>
      if n ≤ y.2 ∧ (y.1.status = .waiting ∨ y.1.status = .loading) then { y.1 with status := .cancelled } else y.1 }

theorem LotOrder.cancelled_eq (o : LotOrder) (n : Nat) :
    { o with entries := o.entries.zipIdx.map fun y => if n ≤ y.2 then y.1.cancelled else y.1 } = o.cancelled n := by
  unfold LotOrder.cancelled
  refine congrArg (fun es => { o with entries := es }) (List.map_congr_left fun y _ => ?_)
  unfold LotEntry.cancelled
  have unstarted : y.1.status.unstarted = true ↔ y.1.status = .waiting ∨ y.1.status = .loading := by
    cases y.1.status <;> simp [EntryStatus.unstarted]
  by_cases later : n ≤ y.2
  · rw [if_pos later]
    exact if_congr (by rw [unstarted, and_iff_right later]) rfl rfl
  · rw [if_neg later, if_neg fun both => later both.1]

/-! ### What a replacement leaves (R133) -/

/-- Only the places, who runs, the words that wait with their bursts, and the causes differ. -/
def PlacesOnly (a d : Dev) : Prop :=
  ∃ rep pl r dr, Wrote { a with report := rep, order := { a.order with places := pl, running := r, draining := dr } } d

theorem PlacesOnly.of_wrote (wrote : Wrote a d) : PlacesOnly a d :=
  ⟨a.report, a.order.places, a.order.running, a.order.draining, wrote⟩

theorem PlacesOnly.trans {b : Dev} (first : PlacesOnly a b) (second : PlacesOnly b d) : PlacesOnly a d := by
  obtain ⟨rep, pl, r, dr, wrote⟩ := first
  obtain ⟨rep', pl', r', dr', wrote'⟩ := second
  refine ⟨rep', pl', r', dr', ?_, fun x placed => ?_⟩
  · refine wrote'.shape.trans ?_
    rw [wrote.shape]
  · rcases wrote'.bursts x placed with before | word
    · exact wrote.bursts x before
    · exact .inr word

theorem PlacesOnly.units (only : PlacesOnly a d) :
    d.order.slots = a.order.slots ∧ d.order.loader = a.order.loader ∧ d.order.fetchA = a.order.fetchA ∧
    d.order.cur = a.order.cur ∧ d.fill = a.fill ∧ d.track = a.track ∧ d.valve = a.valve ∧ d.setup = a.setup := by
  obtain ⟨rep, pl, r, dr, wrote⟩ := only
  rw [wrote.shape]
  exact ⟨rfl, rfl, rfl, rfl, rfl, rfl, rfl, rfl⟩

theorem PlacesOnly.bursts (only : PlacesOnly a d) : ∀ b ∈ d.path.bursts, b ∈ a.path.bursts ∨ b.op = .orderWord := by
  obtain ⟨rep, pl, r, dr, wrote⟩ := only
  exact wrote.bursts

theorem PlacesOnly.setPlace (p : Fin 2) (o : Option LotOrder) (d : Dev) : PlacesOnly d (d.setPlace p o) :=
  ⟨d.report, (d.setPlace p o).order.places, d.order.running, d.order.draining, .refl _⟩

theorem PlacesOnly.runs (r dr : Option (Fin 2)) (d : Dev) :
    PlacesOnly d { d with order := { d.order with running := r, draining := dr } } :=
  ⟨d.report, d.order.places, r, dr, .refl _⟩

theorem Dev.completeOrder_placesOnly (p : Fin 2) (d : Dev) : PlacesOnly d (d.completeOrder p) := by
  obtain ⟨rep, pl, r, dr, wrote, -, -⟩ := Dev.completeOrder_rest p d
  exact ⟨rep, pl, r, dr, wrote⟩

theorem Dev.cancelFrom_placesOnly {p : Fin 2} {o : LotOrder} (held : d.place p = some o) (n : Nat) :
    PlacesOnly d (d.cancelFrom p n) := by
  obtain ⟨pl, wrote⟩ := (Dev.cancelFrom_cancels held n).rest
  exact ⟨d.report, pl, d.order.running, d.order.draining, wrote⟩

/-- The order in place `q` runs and the one in place `p` drains. -/
def Dev.runOver (p q : Fin 2) (d : Dev) : Dev :=
  { d with order := { d.order with running := some q, draining := some p } }

theorem Dev.runOver_place (p q r : Fin 2) (d : Dev) : (d.runOver p q).place r = d.place r := rfl

theorem Dev.runOver_writes (p q : Fin 2) (d : Dev) : (d.runOver p q).order.writes = d.order.writes := rfl

/-- The state in which a replaced order's completion is tested. -/
def Dev.replaced (p q : Fin 2) (o : LotOrder) (d : Dev) : Dev :=
  Dev.runOver p q (Dev.writeNewOrder o ((d.cancelOrder p).setPlace q (some o)))

theorem Dev.replaced_eq (p q : Fin 2) (o : LotOrder) (d : Dev) :
    d.replaced p q o = { Dev.placeOrder q o (d.cancelOrder p) with
      order := { (Dev.placeOrder q o (d.cancelOrder p)).order with draining := some p } } := rfl

/-- The recipe slots cancelled for the order in place `p`. -/
def Dev.slotsCancelled (p : Fin 2) (d : Dev) : Dev :=
  Dev.cancelSlot 3 p (Dev.cancelSlot 2 p (Dev.cancelSlot 1 p (d.cancelSlot 0 p)))

theorem Dev.slotsCancelled_keeps (p : Fin 2) (d : Dev) :
    (∀ q, (d.slotsCancelled p).place q = d.place q) ∧ (d.slotsCancelled p).order.writes = d.order.writes ∧
    (d.slotsCancelled p).order.cur = d.order.cur ∧ (d.slotsCancelled p).order.fetchA = d.order.fetchA ∧
    (d.slotsCancelled p).track = d.track ∧ (d.slotsCancelled p).valve = d.valve ∧
    (d.slotsCancelled p).setup = d.setup := by
  obtain ⟨port, rest⟩ := (Dev.cancelSlots_cancels p d).rest
  change d.slotsCancelled p = _ at rest
  rw [rest]
  exact ⟨fun _ => rfl, rfl, rfl, rfl, rfl, rfl, rfl⟩

theorem Dev.cancelOrder_eq (p : Fin 2) (d : Dev) : d.cancelOrder p = (d.slotsCancelled p).cancelFrom p (d.laterFrom p) := rfl

variable {p q : Fin 2} {o new : LotOrder}

/-- A replacement changes places and order words after the slots' cancellation. -/
theorem Dev.replaced_placesOnly (held : d.place p = some o) (q : Fin 2) (new : LotOrder) :
    PlacesOnly (d.slotsCancelled p) (d.replaced p q new) := by
  have there : (d.slotsCancelled p).place p = some o := ((d.slotsCancelled_keeps p).1 p).trans held
  refine (Dev.cancelFrom_placesOnly there (d.laterFrom p)).trans ?_
  refine (PlacesOnly.setPlace q (some new) _).trans ?_
  exact (PlacesOnly.of_wrote (Dev.writeNewOrder_appends new _).1).trans (PlacesOnly.runs _ _ _)

/-- The places after a replacement: the new order's, and the replaced one's with its entries cancelled. -/
theorem Dev.replaced_places (held : d.place p = some o) (free : d.place q = none) :
    (d.replaced p q new).place q = some new ∧ (d.replaced p q new).place p = some (o.cancelled (d.laterFrom p)) := by
  have there : (d.slotsCancelled p).place p = some o := ((d.slotsCancelled_keeps p).1 p).trans held
  have distinct : p ≠ q := by
    rintro rfl
    exact Option.some_ne_none o (held.symm.trans free)
  have written := (Dev.writeNewOrder_appends new ((d.cancelOrder p).setPlace q (some new))).1
  have cancelled := Dev.place_setPlace_ne (some new) (d.cancelOrder p) distinct
  have taken := Dev.place_setPlace (d.cancelOrder p) q (some new)
  unfold Dev.replaced
  rw [Dev.runOver_place, Dev.runOver_place, written.place, written.place, cancelled, taken]
  refine ⟨rfl, ?_⟩
  exact (Dev.cancelFrom_cancels there (d.laterFrom p)).place.trans (congrArg some (o.cancelled_eq _))

theorem Dev.setPlace_writes (p : Fin 2) (o : Option LotOrder) (d : Dev) :
    (d.setPlace p o).order.writes = d.order.writes := rfl

/-- The words after a replacement: the cancelled entries', then the new order's. -/
theorem Dev.replaced_writes (held : d.place p = some o) (q : Fin 2) (new : LotOrder) :
    (d.replaced p q new).order.writes = d.order.writes ++
      (o.entries.zipIdx.flatMap fun y =>
        if d.laterFrom p ≤ y.2 ∧ (y.1.status = .waiting ∨ y.1.status = .loading) then
          [(o.addr + 16 + 16 * y.2, 6), (o.addr + 20 + 16 * y.2, BitVec.ofNat 32 y.1.made)] else []) ++
      (new.addr + 4, orderStatusWord false new.error new.closed) ::
        (List.range new.entries.length).flatMap fun i => match new.entries[i]? with
          | none => []
          | some e => [(new.addr + 16 + 16 * i, BitVec.ofNat 32 e.status.code),
              (new.addr + 20 + 16 * i, BitVec.ofNat 32 e.made)] := by
  obtain ⟨places, writes, -⟩ := d.slotsCancelled_keeps p
  unfold Dev.replaced
  rw [Dev.runOver_writes, Dev.writeNewOrder_writes, Dev.setPlace_writes, Dev.cancelOrder_eq,
    Dev.cancelFrom_writes ((places p).trans held) (d.laterFrom p), writes] <;> rfl

end Sys2Proof.Machine
end

section
/-! A replacing order (R133, R138): the state that acceptance over a running order with later entries leaves, part by
part; then the obligation about the ends of order fetches. -/

namespace Sys2Proof.Machine

variable {d : Dev} {p q : Fin 2} {o new : LotOrder} {got : List Word} {x count : Nat}

/-- The state that a replacement leaves. -/
def Dev.replacement (p q : Fin 2) (new : LotOrder) (d : Dev) : Dev := Dev.completeOrder p (d.replaced p q new)

theorem Dev.replacement_placesOnly (held : d.place p = some o) (q : Fin 2) (new : LotOrder) :
    PlacesOnly (d.slotsCancelled p) (d.replacement p q new) :=
  (Dev.replaced_placesOnly held q new).trans (Dev.completeOrder_placesOnly p _)

theorem Dev.replaced_runs (p q : Fin 2) (new : LotOrder) (d : Dev) :
    (d.replaced p q new).order.running = some q ∧ (d.replaced p q new).order.draining = some p := ⟨rfl, rfl⟩

/-- With an entry of the replaced order still open, nothing is completed. -/
theorem Dev.replacement_open (held : d.place p = some o) (free : d.place q = none)
    (isOpen : ∃ y ∈ (o.cancelled (d.laterFrom p)).entries,
      ¬(y.status = .closed ∨ y.status = .cancelled ∨ y.status = .error)) :
    d.replacement p q new = d.replaced p q new := by
  obtain ⟨y, among, stillOpen⟩ := isOpen
  refine Dev.completeOrder_open (Dev.replaced_places held free).2 among ?_
  rw [← Bool.not_eq_true, y.status.over_iff]
  exact stillOpen

theorem Dev.replacement_place (held : d.place p = some o) (free : d.place q = none) :
    (d.replacement p q new).place q = some new := by
  have distinct : q ≠ p := by
    rintro rfl
    exact Option.some_ne_none o (held.symm.trans free)
  obtain ⟨_, _, _, _, -, -, others⟩ := Dev.completeOrder_rest p (d.replaced p q new)
  exact (others q distinct).trans (Dev.replaced_places held free).1

/-- Which orders run and drain after a replacement. -/
theorem Dev.replacement_runs (held : d.place p = some o) (free : d.place q = none) :
    (d.replacement p q new).order.running = some q ∧
    ((∃ y ∈ (o.cancelled (d.laterFrom p)).entries,
        ¬(y.status = .closed ∨ y.status = .cancelled ∨ y.status = .error)) →
      (d.replacement p q new).place p = some (o.cancelled (d.laterFrom p)) ∧
      (d.replacement p q new).order.draining = some p) ∧
    ((∀ y ∈ (o.cancelled (d.laterFrom p)).entries,
        y.status = .closed ∨ y.status = .cancelled ∨ y.status = .error) →
      (d.replacement p q new).place p = none ∧ (d.replacement p q new).order.draining = none) := by
  have distinct : q ≠ p := by
    rintro rfl
    exact Option.some_ne_none o (held.symm.trans free)
  obtain ⟨running, draining⟩ := Dev.replaced_runs p q new d
  have place := (Dev.replaced_places (new := new) held free).2
  have complete : (∀ y ∈ (o.cancelled (d.laterFrom p)).entries,
        y.status = .closed ∨ y.status = .cancelled ∨ y.status = .error) →
      (d.replacement p q new).place p = none ∧ (d.replacement p q new).order.running = some q ∧
        (d.replacement p q new).order.draining = none := by
    intro finished
    obtain ⟨-, gone, runs, drains, -⟩ := Dev.completeOrder_final place fun y among => (y.status.over_iff).2 (finished y among)
    rw [running, draining, if_neg fun same => distinct (Option.some.inj same)] at runs
    rw [draining, if_pos (.inr rfl)] at drains
    exact ⟨gone, runs, drains⟩
  refine ⟨?_, fun isOpen => ?_, fun finished => ⟨(complete finished).1, (complete finished).2.2⟩⟩
  · by_cases finished : ∀ y ∈ (o.cancelled (d.laterFrom p)).entries,
        y.status = .closed ∨ y.status = .cancelled ∨ y.status = .error
    · exact (complete finished).2.1
    · rw [Dev.replacement_open held free (by
        simp only [not_forall] at finished
        obtain ⟨y, among, stillOpen⟩ := finished
        exact ⟨y, among, stillOpen⟩)]
      exact running
  · rw [Dev.replacement_open held free isOpen]
    exact ⟨place, draining⟩

/-- The recipe slots after a replacement (R131, R133). -/
theorem Dev.replacement_slots (held : d.place p = some o) (q : Fin 2) (new : LotOrder) :
    (∀ k : Fin 4, d.slotOf p k →
      ((d.slot k).st = .loading → (d.replacement p q new).slot k = RecipeSlot.empty ∧
        (d.replacement p q new).order.loader = none ∧
        ∀ b ∈ (d.replacement p q new).path.bursts, b.op ≠ .recipe) ∧
      ((d.slot k).st = .pending → (d.replacement p q new).slot k = RecipeSlot.empty ∧
        (d.replacement p q new).fill.switchDue = false)) ∧
    (∀ k : Fin 4, ¬d.slotOf p k ∨ ((d.slot k).st ≠ .loading ∧ (d.slot k).st ≠ .pending) →
      (d.replacement p q new).slot k = d.slot k) ∧
    ((∀ k : Fin 4, d.slotOf p k → (d.slot k).st ≠ .pending) →
      (d.replacement p q new).fill.switchDue = d.fill.switchDue) := by
  have only := Dev.replacement_placesOnly held q new
  have cancels : CancelsSlots p (fun _ => True) d (d.slotsCancelled p) := Dev.cancelSlots_cancels p d
  obtain ⟨slots, loader, -, -, fill, -⟩ := only.units
  have slot : ∀ k, (d.replacement p q new).slot k = (d.slotsCancelled p).slot k := fun k => by
    unfold Dev.slot
    rw [slots]
  refine ⟨fun k ours => ⟨fun loading => ?_, fun pending => ?_⟩, fun k not => ?_, fun none => ?_⟩
  · obtain ⟨stopped, dropped⟩ := cancels.stopped k trivial ours loading
    refine ⟨(slot k).trans (cancels.freed k trivial ours (.inl loading)), loader.trans stopped, fun b placed => ?_⟩
    rcases only.bursts b placed with before | word
    · exact dropped b before
    · rw [word]
      exact InternalOp.noConfusion
  · refine ⟨(slot k).trans (cancels.freed k trivial ours (.inr pending)), ?_⟩
    rw [fill]
    exact cancels.flag k trivial ours pending
  · exact (slot k).trans (cancels.kept k (.inr not))
  · rw [fill, cancels.unflag fun k _ ours => none k ours]

theorem Dev.replacement_keeps (held : d.place p = some o) (q : Fin 2) (new : LotOrder) :
    (d.replacement p q new).order.fetchA = d.order.fetchA ∧ (d.replacement p q new).order.cur = d.order.cur ∧
    (d.replacement p q new).track = d.track ∧ (d.replacement p q new).valve = d.valve := by
  obtain ⟨-, -, fetchA, cur, -, track, valve, -⟩ := (Dev.replacement_placesOnly held q new).units
  obtain ⟨-, -, cur', fetchA', track', valve', -⟩ := d.slotsCancelled_keeps p
  exact ⟨fetchA.trans fetchA', cur.trans cur', track.trans track', valve.trans valve'⟩

/-- The replaced order's final word, when nothing of it is left. -/
def LotOrder.finalWords (o : LotOrder) : List (Nat × Word) :=
  if ∃ y ∈ o.entries, ¬(y.status = .closed ∨ y.status = .cancelled ∨ y.status = .error) then []
  else [(o.addr + 4, orderStatusWord (decide (∀ y ∈ o.entries, y.status ≠ .error)) o.error o.closed)]

theorem Dev.replacement_writes (held : d.place p = some o) (free : d.place q = none) :
    (d.replacement p q new).order.writes =
      (d.replaced p q new).order.writes ++ (o.cancelled (d.laterFrom p)).finalWords := by
  have place := (Dev.replaced_places (new := new) held free).2
  unfold LotOrder.finalWords
  by_cases isOpen : ∃ y ∈ (o.cancelled (d.laterFrom p)).entries,
      ¬(y.status = .closed ∨ y.status = .cancelled ∨ y.status = .error)
  · rw [if_pos isOpen, List.append_nil, Dev.replacement_open held free isOpen]
  · rw [if_neg isOpen]
    refine (Dev.completeOrder_final place fun y among => (y.status.over_iff).2 ?_).1
    by_contra stillOpen
    exact isOpen ⟨y, among, stillOpen⟩

/-- The new order's words are those of a fetched order: WAITING and 0 for each entry. -/
theorem Dev.replaced_writes_fetched (held : d.place p = some o) (q : Fin 2)
    (header : headerCount (wordAt got 0) = count) :
    (d.replaced p q (LotOrder.fetched x got)).order.writes = d.order.writes ++
      (o.entries.zipIdx.flatMap fun y =>
        if d.laterFrom p ≤ y.2 ∧ (y.1.status = .waiting ∨ y.1.status = .loading) then
          [(o.addr + 16 + 16 * y.2, 6), (o.addr + 20 + 16 * y.2, BitVec.ofNat 32 y.1.made)] else []) ++
      (x + 4, 0) :: (List.range count).flatMap fun i => [(x + 16 + 16 * i, 1), (x + 20 + 16 * i, 0)] := by
  have entries : (LotOrder.fetched x got).entries = _ := lotEntries_eq count header
  rw [Dev.replaced_writes held, entries, List.length_map, List.length_range]
  refine congrArg₂ (· ++ ·) rfl (congrArg₂ List.cons rfl (List.flatMap_congr fun i inRange => ?_))
  rw [List.getElem?_map, List.getElem?_range (List.mem_range.1 inRange)]
  rfl

theorem Dev.replacement_pending (held : d.place p = some o) (free : d.place q = none)
    (finished : ∀ y ∈ (o.cancelled (d.laterFrom p)).entries,
      y.status = .closed ∨ y.status = .cancelled ∨ y.status = .error)
    (good : ∀ y ∈ (o.cancelled (d.laterFrom p)).entries, y.status ≠ .error) (notify : o.notify = true)
    (isPlaced : d.setup.part ≠ .unplaced) :
    (d.replacement p q new).report.pending.getLsbD 2 = true := by
  have place := (Dev.replaced_places (new := new) held free).2
  obtain ⟨-, -, -, -, -, -, -, setup⟩ := (Dev.replaced_placesOnly held q new).units
  obtain ⟨-, -, -, -, -, -, setup'⟩ := d.slotsCancelled_keeps p
  obtain ⟨-, -, -, -, pending⟩ := Dev.completeOrder_final place fun y among => (y.status.over_iff).2 (finished y among)
  exact pending good notify (by rw [setup, setup']; exact isPlaced)

end Sys2Proof.Machine
end

section
/-! The ends of order fetches (R132, R133, R139), settled from the lemmas on acceptance and replacement. -/

namespace Sys2Proof.Machine

variable {d : Dev} {p q : Fin 2} {o : LotOrder} {got : List Word} {f : Fetch} {x count : Nat}

/-- The final word by what is left of the order and whether an entry of it is ERROR. -/
theorem LotOrder.finalWords_eq (o : LotOrder) :
    o.finalWords =
      if ∃ y ∈ o.entries, ¬(y.status = .closed ∨ y.status = .cancelled ∨ y.status = .error) then []
      else if ∃ y ∈ o.entries, y.status = .error then
        [(o.addr + 4, BitVec.ofNat 32 ((match o.error with | none => 0 | some c => 2 + 256 * c.code) +
          65536 * (o.closed % 16)))]
      else [(o.addr + 4, BitVec.ofNat 32 (1 + (match o.error with | none => 0 | some c => 2 + 256 * c.code) +
          65536 * (o.closed % 16)))] := by
  unfold LotOrder.finalWords
  refine if_congr Iff.rfl rfl ?_
  by_cases error : ∃ y ∈ o.entries, y.status = .error
  · have bad : ¬∀ y ∈ o.entries, y.status ≠ .error := fun none => by
      obtain ⟨y, among, isError⟩ := error
      exact none y among isError
    rw [if_pos error, decide_eq_false bad, orderStatusWord_eq, if_neg Bool.false_ne_true, Nat.zero_add] <;> rfl
  · have good : ∀ y ∈ o.entries, y.status ≠ .error := fun y among isError => error ⟨y, among, isError⟩
    rw [if_neg error, decide_eq_true good, orderStatusWord_eq, if_pos rfl] <;> rfl

theorem Fetch.whole_of (some : 1 ≤ headerCount (wordAt f.got 0)) (few : headerCount (wordAt f.got 0) ≤ 8)
    (all : 2 + 4 * headerCount (wordAt f.got 0) ≤ f.got.length) : f.whole = true := by
  unfold Fetch.whole orderLength
  dsimp only
  rw [decide_eq_true some, decide_eq_true few, decide_eq_true all]
  rfl

theorem Dev.decideHeld_whole (fetching : d.order.fetchA = some f) (whole : f.whole = true) :
    d.decideHeld = Dev.decideOrder f.addr f.got { d with order := { d.order with fetchA := none } } := by
  unfold Dev.decideHeld
  rw [fetching]
  exact if_pos whole

/-- Placing a fetched order, word by word. -/
theorem Dev.placeOrder_fetched (header : headerCount (wordAt got 0) = count) (d : Dev) :
    d.placeOrder p (LotOrder.fetched x got) =
      { (List.range count).foldl
          (fun d i => (d.pushOrderWrite (x + 16 + 16 * i) (BitVec.ofNat 32 1)).pushOrderWrite (x + 20 + 16 * i)
            (BitVec.ofNat 32 0))
          ((d.setPlace p (some (LotOrder.fetched x got))).pushOrderWrite (x + 4) (BitVec.ofNat 32 0)) with
        order := { ((List.range count).foldl
          (fun d i => (d.pushOrderWrite (x + 16 + 16 * i) (BitVec.ofNat 32 1)).pushOrderWrite (x + 20 + 16 * i)
            (BitVec.ofNat 32 0))
          ((d.setPlace p (some (LotOrder.fetched x got))).pushOrderWrite (x + 4) (BitVec.ofNat 32 0))).order with
          running := some p } } := by
  unfold Dev.placeOrder
  rw [Dev.writeNewOrder_fetched x count header]

/-! ### The decision, case by case (R132, R133) -/

theorem Dev.decideOrder_bad (bad : openBeforeLast (lotEntries got) = true) :
    d.decideOrder x got = d.refuseOrder .badHeader x := by
  rw [Dev.decideOrder_eq, if_pos bad]

theorem Dev.decideOrder_two (sound : openBeforeLast (lotEntries got) = false) (running : d.order.running = some p)
    (draining : d.order.draining = some q) : d.decideOrder x got = d.refuseOrder .busy x := by
  rw [Dev.decideOrder_eq, if_neg (by rw [sound]; exact Bool.false_ne_true), running, draining]

theorem Dev.decideOrder_first (sound : openBeforeLast (lotEntries got) = false) (none : d.order.running = none)
    (free : d.place 0 = Option.none) : d.decideOrder x got = d.placeOrder 0 (LotOrder.fetched x got) := by
  rw [Dev.decideOrder_eq, if_neg (by rw [sound]; exact Bool.false_ne_true), none]
  exact Dev.acceptOrder_first _ _ none free

theorem Dev.decideOrder_one (sound : openBeforeLast (lotEntries got) = false) (running : d.order.running = some p)
    (draining : d.order.draining = none) :
    d.decideOrder x got = if d.laterOpen p then
        if (wordAt got 0).getLsbD 9 then d.acceptOrder (LotOrder.fetched x got) true else d.refuseOrder .busy x
      else d.acceptOrder (LotOrder.fetched x got) false := by
  rw [Dev.decideOrder_eq, if_neg (by rw [sound]; exact Bool.false_ne_true), running, draining]

/-- A replacing order is accepted as the replacement says. -/
theorem Dev.acceptOrder_replaces (running : d.order.running = some p) (held : d.place p = some o)
    (free : d.place q = none) (new : LotOrder) : d.acceptOrder new true = d.replacement p q new :=
  (Dev.acceptOrder_second new true running held free).trans
    (congrArg (Dev.completeOrder p) (Dev.replaced_eq p q new d).symm)

end Sys2Proof.Machine

namespace Sys2Proof

open Sys2Proof.Machine

/-- Settles O56: the branches of the answer and of the decision, and the replacement's parts. -/
theorem orderFetchesEnd : Obligations.OrderFetchesEnd := by
  intro s ok f x n e got count whole f' word refused next
  have header : headerCount (wordAt got 0) = count := headerCount_eq _
  have refuses : ∀ (code : OrderCode) (d : Dev), d.refuseOrder code f.addr = refused code.code d :=
    fun code d => Dev.refuseOrder_eq code f.addr d
  refine ⟨?_, ?_, ?_⟩
  · intro answering fetching ended leaves entries open'
    have executes : ∀ {d}, e.dev.fetchAAnswered x ok (Memory.readWords s.mem x n) = d → leaves d := by
      rintro _ rfl
      exact State.exec_orderAFetchDone answering
    have answer := Dev.fetchAAnswered_eq (d := e.dev) (x := x) (ok := ok) (ws := Memory.readWords s.mem x n) fetching
    rw [show headerCount (wordAt (f.got ++ Memory.readWords s.mem x n) 0) = count from header] at answer
    have inRange : ∀ {d d' : Dev}, 1 ≤ count → count ≤ 8 → (if ¬(1 ≤ count ∧ count ≤ 8) then d else d') = d' :=
      fun some few => if_neg (not_not.2 ⟨some, few⟩)
    have isOpen : openBeforeLast (lotEntries got) = true ↔ open' := openBeforeLast_iff got count header
    refine ⟨fun fault => executes (answer.trans (if_pos fault)), fun good bad => ?_, fun good some few short => ?_,
      fun good some few all => ⟨fun mid => ?_, fun between => ⟨fun bad => ?_, fun sound => ?_⟩⟩⟩
    · subst good
      refine executes (answer.trans ((if_neg (by decide)).trans ((if_pos (by omega)).trans ?_)))
      exact refuses _ _
    · subst good
      refine executes (answer.trans ((if_neg (by decide)).trans ((inRange some few).trans ((if_pos short).trans ?_))))
      exact congrArg₂ Dev.placeBurst (fetchBurst_more .fetchA f' header some) rfl
    · subst good
      exact executes (answer.trans ((if_neg (by decide)).trans ((inRange some few).trans
        ((if_neg (Nat.not_lt.2 all)).trans (if_pos mid)))))
    · subst good
      refine executes (answer.trans ((if_neg (by decide)).trans ((inRange some few).trans
        ((if_neg (Nat.not_lt.2 all)).trans ((if_neg (by rw [show e.dev.midSwitch = false from between]; decide)).trans ?_)))))
      exact (Dev.decideOrder_bad (isOpen.2 bad)).trans (refuses _ _)
    · intro o' placed
      have closed : openBeforeLast (lotEntries got) = false := by
        rw [← Bool.not_eq_true, isOpen]
        exact sound
      have decides : ∀ {d}, Dev.decideOrder f.addr got ended = d → leaves d := by
        rintro d rfl
        subst good
        exact executes (answer.trans ((if_neg (by decide)).trans ((inRange some few).trans
          ((if_neg (Nat.not_lt.2 all)).trans (if_neg (by rw [show e.dev.midSwitch = false from between]; decide))))))
      have order : LotOrder.fetched f.addr got = o' := by
        unfold LotOrder.fetched
        rw [lotEntries_eq count header]
        rfl
      have places : ∀ (p : Fin 2) (d : Dev), d.placeOrder p (LotOrder.fetched f.addr got) = placed p d := by
        intro p d
        rw [Dev.placeOrder_fetched header, order]
      refine ⟨fun p q running draining => ?_, fun none free => ?_, fun p o q running draining held free => ?_⟩
      · exact decides ((Dev.decideOrder_two (d := ended) closed running draining).trans (refuses _ _))
      · exact decides ((Dev.decideOrder_first (d := ended) closed none free).trans (places _ _))
      · intro from' unstarted later
        have there : ended.place p = Option.some o := held
        have empty : ended.place q = Option.none := free
        have runs : ended.order.running = Option.some p := running
        have fromEq : ended.laterFrom p = from' := by
          unfold Dev.laterFrom
          rfl
        have laterIff : ended.laterOpen p = true ↔ later := by
          rw [Dev.laterOpen_iff there, fromEq]
        have one := Dev.decideOrder_one (x := f.addr) closed runs (show ended.order.draining = Option.none from draining)
        refine ⟨fun isLater keep => ?_, fun noLater => ?_, fun isLater replace => ?_⟩
        · refine decides (one.trans ((if_pos (laterIff.2 isLater)).trans ((if_neg ?_).trans (refuses _ _))))
          rw [show (wordAt got 0).getLsbD 9 = false from keep]
          exact Bool.false_ne_true
        · refine decides (one.trans ((if_neg (noLater ∘ laterIff.1)).trans ?_))
          refine (Dev.acceptOrder_second _ _ runs there empty).trans (congrArg (Dev.completeOrder p) ?_)
          rw [if_neg Bool.false_ne_true, places]
        · intro es finished ours
          have decided := one.trans ((if_pos (laterIff.2 isLater)).trans ((if_pos replace).trans
            (Dev.acceptOrder_replaces runs there empty (LotOrder.fetched f.addr got))))
          have place := Dev.replacement_place (new := LotOrder.fetched f.addr got) there empty
          obtain ⟨runsNow, opened, closedAll⟩ := Dev.replacement_runs (new := LotOrder.fetched f.addr got) there empty
          obtain ⟨freed, kept, flag⟩ := Dev.replacement_slots there q (LotOrder.fetched f.addr got)
          obtain ⟨fetchA, cur, track, valve⟩ := Dev.replacement_keeps there q (LotOrder.fetched f.addr got)
          have writes := Dev.replacement_writes (new := LotOrder.fetched f.addr got) there empty
          have pending := Dev.replacement_pending (new := LotOrder.fetched f.addr got) there empty
          rw [Dev.replaced_writes_fetched there q header, LotOrder.finalWords_eq] at writes
          rw [fromEq] at opened closedAll writes pending
          exact ⟨_, decides decided, place.trans (congrArg Option.some order), runsNow, fetchA, opened, closedAll, freed,
            kept, flag, writes, pending, cur, track, valve⟩
  · intro d fetching some few all
    exact Dev.decideHeld_whole fetching (Fetch.whole_of ((headerCount_eq _).symm ▸ some) ((headerCount_eq _).symm ▸ few)
      ((headerCount_eq _).symm ▸ all))
  · intro answering fetching ended leaves
    have executes : ∀ {d}, e.dev.fetchBAnswered x ok (Memory.readWords s.mem x n) = d → leaves d := by
      rintro _ rfl
      exact State.exec_orderBFetchDone answering
    have answer := Dev.fetchBAnswered_eq (d := e.dev) (x := x) (ok := ok) (ws := Memory.readWords s.mem x n) fetching
    rw [show headerCount (wordAt (f.got ++ Memory.readWords s.mem x n) 0) = count from header] at answer
    have inRange : ∀ {d d' : Dev}, 1 ≤ count → count ≤ 8 → (if ¬(1 ≤ count ∧ count ≤ 8) then d else d') = d' :=
      fun some few => if_neg (not_not.2 ⟨some, few⟩)
    refine ⟨fun fault => executes (answer.trans (if_pos fault)), fun good bad => ?_, fun good some few short => ?_,
      fun good some few all => ?_⟩
    · subst good
      refine executes (answer.trans ((if_neg (by decide)).trans ((if_pos (by omega)).trans ?_)))
      exact refuses _ _
    · subst good
      refine executes (answer.trans ((if_neg (by decide)).trans ((inRange some few).trans ((if_pos short).trans ?_))))
      exact congrArg₂ Dev.placeBurst (fetchBurst_more .fetchB f' header some) rfl
    · intro es svc begun
      subst good
      refine executes (answer.trans ((if_neg (by decide)).trans ((inRange some few).trans
        ((if_neg (Nat.not_lt.2 all)).trans ?_))))
      exact Dev.acceptService_eq count header ended

end Sys2Proof
end

section
/-! The part's own writes (R17, R129, R137, R138, R146, R163, R170): a record leaving its recipe slot, an entry closed
with its order's completion, and the answers of order word and status writes. -/

namespace Sys2Proof.Machine

variable {s : State} {d : Dev} {k : Fin 4} {n x i : Nat} {p : Fin 2} {o : LotOrder} {y : LotEntry} {ws : List Word}
  {ok : Bool}

/-! ### A record leaves its recipe slot (R17, R129) -/

theorem Dev.memberSlot_none (out : ∀ k : Fin 4, n ∉ (d.slot k).members) : d.memberSlot n = none := by
  unfold Dev.memberSlot
  rw [if_neg (out 0), if_neg (out 1), if_neg (out 2), if_neg (out 3)]

theorem Dev.memberSlot_first (here : n ∈ (d.slot k).members) (before : ∀ u : Fin 4, u < k → n ∉ (d.slot u).members) :
    d.memberSlot n = some k := by
  unfold Dev.memberSlot
  match k with
  | 0 => exact if_pos here
  | 1 => rw [if_neg (before 0 (by decide)), if_pos here]
  | 2 => rw [if_neg (before 0 (by decide)), if_neg (before 1 (by decide)), if_pos here]
  | 3 =>
    rw [if_neg (before 0 (by decide)), if_neg (before 1 (by decide)), if_neg (before 2 (by decide)), if_pos here]

theorem Dev.recordLeaves_out (lot : LotRef) (out : d.memberSlot n = none) : d.recordLeaves n lot = d := by
  unfold Dev.recordLeaves
  rw [out]

theorem Dev.recordLeaves_of (lot : LotRef) (member : d.memberSlot n = some k) :
    d.recordLeaves n lot =
      if (d.slot k).st = .draining ∧ (d.slot k).members.erase n = [] ∧ d.tentative k = false then
        if (d.slot k).ref = lot then Dev.closeEntry lot (d.setSlot k .empty) else d.setSlot k .empty
      else d.setSlot k { d.slot k with members := (d.slot k).members.erase n } := by
  unfold Dev.recordLeaves
  rw [member]

theorem Dev.releaseRecord_eq (d : Dev) (r : CanRecord) :
    d.releaseRecord r =
      { Dev.recordLeaves r.slot r.lot
          { d with track := { d.track with suspects := d.track.suspects - (if r.suspect then 1 else 0) } } with
        track := { free := r.slot :: d.track.free, fill := d.track.fill,
                   suspects := d.track.suspects - (if r.suspect then 1 else 0) } } := by
  have count : (if r.suspect then d.track.suspects - 1 else d.track.suspects) =
      d.track.suspects - (if r.suspect then 1 else 0) := by
    cases r.suspect <;> rfl
  unfold Dev.releaseRecord
  rw [count]
  have shape : ∀ a : Dev, ({ Dev.recordLeaves r.slot r.lot a with
      track := { (Dev.recordLeaves r.slot r.lot a).track with
        free := r.slot :: (Dev.recordLeaves r.slot r.lot a).track.free } } : Dev) =
      { Dev.recordLeaves r.slot r.lot a with
        track := { free := r.slot :: a.track.free, fill := a.track.fill, suspects := a.track.suspects } } := by
    intro a
    rw [(Dev.recordLeaves_pool r.slot r.lot a).1]
  exact shape _

/-! ### An entry is closed (R137) -/

theorem Dev.closeEntry_gone (free : d.place p = none) : d.closeEntry (.entry p i) = d := by
  have same : (d.updateEntry p i fun e => { e with status := .closed }) = d := by
    unfold Dev.updateEntry
    rw [free]
  unfold Dev.closeEntry
  dsimp only
  rw [same, free]

/-- The order with entry `i` closed. -/
def LotOrder.closing (o : LotOrder) (i : Nat) (y : LotEntry) : LotOrder :=
  { o with entries := o.entries.set i { y with status := .closed }, closed := o.closed + 1 }

/-- The words of a closed entry: its status, its fills made, and its order's status word. -/
def Dev.entryClosed (p : Fin 2) (o : LotOrder) (i : Nat) (y : LotEntry) (d : Dev) : Dev :=
  Dev.pushOrderWrite (o.addr + 4) (orderStatusWord false o.error (o.closed + 1))
    (Dev.pushOrderWrite (o.addr + 20 + 16 * i) (BitVec.ofNat 32 y.made)
      (Dev.pushOrderWrite (o.addr + 16 + 16 * i) 5 (d.setPlace p (some (o.closing i y)))))

theorem Dev.closeEntry_held (held : d.place p = some o) (entry : o.entries[i]? = some y) :
    d.closeEntry (.entry p i) = Dev.completeOrder p (d.entryClosed p o i y) := Dev.closeEntry_eq held entry

theorem Dev.entryClosed_place (p : Fin 2) (o : LotOrder) (i : Nat) (y : LotEntry) (d : Dev) :
    (d.entryClosed p o i y).place p = some (o.closing i y) := by
  unfold Dev.entryClosed
  rw [(Dev.pushOrderWrite_wrote _ _ _).place, (Dev.pushOrderWrite_wrote _ _ _).place,
    (Dev.pushOrderWrite_wrote _ _ _).place, Dev.place_setPlace]

theorem Dev.writeOrderStatus_eq (done : Bool) (o : LotOrder) (d : Dev) :
    d.writeOrderStatus done o = d.pushOrderWrite (o.addr + 4)
      (BitVec.ofNat 32 ((if done then 1 else 0) + (match o.error with | none => 0 | some c => 2 + 256 * c.code) +
        65536 * (o.closed % 16))) := by
  unfold Dev.writeOrderStatus
  rw [orderStatusWord_eq] <;> rfl

/-! ### Order words and status writes (R138, R163, R170) -/

theorem Dev.orderWordAnswered_eq (x : Nat) (ok : Bool) (rest : List (Nat × Word)) (w : Nat × Word) :
    d.order.writes = w :: rest → d.orderWordAnswered x ok =
      let t := if ok then { d with order := { d.order with writes := rest } }
        else Dev.raiseAt .orderError x { d with order := { d.order with writes := rest } }
      match rest with
      | [] => t
      | (y, v) :: _ => t.placeBurst { op := .orderWord, addr := y, kind := .write [v] } := by
  intro writes
  unfold Dev.orderWordAnswered
  rw [writes]
  rfl

theorem Dev.statusAnswered_first (rest : List Word) (first : d.report.status = .first rest) :
    d.statusAnswered ok =
      Dev.placeBurst { op := .status, addr := d.base + 0x220, kind := .write rest }
        { (if ok then d else { d with path := { d.path with faults := d.path.faults + 1 } }) with
          report := { (if ok then d else { d with path := { d.path with faults := d.path.faults + 1 } }).report with
            status := .second } } := by
  unfold Dev.statusAnswered
  cases ok <;> simp only [Bool.false_eq_true, if_false, if_true, first] <;> rfl

theorem Dev.statusAnswered_second (second : d.report.status = .second) :
    d.statusAnswered ok =
      { (if ok then d else { d with path := { d.path with faults := d.path.faults + 1 } }) with
        report := { (if ok then d else { d with path := { d.path with faults := d.path.faults + 1 } }).report with
          status := .idle, again := false, request := d.report.request || d.report.again } } := by
  unfold Dev.statusAnswered
  cases ok <;> simp only [Bool.false_eq_true, if_false, if_true, second] <;> rfl

end Sys2Proof.Machine

namespace Sys2Proof

open Sys2Proof.Machine

/-- Settles O57: membership by the first slot that holds the record, the closing of an entry by what is left of its
order, and the two answers. -/
theorem partsOwnWritesGoOn : Obligations.PartsOwnWritesGoOn := by
  refine ⟨fun d n lot => ⟨fun out => ?_, fun k here before => ⟨fun stays => ?_, fun draining empty none => ?_⟩⟩,
    fun d r => d.releaseRecord_eq r, fun d => ⟨rfl, fun p i => ⟨fun free => ?_, fun o y held entry => ?_⟩⟩,
    fun s ok x ws => ⟨fun rest w answering writes => ?_, fun answering => ?_⟩⟩
  · exact Dev.recordLeaves_out lot (Dev.memberSlot_none out)
  · refine (Dev.recordLeaves_of lot (Dev.memberSlot_first here before)).trans (if_neg ?_)
    rintro ⟨drains, gone, free⟩
    rcases stays with not | some | held
    · exact not drains
    · exact some gone
    · exact Bool.false_ne_true (free.symm.trans held)
  · exact (Dev.recordLeaves_of lot (Dev.memberSlot_first here before)).trans (if_pos ⟨draining, empty, none⟩)
  · exact Dev.closeEntry_gone free
  · intro word es o' bad count closed released finished
    have closedEq : d.entryClosed p o i y = closed := by
      show Dev.writeOrderStatus false o' _ = _
      rw [Dev.writeOrderStatus_eq, if_neg Bool.false_ne_true, Nat.zero_add] <;> rfl
    have place : closed.place p = some o' := closedEq ▸ Dev.entryClosed_place p o i y d
    have closes := (Dev.closeEntry_held held entry).trans (congrArg (Dev.completeOrder p) closedEq)
    have releases : ∀ t : Dev, t.releasePlace p = released t := fun t => Dev.releasePlace_eq p t
    have closedAll : (∀ x ∈ es, finished x) → ∀ x ∈ o'.entries, x.status.over = true :=
      fun all x among => (x.status.over_iff).2 (all x among)
    refine ⟨fun isOpen => ?_, fun all error => ?_, fun all good => ?_⟩
    · obtain ⟨x, among, stillOpen⟩ := isOpen
      refine closes.trans (Dev.completeOrder_open place among ?_)
      rw [← Bool.not_eq_true, x.status.over_iff]
      exact stillOpen
    · refine closes.trans ((Dev.completeOrder_complete place (closedAll all)).trans ?_)
      rw [if_pos error, releases, Dev.writeOrderStatus_eq, if_neg Bool.false_ne_true, Nat.zero_add] <;> rfl
    · refine closes.trans ((Dev.completeOrder_complete place (closedAll all)).trans ?_)
      rw [if_neg fun ⟨x, among, error⟩ => good x among error, releases, Dev.writeOrderStatus_eq, if_pos rfl] <;> rfl
  · intro d d'
    have executes : ∀ {t}, (s.burstEnds x (.write ws) ok).dev.orderWordAnswered x ok = t →
        exec (.orderWordWriteDone ok) s = .next { s.burstEnds x (.write ws) ok with dev := Dev.settle t } := by
      rintro _ rfl
      exact congrArg Host.Outcome.next (State.answered_port _ answering)
    refine executes ((Dev.orderWordAnswered_eq (d := (s.burstEnds x (.write ws) ok).dev) x ok rest w writes).trans ?_)
    cases rest <;> rfl
  · intro d
    have executes : ∀ {t}, (s.burstEnds x (.write ws) ok).dev.statusAnswered ok = t →
        exec (.statusBurstDone ok) s = .next { s.burstEnds x (.write ws) ok with dev := Dev.settle t } := by
      rintro _ rfl
      exact congrArg Host.Outcome.next (State.answered_port _ answering)
    refine ⟨fun rest first => executes (Dev.statusAnswered_first (d := (s.burstEnds x (.write ws) ok).dev) rest first), ?_⟩
    intro finished second
    refine executes ((Dev.statusAnswered_second (d := (s.burstEnds x (.write ws) ok).dev) second).trans ?_)
    cases ok <;> rfl

end Sys2Proof
end

section
/-! Recipe loads (R128, R131, R134, R138): the next entry of the schedule, the words of a context and their test, and
the start and the answers of a load. -/

namespace Sys2Proof.Machine

variable {s : State} {d : Dev} {k : Fin 4} {i n x : Nat} {p : Fin 2} {o : LotOrder} {e : LotEntry} {l : Loader}
  {ok : Bool} {ws : List Word}

/-! ### The next entry (R134) -/

theorem filter_le_range_eq_drop (n i : Nat) :
    ((List.range n).filter fun j => decide (i ≤ j)) = (List.range n).drop i := by
  induction n with
  | zero => rw [List.range_zero, List.filter_nil, List.drop_nil]
  | succ n ih =>
    rw [List.range_succ, List.filter_append, ih]
    by_cases inside : i ≤ n
    · rw [List.filter_singleton, List.drop_append_of_le_length (by rw [List.length_range]; exact inside),
        decide_eq_true inside]
      rfl
    · rw [List.filter_singleton, decide_eq_false inside, List.drop_eq_nil_of_le (by rw [List.length_range]; omega),
        List.drop_eq_nil_of_le (by rw [List.length_append, List.length_range, List.length_singleton]; omega)]
      rfl

theorem Dev.entryRefs_eq (d : Dev) (p : Fin 2) (i : Nat) :
    d.entryRefs p i = match d.place p with
      | none => []
      | some o => ((List.range o.entries.length).drop i).map fun j => (p, j) := by
  unfold Dev.entryRefs
  cases d.place p with
  | none => rfl
  | some o => exact congrArg (List.map fun j => (p, j)) (filter_le_range_eq_drop _ _)

theorem Dev.unstartedAt_iff (d : Dev) (x : Fin 2 × Nat) :
    d.unstartedAt x = true ↔ ∃ o e, d.place x.1 = some o ∧ o.entries[x.2]? = some e ∧
      (e.status = .waiting ∨ e.status = .loading) := by
  have unstarted : ∀ y : LotEntry, y.status.unstarted = true ↔ y.status = .waiting ∨ y.status = .loading := by
    intro y
    cases y.status <;> simp [EntryStatus.unstarted]
  constructor
  · intro isOpen
    cases held : d.place x.1 with
    | none =>
      unfold Dev.unstartedAt Dev.entryAt at isOpen
      rw [held] at isOpen
      exact absurd isOpen Bool.false_ne_true
    | some o =>
      cases entry : o.entries[x.2]? with
      | none =>
        rw [Dev.unstartedAt_beyond held entry] at isOpen
        exact absurd isOpen Bool.false_ne_true
      | some e =>
        rw [Dev.unstartedAt_eq held entry] at isOpen
        exact ⟨o, e, rfl, entry, (unstarted e).1 isOpen⟩
  · rintro ⟨o, e, held, entry, isOpen⟩
    rw [Dev.unstartedAt_eq held entry]
    exact (unstarted e).2 isOpen

theorem Dev.nextEntry_idle (none : d.order.running = none) : d.nextEntry = Option.none := by
  unfold Dev.nextEntry Dev.schedule
  rw [none]
  rfl

/-- The schedule while an order runs. -/
theorem Dev.schedule_running (running : d.order.running = some p) :
    d.schedule = match d.order.cur with
      | none => d.entryRefs p 0
      | some c =>
        match c.ref with
        | .detached => d.entryRefs p 0
        | .entry q i => if q = p then d.entryRefs p (i + 1) else d.entryRefs q (i + 1) ++ d.entryRefs p 0 := by
  unfold Dev.schedule
  rw [running] <;> rfl

/-- The first element of a list that a test accepts, by its place in the list. -/
theorem find?_first {α : Type} {f : α → Bool} {l : List α} {x : α} (found : l.find? f = some x) :
    ∃ n : Nat, l[n]? = some x ∧ f x = true ∧ ∀ m : Nat, m < n → ∀ y, l[m]? = some y → ¬f y = true := by
  obtain ⟨accepted, n, inside, here, before⟩ := List.find?_eq_some_iff_getElem.1 found
  refine ⟨n, ?_, accepted, fun m earlier y there => ?_⟩
  · rw [List.getElem?_eq_getElem inside, here]
  · obtain ⟨_, same⟩ := List.getElem?_eq_some_iff.1 there
    rw [← same]
    have rejected := before m earlier
    rw [Bool.not_eq_true'] at rejected
    rw [rejected]
    exact Bool.false_ne_true

/-! ### The words of a context (12.5, R128) -/

theorem bits_low (w : Word) (len : Nat) : bits w 0 len = w.toNat % 2 ^ len := by
  unfold bits
  rw [pow_zero, Nat.div_one]

theorem ofNat_bits_low (w : Word) : BitVec.ofNat 16 (bits w 0 16) = w.setWidth 16 := by
  rw [bits_low, ← BitVec.ofNat_toNat]
  apply BitVec.eq_of_toNat_eq
  rw [BitVec.toNat_ofNat, BitVec.toNat_ofNat, Nat.mod_mod]

theorem recipeOfWords_eq (ws : List Word) :
    recipeOfWords ws =
      { lot := (wordAt ws 1).setWidth 16, keepTrims := (wordAt ws 0).getLsbD 9, autoSuspend := (wordAt ws 0).getLsbD 10,
        target := (wordAt ws 2).toInt, lowLimit := (wordAt ws 3).toInt, highLimit := (wordAt ws 4).toInt,
        outlierBand := (wordAt ws 5).toNat, tare := (wordAt ws 6).toInt, gain := (wordAt ws 7).toNat,
        trimLimit := (wordAt ws 8).toNat, watchCount := (wordAt ws 9).toNat % 256,
        suspendCount := (wordAt ws 9).toNat / 256 % 256, mask := (wordAt ws 10).setWidth 11,
        doseFloor := (wordAt ws 11).toNat, doseCeiling := (wordAt ws 12).toNat,
        nominals := if (wordAt ws 0).getLsbD 8 then some ((ws.drop 13).take 64) else none } := by
  unfold recipeOfWords
  rw [ofNat_bits_low, bit_eq_getLsbD, bit_eq_getLsbD, bit_eq_getLsbD, BitVec.ofNat_toNat, bits_low]
  rfl

/-- The word at which a failed dose test is reported (log 13). -/
def doseWordOf (ws : List Word) : Nat :=
  if Config.doseFailsAtFloor (recipeOfWords ws).doseFloor (recipeOfWords ws).doseCeiling then 11 else 12

theorem doseWordOf_cases (ws : List Word) : doseWordOf ws = 11 ∨ doseWordOf ws = 12 := by
  unfold doseWordOf
  split
  · exact .inl rfl
  · exact .inr rfl

/-- Two tests with one outcome are one. -/
theorem if_or_if {α : Type} (a b : Prop) [Decidable a] [Decidable b] (x y : α) :
    (if ¬a then x else if ¬b then x else y) = if ¬(a ∧ b) then x else y := by
  by_cases ha : a <;> by_cases hb : b <;> simp [ha, hb]

theorem recipeCheck_eq (ws : List Word) :
    recipeCheck ws =
      if ¬((wordAt ws 0).toNat % 256 = 13 ∧ (wordAt ws 0).getLsbD 8 = false ∨
          (wordAt ws 0).toNat % 256 = 77 ∧ (wordAt ws 0).getLsbD 8 = true) then some (.badLength, 0)
      else if ¬((wordAt ws 3).toInt < (wordAt ws 2).toInt ∧ (wordAt ws 2).toInt < (wordAt ws 4).toInt) then
        some (.recipeField, 2)
      else if 2147483647 < (wordAt ws 5).toNat then some (.recipeField, 5)
      else if 16 < (wordAt ws 7).toNat then some (.recipeField, 7)
      else if 65535 < (wordAt ws 8).toNat then some (.recipeField, 8)
      else if ¬((1 ≤ (wordAt ws 9).toNat % 256 ∧ (wordAt ws 9).toNat % 256 ≤ 15) ∧
          (1 ≤ (wordAt ws 9).toNat / 256 % 256 ∧ (wordAt ws 9).toNat / 256 % 256 ≤ 15)) then some (.recipeField, 9)
      else if (wordAt ws 12).toNat ≤ (wordAt ws 11).toNat then some (.recipeField, doseWordOf ws)
      else if 1048575 < (wordAt ws 12).toNat then some (.recipeField, 12)
      else none := by
  unfold recipeCheck doseWordOf
  dsimp only
  rw [if_or_if, recipeOfWords_eq, bits_low, bit_eq_getLsbD]
  refine if_congr Iff.rfl rfl (if_congr Iff.rfl rfl (if_congr Iff.rfl rfl (if_congr Iff.rfl rfl
    (if_congr Iff.rfl rfl (if_congr Iff.rfl rfl (if_congr Nat.not_lt rfl rfl))))))

end Sys2Proof.Machine
end

section
/-! The start of a recipe load and its answers (R131, R138), and the obligation about recipe loads. -/

namespace Sys2Proof.Machine

variable {s : State} {d : Dev} {k : Fin 4} {i n x : Nat} {p : Fin 2} {o : LotOrder} {e : LotEntry} {l : Loader}
  {ok : Bool} {ws : List Word}

/-! ### The start (R131) -/

theorem Wrote.size {a d : Dev} (wrote : Wrote a d) : d.size = a.size := by
  rw [wrote.shape]
  rfl

theorem Dev.startLoad_idle (idle : d.order.loader ≠ none ∨ d.nextEntry = none ∨ d.slotIn .free = none) :
    d.startLoad = d := by
  unfold Dev.startLoad
  split
  case h_1 p i k loader next free =>
    rcases idle with busy | none | full
    · exact absurd loader busy
    · exact nomatch none.symm.trans next
    · exact nomatch full.symm.trans free
  case h_2 => rfl

/-- The slot and the entry of a load that begins: both LOADING, the entry's words waiting. -/
def Dev.loadBegins (p : Fin 2) (i : Nat) (k : Fin 4) (o : LotOrder) (e : LotEntry) (d : Dev) : Dev :=
  Dev.pushOrderWrite (o.addr + 20 + 16 * i) (BitVec.ofNat 32 e.made)
    (Dev.pushOrderWrite (o.addr + 16 + 16 * i) 2
      ((d.setSlot k { st := .loading, recipe := none, ref := .entry p i, members := [] }).setPlace p
        (some { o with entries := o.entries.set i { e with status := .loading } })))

theorem Dev.loadBegins_size (d : Dev) : (d.loadBegins p i k o e).size = d.size := by
  unfold Dev.loadBegins
  rw [(Dev.pushOrderWrite_wrote _ _ _).size, (Dev.pushOrderWrite_wrote _ _ _).size]
  rfl

/-- The loader of a load that begins. -/
def Loader.starting (p : Fin 2) (i : Nat) (k : Fin 4) (e : LotEntry) : Loader :=
  { slot := k, place := p, idx := i, addr := e.context.toNat, got := [] }

theorem Dev.startLoad_begins (none : d.order.loader = none) (next : d.nextEntry = some (p, i))
    (free : d.slotIn .free = some k) (held : d.place p = some o) (entry : o.entries[i]? = some e)
    (waiting : e.status = .waiting) :
    d.startLoad =
      if (d.loadBegins p i k o e).addrOk e.context.toNat then
        Dev.placeBurst { op := .recipe, addr := e.context.toNat, kind := .read 1 }
          { d.loadBegins p i k o e with order := { (d.loadBegins p i k o e).order with
            loader := some (Loader.starting p i k e) } }
      else (d.loadBegins p i k o e).loadFails (Loader.starting p i k e) .badAddress e.context.toNat := by
  have there : d.entryAt p i = some e := by
    unfold Dev.entryAt
    rw [held]
    exact entry
  have slotted : (d.setSlot k { st := .loading, recipe := Option.none, ref := .entry p i, members := [] }).place p = some o :=
    held
  unfold Dev.startLoad
  rw [none, next, free]
  dsimp only
  rw [there]
  dsimp only
  rw [if_pos waiting, Dev.updateEntry_eq _ slotted entry]
  rfl

/-! ### The answers (R131, R138) -/

theorem State.exec_recipeLoadDone (answering : s.Answering .recipe x (.read n)) :
    exec (.recipeLoadDone ok) s = .next { s.burstEnds x (.read n) ok with
      dev := Dev.settle ((s.burstEnds x (.read n) ok).dev.recipeAnswered x ok (Memory.readWords s.mem x n)) } :=
  congrArg Host.Outcome.next (State.answered_port _ answering)

theorem Dev.recipeAnswered_eq (loading : d.order.loader = some l) :
    d.recipeAnswered x ok ws =
      if ok = false then d.loadFails l .fetchFault x
      else if ¬((wordAt (l.got ++ ws) 0).toNat % 256 = 13 ∨ (wordAt (l.got ++ ws) 0).toNat % 256 = 77) then
        d.loadFails { l with got := l.got ++ ws } .badLength l.addr
      else if (l.got ++ ws).length < (wordAt (l.got ++ ws) 0).toNat % 256 then
        Dev.placeBurst
          { op := .recipe, addr := l.addr + 4 * (l.got ++ ws).length,
            kind := .read (min 8 ((wordAt (l.got ++ ws) 0).toNat % 256 - (l.got ++ ws).length)) }
          { d with order := { d.order with loader := some { l with got := l.got ++ ws } } }
      else match recipeCheck (l.got ++ ws) with
        | some (code, i) => d.loadFails { l with got := l.got ++ ws } code (l.addr + 4 * i)
        | none => d.loadSucceeds { l with got := l.got ++ ws } := by
  have len : contextLength (l.got ++ ws) = (wordAt (l.got ++ ws) 0).toNat % 256 := bits_low _ 8
  unfold Dev.recipeAnswered
  rw [loading, ← len] <;> rfl

/-- A good context: the slot PENDING with its recipe, and the flag of R32 set when a switch is due at once. -/
theorem Dev.loadSucceeds_eq (l : Loader) (d : Dev) :
    d.loadSucceeds l =
      { d.setSlot l.slot { d.slot l.slot with st := .pending, recipe := some (recipeOfWords l.got) } with
        order := { (d.setSlot l.slot { d.slot l.slot with
          st := .pending, recipe := some (recipeOfWords l.got) }).order with loader := none }
        fill := { d.fill with switchDue := d.fill.switchDue || match d.order.cur with
          | none => true
          | some c => decide (l.idx = 0 ∨ c.canCount ≠ 0 ∧ c.canCount ≤ c.made) } } := by
  unfold Dev.loadSucceeds CurrentEntry.due
  dsimp only
  have current : (d.setSlot l.slot { d.slot l.slot with st := .pending, recipe := some (recipeOfWords l.got) }).order.cur =
      d.order.cur := rfl
  rw [current]
  cases d.order.cur with
  | none =>
    rw [if_pos (.inr rfl), Bool.or_true]
    rfl
  | some c =>
    dsimp only
    by_cases due : l.idx = 0 ∨ c.canCount ≠ 0 ∧ c.canCount ≤ c.made
    · rw [decide_eq_true due, Bool.or_true, if_pos (due.imp_right decide_eq_true)]
      rfl
    · rw [decide_eq_false due, Bool.or_false, if_neg fun now => due (now.imp_right of_decide_eq_true)]
      rfl

end Sys2Proof.Machine

namespace Sys2Proof

open Sys2Proof.Machine

/-- Settles O58: the schedule searched, the context's words and test, the load's start and answers, and the frame and
the order of a failed load (the architect's `Dev.loadFails_frame` and `Dev.loadFails_order`). -/
theorem recipeLoadsRun : Obligations.RecipeLoadsRun := by
  refine ⟨?_, ?_, ?_⟩
  · intro d from' unstarted
    refine ⟨Dev.nextEntry_idle, fun p running => ?_⟩
    intro schedule
    have refs : ∀ (p : Fin 2) (i : Nat), d.entryRefs p i = from' p i := fun p i => d.entryRefs_eq p i
    have same : d.schedule = schedule := by
      rw [Dev.schedule_running running]
      simp only [refs]
      rfl
    have test : ∀ x, d.unstartedAt x = true ↔ unstarted x := d.unstartedAt_iff
    have next : d.nextEntry = schedule.find? d.unstartedAt := congrArg (List.find? d.unstartedAt) same
    refine ⟨fun x found => ?_, fun none x among isOpen => ?_⟩
    · obtain ⟨n, here, accepted, before⟩ := find?_first (next.symm.trans found)
      exact ⟨n, here, (test x).1 accepted, fun m earlier y there isOpen => before m earlier y there ((test y).2 isOpen)⟩
    · exact List.find?_eq_none.1 (next.symm.trans none) x among ((test x).2 isOpen)
  · intro ws n z len list counts
    exact ⟨recipeOfWords_eq ws, doseWordOf ws, doseWordOf_cases ws, recipeCheck_eq ws⟩
  · intro s leaves
    have starts : ∀ {d}, s.dev.startLoad = d → exec .recipeLoadStart s = .next (leaves s d) := by
      rintro _ rfl
      rfl
    refine ⟨fun idle => starts (Dev.startLoad_idle idle), ?_, ?_, fun d l code x isPlaced => ?_⟩
    · intro p i k o e none next free held entry waiting c l d1 d2 d3
      have begins := Dev.startLoad_begins none next free held entry waiting
      have good : d3.addrOk c = true ↔ c % 4 = 0 ∧ c < s.dev.size := by
        have size : d3.size = s.dev.size := Dev.loadBegins_size s.dev
        unfold Dev.addrOk
        rw [Bool.and_eq_true, decide_eq_true_iff, decide_eq_true_iff, size]
      refine ⟨fun aligned inside => starts (begins.trans (if_pos (good.2 ⟨aligned, inside⟩))),
        fun bad => starts (begins.trans (if_neg fun fine => ?_))⟩
      obtain ⟨aligned, inside⟩ := good.1 fine
      rcases bad with off | outside
      · exact off aligned
      · omega
    · intro ok x n l answering loading e got len l' run
      have ends : ∀ {d}, e.dev.recipeAnswered x ok (Memory.readWords s.mem x n) = d → run = .next (leaves e d) := by
        rintro _ rfl
        exact State.exec_recipeLoadDone answering
      have answer := Dev.recipeAnswered_eq (d := e.dev) (x := x) (ok := ok) (ws := Memory.readWords s.mem x n) loading
      have known : ∀ {d d' : Dev}, (len = 13 ∨ len = 77) → (if ¬(len = 13 ∨ len = 77) then d else d') = d' :=
        fun is => if_neg (not_not.2 is)
      refine ⟨fun fault => ends (answer.trans (if_pos fault)), fun fine not13 not77 => ?_, fun fine length short => ?_,
        fun fine length all => ⟨fun code i failed => ?_, ?_⟩⟩
      · subst fine
        exact ends (answer.trans ((if_neg (by decide)).trans (if_pos (not_or.2 ⟨not13, not77⟩))))
      · subst fine
        exact ends (answer.trans ((if_neg (by decide)).trans ((known length).trans (if_pos short))))
      · subst fine
        refine ends (answer.trans ((if_neg (by decide)).trans ((known length).trans ((if_neg (Nat.not_lt.2 all)).trans ?_))))
        rw [show recipeCheck (l.got ++ Memory.readWords s.mem x n) = some (code, i) from failed]
      · intro passes d due
        subst fine
        refine ends (answer.trans ((if_neg (by decide)).trans ((known length).trans ((if_neg (Nat.not_lt.2 all)).trans ?_))))
        rw [show recipeCheck (l.got ++ Memory.readWords s.mem x n) = none from passes]
        exact Dev.loadSucceeds_eq l' e.dev
    · obtain ⟨freed, others, loader, cur, errAddr, pending, fill, valve, track, setup⟩ := d.loadFails_frame l code x isPlaced
      obtain ⟨places, words⟩ := d.loadFails_order l code x
      exact ⟨freed, others, loader, cur, errAddr, pending, fill, valve, track, setup, places, words⟩

end Sys2Proof
end

section
/-! Judgement at the reader (R94 to R98) and the test of a pocket's record (R4, R6, R7, R99). -/

namespace Sys2Proof.Machine

variable {d : Dev} {p : Word} {e : Entry} {r : CanRecord} {i : Nat}

/-! ### The test of a pocket's record -/

/-- A verdict formed again with TRACK_CHECK under the mask. -/
def Verdict.again (mask : BitVec 11) (v : Verdict) : Verdict :=
  { reject := (v.reasons ||| 1024#11).getLsbD 9 || decide ((v.reasons ||| 1024#11) &&& mask ≠ 0),
    reasons := v.reasons ||| 1024#11 }

theorem Entry.reformed_eq (e : Entry) (mask : BitVec 11) :
    e.reformed mask = { e with checkFail := true, verdict := e.verdict.map (Verdict.again mask) } := by
  unfold Entry.reformed
  cases e.verdict with
  | none => rfl
  | some v => rfl

theorem Dev.testPocket_failing (held : (d.entry p).record = some r) (failing : r.bad = true) :
    d.testPocket p = Dev.setEntry (if r.failed then d else d.raise .trackCheck) p
      { d.entry p with
        checkFail := true
        record := some { r with failed := true }
        verdict := (d.entry p).verdict.map (Verdict.again d.su.bareMask) } := by
  unfold Dev.testPocket
  dsimp only
  rw [held]
  dsimp only
  rw [if_pos failing, Entry.reformed_eq]
  rfl

/-! ### The reason set, bit by bit (R96) -/

theorem Entry.weighFault_iff (e : Entry) :
    e.weighFault = true ↔ (∃ w, e.weighing = some w ∧ w.flags ≠ 0) ∨ e.occ = .unseen := by
  unfold Entry.weighFault
  rw [Bool.or_eq_true, beq_iff_eq]
  cases e.weighing with
  | none => simp only [Bool.false_eq_true, reduceCtorEq, false_and, exists_false]
  | some w => simp only [decide_eq_true_iff, Option.some.injEq, exists_eq_left']

theorem Dev.reasonsFor_bit (d : Dev) (e : Entry) (inside : i < 11) :
    (d.reasonsFor e).getLsbD i = true ↔
      ((((i = 0 ∧ ∃ c w, d.recipeFor e = some c ∧ e.weighing = some w ∧ w.net < c.lowLimit) ∨
        (i = 1 ∧ ∃ c w, d.recipeFor e = some c ∧ e.weighing = some w ∧ c.highLimit < w.net)) ∨
        (e.weighFault = true ∧ 2 = i)) ∨
      ((i = 3 ∧ e.ident = .noRead) ∨ (i = 4 ∧ e.ident = .missed) ∨ (i = 5 ∧ e.ident = .conflict) ∨
        (i = 6 ∧ e.ident = .lotMismatch))) ∨
      ((i = 7 ∧ e.record = none) ∨ (i = 8 ∧ ∃ r, e.record = some r ∧ r.suspect = true ∧ e.ident ≠ .confirmed) ∨
        (i = 9 ∧ ∃ r, e.record = some r ∧ r.test = true)) ∨
      (e.checkFail = true ∧ 10 = i) := by
  unfold Dev.reasonsFor
  rw [getLsbD_or_iff, getLsbD_or_iff, getLsbD_or_iff, getLsbD_or_iff, weightReasons_bit _ _ _ inside,
    reasonIf_bit _ _ _ inside, Identity.reason_bit _ _ inside, Entry.recordReasons_bit _ _ inside,
    reasonIf_bit _ _ _ inside, or_assoc (c := e.checkFail = true ∧ _)]
  rfl

/-! ### Judgement (R94 to R98) -/

theorem Dev.judge_empty (empty : (d.entry p).occ = .none) : d.judge p = d := if_pos empty

/-- The verdict that judgement forms for an entry. -/
def Dev.verdictFor (d : Dev) (e : Entry) : Verdict :=
  { reject := (d.reasonsFor e).getLsbD 9 || decide (d.reasonsFor e &&& d.maskFor e ≠ 0), reasons := d.reasonsFor e }

theorem Dev.judge_full (full : (d.entry p).occ ≠ .none) :
    d.judge p =
      match ((d.testPocket p).entry p).record with
      | none => Dev.drawn ((d.testPocket p).setEntry p { (d.testPocket p).entry p with
          verdict := some ((d.testPocket p).verdictFor ((d.testPocket p).entry p)) })
      | some r =>
        if ((d.testPocket p).entry p).checkFail then
          Dev.drawn ((d.testPocket p).setEntry p { (d.testPocket p).entry p with
            verdict := some ((d.testPocket p).verdictFor ((d.testPocket p).entry p)) })
        else Dev.handOver r.valve ((d.testPocket p).handOverFor ((d.testPocket p).entry p) r
            ((d.testPocket p).verdictFor ((d.testPocket p).entry p)))
          ((d.testPocket p).setEntry p { (d.testPocket p).entry p with
            verdict := some ((d.testPocket p).verdictFor ((d.testPocket p).entry p)) }) := by
  exact if_neg full

end Sys2Proof.Machine

namespace Sys2Proof

open Sys2Proof.Machine

/-- Settles O59: the reason set's bits, one by one, and judgement by what the tested entry holds. -/
theorem judgementFormsTheVerdict : Obligations.JudgementFormsTheVerdict := by
  refine ⟨?_, ?_⟩
  · intro d p e
    refine ⟨fun bare => Dev.testPocket_bare bare, fun r held => ⟨fun sound checked => ?_, fun failing => ?_⟩⟩
    · exact Dev.testPocket_sound held (CanRecord.bad_of_sound sound checked)
    · intro again
      exact Dev.testPocket_failing held ((r.bad_iff).2 failing)
  · intro d p
    refine ⟨Dev.judge_empty, fun full => ?_⟩
    intro t e recipe mask
    have bit := fun (i : Nat) (inside : i < 11) => t.reasonsFor_bit e inside
    have recipeEq : t.recipeFor e = recipe := by
      unfold Dev.recipeFor
      rfl
    rw [recipeEq] at bit
    refine ⟨t.reasonsFor e, ?_, ?_, ?_, ?_, ?_, ?_, ?_, ?_, ?_, ?_, ?_, ?_⟩
    · rw [bit 0 (by decide)]; simp
    · rw [bit 1 (by decide)]; simp
    · rw [bit 2 (by decide)]; simp [Entry.weighFault_iff]
    · rw [bit 3 (by decide)]; simp
    · rw [bit 4 (by decide)]; simp
    · rw [bit 5 (by decide)]; simp
    · rw [bit 6 (by decide)]; simp
    · rw [bit 7 (by decide)]; simp
    · rw [bit 8 (by decide)]; simp
    · rw [bit 9 (by decide)]; simp
    · rw [bit 10 (by decide)]; simp
    · intro reject judged net
      have maskEq : t.maskFor e = mask := by
        unfold Dev.maskFor mask
        cases e.record <;> rfl
      have formed : t.verdictFor e = { reject := reject, reasons := t.reasonsFor e } := by
        unfold Dev.verdictFor
        rw [maskEq]
      refine (Dev.judge_full full).trans ?_
      change (match e.record with
        | none => Dev.drawn (t.setEntry p { e with verdict := some (t.verdictFor e) })
        | some r => if e.checkFail then Dev.drawn (t.setEntry p { e with verdict := some (t.verdictFor e) })
          else Dev.handOver r.valve (t.handOverFor e r (t.verdictFor e))
            (t.setEntry p { e with verdict := some (t.verdictFor e) })) = _
      rw [formed] <;> rfl

end Sys2Proof
end

section
/-! The identity decision where no record moves (R78 to R83, R85): phantoms, first codes on the reader pocket's own
record, and later codes. -/

namespace Sys2Proof.Machine

variable {d : Dev} {c : CodeRec} {r : Word} {x : CanRecord} {q : Position}

/-! ### Where a code applies (R78) -/

/-- The reader pocket of a held position. -/
def Dev.readerOf (d : Dev) (q : Position) : Word :=
  BitVec.ofNat 32 (q.high.toNat / d.su.pitch) - BitVec.ofNat 32 d.su.dRead

theorem Dev.applyCode_lost (none : d.pocket.pos = none) : d.applyCode c = d.phantom := by
  unfold Dev.applyCode Dev.pocketNow
  rw [none]
  rfl

theorem Dev.applyCode_at (held : d.pocket.pos = some q) :
    d.applyCode c =
      if (d.entry (d.readerOf q)).pocket ≠ d.readerOf q then d.phantom
      else if (d.entry (d.readerOf q)).codes = 0 then d.firstCode (d.readerOf q) c
      else d.laterCode (d.readerOf q) c := by
  unfold Dev.applyCode Dev.pocketNow
  rw [held]
  rfl

theorem Dev.applyCode_first (held : d.pocket.pos = some q) (own : (d.entry (d.readerOf q)).pocket = d.readerOf q)
    (first : (d.entry (d.readerOf q)).codes = 0) : d.applyCode c = d.firstCode (d.readerOf q) c :=
  (Dev.applyCode_at held).trans ((if_neg (not_not.2 own)).trans (if_pos first))

theorem Dev.applyCode_later (held : d.pocket.pos = some q) (own : (d.entry (d.readerOf q)).pocket = d.readerOf q)
    (later : (d.entry (d.readerOf q)).codes ≠ 0) : d.applyCode c = d.laterCode (d.readerOf q) c :=
  (Dev.applyCode_at held).trans ((if_neg (not_not.2 own)).trans (if_neg later))

/-! ### First codes (R80 to R83) -/

/-- The reader pocket's entry with its first code noted. -/
def Entry.firstCode (e : Entry) (c : CodeRec) : Entry := { e with codes := 1, codeLot := some c.lot }

/-- The part with the first code noted in the reader pocket. -/
def Dev.noted (r : Word) (c : CodeRec) (d : Dev) : Dev := d.setEntry r ((d.entry r).firstCode c)

theorem Dev.noted_entry (r : Word) (c : CodeRec) (d : Dev) : (d.noted r c).entry r = (d.entry r).firstCode c :=
  Dev.entry_setEntry _ _ _

theorem Dev.noted_setEntry (r : Word) (c : CodeRec) (d : Dev) (e : Entry) : (d.noted r c).setEntry r e = d.setEntry r e :=
  Dev.setEntry_setEntry _ _ _

theorem Dev.firstCode_noRead (bad : c.good = false) :
    d.firstCode r c = d.setEntry r { d.entry r with codes := 1, ident := .noRead } := if_pos bad

theorem Dev.firstCode_empty (good : c.good = true) (empty : (d.entry r).occ = .none) : d.firstCode r c = d.phantom :=
  (if_neg (by rw [good]; decide)).trans (if_pos empty)

theorem Dev.firstCode_untag (good : c.good = true) (full : (d.entry r).occ ≠ .none) (none : c.tag = 0) :
    d.firstCode r c = (d.noted r c).untag r :=
  (if_neg (by rw [good]; decide)).trans ((if_neg full).trans (if_pos none))

theorem Dev.firstCode_identify (good : c.good = true) (full : (d.entry r).occ ≠ .none) (tagged : c.tag ≠ 0) :
    d.firstCode r c = (d.noted r c).identify r c :=
  (if_neg (by rw [good]; decide)).trans ((if_neg full).trans (if_neg tagged))

theorem Dev.conflict_noted (r : Word) (c : CodeRec) (d : Dev) :
    (d.noted r c).conflict r = d.setEntry r { (d.entry r).firstCode c with ident := .conflict } := by
  unfold Dev.conflict
  rw [Dev.noted_entry, Dev.noted_setEntry]

theorem Dev.untag_bare (bare : (d.entry r).record = none) :
    (d.noted r c).untag r = d.setEntry r { (d.entry r).firstCode c with ident := .untracked } := by
  have still : ((d.noted r c).entry r).record = none := by
    rw [Dev.noted_entry]
    exact bare
  unfold Dev.untag
  rw [still]
  dsimp only
  rw [if_neg (by decide), Dev.noted_entry, Dev.noted_setEntry]

/-- The search that finds the pocket's own sound record (R84). -/
theorem Dev.searchTag_own (held : (d.entry r).record = some x) (sound : x.bad = false) (same : x.tag = c.tag) :
    Dev.searchTag c.tag (d.holders (d.listQ r)) 0 d = (some (0, x), d) := by
  have front : d.holders (d.listQ r) = r :: d.holders (d.canPockets (r + 1#32) (d.su.dRead - 1)) := by
    unfold Dev.holders Dev.listQ
    rw [List.filter_cons, held]
    rfl
  rw [front, Dev.searchTag, if_neg (by decide)]
  dsimp only
  rw [Dev.testPocket_sound held sound, held]
  exact if_pos ⟨sound, same⟩

theorem Dev.identify_own (held : (d.entry r).record = some x) (sound : x.bad = false) (same : x.tag = c.tag) :
    d.identify r c = if x.valve.val ≠ c.valve then d.conflict r else d.confirm r c := by
  unfold Dev.identify
  dsimp only
  rw [Dev.searchTag_own held sound same]
  dsimp only
  refine if_congr Iff.rfl rfl (if_pos ⟨rfl, ?_⟩)
  rw [held]
  rfl

/-- The identity that a confirmed record gives the pocket (R85). -/
def Dev.confirmedIdent (d : Dev) (c : CodeRec) (x : CanRecord) : Identity :=
  if d.su.lotCheck = true ∧ c.lot ≠ d.lotOf x.recipe then .lotMismatch else .confirmed

theorem Dev.confirm_held (held : (d.entry r).record = some x) :
    d.confirm r c = Dev.drawn { d.setEntry r { d.entry r with
        ident := d.confirmedIdent c x, record := some { x with suspect := false, checkOk := true } } with
      track := { d.track with suspects := d.track.suspects - (if x.suspect then 1 else 0) } } := by
  have count : (if x.suspect then d.track.suspects - 1 else d.track.suspects) =
      d.track.suspects - (if x.suspect then 1 else 0) := by
    cases x.suspect <;> rfl
  unfold Dev.confirm
  dsimp only
  rw [held]
  dsimp only
  rw [count]
  rfl

/-! ### Later codes (R79) -/

theorem Entry.agrees_iff (e : Entry) (c : CodeRec) :
    e.agrees c = true ↔ match e.ident with
      | .confirmed | .lotMismatch => c.good = true ∧ ∃ x, e.record = some x ∧ x.tag = c.tag
      | .untracked => c.good = true ∧ c.tag = 0
      | .noRead => c.good = false
      | _ => True := by
  have sameTag : (c.good && (match e.record with | none => false | some r => r.tag == c.tag)) = true ↔
      c.good = true ∧ ∃ x, e.record = some x ∧ x.tag = c.tag := by
    rw [Bool.and_eq_true]
    refine and_congr Iff.rfl ?_
    cases e.record with
    | none => simp only [Bool.false_eq_true, reduceCtorEq, false_and, exists_false]
    | some r => simp only [beq_iff_eq, Option.some.injEq, exists_eq_left']
  unfold Entry.agrees
  cases e.ident with
  | confirmed => exact sameTag
  | lotMismatch => exact sameTag
  | untracked =>
    dsimp only
    rw [Bool.and_eq_true, beq_iff_eq]
  | noRead =>
    dsimp only
    rw [Bool.not_eq_true']
  | conflict => exact iff_of_true rfl trivial
  | unchecked => exact iff_of_true rfl trivial
  | missed => exact iff_of_true rfl trivial

/-- The reader pocket's entry with one code more. -/
def Entry.laterCode (e : Entry) : Entry := { e with codes := if e.codes < 255 then e.codes + 1 else 255 }

theorem Dev.laterCode_eq (r : Word) (c : CodeRec) (d : Dev) :
    d.laterCode r c =
      if (d.entry r).agrees c then
        { d.setEntry r (d.entry r).laterCode with code := { d.code with duplicate := d.code.duplicate + 1 } }
      else d.setEntry r { (d.entry r).laterCode with ident := .conflict } := rfl

end Sys2Proof.Machine
end

section
/-! The forward and the backward re-layout over sound records (R12, R13, R86, R87): what each leaves in the pockets of
Q, in the fill list and in the counts. -/

namespace Sys2Proof.Machine

variable {d : Dev} {q : List Word} {lost kept : List CanRecord}

/-! ### The forward re-layout (R86) -/

/-- What a forward re-layout leaves: `lost` freed, `kept` dealt to Q in order with the nets of the changed pockets
formed again, the rest in the fill list (R86). -/
structure MovedForward (q : List Word) (lost kept : List CanRecord) (d t : Dev) : Prop where
  entry : ∀ (n : Nat) (p : Word), q[n]? = some p → t.entry p =
    if (kept[n]?).map (fun z => z.slot) = d.slotAt p then { d.entry p with record := kept[n]? }
    else t.reformNet { d.entry p with record := kept[n]? }
  others : KeepsOthers q d t
  fill : t.track.fill = kept.drop q.length
  freed : FreedAll .lost lost d t
  code : t.code = { d.code with forward := d.code.forward + BitVec.ofNat 16 lost.length }
  pending : t.report.pending.getLsbD 18 = true
  valve : t.valve = d.valve
  pos : t.pocket.pos = d.pocket.pos
  setup : t.setup = d.setup

/-- The state of a re-layout with its count and its cause. -/
def Dev.slipped (u : CodeUnit) (d : Dev) : Dev := Dev.raise .slip (d.setCode u)

theorem Dev.slipped_keeps (u : CodeUnit) (d : Dev) :
    (∀ p, (d.slipped u).entry p = d.entry p) ∧ (d.slipped u).track = d.track ∧ (d.slipped u).order = d.order ∧
    (d.slipped u).draws = d.draws ∧ (d.slipped u).report.queue = d.report.queue ∧
    (d.slipped u).report.dropped = d.report.dropped ∧ (d.slipped u).code = u ∧ (d.slipped u).valve = d.valve ∧
    (d.slipped u).pocket = d.pocket ∧ (d.slipped u).setup = d.setup := by
  obtain ⟨request, shape⟩ := Dev.raise_shape .slip (d.setCode u)
  unfold Dev.slipped
  rw [shape]
  exact ⟨fun _ => rfl, rfl, rfl, rfl, rfl, rfl, rfl, rfl, rfl, rfl⟩

theorem Dev.slipped_pending (u : CodeUnit) (isPlaced : d.setup.part ≠ .unplaced) :
    (d.slipped u).report.pending.getLsbD 18 = true := Dev.raise_pending (d.setCode u) .slip isPlaced

theorem Moved.keeps {a d : Dev} (moved : Moved a d) :
    d.order = a.order ∧ d.draws = a.draws ∧ d.report = a.report ∧ d.code = a.code ∧ d.valve = a.valve ∧
    d.setup = a.setup ∧ d.pocket.pos = a.pocket.pos ∧ d.track.free = a.track.free ∧
    d.track.suspects = a.track.suspects := by
  unfold Moved at moved
  generalize d.track.fill = fill at moved
  generalize d.pocket.ring = ring at moved
  subst moved
  exact ⟨rfl, rfl, rfl, rfl, rfl, rfl, rfl, rfl, rfl⟩

/-- The front of S freed: what stays of it in the pockets and the list (R86). -/
theorem Dev.freeFront_rest (nodup : (q.map ringIx).Nodup) (split : d.recordsOf q ++ d.track.fill = lost ++ kept) :
    let f := Dev.freeFront (d.holders q) lost.length d
    f.recordsOf ((d.holders q).drop lost.length) ++ f.track.fill = kept ∧
    (∀ p ∈ (d.holders q).drop lost.length, f.entry p = d.entry p) ∧
    (∀ p y, { f.entry p with record := y } = { d.entry p with record := y }) ∧ KeepsOthers q d f ∧
    FreedAll .lost lost d f ∧ Freed d f := by
  intro f
  have hold : ∀ p ∈ d.holders q, ∃ r, (d.entry p).record = some r := fun p => Dev.mem_holders
  have sub := d.holders_sublist q
  have distinct : ((d.holders q).map ringIx).Nodup := nodup.sublist (sub.map ringIx)
  have records : d.recordsOf (d.holders q) ++ d.track.fill = lost ++ kept := by
    rw [d.recordsOf_holders]
    exact split
  obtain ⟨fill, emptied, others, freed, rest⟩ := Dev.freeFront_spec (d.holders q) lost.length [] d d distinct hold
    (by rw [records, List.length_append]; omega) (FreedAll.refl .lost d)
  rw [List.nil_append, records, List.take_left] at freed
  have apart : ∀ p ∈ (d.holders q).drop lost.length, ∀ y ∈ (d.holders q).take lost.length, ringIx p ≠ ringIx y := by
    rw [← List.take_append_drop lost.length (d.holders q), List.map_append] at distinct
    intro p after y before same
    exact (List.nodup_append.1 distinct).2.2 _ (List.mem_map_of_mem before) _ (List.mem_map_of_mem after) same.symm
  have kept' : ∀ p ∈ (d.holders q).drop lost.length, f.entry p = d.entry p := fun p after => others p (apart p after)
  refine ⟨?_, kept', fun p y => ?_, fun p out => ?_, freed, rest⟩
  · obtain ⟨dropped, length⟩ := Dev.recordsOf_drop (d.holders q) lost.length hold
    rw [Dev.recordsOf_congr kept', dropped, show f.track.fill = _ from fill, ← length, ← List.drop_append, records,
      List.drop_left]
  · by_cases among : ∃ z ∈ (d.holders q).take lost.length, ringIx p = ringIx z
    · obtain ⟨z, before, same⟩ := among
      have inF : f.entry p = f.entry z := congrArg (fun i => f.pocket.ring.get i) same
      have inD : d.entry p = d.entry z := congrArg (fun i => d.pocket.ring.get i) same
      rw [inF, inD, show f.entry z = _ from emptied z before]
    · rw [show f.entry p = _ from others p fun z before same => among ⟨z, before, same⟩]
  · exact others p fun y before => out y (sub.subset (List.mem_of_mem_take before))

theorem Dev.moveForward_spec (nodup : (q.map ringIx).Nodup) (sound : d.SoundOver (d.holders q) d.track.fill)
    (split : d.recordsOf q ++ d.track.fill = lost ++ kept) (isPlaced : d.setup.part ≠ .unplaced) :
    MovedForward q lost kept d (d.moveForward q lost.length) := by
  obtain ⟨records, standing, same, others, freed, rest⟩ := Dev.freeFront_rest nodup split
  obtain ⟨f, isF⟩ : ∃ f, f = Dev.freeFront (d.holders q) lost.length d := ⟨_, rfl⟩
  rw [← isF] at records standing same others freed rest
  have hold : ∀ p ∈ (d.holders q).drop lost.length, ∃ r, (f.entry p).record = some r := fun p among => by
    rw [standing p among]
    exact Dev.mem_holders (List.mem_of_mem_drop among)
  have keptSound : ∀ x ∈ kept, x.bad = false := by
    intro x among
    have inAll : x ∈ d.recordsOf q ++ d.track.fill := by
      rw [split]
      exact List.mem_append_right _ among
    rcases List.mem_append.1 inAll with held | filled
    · rw [← d.recordsOf_holders] at held
      obtain ⟨p, holder, here⟩ := List.mem_filterMap.1 held
      exact sound.held p holder x here
    · exact sound.fill x filled
  have soundF : f.SoundOver ((d.holders q).drop lost.length) f.track.fill := by
    constructor
    · intro p among r here
      refine sound.held p (List.mem_of_mem_drop among) r ?_
      rw [← standing p among]
      exact here
    · intro r among
      refine keptSound r ?_
      rw [← records]
      exact List.mem_append_right _ among
  obtain ⟨dealt, pockets, beyond, moved⟩ := Dev.deal_spec q ((d.holders q).drop lost.length) f nodup
    ((List.drop_sublist _ _).trans (d.holders_sublist q)) hold soundF
  obtain ⟨g, isG⟩ : ∃ g, g = Dev.deal q ((d.holders q).drop lost.length) f := ⟨_, rfl⟩
  rw [← isG] at dealt pockets beyond moved
  rw [records] at dealt pockets
  obtain ⟨nets, outside, reformed, track⟩ := Dev.reformMoved_spec d q g nodup
  obtain ⟨h, isH⟩ : ∃ h, h = Dev.reformMoved q d g := ⟨_, rfl⟩
  rw [← isH] at nets outside reformed track
  obtain ⟨order, draws, report, code, valve, setup, pos, free, suspects⟩ := moved.keeps
  obtain ⟨order', draws', report', code', valve', setup', pos', free', suspects'⟩ := reformed.keeps
  have result : d.moveForward q lost.length =
      h.slipped { h.code with forward := h.code.forward + BitVec.ofNat 16 lost.length } := by
    rw [isH, isG, isF]
    rfl
  rw [result]
  generalize counted : ({ h.code with forward := h.code.forward + BitVec.ofNat 16 lost.length } : CodeUnit) = u
  obtain ⟨sEntry, sTrack, sOrder, sDraws, sQueue, sDropped, sCode, sValve, sPocket, sSetup⟩ := Dev.slipped_keeps u h
  have isPlacedH : h.setup.part ≠ .unplaced := by
    rw [setup', setup, rest.setup]
    exact isPlaced
  have pending := Dev.slipped_pending u isPlacedH
  generalize h.slipped u = t at sEntry sTrack sOrder sDraws sQueue sDropped sCode sValve sPocket sSetup pending
  constructor
  · intro n p at'
    have inQ : p ∈ q := List.mem_of_getElem? at'
    have gEntry : g.entry p = { d.entry p with record := kept[n]? } := (pockets n p at').trans (same p _)
    have slot : g.slotAt p = (kept[n]?).map fun z => z.slot := by
      unfold Dev.slotAt
      rw [gEntry]
    rw [sEntry, nets p inQ, slot, gEntry,
      Dev.reformNet_congr (a := t) (by rw [sOrder, order']) (by rw [sDraws, draws'])]
  · intro p out
    rw [sEntry, outside p out, beyond p out, others p out]
  · rw [sTrack, track, dealt]
  · constructor
    · rw [sTrack, track, free, freed.free]
    · rw [sQueue, report', report, freed.length]
    · rw [sQueue, report', report]
      exact freed.queue
    · rw [sDropped, report', report]
      exact freed.dropped
    · rw [sTrack, track, suspects, freed.suspects]
  · rw [sCode, ← counted, code', code, rest.code]
  · exact pending
  · rw [sValve, valve', valve, rest.valve]
  · rw [sPocket, pos', pos, rest.pos]
  · rw [sSetup, setup', setup, rest.setup]

end Sys2Proof.Machine
end

section
/-! The backward re-layout (R13, R87), the nets formed again (R70), and what an identity decision that moved records
leaves in the entries (R83 to R88). -/

namespace Sys2Proof.Machine

variable {d s : Dev} {q : List Word} {lost kept : List CanRecord} {r : Word} {c : CodeRec} {x : CanRecord}

/-! ### The backward re-layout (R87) -/

/-- What pocket `n` of Q takes when every record goes one pocket on. -/
def Dev.pushed (d : Dev) (q : List Word) (n : Nat) : Option CanRecord :=
  if n = 0 then none else (q[n - 1]?).bind fun y => (d.entry y).record

/-- What a backward re-layout leaves: every record of Q one pocket on, the last at the head of the fill list (R87). -/
structure MovedBackward (q : List Word) (d t : Dev) : Prop where
  entry : ∀ (n : Nat) (p : Word), q[n]? = some p → t.entry p =
    if (d.pushed q n).map (fun z => z.slot) = d.slotAt p then { d.entry p with record := d.pushed q n }
    else t.reformNet { d.entry p with record := d.pushed q n }
  others : KeepsOthers q d t
  fill : ∀ p, q.getLast? = some p → t.track.fill = (d.entry p).record.toList ++ d.track.fill
  free : t.track.free = d.track.free
  suspects : t.track.suspects = d.track.suspects
  queue : t.report.queue = d.report.queue
  order : t.order = d.order
  code : t.code = { d.code with backward := d.code.backward + 1 }
  pending : t.report.pending.getLsbD 18 = true

theorem Dev.moveBackward_spec (nodup : (q.map ringIx).Nodup) (isPlaced : d.setup.part ≠ .unplaced) :
    MovedBackward q d (d.moveBackward q) := by
  obtain ⟨last, pockets, beyond, moved, track⟩ := Dev.pushOn_spec q none d nodup
  obtain ⟨u, isU⟩ : ∃ u, u = Dev.pushOn q none d := ⟨_, rfl⟩
  rw [← isU] at last pockets beyond moved track
  obtain ⟨g, isG⟩ : ∃ g, g = u.2.setFillList (u.1.toList ++ d.track.fill) := ⟨_, rfl⟩
  have movedG : Moved d g := moved.trans (by rw [isG]; rfl)
  have entryG : ∀ p, g.entry p = u.2.entry p := fun p => by rw [isG]; rfl
  have fillG : g.track.fill = u.1.toList ++ d.track.fill := by rw [isG]; rfl
  have state : (match u.1 with
      | none => u.2
      | some x => u.2.setFillList (x :: u.2.track.fill)) = g := by
    rw [isG]
    cases u.1 with
    | none =>
      rw [Option.toList_none, List.nil_append, ← track]
      rfl
    | some x =>
      rw [track]
      rfl
  obtain ⟨nets, outside, reformed, trackH⟩ := Dev.reformMoved_spec d q g nodup
  obtain ⟨h, isH⟩ : ∃ h, h = Dev.reformMoved q d g := ⟨_, rfl⟩
  rw [← isH] at nets outside reformed trackH
  obtain ⟨order, draws, report, code, valve, setup, pos, free, suspects⟩ := movedG.keeps
  obtain ⟨order', draws', report', code', valve', setup', pos', free', suspects'⟩ := reformed.keeps
  have result : d.moveBackward q = h.slipped { h.code with backward := h.code.backward + 1 } := by
    rw [isH, ← state, isU]
    rfl
  rw [result]
  generalize counted : ({ h.code with backward := h.code.backward + 1 } : CodeUnit) = v
  obtain ⟨sEntry, sTrack, sOrder, sDraws, sQueue, sDropped, sCode, sValve, sPocket, sSetup⟩ := Dev.slipped_keeps v h
  have pending := Dev.slipped_pending v (d := h) (by rw [setup', setup]; exact isPlaced)
  generalize h.slipped v = t at sEntry sTrack sOrder sDraws sQueue sDropped sCode sValve sPocket sSetup pending
  constructor
  · intro n p at'
    have gEntry : g.entry p = { d.entry p with record := d.pushed q n } := (entryG p).trans (pockets n p at')
    have slot : g.slotAt p = (d.pushed q n).map fun z => z.slot := by
      unfold Dev.slotAt
      rw [gEntry]
    rw [sEntry, nets p (List.mem_of_getElem? at'), slot, gEntry,
      Dev.reformNet_congr (a := t) (by rw [sOrder, order']) (by rw [sDraws, draws'])]
  · intro p out
    rw [sEntry, outside p out, entryG, beyond p out]
  · intro p atEnd
    rw [sTrack, trackH, fillG, last p atEnd]
  · rw [sTrack, trackH, free]
  · rw [sTrack, trackH, suspects]
  · rw [sQueue, report', report]
  · rw [sOrder, order', order]
  · rw [sCode, ← counted, code', code]
  · exact pending

/-! ### The nets formed again (R70) -/

/-- The tare that a net is formed with: the record's recipe's, and on a bare pocket the current one's. -/
def Dev.TareIs (d : Dev) (new : Option CanRecord) (tare : Int) : Prop :=
  match new, d.slotIn .current with
  | some y, _ => ∃ w, (d.slot y.recipe).recipe = some w ∧ tare = w.tare
  | none, some k => ∃ w, (d.slot k).recipe = some w ∧ tare = w.tare
  | none, none => tare = 0

theorem Dev.recipeOf_loaded {k : Fin 4} {w : Recipe} (loaded : (d.slot k).recipe = some w) : d.recipeOf k = w := by
  unfold Dev.recipeOf
  rw [loaded]
  rfl

theorem Dev.tareFor_eq {e : Entry} {new : Option CanRecord} {tare : Int} (record : e.record = new)
    (known : d.TareIs new tare) : d.tareFor e = tare := by
  unfold Dev.tareFor
  rw [record]
  cases new with
  | some y =>
    obtain ⟨w, loaded, same⟩ := known
    exact (congrArg Recipe.tare (Dev.recipeOf_loaded loaded)).trans same.symm
  | none =>
    unfold Dev.TareIs at known
    unfold Dev.currentRecipe Dev.currentSlot
    cases current : d.slotIn .current with
    | none =>
      rw [current] at known
      exact known.symm
    | some k =>
      rw [current] at known
      obtain ⟨w, loaded, same⟩ := known
      rw [same, ← Dev.recipeOf_loaded loaded]
      rfl

theorem Dev.reformNet_weighing {e : Entry} {v : Weighing} {tare : Int} (unjudged : e.verdict = none)
    (weighed : e.weighing = some v) (seen : v.flags.getLsbD 5 = false) (known : d.TareIs e.record tare) :
    (d.reformNet e).weighing = some { v with net := max (-2147483648) (min 2147483647 (v.gross - tare)) } := by
  have flag : ¬v.flags &&& flagUnseen ≠ 0 := by
    rw [flagUnseen_iff, seen]
    exact Bool.false_ne_true
  unfold Dev.reformNet
  rw [unjudged, weighed]
  dsimp only
  rw [if_neg flag, Dev.tareFor_eq rfl known, netOf_eq]

/-- Forming a net again changes the weighing alone. -/
theorem Dev.reformNet_shape (d : Dev) (e : Entry) : d.reformNet e = { e with weighing := (d.reformNet e).weighing } := by
  unfold Dev.reformNet
  split
  · split <;> rfl
  · rfl

/-- An entry that took `new`, its net formed again when that is another record. -/
def Dev.takes (d : Dev) (old : Entry) (new : Option CanRecord) : Entry :=
  if (new.map fun z => z.slot) = old.record.map fun z => z.slot then { old with record := new }
  else d.reformNet { old with record := new }

theorem Dev.takes_keeps (d : Dev) (old : Entry) (new : Option CanRecord) :
    (d.takes old new).record = new ∧ (d.takes old new).occ = old.occ ∧ (d.takes old new).codes = old.codes ∧
    (d.takes old new).codeLot = old.codeLot := by
  unfold Dev.takes
  split
  · exact ⟨rfl, rfl, rfl, rfl⟩
  · rw [Dev.reformNet_shape]
    exact ⟨rfl, rfl, rfl, rfl⟩

theorem Dev.takes_weighing {old : Entry} {new : Option CanRecord} {v : Weighing} {tare : Int}
    (unjudged : old.verdict = none) (weighed : old.weighing = some v) (seen : v.flags.getLsbD 5 = false)
    (other : (old.record.map fun z => z.slot) ≠ new.map fun z => z.slot) (known : d.TareIs new tare) :
    (d.takes old new).weighing = some { v with net := max (-2147483648) (min 2147483647 (v.gross - tare)) } := by
  unfold Dev.takes
  rw [if_neg fun same => other same.symm]
  exact Dev.reformNet_weighing (e := { old with record := new }) unjudged weighed seen known

/-! ### The reader pocket confirmed after a movement (R85, R88) -/

/-- What a confirmation after a movement leaves: the reader pocket CAN, its record confirmed; nothing else. -/
theorem Dev.confirm_moved (held : (s.entry r).record = some x) :
    let t := Dev.confirm r c (s.setEntry r (s.entry r).madeCan)
    t.entry r = { (s.entry r).madeCan with
      ident := s.confirmedIdent c x, record := some { x with suspect := false, checkOk := true } } ∧
    (∀ p, ringIx p ≠ ringIx r → t.entry p = s.entry p) ∧ t.track.fill = s.track.fill ∧ t.track.free = s.track.free ∧
    t.track.suspects = s.track.suspects - (if x.suspect then 1 else 0) ∧ t.order = s.order ∧ t.report = s.report ∧
    t.code = s.code ∧ t.valve = s.valve ∧ t.pocket.pos = s.pocket.pos := by
  intro t
  have made : ((s.setEntry r (s.entry r).madeCan).entry r) = (s.entry r).madeCan := Dev.entry_setEntry _ _ _
  have madeRecord : (s.entry r).madeCan.record = some x := by
    unfold Entry.madeCan
    split
    · exact held
    · exact held
  have result : t = _ := Dev.confirm_held (c := c) (made ▸ madeRecord)
  rw [made] at result
  rw [result]
  refine ⟨Dev.entry_setEntry _ _ _, fun p other => ?_, rfl, rfl, rfl, rfl, rfl, rfl, rfl, rfl⟩
  exact (Dev.entry_setEntry_ne _ _ other).trans (Dev.entry_setEntry_ne _ _ other)

end Sys2Proof.Machine
end

section
/-! The identity decision (R78 to R88): the search of S from the reader pocket, and the obligation about codes. -/

namespace Sys2Proof.Machine

variable {d s t : Dev} {q : List Word} {lost rest kept : List CanRecord} {r : Word} {c : CodeRec} {x : CanRecord}

/-! ### Q and S from the reader pocket (R83) -/

theorem Dev.noted_other (c : CodeRec) (d : Dev) {p : Word} (other : ringIx p ≠ ringIx r) :
    (d.noted r c).entry p = d.entry p := Dev.entry_setEntry_ne _ _ other

/-- Noting a code changes neither what a pocket holds nor its weighing or verdict. -/
theorem Dev.noted_fields (r : Word) (c : CodeRec) (d : Dev) (p : Word) :
    ((d.noted r c).entry p).record = (d.entry p).record ∧ ((d.noted r c).entry p).occ = (d.entry p).occ ∧
    ((d.noted r c).entry p).verdict = (d.entry p).verdict ∧ ((d.noted r c).entry p).weighing = (d.entry p).weighing := by
  by_cases same : ringIx p = ringIx r
  · have before : d.entry p = d.entry r := congrArg (fun i => d.pocket.ring.get i) same
    have after : (d.noted r c).entry p = (d.noted r c).entry r :=
      congrArg (fun i => (d.noted r c).pocket.ring.get i) same
    rw [after, before, Dev.noted_entry]
    exact ⟨rfl, rfl, rfl, rfl⟩
  · rw [Dev.noted_other c d same]
    exact ⟨rfl, rfl, rfl, rfl⟩

theorem Dev.listQ_noted (r : Word) (c : CodeRec) (d : Dev) :
    (d.noted r c).listQ r = r :: ((List.range (d.su.dRead - 1)).map fun i => r + 1 + BitVec.ofNat 32 i).filter
      fun p => decide ((d.entry p).occ = .can) := by
  unfold Dev.listQ
  rw [Dev.canPockets_eq]
  refine congrArg (List.cons r) (List.filter_congr fun p _ => ?_)
  rw [(d.noted_fields r c p).2.1]

theorem Dev.recordsOf_noted (r : Word) (c : CodeRec) (d : Dev) (ps : List Word) :
    (d.noted r c).recordsOf ps = ps.filterMap fun p => (d.entry p).record :=
  List.filterMap_congr fun p _ => (d.noted_fields r c p).1

theorem Dev.soundOver_of (all : ∀ x ∈ d.recordsOf q ++ d.track.fill, x.failed = false ∧ x.checkOk = true) :
    d.SoundOver (d.holders q) d.track.fill := by
  have sound : ∀ x ∈ d.recordsOf q ++ d.track.fill, x.bad = false := fun x among =>
    CanRecord.bad_of_sound (all x among).1 (all x among).2
  constructor
  · intro p holder x held
    refine sound x (List.mem_append_left _ ?_)
    rw [← d.recordsOf_holders]
    exact List.mem_filterMap.2 ⟨p, holder, held⟩
  · exact fun x among => sound x (List.mem_append_right _ among)

/-! ### The search's outcome (R84, R85, R86) -/

theorem Dev.identify_unknown (sound : d.SoundOver (d.holders (d.listQ r)) d.track.fill)
    (none : ∀ x ∈ (d.recordsOf (d.listQ r) ++ d.track.fill).take 17, x.tag ≠ c.tag) :
    d.identify r c = d.conflict r := by
  rw [← d.recordsOf_holders] at none
  have found := (Dev.searchTag_sound c.tag d (d.holders (d.listQ r)) 0 sound fun p => Dev.mem_holders).1 none
  unfold Dev.identify
  dsimp only
  rw [found]

theorem Dev.identify_found (sound : d.SoundOver (d.holders (d.listQ r)) d.track.fill)
    (split : d.recordsOf (d.listQ r) ++ d.track.fill = lost ++ x :: rest) (near : lost.length ≤ 16)
    (before : ∀ y ∈ lost, y.tag ≠ c.tag) (same : x.tag = c.tag) :
    d.identify r c = if x.valve.val ≠ c.valve then d.conflict r
      else if lost.length = 0 ∧ (d.entry r).record.isSome = true then d.confirm r c
      else Dev.confirm r c ((d.moveForward (d.listQ r) lost.length).setEntry r
        ((d.moveForward (d.listQ r) lost.length).entry r).madeCan) := by
  rw [← d.recordsOf_holders] at split
  have found := (Dev.searchTag_sound c.tag d (d.holders (d.listQ r)) 0 sound fun p => Dev.mem_holders).2
    lost x rest split (by omega) before same
  rw [Nat.zero_add] at found
  unfold Dev.identify
  dsimp only
  rw [found]

/-- A code with a tag that moves records: a match beyond the pocket's own record, for the same valve (R86). -/
theorem Dev.identify_moves (sound : d.SoundOver (d.holders (d.listQ r)) d.track.fill)
    (split : d.recordsOf (d.listQ r) ++ d.track.fill = lost ++ x :: rest) (near : lost.length ≤ 16)
    (before : ∀ y ∈ lost, y.tag ≠ c.tag) (same : x.tag = c.tag) (valve : x.valve.val = c.valve)
    (moves : lost ≠ [] ∨ (d.entry r).record = none) :
    d.identify r c = Dev.confirm r c ((d.moveForward (d.listQ r) lost.length).setEntry r
      ((d.moveForward (d.listQ r) lost.length).entry r).madeCan) := by
  refine (Dev.identify_found sound split near before same).trans ((if_neg (not_not.2 valve)).trans (if_neg ?_))
  rintro ⟨empty, held⟩
  rcases moves with some | bare
  · exact some (List.length_eq_zero_iff.1 empty)
  · rw [bare] at held
    exact Bool.false_ne_true held

/-! ### The entries of a re-layout -/

theorem MovedForward.takes (moved : MovedForward q lost kept d t) {n : Nat} {p : Word} (at' : q[n]? = some p) :
    t.entry p = t.takes (d.entry p) kept[n]? := moved.entry n p at'

theorem MovedBackward.takes (moved : MovedBackward q d t) {n : Nat} {p : Word} (at' : q[n]? = some p) :
    t.entry p = t.takes (d.entry p) (d.pushed q n) := moved.entry n p at'

theorem Entry.madeCan_keeps (e : Entry) : e.madeCan.codes = e.codes ∧ e.madeCan.codeLot = e.codeLot := by
  unfold Entry.madeCan
  split
  · exact ⟨rfl, rfl⟩
  · exact ⟨rfl, rfl⟩

theorem Entry.madeCan_can {e : Entry} (can : e.occ = .can) : e.madeCan = e :=
  if_neg (by rw [can]; decide)

theorem Entry.madeCan_unseen {e : Entry} (unseen : e.occ = .unseen) :
    e.madeCan.weighing = some { gross := 0, net := 0, flags := 32#6 } := by
  unfold Entry.madeCan
  rw [if_pos unseen]
  rfl

theorem Entry.madeCan_occ {e : Entry} (full : e.occ ≠ .none) : e.madeCan.occ = .can := by
  cases occ : e.occ with
  | none => exact absurd occ full
  | can => rw [Entry.madeCan_can occ, occ]
  | unseen =>
    unfold Entry.madeCan
    rw [if_pos occ]

/-- The pockets of Q but the first are CAN and none of them is the reader pocket's entry. -/
theorem Dev.lane_after (nodup : ((d.listQ r).map ringIx).Nodup) {n : Nat} {p : Word} (at' : (d.listQ r)[n + 1]? = some p) :
    ringIx p ≠ ringIx r ∧ (d.entry p).occ = .can := by
  have tail : p ∈ d.canPockets (r + 1#32) (d.su.dRead - 1) := List.mem_of_getElem? at'
  refine ⟨ringIx_ne_of_nodup nodup tail, ?_⟩
  rw [Dev.canPockets_eq] at tail
  exact of_decide_eq_true (List.mem_filter.1 tail).2

end Sys2Proof.Machine
end

section
/-! What a code leaves when records move (R83 to R88), and the obligation about codes. -/

namespace Sys2Proof.Machine

variable {d s t : Dev} {lost rest kept : List CanRecord} {r : Word} {c : CodeRec} {x : CanRecord}

theorem Dev.TareIs.congr {new : Option CanRecord} {tare : Int} (known : t.TareIs new tare) (order : t.order = s.order) :
    s.TareIs new tare := by
  unfold Dev.TareIs Dev.slotIn Dev.slot at known ⊢
  rw [order] at known
  exact known

/-- The net of a pocket that took another record, in the terms of the state after the code. -/
def Dev.Reformed (d t : Dev) (p : Word) (new : Option CanRecord) : Prop :=
  ∀ (v : Weighing) (tare : Int), (d.entry p).verdict = none → (d.entry p).weighing = some v →
    v.flags.getLsbD 5 = false →
    ((d.entry p).record.map fun z => z.slot) ≠ (new.map fun z => z.slot) → t.TareIs new tare →
    (t.entry p).weighing = some { v with net := max (-2147483648) (min 2147483647 (v.gross - tare)) }

theorem Dev.reformed_of_takes {p : Word} {new : Option CanRecord} (taken : s.entry p = s.takes ((d.noted r c).entry p) new)
    (weighing : (t.entry p).weighing = (s.entry p).weighing) (order : t.order = s.order) : d.Reformed t p new := by
  intro v tare unjudged weighed seen other known
  obtain ⟨record, -, verdict, sameWeighing⟩ := d.noted_fields r c p
  rw [weighing, taken]
  exact Dev.takes_weighing (verdict.trans unjudged) (sameWeighing.trans weighed) seen (by rw [record]; exact other)
    (known.congr order)

/-! ### Forward (R86, R88) -/

/-- The entries after a code that moved records forward. -/
theorem Dev.forward_entries (nodup : (((d.noted r c).listQ r).map ringIx).Nodup) (full : (d.entry r).occ ≠ .none)
    (checked : x.checkOk = true)
    (moved : MovedForward ((d.noted r c).listQ r) lost (x :: rest) (d.noted r c) s) :
    let t := Dev.confirm r c (s.setEntry r (s.entry r).madeCan)
    (t.entry r).record = some { x with suspect := false } ∧
    (∀ (n : Nat) (p : Word), ((d.noted r c).listQ r)[n + 1]? = some p → (t.entry p).record = rest[n]?) ∧
    (t.entry r).ident = s.confirmedIdent c x ∧ (t.entry r).codes = 1 ∧ (t.entry r).codeLot = some c.lot ∧
    (∀ p ∈ (d.noted r c).listQ r, (t.entry p).occ = .can) ∧
    ((d.entry r).occ = .unseen → (t.entry r).weighing = some { gross := 0, net := 0, flags := 32#6 }) ∧
    (∀ (n : Nat) (p : Word), ((d.noted r c).listQ r)[n]? = some p → (d.entry p).occ = .can →
      d.Reformed t p (x :: rest)[n]?) ∧
    (∀ p, (∀ y ∈ (d.noted r c).listQ r, ringIx p ≠ ringIx y) → t.entry p = d.entry p) := by
  intro t
  have first : ((d.noted r c).listQ r)[0]? = some r := rfl
  have takesR : s.entry r = s.takes ((d.noted r c).entry r) (some x) := moved.takes first
  obtain ⟨record, occ, codes, codeLot⟩ := s.takes_keeps ((d.noted r c).entry r) (some x)
  rw [← takesR] at record occ codes codeLot
  rw [(d.noted_fields r c r).2.1] at occ
  rw [Dev.noted_entry] at codes codeLot
  obtain ⟨own, others, -, -, -, order, -⟩ := Dev.confirm_moved (c := c) record
  have ownT : t.entry r = _ := own
  have othersT : ∀ p, ringIx p ≠ ringIx r → t.entry p = s.entry p := others
  have orderT : t.order = s.order := order
  obtain ⟨madeCodes, madeLot⟩ := (s.entry r).madeCan_keeps
  refine ⟨?_, fun n p at' => ?_, ?_, ?_, ?_, fun p among => ?_, fun unseen => ?_, fun n p at' can => ?_, fun p out => ?_⟩
  · rw [ownT, ← checked]
  · obtain ⟨other, -⟩ := Dev.lane_after nodup at'
    rw [othersT p other, moved.takes at']
    exact (Dev.takes_keeps _ _ _).1
  · rw [ownT]
  · rw [ownT]
    exact madeCodes.trans codes
  · rw [ownT]
    exact madeLot.trans codeLot
  · obtain ⟨n, at'⟩ := List.mem_iff_getElem?.1 among
    cases n with
    | zero =>
      obtain rfl : r = p := Option.some.inj at'
      rw [ownT]
      exact Entry.madeCan_occ (by rw [occ]; exact full)
    | succ n =>
      obtain ⟨other, can⟩ := Dev.lane_after nodup at'
      rw [othersT p other, moved.takes at', (Dev.takes_keeps _ _ _).2.1]
      exact can
  · rw [ownT]
    exact Entry.madeCan_unseen (occ.trans unseen)
  · cases n with
    | zero =>
      obtain rfl : r = p := Option.some.inj at'
      refine Dev.reformed_of_takes (moved.takes at') ?_ orderT
      rw [ownT]
      exact (congrArg Entry.weighing (Entry.madeCan_can (occ.trans can)) :)
    | succ n =>
      obtain ⟨other, -⟩ := Dev.lane_after nodup at'
      exact Dev.reformed_of_takes (moved.takes at') (congrArg Entry.weighing (othersT p other)) orderT
  · have other := out r List.mem_cons_self
    rw [othersT p other, moved.others p out, Dev.noted_other c d other]

/-! ### The pocket's own record confirmed (R85, R146) -/

theorem Dev.confirm_noted (held : (d.entry r).record = some x) (checked : x.checkOk = true) :
    let t := (d.noted r c).confirm r c
    t.entry r = { (d.entry r).firstCode c with
      ident := d.confirmedIdent c x, record := some { x with suspect := false } } ∧
    (∀ p, ringIx p ≠ ringIx r → t.entry p = d.entry p) ∧ t.track.fill = d.track.fill ∧
    t.track.suspects = d.track.suspects - (if x.suspect then 1 else 0) ∧ t.track.free = d.track.free ∧
    t.code = d.code ∧ t.report = d.report ∧ t.valve = d.valve := by
  intro t
  have noted : ((d.noted r c).entry r).record = some x := (d.noted_fields r c r).1.trans held
  have result : t = _ := Dev.confirm_held (c := c) noted
  rw [Dev.noted_entry, Dev.noted_setEntry] at result
  rw [result]
  refine ⟨(Dev.entry_setEntry _ _ _).trans ?_, fun p other => Dev.entry_setEntry_ne _ _ other, rfl, rfl, rfl, rfl, rfl, rfl⟩
  rw [← checked]
  rfl

/-! ### Backward (R87) -/

theorem Dev.untag_held (held : (d.entry r).record ≠ none) :
    d.untag r = (d.moveBackward (d.listQ r)).setEntry r
      { (d.moveBackward (d.listQ r)).entry r with ident := .untracked } := by
  unfold Dev.untag
  rw [if_pos (Option.isSome_iff_ne_none.2 held)]

/-- What pocket `n` takes does not depend on the noted code. -/
theorem Dev.pushed_noted (q : List Word) (n : Nat) :
    (d.noted r c).pushed q n = if n = 0 then none else (q[n - 1]?).bind fun y => (d.entry y).record := by
  unfold Dev.pushed
  refine if_congr Iff.rfl rfl (congrArg (Option.bind q[n - 1]?) (funext fun y => ?_))
  exact (d.noted_fields r c y).1

/-- The entries after a code that moved records backward. -/
theorem Dev.backward_entries (nodup : (((d.noted r c).listQ r).map ringIx).Nodup)
    (moved : MovedBackward ((d.noted r c).listQ r) (d.noted r c) s) :
    let t := s.setEntry r { s.entry r with ident := .untracked }
    (t.entry r).record = none ∧ (t.entry r).ident = .untracked ∧ (t.entry r).codes = 1 ∧
    (t.entry r).codeLot = some c.lot ∧
    (∀ (n : Nat) (p p' : Word), ((d.noted r c).listQ r)[n]? = some p → ((d.noted r c).listQ r)[n + 1]? = some p' →
      (t.entry p').record = (d.entry p).record) ∧
    (∀ (n : Nat) (p : Word), ((d.noted r c).listQ r)[n]? = some p →
      d.Reformed t p (if n = 0 then none else (((d.noted r c).listQ r)[n - 1]?).bind fun y => (d.entry y).record)) ∧
    (∀ p, (∀ y ∈ (d.noted r c).listQ r, ringIx p ≠ ringIx y) → t.entry p = d.entry p) := by
  intro t
  have first : ((d.noted r c).listQ r)[0]? = some r := rfl
  have takesR : s.entry r = s.takes ((d.noted r c).entry r) none := moved.takes first
  obtain ⟨record, -, codes, codeLot⟩ := s.takes_keeps ((d.noted r c).entry r) none
  rw [← takesR] at record codes codeLot
  rw [Dev.noted_entry] at codes codeLot
  have ownT : t.entry r = { s.entry r with ident := .untracked } := Dev.entry_setEntry _ _ _
  have othersT : ∀ p, ringIx p ≠ ringIx r → t.entry p = s.entry p := fun p other => Dev.entry_setEntry_ne _ _ other
  refine ⟨?_, ?_, ?_, ?_, fun n p p' at' after => ?_, fun n p at' => ?_, fun p out => ?_⟩
  · rw [ownT]; exact record
  · rw [ownT]
  · rw [ownT]; exact codes
  · rw [ownT]; exact codeLot
  · obtain ⟨other, -⟩ := Dev.lane_after nodup after
    rw [othersT p' other, moved.takes after, (Dev.takes_keeps _ _ _).1, Dev.pushed_noted, if_neg n.succ_ne_zero,
      Nat.add_sub_cancel, at']
    rfl
  · have taken := moved.takes at'
    rw [Dev.pushed_noted] at taken
    refine Dev.reformed_of_takes taken ?_ rfl
    cases n with
    | zero =>
      obtain rfl : r = p := Option.some.inj at'
      rw [ownT]
    | succ n =>
      obtain ⟨other, -⟩ := Dev.lane_after nodup at'
      rw [othersT p other]
  · have other := out r List.mem_cons_self
    rw [othersT p other, moved.others p out, Dev.noted_other c d other]

end Sys2Proof.Machine

namespace Sys2Proof

open Sys2Proof.Machine

/-- Settles O42: without a movement the decision's branches; with one the architect's specifications of the search,
the freeing, the dealing and the push, read off entry by entry. -/
theorem codesDecideTheIdentity : Obligations.CodesDecideTheIdentity := by
  refine ⟨?_, ?_⟩
  · intro d c phantom t
    refine ⟨fun none => Dev.applyCode_lost none, fun q pos => ?_⟩
    intro r e first agrees
    have own : e.pocket = r → e.codes = 0 → t = d.firstCode r c := fun own fresh => Dev.applyCode_first pos own fresh
    have identifies : ∀ x : CanRecord, e.record = some x → x.failed = false → x.checkOk = true →
        x.tag = c.tag → (d.noted r c).identify r c =
          if x.valve.val ≠ c.valve then (d.noted r c).conflict r else (d.noted r c).confirm r c :=
      fun x held sound checked same => Dev.identify_own ((d.noted_fields r c r).1.trans held)
        (CanRecord.bad_of_sound sound checked) same
    refine ⟨fun other => (Dev.applyCode_at pos).trans (if_pos other), fun here fresh => ⟨fun bad => ?_, fun good empty => ?_,
      fun good full untagged bare => ?_, fun x good full tagged held sound checked same => ⟨fun valve => ?_, fun valve => ?_⟩⟩,
      fun here later _ _ => ?_⟩
    · exact (own here fresh).trans (Dev.firstCode_noRead bad)
    · exact (own here fresh).trans (Dev.firstCode_empty good empty)
    · exact (own here fresh).trans ((Dev.firstCode_untag good full untagged).trans (Dev.untag_bare bare))
    · exact (own here fresh).trans ((Dev.firstCode_identify good full tagged).trans ((identifies x held sound checked
        same).trans ((if_pos valve).trans (Dev.conflict_noted r c d))))
    · have result : t = (d.noted r c).confirm r c := (own here fresh).trans ((Dev.firstCode_identify good full tagged).trans
        ((identifies x held sound checked same).trans (if_neg (not_not.2 valve))))
      rw [result]
      exact Dev.confirm_noted held checked
    · intro more
      have result : t = _ := (Dev.applyCode_later pos here later).trans (Dev.laterCode_eq r c d)
      refine ⟨fun agree => result.trans (if_pos ((e.agrees_iff c).2 agree)),
        fun differ => result.trans (if_neg fun agree => differ ((e.agrees_iff c).1 agree))⟩
  · intro d c q ready pos good few r e lane records first t reformed here fresh full
    have begins : t = d.firstCode r c := Dev.applyCode_first pos here fresh
    have laneEq : (d.noted r c).listQ r = lane := Dev.listQ_noted r c d
    have nodup : (((d.noted r c).listQ r).map ringIx).Nodup := Dev.listQ_nodup (d.noted r c) r few
    have isPlaced : (d.noted r c).setup.part ≠ .unplaced := by
      rw [show (d.noted r c).setup.part = .ready from ready]
      exact PartState.noConfusion
    have recordsEq : (d.noted r c).recordsOf ((d.noted r c).listQ r) ++ (d.noted r c).track.fill = records := by
      rw [Dev.recordsOf_noted, laneEq]
      rfl
    refine ⟨fun tagged allSound => ?_, fun untagged held => ?_⟩
    · have sound : (d.noted r c).SoundOver ((d.noted r c).holders ((d.noted r c).listQ r)) (d.noted r c).track.fill :=
        Dev.soundOver_of (by rw [recordsEq]; exact allSound)
      have identified := begins.trans (Dev.firstCode_identify good full tagged)
      refine ⟨fun unknown => ?_, fun lost x rest split near before same => ⟨fun valve => ?_, fun valve moves => ?_⟩⟩
      · exact identified.trans ((Dev.identify_unknown sound (by rw [recordsEq]; exact unknown)).trans
          (Dev.conflict_noted r c d))
      · exact identified.trans ((Dev.identify_found sound (recordsEq.trans split) near before same).trans
          ((if_pos valve).trans (Dev.conflict_noted r c d)))
      · have result := identified.trans (Dev.identify_moves sound (recordsEq.trans split) near before same valve
          (moves.imp_right (d.noted_fields r c r).1.trans))
        have moved := Dev.moveForward_spec nodup sound (recordsEq.trans split) isPlaced
        have checked : x.checkOk = true := (allSound x (by
          rw [show records = _ from split]
          exact List.mem_append_right _ List.mem_cons_self)).2
        have recordR : ((Dev.moveForward ((d.noted r c).listQ r) lost.length (d.noted r c)).entry r).record = some x := by
          rw [moved.takes (n := 0) rfl]
          exact (Dev.takes_keeps _ _ _).1
        have entries := Dev.forward_entries nodup full checked moved
        have confirmed := Dev.confirm_moved (c := c) recordR
        generalize Dev.moveForward ((d.noted r c).listQ r) lost.length (d.noted r c) = s at result moved entries confirmed
        rw [← show t = _ from result, laneEq] at entries
        rw [← show t = _ from result] at confirmed
        rw [laneEq] at moved
        obtain ⟨own, dealt, ident, codes, codeLot, can, unseen, nets, others⟩ := entries
        obtain ⟨-, -, fill, free, suspects, order, report, code, valveRecs, position⟩ := confirmed
        refine ⟨own, dealt, fill.trans moved.fill, free.trans moved.freed.free, ?_, fun room => ?_, fun w loaded => ?_,
          codes, codeLot, can, unseen, nets, others, code.trans moved.code, report ▸ moved.pending,
          valveRecs.trans moved.valve, position.trans moved.pos⟩
        · rw [suspects, moved.freed.suspects, List.countP_append, List.countP_singleton, Nat.sub_sub]
          rfl
        · obtain ⟨zs, queue, results⟩ := moved.freed.queue (by
            show d.report.queue.length ≤ 16
            omega)
          have count : zs.length = lost.length := by
            rw [← List.length_map (f := fun z : Result => (z.seq, z.ident, z.pocket, z.reasons, z.record)), results,
              List.length_map]
          refine ⟨zs, ?_, results.trans (List.map_congr_left fun y among => ?_)⟩
          · rw [report, queue]
            refine List.take_of_length_le ?_
            rw [List.length_append, count]
            exact room
          · obtain ⟨unfailed, checkedY⟩ := allSound y (by
              rw [show records = _ from split]
              exact List.mem_append_left _ among)
            rw [if_neg (by rw [unfailed, checkedY]; decide)]
            rfl
        · rw [ident]
          unfold Dev.confirmedIdent Dev.lotOf
          have slot : (s.slot x.recipe).recipe = some w := by
            unfold Dev.slot at loaded ⊢
            rw [← order]
            exact loaded
          rw [Dev.recipeOf_loaded slot]
          unfold Dev.su
          rw [moved.setup]
          rfl
    · have result := begins.trans ((Dev.firstCode_untag good full untagged).trans
        (Dev.untag_held (by rw [(d.noted_fields r c r).1]; exact held)))
      have moved := Dev.moveBackward_spec nodup isPlaced
      have entries := Dev.backward_entries nodup moved
      generalize Dev.moveBackward ((d.noted r c).listQ r) (d.noted r c) = s at result moved entries
      have units : t.track = s.track ∧ t.report = s.report ∧ t.order = s.order ∧ t.code = s.code := by
        rw [show t = _ from result]
        exact ⟨rfl, rfl, rfl, rfl⟩
      obtain ⟨track, report, order, code⟩ := units
      rw [← show t = _ from result, laneEq] at entries
      rw [laneEq] at moved
      obtain ⟨bare, ident, codes, codeLot, pushes, nets, others⟩ := entries
      refine ⟨bare, ident, codes, codeLot, pushes, nets, fun p atEnd => ?_, track ▸ moved.free, track ▸ moved.suspects,
        report ▸ moved.queue, order.trans moved.order, others, code.trans moved.code, report ▸ moved.pending⟩
      rw [track]
      exact (moved.fill p atEnd).trans (congrArg (·.toList ++ d.track.fill) (d.noted_fields r c p).1)

end Sys2Proof
end
